-- ==== Sys2Proof/Word.lean ====
section
/-!
DEFINITION. The word types of the HL62: bytes of memory and the 32-bit words of bursts, records and
colours (00_scope, Conventions).
-/

namespace Sys2Proof

/-- One byte of the player's memory. -/
abbrev Byte := BitVec 8

/-- A word is 32 bits (00_scope, Conventions: Words and byte order). -/
abbrev Word := BitVec 32

end Sys2Proof
end

