-- ==== Sys2Proof/Config.lean ====
section
/-!
DEFINITION. What the spec fixes once for the whole part (sizes, capacities, offsets), what the model
chooses where the spec leaves it open (each with its log entry), and the free values.
-/

namespace Sys2Proof.Config

/-- The memory-size table of the introduction: straps MSZ1-MSZ0 to bytes (00_scope, R1). -/
def memorySize (msz : BitVec 2) : Nat :=
  match msz with
  | 0 => 0x2000000
  | 1 => 0x4000000
  | 2 => 0x8000000
  | _ => 0x10000000

/-- The Command Window is the top 4 KiB of memory (R1). -/
def windowBytes : Nat := 0x1000

/-- Entries of the command queue (R22, R23). -/
def queueCapacity : Nat := 16

/-- The hold limit in bus clocks (R13). -/
def holdLimit : Nat := 2048

/-- Most unconsumed and pending records together (R173). -/
def ringCapacity : Nat := 63

/-- Most records in the pending set (R172, R173). -/
def recordCapacity : Nat := 8

/-- Bytes of a page read, whatever the page's count (R111, R115). -/
def pageBytes : Nat := 784

/-- Most link records of the Menu Stack (R124). -/
def stackCapacity : Nat := 8

/-- DESIGN CHOICE (unsafe, log entry 4): what a byte of DRAM that nothing has written reads as. -/
def unlistedByte : Byte := 0

/-- DESIGN CHOICE (unsafe, log entry 3): the straps of `State.reset`, the 64 MiB of the worked
sequences (11_worked_sequences). -/
def resetStraps : BitVec 2 := 1

/-- DESIGN CHOICE (unsafe, log entry 3): the TKRQ level of `State.reset`. -/
def resetLineLevel : Bool := false

/-- The free values (safe, log entry 17), one for each number: R141 takes the Composer's canvas size, and the
spec states none while the Composer is DISABLED. Any size that R94 admits, in steps of 16 and 8 above the
smallest. -/
opaque disabledCanvas : Nat → Fin 101 × Fin 106

/-- The free values (safe, log entry 52), one for each number: R146 steps from the current index, and the spec names
no index to step from while SHOWING has none. Taken modulo the number of descriptors. -/
opaque stepIndex : Nat → Nat

end Sys2Proof.Config
end

