-- ==== Sys2Proof/Syntax.lean ====
section
/-!
DEFINITION. The commands of the HL62: one constructor of `Instr` for each row of
spec/opcode_table.json, with the operands that come from outside the part.
-/

namespace Sys2Proof

/-- One word of a write burst on the controller side: its data and its four byte enables, bit 0 for the
lowest byte (00_scope, Interface Summary). -/
structure Lane where
  data : Word
  enables : BitVec 4
  deriving DecidableEq, Repr

/-- A request of the player controller: a read or write burst of 1 to 8 words with byte enables, named by
the address of its first word (00_scope, Interface Summary; R3). -/
inductive Request where
  | read (addr : Word) (enables : List (BitVec 4))
  | write (addr : Word) (lanes : List Lane)
  deriving DecidableEq, Repr

/-- The parties that deal with a frame tick before the settle: the eight channels, the Composer and the
Slide Sequencer (00_scope, Frame path; R71, R97, R145). -/
inductive TickPart where
  | channel (n : Fin 8)
  | composer
  | sequencer
  deriving DecidableEq, Repr

/-- The steps of the HL62, one constructor per row of spec/opcode_table.json (95_what_each_step_holds).
The commands of the Command Intake carry no operand here: their operands are the words of the command
record that CONTROLLER_REQUEST put into the Intake's queue (R21; log entry 1). -/
inductive Instr where
  /-- RSTN goes low (R1). -/
  | rstnAssert
  /-- RSTN goes high with the straps MSZ1-MSZ0 and the level of TKRQ as they stand (R1, R157). -/
  | rstnRelease (msz : BitVec 2) (tkrq : Bool)
  /-- One period of FTK (R71). The parties named in `order` take the tick in that order, those it does
  not name after them; the settle comes last (R76; log entry 7). -/
  | frameTick (order : List TickPart)
  /-- The advance that a counted-out dwell calls for (R145). -/
  | dwellExpiry
  /-- TKRQ shows `level` (R157). -/
  | tkrqEdge (level : Bool)
  /-- The Bridge takes a controller request (R3). -/
  | controllerRequest (r : Request)
  /-- The hold count reaches 2048 (R13, R24). -/
  | holdLimit
  /-- The arbiter chooses the forwarded request (R5, R18). -/
  | forwardedGrant
  /-- The arbiter grants an internal burst (R19). -/
  | internalGrant
  /-- The last band write of the composition in flight ends (R98). -/
  | compositionComplete
  /-- The palette read ends (R58). -/
  | paletteReadEnd
  /-- The page read ends (R115, R116). -/
  | pageReadEnd
  /-- The prefetch read ends (R130). When two reads start at this moment, `pageFirst` says which of them
  joins the FETCH list first (R20; log entry 8). -/
  | prefetchReadEnd (pageFirst : Bool)
  /-- The descriptor read ends (R139). -/
  | descriptorReadEnd
  /-- The last SAVE burst ends (R162). -/
  | saveEnd
  /-- The last COPY burst ends (R163). -/
  | copyEnd
  /-- The last RESTORE burst ends (R166). -/
  | restoreReadEnd
  /-- The burst that writes the oldest pending event record ends (R174). -/
  | eventRecordWriteEnd
  /-- The Event Unit presents the first burst of a status write (R177, R178). -/
  | statusWrite
  /-- The commands of the Command Intake: each is the start of the command at the head of the queue. -/
  | mark
  | restart
  | setCanvas
  | setTakeover
  | setSlides
  | define
  | drop
  | place
  | unplace
  | patch
  | step
  | loadPalette
  | setProfile
  | move
  | retune
  | haltImmediate
  | haltEase
  | openPage
  | prefetchPage
  | keyUp
  | keyDown
  | keyLeft
  | keyRight
  | keySelect
  | keyEnter
  | keyBack
  | closeMenu
  | slideStart
  | slideStop
  | slideStep
  | slidePause
  | slideResume
  | takeover
  | resume
  | unknownKindCommand
  deriving DecidableEq, Repr

end Sys2Proof
end

