-- ==== Sys2Proof/WellFormed.lean ====
section
/-!
DEFINITION. Which operands the bus can carry: bursts of 1 to 8 words from a word address that never
cross a 32-byte boundary (00_scope, Conventions; 01 introduction).
-/

namespace Sys2Proof

/-- The address of a request's first word. -/
def Request.addr : Request → Word
  | .read a _ => a
  | .write a _ => a

/-- The burst length in words. -/
def Request.length : Request → Nat
  | .read _ es => es.length
  | .write _ ls => ls.length

/-- A burst has 1 to 8 words (00_scope, Interface Summary). -/
def Request.lengthOk (r : Request) : Bool := 1 ≤ r.length && r.length ≤ 8

/-- A burst begins at a word (00_scope, Conventions: a word is 32 bits). -/
def Request.aligned (r : Request) : Bool := r.addr.toNat % 4 == 0

/-- A burst never crosses a 32-byte boundary (00_scope, Conventions). -/
def Request.insideBlock (r : Request) : Bool := r.addr.toNat % 32 + 4 * r.length ≤ 32

/-- The request is a burst that the bus carries. -/
def Request.wf (r : Request) : Bool := r.lengthOk && r.aligned && r.insideBlock

/-- Every command but CONTROLLER_REQUEST is well formed for all its operands. -/
def Instr.wf : Instr → Bool
  | .controllerRequest r => r.wf
  | _ => true

end Sys2Proof
end

