-- ==== Sys2Proof/Decode.lean ====
section
/-!
DEFINITION. The table's bits. spec/opcode_table.json gives no row any bits ("fields": [] and no "fixed"
in every row), so no word spells a command; the command records of the Command Intake are read by
Machine/Operands.lean (R181).
-/

namespace Sys2Proof

/-- The command that a word spells by the table's bits: none, for every row of the table is without
bits. -/
def decodeTableWord (_nbits _w : Nat) : Option Instr := none

end Sys2Proof
end

