-- ==== Sys2Proof/Machine/State.lean ====
section
/-!
DEFINITION. The state of the HL62 as plain data: the nine blocks of 00_scope (Block Overview), the
player's memory, the pins, and the sender's queue; the two ways a step can stop; and the state right
after reset.
-/

namespace Sys2Proof.Machine

/-- The player's DRAM: (address, byte) pairs, addresses strictly rising, no entry equal to what an
unlisted address reads as (log entry 4). -/
abbrev Memory := List Host.Cell

/-- A range of memory (R2, R4). -/
structure Window where
  base : Nat
  len : Nat
  deriving DecidableEq, Repr

/-- Bank A or bank B (R92). -/
inductive Bank where
  | a
  | b
  deriving DecidableEq, Repr

/-! ## Command Intake (02) -/

/-- A command as the Intake keeps it: its command slot 0..63 and all its words, header first (R21). -/
structure Command where
  slot : Nat
  words : List Word
  deriving DecidableEq, Repr

/-- What caused the opening of a page (R114). -/
inductive Cause where
  | command
  | enter
  | back
  deriving DecidableEq, Repr

/-- The canvas setup (R92, R94). -/
structure CanvasSetup where
  width : Nat
  height : Nat
  bankA : Nat
  bankB : Nat
  scan : Nat
  backdrop : Nat
  deriving DecidableEq, Repr

/-- What the owner of the command in service is doing (R30). -/
inductive ServiceOp where
  /-- A page is being opened; `button` is the link record's button for BACK, and `awaits` says whether the
  command waits on the in-flight prefetch (R114, R130). -/
  | openPage (cause : Cause) (addr : Nat) (button : Nat) (awaits : Bool)
  | loadPalette
  /-- The new setup held aside until no composition is in flight (R95). -/
  | setCanvas (setup : CanvasSetup)
  | takeover
  | resume
  deriving DecidableEq, Repr

/-- The command in service: its slot and its operation, which names its owner (R22, R30). -/
structure Service where
  slot : Nat
  op : ServiceOp
  deriving DecidableEq, Repr

/-- The Command Intake's state (R22). `inRun` is the model's own: the head has been waiting since another command
ended at its start, so that other events may fall before its own start (R25; log entry 1). -/
structure Intake where
  queue : List Command
  inService : Option Service
  code : Fin 4
  inRun : Bool
  deriving DecidableEq, Repr

/-- R22, After RSTN. -/
def Intake.reset : Intake := ⟨[], none, 0, false⟩

/-! ## Bus Bridge (01) -/

/-- A request on its way to the memory side, its address already taken modulo the memory size (R1, R3). -/
inductive Forwarded where
  | read (addr : Nat) (enables : List (BitVec 4))
  | write (addr : Nat) (lanes : List Lane)
  deriving DecidableEq, Repr

/-- The controller-side state. FORWARDING has the request that waits for the arbiter; HOLDING has the held
write, its command slot and its hold count (R2, R3, R12). -/
inductive ControllerSide where
  | ready
  | forwarding (f : Forwarded)
  | holding (addr : Nat) (lanes : List Lane) (slot : Nat) (count : Nat)
  deriving DecidableEq, Repr

/-- The window map (R4), with the save area's base. -/
structure WindowMap where
  scan : Option Window
  front : Bank
  saveBase : Nat
  slides : Option Window
  deriving DecidableEq, Repr

/-- The four kinds of fetch operation (R20). -/
inductive FetchKind where
  | page
  | prefetch
  | palette
  | descriptor
  deriving DecidableEq, Repr

/-- A fetch operation: `words` words from `addr`, `done` of them read, `data` the bytes read so far (a
palette read leaves its words in the palette load buffer instead, R56). -/
structure FetchOp where
  kind : FetchKind
  addr : Nat
  words : Nat
  done : Nat
  data : List Byte
  deriving DecidableEq, Repr

/-- The bursts whose end is a row of the table (95). -/
inductive BurstEnd where
  | eventRecord
  | save
  | copy
  | restore
  | fetch (kind : FetchKind)
  | composition
  deriving DecidableEq, Repr

/-- The Bus Bridge's state (R2). `waiting` holds the requests that wait on the controller side until it is
READY again, oldest first (R3). `busy` is the burst on the memory side whose end is still to come (R17),
`readData` the words last returned to the player controller (R3), and `passed` says that a discard at grant has
left internal candidates waiting, among whom the next choice is made (R5); these three are the model's own. -/
structure Bridge where
  memSize : Nat
  side : ControllerSide
  waiting : List Request
  window : WindowMap
  streak : Nat
  passed : Bool
  composeWait : Nat
  fetch : List FetchOp
  busy : Option BurstEnd
  readData : List Word
  deriving DecidableEq, Repr

/-- R2, After RSTN, for the sampled memory size. -/
def Bridge.reset (memSize : Nat) : Bridge :=
  { memSize := memSize, side := .ready, waiting := [],
    window := { scan := none, front := .a, saveBase := memSize - 0x2000, slides := none },
    streak := 0, passed := false, composeWait := 0, fetch := [], busy := none, readData := [] }

/-! ## Scene Store (03) -/

/-- The group of an object (R37). -/
inductive Group where
  | slide
  | menu
  deriving DecidableEq, Repr

/-- The fields that depend on an object's kind (R37). -/
inductive Body where
  | fill (colour : Word)
  | bitmap8 (palette : Nat) (source : Nat) (stride : Nat)
  | bitmap32 (source : Nat) (stride : Nat)
  | slide (source : Nat) (stride : Nat) (imageW : Nat) (imageH : Nat) (vx : Nat) (vy : Nat)
  deriving DecidableEq, Repr

/-- An object record with its derived field, the bound channel (R37, R38). -/
structure Obj where
  group : Group
  visible : Bool
  x : Int
  y : Int
  w : Nat
  h : Nat
  alpha : Nat
  clip : Bool
  clipX0 : Nat
  clipY0 : Nat
  clipX1 : Nat
  clipY1 : Nat
  body : Body
  bound : Option Nat
  deriving DecidableEq, Repr

/-- The palette load buffer of a LOAD PALETTE in service; `ended` says that the read has ended and the
entries wait for the composition in flight (R56, R58). -/
structure PaletteLoad where
  palette : Nat
  first : Nat
  count : Nat
  entries : List Word
  ended : Bool
  deriving DecidableEq, Repr

/-- The Scene Store's state (R37, R45, R56, R59). -/
structure Scene where
  slots : Vector (Option Obj) 48
  order : List Nat
  palettes : Vector (Vector Word 256) 4
  load : Option PaletteLoad
  mark : Bool
  deriving DecidableEq, Repr

/-- R61. -/
def Scene.reset : Scene :=
  { slots := Vector.replicate 48 none, order := [],
    palettes := Vector.replicate 4 (Vector.replicate 256 0), load := none, mark := true }

/-! ## Motion Engine (04) -/

/-- A motion profile (R63); `auto` is the peak correction AUTO. -/
structure Profile where
  vs : Nat
  vp : Nat
  a : Nat
  d : Nat
  lead : Nat
  auto : Bool
  deriving DecidableEq, Repr

/-- The phases of a channel (R65). -/
inductive Phase where
  | idle
  | lead
  | accel
  | cruise
  | slow
  | decel
  | creep
  | easing
  | held
  | stopping
  deriving DecidableEq, Repr

/-- The party that started a motion (R66). -/
inductive Owner where
  | command
  | navigator
  | sequencer
  deriving DecidableEq, Repr

/-- The hold modes (R65, R86). -/
inductive HoldMode where
  | freeze
  | ease
  | firm
  deriving DecidableEq, Repr

/-- A moved-field set: a subset of P1, P2, W, H, ALPHA (R65). -/
structure Moved where
  p1 : Bool
  p2 : Bool
  w : Bool
  h : Bool
  alpha : Bool
  deriving DecidableEq, Repr

/-- A tuple of values for P1, P2, W, H and ALPHA (R65). -/
structure Ends where
  p1 : Int
  p2 : Int
  w : Nat
  h : Nat
  alpha : Nat
  deriving DecidableEq, Repr

/-- A motion channel (R65); `travel` is S and `prof` the profile copy. -/
structure Channel where
  phase : Phase
  owner : Option Owner
  slot : Option Nat
  moved : Moved
  view : Bool
  prof : Profile
  vtop : Nat
  v : Nat
  s : Nat
  travel : Nat
  lead : Nat
  e0 : Ends
  e1 : Ends
  hold : Option HoldMode
  release : Bool
  cmdSlot : Option Nat
  deriving DecidableEq, Repr

/-- R65, after RSTN and RESTART. -/
def Channel.idle : Channel :=
  { phase := .idle, owner := none, slot := none, moved := ⟨false, false, false, false, false⟩,
    view := false, prof := ⟨0, 0, 0, 0, 0, true⟩, vtop := 0, v := 0, s := 0, travel := 0, lead := 0,
    e0 := ⟨0, 0, 0, 0, 0⟩, e1 := ⟨0, 0, 0, 0, 0⟩, hold := none, release := false, cmdSlot := none }

/-- R63, after RSTN. -/
def Profile.reset : Profile := ⟨16, 256, 16, 16, 0, true⟩

/-- The Motion Engine's state (R63, R65). -/
structure Motion where
  profiles : Vector Profile 8
  channels : Vector Channel 8
  deriving DecidableEq, Repr

/-- R63, R65, after RSTN. -/
def Motion.reset : Motion := ⟨Vector.replicate 8 Profile.reset, Vector.replicate 8 Channel.idle⟩

/-! ## Composer (05) -/

/-- A block that a composition has read for the current band: for the backdrop (`none`) or for the object
at a place of the copied order, from `addr` (R107). -/
structure SourceRead where
  source : Option Nat
  addr : Nat
  words : List Word
  deriving DecidableEq, Repr

/-- The composition in flight: its scene copy in display order, its base-layer choice (`dim` is the
backdrop dim for BACKDROP and none for TRANSPARENT), its setup and back bank, its current band, how many
bursts of the band have been granted and what they read (R92, R100, R107). -/
structure Composition where
  copy : List (Nat × Obj)
  dim : Option Nat
  setup : CanvasSetup
  back : Bank
  band : Nat
  granted : Nat
  reads : List SourceRead
  deriving DecidableEq, Repr

/-- The Composer's state (R92); `canvas` none is DISABLED. -/
structure Composer where
  canvas : Option CanvasSetup
  front : Bank
  swapPending : Bool
  comp : Option Composition
  frame : BitVec 32
  late : Nat
  deriving DecidableEq, Repr

/-- R92, After RSTN. -/
def Composer.reset : Composer := ⟨none, .a, false, none, 0, 0⟩

/-! ## Menu Navigator (06) -/

/-- A button entry (R112). -/
structure Button where
  x : Int
  y : Int
  w : Nat
  h : Nat
  up : Option Nat
  down : Option Nat
  left : Option Nat
  right : Option Nat
  action : Nat
  enabled : Bool
  submenu : Bool
  focusSlot : Option Nat
  submenuAddr : Nat
  deriving DecidableEq, Repr

/-- The open page: its address, header fields (R111) and button entries (R112, R113). -/
structure Page where
  addr : Nat
  initial : Nat
  highlight : Nat
  profile : Nat
  margin : Nat
  buttons : List Button
  deriving DecidableEq, Repr

/-- A link record of the Menu Stack (R124). -/
structure Link where
  addr : Nat
  button : Nat
  deriving DecidableEq, Repr

/-- The prefetch buffer when VALID (R113). -/
structure PrefetchBuffer where
  addr : Nat
  bytes : List Byte
  deriving DecidableEq, Repr

/-- The in-flight prefetch (R113). -/
structure Prefetch where
  addr : Nat
  stale : Bool
  deriving DecidableEq, Repr

/-- The Menu Navigator's state (R113); `waiting` is the pending prefetch. -/
structure Navigator where
  page : Option Page
  focus : Option Nat
  stack : List Link
  buffer : Option PrefetchBuffer
  inflight : Option Prefetch
  waiting : Option Nat
  deriving DecidableEq, Repr

/-- R113, after RSTN. -/
def Navigator.reset : Navigator := ⟨none, none, [], none, none, none⟩

/-! ## Slide Sequencer (07) -/

/-- The list setup (R133, R135). -/
structure SlideList where
  base : Nat
  count : Nat
  slotA : Nat
  slotB : Nat
  loop : Bool
  deriving DecidableEq, Repr

/-- The sequencer states (R133). -/
inductive SeqState where
  | stopped
  | loading
  | waiting
  | showing
  | changing
  | suspended
  deriving DecidableEq, Repr

/-- The descriptor read in flight (R133). -/
structure DescriptorRead where
  index : Nat
  overtaken : Bool
  deriving DecidableEq, Repr

/-- The on-show record (R133). -/
structure OnShow where
  dwell : Nat
  panPresent : Bool
  panProfile : Nat
  panX : Nat
  panY : Nat
  deriving DecidableEq, Repr

/-- The Slide Sequencer's state (R133). `shown` names slot A or slot B, `backward` is the load direction,
`incomingDesc` holds the descriptor's bytes 0..31 as read (R184). `advanceOwed` is the model's own: the
dwell has reached 0 at a tick and the advance of R145 comes before anything else (log entry 6). -/
structure Sequencer where
  list : Option SlideList
  ready : Vector Bool 256
  state : SeqState
  shown : Option Bank
  current : Option Nat
  incoming : Option Nat
  backward : Bool
  late : Bool
  read : Option DescriptorRead
  incomingDesc : Option (List Byte)
  onShow : Option OnShow
  dwell : Nat
  paused : Bool
  pauseMode : Option HoldMode
  panOwed : Bool
  skip : Nat
  await5 : Bool
  await6 : Bool
  advanceOwed : Bool
  deriving DecidableEq, Repr

/-- R133, After RSTN. -/
def Sequencer.reset : Sequencer :=
  { list := none, ready := Vector.replicate 256 false, state := .stopped, shown := none, current := none,
    incoming := none, backward := false, late := false, read := none, incomingDesc := none,
    onShow := none, dwell := 0, paused := false, pauseMode := none, panOwed := false, skip := 0,
    await5 := false, await6 := false, advanceOwed := false }

/-! ## Takeover Unit (08) -/

/-- The takeover states (R155). -/
inductive TakeoverState where
  | normal
  | entering
  | menuOver
  | leaving
  | lockout
  deriving DecidableEq, Repr

/-- The phases of ENTERING and LEAVING (R155). -/
inductive TakeoverPhase where
  | drain
  | save
  | copy
  | close
  | restore
  deriving DecidableEq, Repr

/-- The line edge selection (R155, R157). -/
inductive LineEdge where
  | off
  | rising
  | falling
  | both
  deriving DecidableEq, Repr

/-- The source of an accepted request (R155). -/
inductive Source where
  | line
  | command
  | held
  deriving DecidableEq, Repr

/-- The lockout reasons (R155, R166). -/
inductive LockReason where
  | revision
  | base
  | record
  deriving DecidableEq, Repr

/-- The entry facts (R155, R161). -/
structure EntryFacts where
  source : Source
  recovered : Bool
  wasChanging : Bool
  paused : Bool
  pauseMode : Option HoldMode
  deriving DecidableEq, Repr

/-- The bursts of the phase in progress: SAVE's remaining writes (address and words) with the slots and
channels saved (R161), COPY's place and the block read but not yet written (R163), RESTORE's bursts
granted and bytes read (R166). -/
inductive TakeoverJob where
  | none
  | save (bursts : List (Nat × List Word)) (slots : List Nat) (channels : List Nat)
  | copy (src : Nat) (dst : Nat) (total : Nat) (next : Nat) (block : Option (List Word))
  | restore (granted : Nat) (bytes : List Byte)
  deriving DecidableEq, Repr

/-- The Takeover Unit's state (R155); `savedCounts` are the counts of the last SAVE (R171). -/
structure Takeover where
  state : TakeoverState
  phase : Option TakeoverPhase
  held : Bool
  saveBase : Nat
  edge : LineEdge
  dim : Nat
  level : Bool
  facts : Option EntryFacts
  jumpPending : Bool
  lockReason : Option LockReason
  job : TakeoverJob
  savedCounts : Nat × Nat
  deriving DecidableEq, Repr

/-- R155, After RSTN, for the sampled memory size and TKRQ level. -/
def Takeover.reset (memSize : Nat) (level : Bool) : Takeover :=
  { state := .normal, phase := none, held := false, saveBase := memSize - 0x2000, edge := .off,
    dim := 160, level := level, facts := none, jumpPending := false, lockReason := none, job := .none,
    savedCounts := (0, 0) }

/-! ## Event Unit (09) -/

/-- The refusal reasons (R28, R29, R185). -/
inductive RefusalReason where
  | unknownKind
  | badLength
  | range
  | undefinedSlot
  | slotBusy
  | channelBusy
  | reserved
  | boundField
  | wrongState
  | noPage
  | suspended
  | lockout
  | overlap
  deriving DecidableEq, Repr

/-- The reasons of STRAY WRITE (R11). -/
inductive StrayReason where
  | alignment
  | enables
  | length
  deriving DecidableEq, Repr

/-- The guards (R7). -/
inductive GuardArea where
  | ring
  | status
  | scan
  | save
  deriving DecidableEq, Repr

/-- How a motion ends (R77). -/
inductive EndReason where
  | arrived
  | halted
  | removed
  deriving DecidableEq, Repr

/-- The reasons of PAGE REJECTED (R116, R125). -/
inductive PageReason where
  | format
  | count
  | profile
  | highlight
  | neighbour
  | focusSlot
  | address
  deriving DecidableEq, Repr

/-- The reasons of SLIDE SKIPPED (R140). -/
inductive SkipReason where
  | size
  | stride
  | source
  | kind
  | profile
  deriving DecidableEq, Repr

/-- An event with what its raising rule puts into it (R24, R10, R11, R32, R34, R78, R131, R153, R171; the
table of event kinds in 09). -/
inductive Event where
  | refused (kind : Nat) (reason : RefusalReason) (header : Word) (second : Word)
  | intakeDrop (kind : Nat) (header : Word) (inService : Option Nat)
  | strayWrite (reason : StrayReason) (addr : Nat) (length : Nat)
  | guard (area : GuardArea) (addr : Nat) (length : Nat)
  | mark (subject : Nat) (tag : Word) (waiting : Nat)
  | motionDone (channel : Nat) (reason : EndReason) (abrupt : Bool) (slot : Nat) (s : Nat)
  | activated (button : Nat) (entered : Bool) (stackFull : Bool) (page : Nat) (action : Nat)
  | backAtTop (focus : Option Nat) (page : Nat)
  | pageOpened (focus : Option Nat) (cause : Cause) (fromBuffer : Bool) (page : Nat) (count : Nat)
  | pageRejected (cause : Cause) (reason : PageReason) (page : Nat) (detail : Nat)
  | slideShown (index : Nat) (kind : Nat) (first : Bool) (snapped : Bool) (descriptor : Nat) (slot : Nat)
  | slideLate (index : Nat) (descriptor : Nat) (current : Option Nat)
  | slideSkipped (index : Nat) (reason : SkipReason) (descriptor : Nat) (skip : Nat)
  | showEnd (current : Option Nat) (endOfList : Bool) (backward : Bool) (base : Nat) (count : Nat)
  | takeoverEntered (source : Source) (recovered : Bool) (wasChanging : Bool) (paused : Bool)
      (saveBase : Nat) (objects : Nat) (channels : Nat)
  | takeoverLeft (state : SeqState) (relocated : Bool) (redone : Bool) (finished : Bool) (jumped : Bool)
      (reentering : Bool) (saveBase : Nat) (current : Option Nat)
  | lockout (reason : LockReason) (saveBase : Nat) (detail : Nat)
  deriving DecidableEq, Repr

/-- An event record: the event, the frame stamp and the command slot of the moment it was raised (R173). -/
structure EventRecord where
  event : Event
  stamp : BitVec 16
  slot : Option Nat
  deriving DecidableEq, Repr

/-- The EVENT burst presented to the arbiter: the oldest pending record, the first burst of a status write
with the 16 words of its snapshot, or the second burst with its 8 words (R177, R178). -/
inductive Presented where
  | record
  | statusFirst (words : List Word)
  | statusSecond (words : List Word)
  deriving DecidableEq, Repr

/-- The Event Unit's state (R172). `presented` and `lastWasRecord` (the kind that went last) are what
R178 needs to choose; `firstWrite` says that the status write of R172 has not been presented yet, which
comes before anything else after RSTN (log entry 11). The three are the model's own. -/
structure EventUnit where
  p : BitVec 6
  c : BitVec 6
  records : List EventRecord
  overflow : Bool
  intakeDrop : Bool
  guard : Bool
  statusPending : Bool
  count : BitVec 16
  presented : Option Presented
  lastWasRecord : Bool
  firstWrite : Bool
  deriving DecidableEq, Repr

/-- R172, After RSTN: the first burst is the status write (R2; log entry 11). -/
def EventUnit.reset : EventUnit :=
  { p := 0, c := 0, records := [], overflow := false, intakeDrop := false, guard := false,
    statusPending := true, count := 0, presented := none, lastWasRecord := true, firstWrite := true }

/-- The fields of the status block but for the status count (R177, R186). -/
structure StatusFields where
  p : BitVec 6
  c : BitVec 6
  overflow : Bool
  intakeDrop : Bool
  guard : Bool
  takeover : TakeoverState
  held : Bool
  lockReason : Option LockReason
  seq : SeqState
  current : Option Nat
  paused : Bool
  canvasSet : Bool
  front : Bank
  frame : BitVec 32
  late : Nat
  freeEntries : Nat
  code : Fin 4
  page : Option Nat
  focus : Option Nat
  depth : Nat
  deriving DecidableEq, Repr

/-! ## The machine -/

/-- The state of the HL62 and of the player's memory. `pending` is the sender's queue, first in first
out; `rstnLow` says that RSTN is asserted; `freeCount` is the model's own, how many free values have been
taken (log entries 17 and 52). -/
structure State where
  pending : List Instr
  rstnLow : Bool
  freeCount : Nat
  mem : Memory
  bridge : Bridge
  intake : Intake
  scene : Scene
  motion : Motion
  composer : Composer
  nav : Navigator
  seq : Sequencer
  takeover : Takeover
  events : EventUnit
  deriving DecidableEq, Repr

/-- Every block at its RSTN values, for a sampled memory size and TKRQ level; the memory and the sender's
queue are not the part's to clear (R1, R2, R22, R61, R63, R65, R92, R113, R133, R155, R172). -/
def State.rstn (s : State) (memSize : Nat) (level : Bool) : State :=
  { s with
    bridge := .reset memSize, intake := .reset, scene := .reset, motion := .reset,
    composer := .reset, nav := .reset, seq := .reset, takeover := .reset memSize level,
    events := .reset }

/-- The machine right after reset: RSTN released with `Config.resetStraps` and `Config.resetLineLevel`,
memory with nothing listed (R1; log entries 3, 4). -/
def State.reset : State :=
  let memSize := Config.memorySize Config.resetStraps
  { pending := [], rstnLow := false, freeCount := 0, mem := [], bridge := .reset memSize, intake := .reset,
    scene := .reset, motion := .reset, composer := .reset, nav := .reset, seq := .reset,
    takeover := .reset memSize Config.resetLineLevel, events := .reset }

/-- Why a step stops with a fault. -/
inductive Fault where
  /-- Raised by CONTROLLER_REQUEST for an operand that is no burst of the bus (`Request.wf` is false):
  the bus the spec describes cannot carry it, so the spec gives no effect. Safe: the model stops. -/
  | notABurst
  deriving DecidableEq, Repr

/-- Why a step is refused. -/
inductive Refusal where
  /-- Raised only by an arm of `exec` whose command has no meaning yet. Safe: the model stops. -/
  | notModelled (mnemonic : String)
  deriving DecidableEq, Repr

/-- The outcome of a step. -/
abbrev Result := Host.Outcome State Fault Refusal

end Sys2Proof.Machine
end

