-- ==== Sys2Proof/Machine/Ops.lean ====
section
/-!
DEFINITION. The named operations that the blocks share: bytes and words, memory, bursts, the lifts of an
operation of one block to the whole state, raising events, the status fields, guards, and the display
order and slots of the Scene Store.
-/

namespace Sys2Proof.Machine

/-! ## Bytes, words and bursts -/

/-- Little-endian bytes of a word (00_scope, R180). -/
def wordBytes (w : Word) : List Byte :=
  [w.extractLsb' 0 8, w.extractLsb' 8 8, w.extractLsb' 16 8, w.extractLsb' 24 8]

/-- The word of four bytes, lowest address first (00_scope, R180). -/
def wordOf (b0 b1 b2 b3 : Byte) : Word := b3 ++ b2 ++ b1 ++ b0

/-- A number as `n` little-endian bytes (R180). -/
def leBytes : Nat → Nat → List Byte
  | 0, _ => []
  | n + 1, z => BitVec.ofNat 8 z :: leBytes n (z / 256)

/-- The words of a byte list, four bytes a word. -/
def bytesToWords : List Byte → List Word
  | b0 :: b1 :: b2 :: b3 :: rest => wordOf b0 b1 b2 b3 :: bytesToWords rest
  | _ => []

/-- The byte at an offset of a record that has been read; 0 past its end. -/
def byteAt (bs : List Byte) (off : Nat) : Nat := (bs.getD off 0).toNat

/-- The unsigned field of `n` bytes at an offset (R180). -/
def fieldAt (bs : List Byte) (off : Nat) : Nat → Nat
  | 0 => 0
  | n + 1 => byteAt bs off + 256 * fieldAt bs (off + 1) n

/-- Read a number of `bits` bits as two's complement (R180, Signed fields). -/
def signedOf (bits n : Nat) : Int :=
  if n % 2 ^ bits < 2 ^ (bits - 1) then (n % 2 ^ bits : Nat) else ((n % 2 ^ bits : Nat) : Int) - 2 ^ bits

/-- A number held to a range. -/
def clampNat (lo hi n : Nat) : Nat := max lo (min hi n)

/-- An integer held to a range. -/
def clampInt (lo hi z : Int) : Int := max lo (min hi z)

/-- The first burst of `n` words from a word address: at most 8 words, inside one 32-byte block (R17). -/
def burstLength (addr n : Nat) : Nat := min n (8 - addr / 4 % 8)

/-- The bursts of `n` words from a word address, in ascending order, each inside one 32-byte block (R17,
R57, R107, R115); `fuel` bounds their number. -/
def splitBursts : Nat → Nat → Nat → List (Nat × Nat)
  | 0, _, _ => []
  | fuel + 1, addr, n =>
    if n = 0 then []
    else (addr, burstLength addr n) ::
      splitBursts fuel (addr + 4 * burstLength addr n) (n - burstLength addr n)

/-- Two ranges share a byte (R94, R135, R156). -/
def Window.overlaps (u v : Window) : Bool := u.base < v.base + v.len && v.base < u.base + u.len

/-- An address lies in a window. -/
def Window.holds (u : Window) (a : Nat) : Bool := u.base ≤ a && a < u.base + u.len

/-! ## Memory -/

/-- The byte at an address; `Config.unlistedByte` where nothing is listed. -/
def Memory.read : Memory → Nat → Byte
  | [], _ => Config.unlistedByte
  | (k, v) :: m, a => if a = k then v else Memory.read m a

/-- Store a byte and keep the canonical form. -/
def Memory.write : Memory → Nat → Byte → Memory
  | [], a, b => if b = Config.unlistedByte then [] else [(a, b)]
  | (k, v) :: m, a, b =>
    if a < k then (if b = Config.unlistedByte then (k, v) :: m else (a, b) :: (k, v) :: m)
    else if a = k then (if b = Config.unlistedByte then m else (a, b) :: m)
    else (k, v) :: Memory.write m a b

/-- Addresses strictly rise from `lo` on, and no entry equals what an unlisted address reads as. -/
def Memory.wfFrom : Nat → Memory → Bool
  | _, [] => true
  | lo, (k, v) :: m => decide (lo ≤ k) && decide (v ≠ Config.unlistedByte) && Memory.wfFrom (k + 1) m

/-- The canonical form of memory. -/
def Memory.wf (m : Memory) : Bool := Memory.wfFrom 0 m

/-- A byte of the player's memory; only the address bits below the memory size are used (R1). -/
def State.readByte (s : State) (a : Nat) : Byte := s.mem.read (a % s.bridge.memSize)

/-- A word of memory, little-endian. -/
def State.readWord (s : State) (a : Nat) : Word :=
  wordOf (s.readByte a) (s.readByte (a + 1)) (s.readByte (a + 2)) (s.readByte (a + 3))

/-- `n` consecutive words. -/
def State.readWords (s : State) (a n : Nat) : List Word :=
  (List.range n).map fun i => s.readWord (a + 4 * i)

/-- Store one byte (R1). -/
def State.writeByte (s : State) (a : Nat) (b : Byte) : State :=
  { s with mem := s.mem.write (a % s.bridge.memSize) b }

/-- Store bytes from an address on. -/
def State.writeBytes (s : State) (a : Nat) : List Byte → State
  | [] => s
  | b :: bs => State.writeBytes (s.writeByte a b) (a + 1) bs

/-- Store the enabled bytes of one lane of a burst. -/
def State.writeLane (s : State) (a : Nat) (l : Lane) : State :=
  let put (s : State) (i : Nat) : State :=
    if l.enables.getLsbD i then s.writeByte (a + i) (l.data.extractLsb' (8 * i) 8) else s
  put (put (put (put s 0) 1) 2) 3

/-- Store a write burst, byte enables respected (R14). -/
def State.writeLanes (s : State) (a : Nat) : List Lane → State
  | [] => s
  | l :: ls => State.writeLanes (s.writeLane a l) (a + 4) ls

/-- Store whole words from an address on: the HL62's own writes. -/
def State.writeWords (s : State) (a : Nat) (ws : List Word) : State :=
  s.writeBytes a (ws.flatMap wordBytes)

/-! ## Lifts of one block's operation to the whole state -/

def State.onBridge (s : State) (f : Bridge → Bridge) : State := { s with bridge := f s.bridge }
def State.onIntake (s : State) (f : Intake → Intake) : State := { s with intake := f s.intake }
def State.onScene (s : State) (f : Scene → Scene) : State := { s with scene := f s.scene }
def State.onMotion (s : State) (f : Motion → Motion) : State := { s with motion := f s.motion }
def State.onComposer (s : State) (f : Composer → Composer) : State := { s with composer := f s.composer }
def State.onNav (s : State) (f : Navigator → Navigator) : State := { s with nav := f s.nav }
def State.onSeq (s : State) (f : Sequencer → Sequencer) : State := { s with seq := f s.seq }
def State.onTakeover (s : State) (f : Takeover → Takeover) : State := { s with takeover := f s.takeover }
def State.onEvents (s : State) (f : EventUnit → EventUnit) : State := { s with events := f s.events }

/-- The Command Window base (R1). The subtraction is taken over `Int`: for a symbolic memory size, Lean would
unfold the same subtraction over `Nat` 4096 times. `State.cmdw_eq` gives the `Nat` form. -/
def State.cmdw (s : State) : Nat := ((s.bridge.memSize : Int) - Config.windowBytes).toNat

/-! ## Events (09) -/

/-- The number of unconsumed records, (P - C) mod 64 (09 introduction). -/
def EventUnit.unconsumed (e : EventUnit) : Nat := (e.p - e.c).toNat

/-- R178: with nothing presented, a waiting record is presented unless a status write waits and a record
went last. (A status write is presented by STATUS_WRITE, or at its grant.) -/
def EventUnit.present (e : EventUnit) : EventUnit :=
  if e.presented = none ∧ e.records ≠ [] ∧ ¬ (e.statusPending ∧ e.lastWasRecord) then
    { e with presented := some .record }
  else e

/-- R173: take a raised record, or drop it and set OVERFLOW. -/
def EventUnit.take (e : EventUnit) (r : EventRecord) : EventUnit :=
  if e.unconsumed + e.records.length < Config.ringCapacity ∧ e.records.length < Config.recordCapacity then
    { e with records := e.records ++ [r] }
  else { e with overflow := true }

/-- A block raises an event; its frame stamp is the low 16 bits of the frame number now (R173). -/
def State.raise (s : State) (e : Event) (slot : Option Nat) : State :=
  s.onEvents fun u => u.take ⟨e, s.composer.frame.setWidth 16, slot⟩

/-- The status-write pending flag is set (R177). -/
def State.touchStatus (s : State) : State := s.onEvents fun u => { u with statusPending := true }

/-- The fields of the status block as their owners keep them (R177). -/
def State.status (s : State) : StatusFields :=
  { p := s.events.p, c := s.events.c, overflow := s.events.overflow, intakeDrop := s.events.intakeDrop,
    guard := s.events.guard, takeover := s.takeover.state, held := s.takeover.held,
    lockReason := s.takeover.lockReason, seq := s.seq.state, current := s.seq.current,
    paused := s.seq.paused, canvasSet := s.composer.canvas.isSome, front := s.composer.front,
    frame := s.composer.frame, late := s.composer.late,
    freeEntries := Config.queueCapacity - s.intake.queue.length, code := s.intake.code,
    page := s.nav.page.map (·.addr), focus := s.nav.focus, depth := s.nav.stack.length }

/-- R177: the status-write pending flag is set when a status field differs from what it was in `old`. -/
def State.noteStatus (s old : State) : State := if s.status = old.status then s else s.touchStatus

/-- IRQN is low while P and C differ (R179); it has no state of its own. -/
def State.irqnLow (s : State) : Bool := s.events.p != s.events.c

/-! ## Guards (01) -/

/-- R10: a discarded write raises GUARD and sets the flag when the flag is clear. -/
def State.judgeGuard (s : State) (area : GuardArea) (addr length : Nat) : State :=
  if s.events.guard then s
  else (s.raise (.guard area addr length) none).onEvents fun u => { u with guard := true }

/-! ## Slots and the display order (03) -/

/-- The record in a slot; none when the slot is undefined or no slot has that number (R37). -/
def Scene.obj (sc : Scene) (n : Nat) : Option Obj := sc.slots[n]?.getD none

def State.obj (s : State) (n : Nat) : Option Obj := s.scene.obj n

/-- Put a record into a slot, or undefine it, and nothing else. -/
def Scene.put (sc : Scene) (n : Nat) (o : Option Obj) : Scene :=
  { sc with slots := sc.slots.setIfInBounds n o }

/-- A slot is placed when the display order lists it (R45). -/
def Scene.placed (sc : Scene) (n : Nat) : Bool := sc.order.contains n

/-- R45, R59: a new display order sets the mark when it differs. -/
def Scene.reorder (sc : Scene) (order : List Nat) : Scene :=
  if order = sc.order then sc else { sc with order := order, mark := true }

/-- R48, R59: another block (or a command) writes fields of a defined object; a change of value in a
placed object sets the mark. -/
def Scene.modify (sc : Scene) (n : Nat) (f : Obj → Obj) : Scene :=
  match sc.obj n with
  | none => sc
  | some o =>
    let sc' := sc.put n (some (f o))
    if f o ≠ o ∧ sc.placed n then { sc' with mark := true } else sc'

/-- R38, R48: set or clear the bound-channel field, which is not drawn. -/
def Scene.bind (sc : Scene) (n : Nat) (ch : Option Nat) : Scene :=
  match sc.obj n with
  | none => sc
  | some o => sc.put n (some { o with bound := ch })

/-- Undefine a slot and take it out of the order (R44, R48). -/
def Scene.undefine (sc : Scene) (n : Nat) : Scene :=
  (sc.put n none).reorder (sc.order.filter (· ≠ n))

/-- The object in a slot is of a group. -/
def Scene.inGroup (sc : Scene) (g : Group) (n : Nat) : Bool :=
  match sc.obj n with
  | some o => o.group == g
  | none => false

/-- The positions of PLACE and of the other blocks' writes (R45). -/
inductive Position where
  | top
  | bottom
  | above (ref : Nat)
  deriving DecidableEq, Repr

/-- Insert directly after an entry; at the end when the entry is not listed. -/
def insertAfter (ref n : Nat) : List Nat → List Nat
  | [] => [n]
  | k :: ks => if k = ref then k :: n :: ks else k :: insertAfter ref n ks

/-- R45, R46: the order with slot `n` of group `g` taken out and put at a position of its group in the
order that remains. -/
def Scene.orderWith (sc : Scene) (n : Nat) (g : Group) (p : Position) : List Nat :=
  let rest := sc.order.filter (· ≠ n)
  let back := rest.filter fun k => sc.inGroup .slide k
  let front := rest.filter fun k => !sc.inGroup .slide k
  match g, p with
  | .slide, .bottom => n :: back ++ front
  | .slide, .top => back ++ n :: front
  | .slide, .above r => insertAfter r n back ++ front
  | .menu, .bottom => back ++ n :: front
  | .menu, .top => back ++ front ++ [n]
  | .menu, .above r => back ++ insertAfter r n front

/-- Place a defined slot at a position of its group (R46, R48). -/
def Scene.place (sc : Scene) (n : Nat) (p : Position) : Scene :=
  match sc.obj n with
  | none => sc
  | some o => sc.reorder (sc.orderWith n o.group p)

/-! ## Channels and profiles (04) -/

def Motion.channel (m : Motion) (n : Nat) : Channel := m.channels[n]?.getD Channel.idle

def Motion.putChannel (m : Motion) (n : Nat) (c : Channel) : Motion :=
  { m with channels := m.channels.setIfInBounds n c }

def Motion.profile (m : Motion) (n : Nat) : Profile := m.profiles[n]?.getD Profile.reset

def State.chan (s : State) (n : Nat) : Channel := s.motion.channel n

def State.putChan (s : State) (n : Nat) (c : Channel) : State := s.onMotion fun m => m.putChannel n c

/-! ## The Intake's code and completion (02) -/

/-- R31: the result code at the end of a command. -/
def State.setCode (s : State) (code : Fin 4) : State := s.onIntake fun i => { i with code := code }

/-- Something other than a run of commands lets the head start, so it starts before any other event (R25). -/
def State.endRun (s : State) : State := s.onIntake fun i => { i with inRun := false }

/-- A command that has ended at its start, though its owner took it into service, is followed in a run as one that
never was in service is (R25; log entry 1). -/
def State.keepRun (s : State) : State :=
  if s.intake.inService.isNone then s.onIntake fun i => { i with inRun := true } else s

/-- R30: the command in service completes with a code; the head may then start (R25). -/
def State.complete (s : State) (code : Fin 4) : State :=
  (s.onIntake fun i => { i with inService := none, code := code }).endRun

/-- R29: a command goes into service. -/
def State.serve (s : State) (slot : Nat) (op : ServiceOp) : State :=
  s.onIntake fun i => { i with inService := some ⟨slot, op⟩ }

/-- The command slot of the command in service (R33). -/
def State.serviceSlot (s : State) : Option Nat := s.intake.inService.map (·.slot)

/-! ## FETCH operations (01) -/

/-- An owner starts a fetch operation, which joins the end of the list (R20). -/
def State.startFetch (s : State) (kind : FetchKind) (addr words : Nat) : State :=
  s.onBridge fun b => { b with fetch := b.fetch ++ [⟨kind, addr, words, 0, []⟩] }

/-- The operation of a kind in the list. -/
def Bridge.fetchOf (b : Bridge) (kind : FetchKind) : Option FetchOp := b.fetch.find? (·.kind == kind)

/-- A fetch operation leaves the list when its last burst has ended, and the memory side is free (R20). -/
def State.endFetch (s : State) (kind : FetchKind) : State :=
  s.onBridge fun b => { b with fetch := b.fetch.filter (·.kind != kind), busy := none }

end Sys2Proof.Machine
end

