-- ==== Sys2Proof/Machine/Operands.lean ====
section
/-!
DEFINITION. Where the operands sit: the header and parameter words of a command record and the codes of
its enumerated operands (R21, R181), the DEFINE layout, page records and button entries (R182), slide
descriptors (R183), the consumer word (R186). Bits that a layout neither lists nor marks unused are not read (log
entry 44).
-/

namespace Sys2Proof.Machine

/-- Bits hi..lo of a word as a number (R180). -/
def bits (w : Word) (lo n : Nat) : Nat := w.toNat / 2 ^ lo % 2 ^ n

/-- One bit of a word. -/
def flag (w : Word) (i : Nat) : Bool := w.getLsbD i

/-- A 32-bit word as two's complement (R180). -/
def signedWord (w : Word) : Int := w.toInt

/-! ## The header (R181) -/

/-- Word `i` of a command, word 0 the header. -/
def Command.word (c : Command) (i : Nat) : Word := c.words.getD i 0

def Command.header (c : Command) : Word := c.word 0

/-- The kind code, bits 7:0. -/
def Command.kind (c : Command) : Nat := bits c.header 0 8

/-- The length field, bits 15:12. -/
def headerLength (w : Word) : Nat := bits w 12 4

/-- The small field, bits 31:16. -/
def Command.small (c : Command) : Nat := bits c.header 16 16

/-- The small field's bits 7:0. -/
def Command.smallLow (c : Command) : Nat := bits c.header 16 8

/-- The small field's bits 15:8. -/
def Command.smallHigh (c : Command) : Nat := bits c.header 24 8

/-- The second word of a command, or 0 for a command of one word (R32). -/
def Command.second (c : Command) : Word := c.word 1

/-- The 27 known kinds (Commands at a Glance, 02). -/
inductive Kind where
  | mark
  | restart
  | setCanvas
  | setTakeover
  | setSlides
  | define
  | drop
  | place
  | unplace
  | patch
  | step
  | loadPalette
  | setProfile
  | move
  | retune
  | halt
  | openPage
  | prefetchPage
  | key
  | closeMenu
  | slideStart
  | slideStop
  | slideStep
  | slidePause
  | slideResume
  | takeover
  | resume
  deriving DecidableEq, Repr

/-- The kind codes (Commands at a Glance, 02). -/
def kindOfCode : Nat → Option Kind
  | 0x01 => some .mark
  | 0x02 => some .restart
  | 0x08 => some .setCanvas
  | 0x09 => some .setTakeover
  | 0x0A => some .setSlides
  | 0x10 => some .define
  | 0x11 => some .drop
  | 0x12 => some .place
  | 0x13 => some .unplace
  | 0x14 => some .patch
  | 0x15 => some .step
  | 0x16 => some .loadPalette
  | 0x20 => some .setProfile
  | 0x21 => some .move
  | 0x22 => some .retune
  | 0x23 => some .halt
  | 0x30 => some .openPage
  | 0x31 => some .prefetchPage
  | 0x32 => some .key
  | 0x33 => some .closeMenu
  | 0x40 => some .slideStart
  | 0x41 => some .slideStop
  | 0x42 => some .slideStep
  | 0x43 => some .slidePause
  | 0x44 => some .slideResume
  | 0x50 => some .takeover
  | 0x51 => some .resume
  | _ => none

/-- The words of each kind (Commands at a Glance, 02). -/
def Kind.words : Kind → Nat
  | .mark => 2
  | .restart => 1
  | .setCanvas => 6
  | .setTakeover => 3
  | .setSlides => 3
  | .define => 8
  | .drop => 1
  | .place => 2
  | .unplace => 1
  | .patch => 3
  | .step => 4
  | .loadPalette => 3
  | .setProfile => 4
  | .move => 6
  | .retune => 2
  | .halt => 1
  | .openPage => 2
  | .prefetchPage => 2
  | .key => 1
  | .closeMenu => 1
  | .slideStart => 1
  | .slideStop => 1
  | .slideStep => 1
  | .slidePause => 1
  | .slideResume => 1
  | .takeover => 1
  | .resume => 1

def Command.known (c : Command) : Option Kind := kindOfCode c.kind

/-! ## Codes of the enumerated operands (R181) -/

/-- PLACE position and reference slot: word 1 bits 7:0 and 15:8. -/
def Command.position (c : Command) : Option Position :=
  match bits (c.word 1) 0 8 with
  | 0 => some .top
  | 1 => some .bottom
  | 2 => some (.above (bits (c.word 1) 8 8))
  | _ => none

/-- SET TAKEOVER's line edge: word 2 bits 7:0. -/
def Command.lineEdge (c : Command) : Option LineEdge :=
  match bits (c.word 2) 0 8 with
  | 0 => some .off
  | 1 => some .rising
  | 2 => some .falling
  | 3 => some .both
  | _ => none

/-- The keys of KEY. -/
inductive Key where
  | up
  | down
  | left
  | right
  | select
  | enter
  | back
  deriving DecidableEq, Repr

/-- KEY's key: small field bits 7:0. -/
def Command.key (c : Command) : Option Key :=
  match c.smallLow with
  | 0 => some .up
  | 1 => some .down
  | 2 => some .left
  | 3 => some .right
  | 4 => some .select
  | 5 => some .enter
  | 6 => some .back
  | _ => none

/-- SLIDE STEP's direction: small field 0001h FORWARD, FFFFh BACKWARD; `true` is BACKWARD. -/
def Command.direction (c : Command) : Option Bool :=
  if c.small = 1 then some false else if c.small = 0xFFFF then some true else none

/-- SLIDE PAUSE's hold mode: the small field. -/
def Command.holdMode (c : Command) : Option HoldMode :=
  match c.small with
  | 0 => some .freeze
  | 1 => some .ease
  | 2 => some .firm
  | _ => none

/-- STEP's mode: word 3 bits 7:0; `true` is STOP. -/
def Command.stepStops (c : Command) : Option Bool :=
  match bits (c.word 3) 0 8 with
  | 0 => some true
  | 1 => some false
  | _ => none

/-- HALT's mode: small field bit 8, set for EASE. -/
def Command.haltEases (c : Command) : Bool := flag c.header 24

/-- The editable fields of PATCH and STEP (R49). -/
inductive Field where
  | x
  | y
  | w
  | h
  | alpha
  | visible
  | colour
  | palette
  | source
  | stride
  | vx
  | vy
  | clipX0
  | clipY0
  | clipX1
  | clipY1
  | clip
  deriving DecidableEq, Repr

/-- The field codes of PATCH and STEP: small field bits 15:8 (R181). -/
def fieldOfCode : Nat → Option Field
  | 0 => some .x
  | 1 => some .y
  | 2 => some .w
  | 3 => some .h
  | 4 => some .alpha
  | 5 => some .visible
  | 6 => some .colour
  | 7 => some .palette
  | 8 => some .source
  | 9 => some .stride
  | 10 => some .vx
  | 11 => some .vy
  | 12 => some .clipX0
  | 13 => some .clipY0
  | 14 => some .clipX1
  | 15 => some .clipY1
  | 16 => some .clip
  | _ => none

def Command.field (c : Command) : Option Field := fieldOfCode c.smallHigh

/-- MOVE's moved-field set: word 1 bits 12:8 (R181). -/
def Command.movedSet (c : Command) : Moved :=
  let w := c.word 1
  ⟨flag w 8, flag w 9, flag w 10, flag w 11, flag w 12⟩

/-- MOVE's targets: words 2 to 5, signed positions, unsigned sizes and alpha (R181). -/
def Command.targets (c : Command) : Ends :=
  { p1 := signedWord (c.word 2), p2 := signedWord (c.word 3), w := bits (c.word 4) 0 16,
    h := bits (c.word 4) 16 16, alpha := bits (c.word 5) 0 16 }

/-- SET PROFILE's values as carried: Vs, Vp, A, D at 16 bits, L at 8 bits (R181). -/
def Command.profileValues (c : Command) : Profile :=
  { vs := bits (c.word 1) 0 16, vp := bits (c.word 1) 16 16, a := bits (c.word 2) 0 16,
    d := bits (c.word 2) 16 16, lead := bits (c.word 3) 0 8, auto := !flag (c.word 3) 8 }

/-- SET CANVAS's setup (R181). -/
def Command.canvasSetup (c : Command) : CanvasSetup :=
  { width := bits (c.word 1) 0 16, height := bits (c.word 1) 16 16, bankA := (c.word 2).toNat,
    bankB := (c.word 3).toNat, scan := (c.word 4).toNat, backdrop := (c.word 5).toNat }

/-- SET SLIDES's list setup (R181). -/
def Command.slideList (c : Command) : SlideList :=
  { base := (c.word 1).toNat, count := c.small, slotA := bits (c.word 2) 0 8,
    slotB := bits (c.word 2) 8 8, loop := flag (c.word 2) 16 }

/-! ## The DEFINE layout (R181) -/

/-- The record of words 1 to 7 of the DEFINE layout, `ws` from word 1 on, with a viewport and bound
channel given beside them. The fields a kind does not carry are not read. -/
def defineLayout (ws : List Word) (vx vy : Nat) (bound : Option Nat) : Obj :=
  let w1 := ws.getD 0 0
  let w2 := ws.getD 1 0
  let w3 := ws.getD 2 0
  let w4 := ws.getD 3 0
  let w5 := ws.getD 4 0
  let w6 := ws.getD 5 0
  let w7 := ws.getD 6 0
  { group := if flag w3 2 then .menu else .slide
    visible := flag w3 3
    x := signedOf 20 (bits w1 0 20)
    y := signedOf 20 (bits w2 0 20)
    w := bits w1 20 12
    h := bits w2 20 12
    alpha := bits w3 8 8
    clip := flag w3 4
    clipX0 := bits w6 0 16
    clipY0 := bits w6 16 16
    clipX1 := bits w7 0 16
    clipY1 := bits w7 16 16
    body :=
      match bits w3 0 2 with
      | 0 => .fill w4
      | 1 => .bitmap8 (bits w3 5 2) w4.toNat (bits w5 0 16)
      | 2 => .bitmap32 w4.toNat (bits w5 0 16)
      | _ => .slide w4.toNat (bits w5 0 16) (bits w5 16 16) (bits w3 16 16) vx vy
    bound := bound }

/-- The kind code of a record (R181). -/
def Body.code : Body → Nat
  | .fill _ => 0
  | .bitmap8 _ _ _ => 1
  | .bitmap32 _ _ => 2
  | .slide _ _ _ _ _ _ => 3

/-- Words 1 to 7 of the DEFINE layout of a record, the fields its kind does not carry written as 0
(R181, R184; log entry 24). -/
def Obj.defineWords (o : Obj) : List Word :=
  let n (k : Nat) : Word := BitVec.ofNat 32 k
  let b (v : Bool) (k : Nat) : Nat := if v then 2 ^ k else 0
  let pos (z : Int) (size : Nat) : Word := (BitVec.ofNat 12 size) ++ (BitVec.ofInt 20 z)
  let palette := match o.body with | .bitmap8 p _ _ => p | _ => 0
  let imageH := match o.body with | .slide _ _ _ ih _ _ => ih | _ => 0
  let imageW := match o.body with | .slide _ _ iw _ _ _ => iw | _ => 0
  let word4 := match o.body with
    | .fill colour => colour
    | .bitmap8 _ src _ => n src
    | .bitmap32 src _ => n src
    | .slide src _ _ _ _ _ => n src
  let stride := match o.body with
    | .fill _ => 0
    | .bitmap8 _ _ st => st
    | .bitmap32 _ st => st
    | .slide _ st _ _ _ _ => st
  [ pos o.x o.w,
    pos o.y o.h,
    n (o.body.code + b (o.group == .menu) 2 + b o.visible 3 + b o.clip 4 + palette * 2 ^ 5
      + o.alpha * 2 ^ 8 + imageH * 2 ^ 16),
    word4,
    n (stride + imageW * 2 ^ 16),
    n (o.clipX0 + o.clipY0 * 2 ^ 16),
    n (o.clipX1 + o.clipY1 * 2 ^ 16) ]

/-! ## Page records (R182) -/

/-- A neighbour byte: FFh means none. -/
def neighbourOf (n : Nat) : Option Nat := if n = 0xFF then none else some n

/-- Button entry `n` of a page's bytes (R112, R182); bits 3 to 7 of its flag byte, which the table does not list,
are ignored (log entry 44). -/
def buttonAt (bs : List Byte) (n : Nat) : Button :=
  let o := 16 + 24 * n
  let flags := byteAt bs (o + 14)
  { x := signedOf 16 (fieldAt bs o 2)
    y := signedOf 16 (fieldAt bs (o + 2) 2)
    w := fieldAt bs (o + 4) 2
    h := fieldAt bs (o + 6) 2
    up := neighbourOf (byteAt bs (o + 8))
    down := neighbourOf (byteAt bs (o + 9))
    left := neighbourOf (byteAt bs (o + 10))
    right := neighbourOf (byteAt bs (o + 11))
    action := fieldAt bs (o + 12) 2
    enabled := flags.testBit 0
    submenu := flags.testBit 1
    focusSlot := if flags.testBit 2 then some (byteAt bs (o + 15)) else none
    submenuAddr := fieldAt bs (o + 16) 4 }

def pageFormat (bs : List Byte) : Nat := byteAt bs 0
def pageCount (bs : List Byte) : Nat := byteAt bs 1

/-- The page of 784 bytes read at an address, its count of button entries included (R111, R182). -/
def pageAt (addr : Nat) (bs : List Byte) : Page :=
  { addr := addr
    initial := byteAt bs 2
    highlight := byteAt bs 3
    profile := byteAt bs 4
    margin := byteAt bs 5 % 16
    buttons := (List.range (pageCount bs)).map (buttonAt bs) }

/-! ## Slide descriptors (R183) -/

/-- The fields of a descriptor. -/
structure Descriptor where
  kind : Nat
  profile : Nat
  panProfile : Nat
  panPresent : Bool
  dwell : Nat
  image : Nat
  imageW : Nat
  imageH : Nat
  stride : Nat
  panStartX : Nat
  panStartY : Nat
  panEndX : Nat
  panEndY : Nat
  deriving DecidableEq, Repr

/-- The fields of a descriptor as read; bits 1 to 7 of byte 4, which the table does not list, are ignored (R183; log
entry 44). -/
def descriptorOf (bs : List Byte) : Descriptor :=
  { kind := byteAt bs 1
    profile := byteAt bs 2
    panProfile := byteAt bs 3
    panPresent := (byteAt bs 4).testBit 0
    dwell := fieldAt bs 8 2
    image := fieldAt bs 12 4
    imageW := fieldAt bs 16 2
    imageH := fieldAt bs 18 2
    stride := fieldAt bs 20 2
    panStartX := fieldAt bs 24 2
    panStartY := fieldAt bs 26 2
    panEndX := fieldAt bs 28 2
    panEndY := fieldAt bs 30 2 }

end Sys2Proof.Machine
end

