-- ==== Sys2Proof/Machine/Flags.lean ====
section
/-!
DEFINITION. Condition flags and result codes: the condition mask (R27), the codes of PATCH (R51) and STEP
(R52), and the abrupt flag of a motion's end (R74).
-/

namespace Sys2Proof.Machine

/-- The flag of a command's condition mask that belongs to a result code: header bits 8 to 11 (R27,
R181). -/
def Command.runsOn (c : Command) (code : Fin 4) : Bool := flag c.header (8 + code.val)

/-- R51: code 1 when a position taken from the value is one in the stored value, else code 0. -/
def patchCode {n : Nat} (keep stored : BitVec n) : Fin 4 := if stored &&& ~~~keep = 0 then 0 else 1

/-- R52: the comparison of the sum with the limit, by the sign of the increment. -/
def stepCode (increment sum limit : Int) : Fin 4 :=
  if sum = limit then 1
  else if 0 ≤ increment then (if sum < limit then 0 else 2)
  else (if sum > limit then 0 else 2)

/-- R74: a completion is abrupt when its final step was cut short while faster than the start speed. -/
def abruptEnd (v remaining vs : Nat) : Bool := remaining < v && vs < v

end Sys2Proof.Machine
end

