-- ==== Sys2Proof/Machine/Reports.lean ====
section
/-!
DEFINITION. The byte layouts of what the Event Unit writes: event records (R185) and the status block
(R186).
-/

namespace Sys2Proof.Machine

/-! ## Codes (R185, R186) -/

def RefusalReason.code : RefusalReason → Nat
  | .unknownKind => 1
  | .badLength => 2
  | .range => 3
  | .undefinedSlot => 4
  | .slotBusy => 5
  | .channelBusy => 6
  | .reserved => 7
  | .boundField => 8
  | .wrongState => 9
  | .noPage => 10
  | .suspended => 11
  | .lockout => 12
  | .overlap => 13

def StrayReason.code : StrayReason → Nat
  | .alignment => 1
  | .enables => 2
  | .length => 3

def GuardArea.code : GuardArea → Nat
  | .ring => 1
  | .status => 2
  | .scan => 3
  | .save => 4

def EndReason.code : EndReason → Nat
  | .arrived => 1
  | .halted => 2
  | .removed => 3

def Cause.code : Cause → Nat
  | .command => 1
  | .enter => 2
  | .back => 3

def PageReason.code : PageReason → Nat
  | .format => 1
  | .count => 2
  | .profile => 3
  | .highlight => 4
  | .neighbour => 5
  | .focusSlot => 6
  | .address => 7

def SkipReason.code : SkipReason → Nat
  | .size => 1
  | .stride => 2
  | .source => 3
  | .kind => 4
  | .profile => 5

def Source.code : Source → Nat
  | .line => 1
  | .command => 2
  | .held => 3

def LockReason.code : LockReason → Nat
  | .revision => 1
  | .base => 2
  | .record => 3

def SeqState.code : SeqState → Nat
  | .stopped => 0
  | .loading => 1
  | .waiting => 2
  | .showing => 3
  | .changing => 4
  | .suspended => 5

def TakeoverState.code : TakeoverState → Nat
  | .normal => 0
  | .entering => 1
  | .menuOver => 2
  | .leaving => 3
  | .lockout => 4

def Bank.code : Bank → Nat
  | .a => 0
  | .b => 1

def boolCode (b : Bool) : Nat := if b then 1 else 0

/-- A byte of flags, bit 0 first; the bits beyond those listed are 0 (DESIGN CHOICE, log entry 44). -/
def flagsOf : List Bool → Nat
  | [] => 0
  | b :: bs => boolCode b + 2 * flagsOf bs

/-- A 16-bit subject: FFFFh for no-index and no-button (R185). -/
def subjectOf (n : Option Nat) : Nat := n.getD 0xFFFF

/-- A value B: FFFFFFFFh for no-index and no-slot (R185). -/
def valueOf (n : Option Nat) : Word := BitVec.ofNat 32 (n.getD 0xFFFFFFFF)

/-! ## Event records -/

/-- What an event puts into its record beside the stamp and the slot (R185). -/
structure EventFields where
  kind : Nat
  reason : Nat
  flags : Nat
  subject : Nat
  a : Word
  b : Word
  deriving DecidableEq, Repr

/-- The fields of each kind (R173, R185). Flags that a kind's row does not list, and bits 31:16 of value B of TAKEOVER
ENTERED, are 0 (DESIGN CHOICE, log entry 44). -/
def Event.fields : Event → EventFields
  | .refused kind reason header second => ⟨0x01, reason.code, 0, kind, header, second⟩
  | .intakeDrop kind header inService => ⟨0x02, 0, 0, kind, header, valueOf inService⟩
  | .strayWrite reason addr length =>
    ⟨0x03, reason.code, 0, 0, BitVec.ofNat 32 addr, BitVec.ofNat 32 length⟩
  | .guard area addr length => ⟨0x04, area.code, 0, 0, BitVec.ofNat 32 addr, BitVec.ofNat 32 length⟩
  | .mark subject tag waiting => ⟨0x05, 0, 0, subject, tag, BitVec.ofNat 32 waiting⟩
  | .motionDone channel reason abrupt slot s =>
    ⟨0x06, reason.code, flagsOf [abrupt], channel, BitVec.ofNat 32 slot, BitVec.ofNat 32 s⟩
  | .activated button entered stackFull page action =>
    ⟨0x07, 0, flagsOf [entered, stackFull], button, BitVec.ofNat 32 page, BitVec.ofNat 32 action⟩
  | .backAtTop focus page => ⟨0x08, 0, 0, subjectOf focus, BitVec.ofNat 32 page, 0⟩
  | .pageOpened focus cause fromBuffer page count =>
    ⟨0x09, cause.code, flagsOf [fromBuffer], subjectOf focus, BitVec.ofNat 32 page,
      BitVec.ofNat 32 count⟩
  | .pageRejected cause reason page detail =>
    ⟨0x0A, reason.code, 0, cause.code, BitVec.ofNat 32 page, BitVec.ofNat 32 detail⟩
  | .slideShown index kind first snapped descriptor slot =>
    ⟨0x0B, kind, flagsOf [first, snapped], index, BitVec.ofNat 32 descriptor, BitVec.ofNat 32 slot⟩
  | .slideLate index descriptor current =>
    ⟨0x0C, 0, 0, index, BitVec.ofNat 32 descriptor, valueOf current⟩
  | .slideSkipped index reason descriptor skip =>
    ⟨0x0D, reason.code, 0, index, BitVec.ofNat 32 descriptor, BitVec.ofNat 32 skip⟩
  | .showEnd current endOfList backward base count =>
    ⟨0x0E, if endOfList then 1 else 2, flagsOf [backward], subjectOf current, BitVec.ofNat 32 base,
      BitVec.ofNat 32 count⟩
  | .takeoverEntered source recovered wasChanging paused saveBase objects channels =>
    ⟨0x0F, 0, flagsOf [recovered, wasChanging, paused], source.code, BitVec.ofNat 32 saveBase,
      BitVec.ofNat 32 (objects + 256 * channels)⟩
  | .takeoverLeft state relocated redone finished jumped reentering saveBase current =>
    ⟨0x10, 0, flagsOf [relocated, redone, finished, jumped, reentering], state.code,
      BitVec.ofNat 32 saveBase, valueOf current⟩
  | .lockout reason saveBase detail =>
    ⟨0x11, reason.code, 0, 0, BitVec.ofNat 32 saveBase, BitVec.ofNat 32 detail⟩

/-- The 4 words of an event record in the ring (R174, R185). -/
def EventRecord.words (r : EventRecord) : List Word :=
  let f := r.event.fields
  [ wordOf (BitVec.ofNat 8 f.kind) (BitVec.ofNat 8 f.reason) (BitVec.ofNat 8 f.flags)
      (BitVec.ofNat 8 (r.slot.getD 0xFF)),
    r.stamp ++ BitVec.ofNat 16 f.subject,
    f.a,
    f.b ]

/-! ## The status block -/

/-- The 16 words of the status block for a status count; the consumer word's place holds 0 and is never
written (R177, R186). Bits 7:3 of the sticky-flag byte are 0 (DESIGN CHOICE, log entry 44). -/
def StatusFields.words (f : StatusFields) (count : BitVec 16) : List Word :=
  let byte (n : Nat) : Byte := BitVec.ofNat 8 n
  [ (0 : BitVec 16) ++ count,
    0,
    wordOf (f.p.setWidth 8) (f.c.setWidth 8) (byte (flagsOf [f.overflow, f.intakeDrop, f.guard])) 0,
    wordOf (byte f.takeover.code) (byte (boolCode f.held))
      (byte ((f.lockReason.map LockReason.code).getD 0)) (byte (boolCode f.canvasSet)),
    (BitVec.ofNat 16 (f.current.getD 0xFFFF)) ++ (byte (boolCode f.paused)) ++ (byte f.seq.code),
    f.frame,
    wordOf (byte f.front.code) (byte f.freeEntries) (byte f.code.val) 0,
    (0 : BitVec 16) ++ BitVec.ofNat 16 f.late,
    BitVec.ofNat 32 (f.page.getD 0xFFFFFFFF),
    wordOf (byte (f.focus.getD 0xFF)) (byte f.depth) 0 0,
    0, 0, 0, 0, 0,
    (0 : BitVec 16) ++ count ]

end Sys2Proof.Machine
end

