-- ==== Sys2Proof/Machine/SceneStore.lean ====
section
/-!
DEFINITION. The rules of the Scene Store that commands and other blocks share (03): validation (R39,
R40), the clamps of the viewport (R55), held slots (R41), field edits (R49 to R53), the installation of
a defined record (R43) and of a palette (R58).
-/

namespace Sys2Proof.Machine

/-! ## Validation (R39, R40) -/

/-- The end of an object's source (R40); 0 for a FILL, which has none. -/
def Obj.sourceEnd (o : Obj) : Nat :=
  match o.body with
  | .fill _ => 0
  | .bitmap8 _ src stride => src + stride * (o.h - 1) + o.w
  | .bitmap32 src stride => src + stride * (o.h - 1) + o.w * 4
  | .slide src stride iw ih _ _ => src + stride * (ih - 1) + iw * 4

/-- The field ranges that every kind carries (R37; the clip corners by log entry 14). -/
def Obj.rangesOk (o : Obj) : Bool :=
  decide (-32768 ≤ o.x) && decide (o.x ≤ 65535) && decide (-32768 ≤ o.y) && decide (o.y ≤ 65535)
    && decide (1 ≤ o.w) && decide (o.w ≤ 2048) && decide (1 ≤ o.h) && decide (o.h ≤ 2048)
    && decide (o.alpha ≤ 255)
    && decide (o.clipX0 ≤ 2048) && decide (o.clipY0 ≤ 2048)
    && decide (o.clipX1 ≤ 2048) && decide (o.clipY1 ≤ 2048)

/-- A stride is a multiple of 4, at least `least` and at most 16384, and a stride is 4..16384 (R37, R39). -/
def strideOk (stride least : Nat) : Bool :=
  stride % 4 == 0 && decide (4 ≤ stride) && decide (least ≤ stride) && decide (stride ≤ 16384)

/-- The tests of an object's kind but for the viewport (R39). -/
def Obj.kindOk (o : Obj) : Bool :=
  match o.body with
  | .fill _ => true
  | .bitmap8 palette src stride => decide (palette ≤ 3) && src % 4 == 0 && strideOk stride o.w
  | .bitmap32 src stride => src % 4 == 0 && strideOk stride (o.w * 4)
  | .slide src stride iw ih _ _ =>
    decide (1 ≤ iw) && decide (iw ≤ 4096) && decide (1 ≤ ih) && decide (ih ≤ 4096)
      && decide (o.w ≤ iw) && decide (o.h ≤ ih) && src % 4 == 0 && strideOk stride (iw * 4)

/-- The viewport range of a SLIDE (R39). -/
def Obj.viewportOk (o : Obj) : Bool :=
  match o.body with
  | .slide _ _ iw ih vx vy => decide (vx ≤ (iw - o.w) * 16) && decide (vy ≤ (ih - o.h) * 16)
  | _ => true

/-- A record is valid (R39); `cmdw` is the Command Window base. -/
def Obj.valid (cmdw : Nat) (o : Obj) : Bool :=
  o.rangesOk && o.kindOk && o.viewportOk && decide (o.sourceEnd ≤ cmdw)

/-! ## The viewport (R55) -/

/-- Bring vx into the range of the stored w. -/
def Obj.reclampX (o : Obj) : Obj :=
  match o.body with
  | .slide src stride iw ih vx vy =>
    { o with body := .slide src stride iw ih (min vx ((iw - o.w) * 16)) vy }
  | _ => o

/-- Bring vy into the range of the stored h. -/
def Obj.reclampY (o : Obj) : Obj :=
  match o.body with
  | .slide src stride iw ih vx vy =>
    { o with body := .slide src stride iw ih vx (min vy ((ih - o.h) * 16)) }
  | _ => o

/-- Store a width (R55). -/
def Obj.withW (o : Obj) (w : Nat) : Obj := Obj.reclampX { o with w := w }

/-- Store a height (R55). -/
def Obj.withH (o : Obj) (h : Nat) : Obj := Obj.reclampY { o with h := h }

/-! ## Held slots (R41) -/

/-- Slot A or slot B while the sequencer state is LOADING, WAITING, SHOWING or CHANGING. -/
def State.seqHeld (s : State) (n : Nat) : Bool :=
  match s.seq.list with
  | none => false
  | some l =>
    (n == l.slotA || n == l.slotB) &&
      match s.seq.state with
      | .loading | .waiting | .showing | .changing => true
      | .stopped | .suspended => false

/-- The highlight slot of the open page, or a present focus slot of one of its buttons. -/
def State.pageHeld (s : State) (n : Nat) : Bool :=
  match s.nav.page with
  | none => false
  | some p => n == p.highlight || p.buttons.any fun b => b.focusSlot == some n

/-! ## Checks in order -/

/-- The first check that fails gives the refusal reason (R29). -/
def firstFailure : List (Bool × RefusalReason) → Option RefusalReason
  | [] => none
  | (ok, r) :: rest => if ok then firstFailure rest else some r

/-- What an owner makes of a command (R29): it refuses it, carries it out at once with a code, or begins
an operation that takes time. -/
inductive Verdict where
  | refused (r : RefusalReason)
  | completed (code : Fin 4) (s : State)
  | began (s : State)

/-- Judge a command by a table of checks; the verdict `v` stands when all pass. -/
def judged (checks : List (Bool × RefusalReason)) (v : Verdict) : Verdict :=
  match firstFailure checks with
  | some r => .refused r
  | none => v

/-! ## Field edits (R49 to R53) -/

/-- The old value of a field as an integer, none when the object's kind does not carry it (R49, R52). -/
def Field.get (f : Field) (o : Obj) : Option Int :=
  match f with
  | .x => some o.x
  | .y => some o.y
  | .w => some o.w
  | .h => some o.h
  | .alpha => some o.alpha
  | .visible => some (if o.visible then 1 else 0)
  | .clip => some (if o.clip then 1 else 0)
  | .clipX0 => some o.clipX0
  | .clipY0 => some o.clipY0
  | .clipX1 => some o.clipX1
  | .clipY1 => some o.clipY1
  | .colour => match o.body with | .fill c => some c.toNat | _ => none
  | .palette => match o.body with | .bitmap8 p _ _ => some p | _ => none
  | .source =>
    match o.body with
    | .fill _ => none
    | .bitmap8 _ src _ => some src
    | .bitmap32 src _ => some src
    | .slide src _ _ _ _ _ => some src
  | .stride =>
    match o.body with
    | .fill _ => none
    | .bitmap8 _ _ st => some st
    | .bitmap32 _ st => some st
    | .slide _ st _ _ _ _ => some st
  | .vx => match o.body with | .slide _ _ _ _ ux _ => some ux | _ => none
  | .vy => match o.body with | .slide _ _ _ _ _ uy => some uy | _ => none

/-- The width at which a field is held (R49). -/
def Field.width : Field → Nat
  | .x | .y => 17
  | .w | .h => 12
  | .alpha => 8
  | .visible | .clip => 1
  | .colour | .source => 32
  | .palette => 2
  | .stride => 15
  | .vx | .vy => 16
  | .clipX0 | .clipY0 | .clipX1 | .clipY1 => 12

/-- A field's bit pattern read as the field holds it: signed for x and y (R49, R51). -/
def Field.ofBits (f : Field) (v : BitVec f.width) : Int :=
  match f with
  | .x | .y => v.toInt
  | _ => v.toNat

/-- R53, validated fields: the record as it would stand, refused when invalid. -/
def validated (cmdw : Nat) (z : Int) (o : Obj) : Option Obj :=
  if 0 ≤ z ∧ o.valid cmdw then some o else none

/-- Replace the source of a record. -/
def Body.withSource (b : Body) (n : Nat) : Body :=
  match b with
  | .fill c => .fill c
  | .bitmap8 p _ st => .bitmap8 p n st
  | .bitmap32 _ st => .bitmap32 n st
  | .slide _ st iw ih vx vy => .slide n st iw ih vx vy

/-- Replace the stride of a record. -/
def Body.withStride (b : Body) (n : Nat) : Body :=
  match b with
  | .fill c => .fill c
  | .bitmap8 p src _ => .bitmap8 p src n
  | .bitmap32 src _ => .bitmap32 src n
  | .slide src _ iw ih vx vy => .slide src n iw ih vx vy

/-- R53: bring a new value into the record by the field's class; none when a validated field makes the
record invalid. -/
def Field.bringIn (f : Field) (cmdw : Nat) (o : Obj) (z : Int) : Option Obj :=
  match f with
  | .x => some { o with x := clampInt (-32768) 65535 z }
  | .y => some { o with y := clampInt (-32768) 65535 z }
  | .alpha => some { o with alpha := (clampInt 0 255 z).toNat }
  | .clipX0 => some { o with clipX0 := (clampInt 0 2048 z).toNat }
  | .clipY0 => some { o with clipY0 := (clampInt 0 2048 z).toNat }
  | .clipX1 => some { o with clipX1 := (clampInt 0 2048 z).toNat }
  | .clipY1 => some { o with clipY1 := (clampInt 0 2048 z).toNat }
  | .vx =>
    match o.body with
    | .slide src st iw ih _ uy =>
      some { o with body := .slide src st iw ih (clampInt 0 (((iw - o.w) * 16 : Nat) : Int) z).toNat uy }
    | _ => none
  | .vy =>
    match o.body with
    | .slide src st iw ih ux _ =>
      some { o with body := .slide src st iw ih ux (clampInt 0 (((ih - o.h) * 16 : Nat) : Int) z).toNat }
    | _ => none
  | .visible => some { o with visible := z % 2 == 1 }
  | .clip => some { o with clip := z % 2 == 1 }
  | .colour => some { o with body := .fill (BitVec.ofInt 32 z) }
  | .w => validated cmdw z (o.withW z.toNat)
  | .h => validated cmdw z (o.withH z.toNat)
  | .palette =>
    match o.body with
    | .bitmap8 _ src st => validated cmdw z { o with body := .bitmap8 z.toNat src st }
    | _ => none
  | .source => validated cmdw z { o with body := o.body.withSource z.toNat }
  | .stride => validated cmdw z { o with body := o.body.withStride z.toNat }

/-- The bound fields of an object (R38). -/
def State.fieldBound (s : State) (o : Obj) (f : Field) : Bool :=
  match o.bound with
  | none => false
  | some n =>
    let c := s.chan n
    match f with
    | .x => c.moved.p1 && !c.view
    | .y => c.moved.p2 && !c.view
    | .vx => c.moved.p1 && c.view
    | .vy => c.moved.p2 && c.view
    | .w => c.moved.w
    | .h => c.moved.h
    | .alpha => c.moved.alpha
    | _ => false

/-- Step 5 of R50: a bound field, or w or h while the paired viewport coordinate is bound (R54, R55). -/
def State.editBarred (s : State) (o : Obj) (f : Field) : Bool :=
  s.fieldBound o f ||
    match f with
    | .w => s.fieldBound o .vx
    | .h => s.fieldBound o .vy
    | _ => false

/-- PATCH and STEP share the checks of R50 and the storing of the new value (R53, R59). `value` gives the
new value from the old one, and `code` the result code from the old and the stored value. -/
def State.edit (s : State) (n : Nat) (field : Option Field) (modeOk : Bool)
    (value : Field → Int → Int) (code : Field → Int → Int → Fin 4) : Verdict :=
  let o? := s.obj n
  let target : Option (Obj × Field × Int) :=
    match o?, field with
    | some o, some f => (f.get o).map fun old => (o, f, old)
    | _, _ => none
  let brought : Option Obj := target.bind fun (o, f, old) => f.bringIn s.cmdw o (value f old)
  judged
    [ (decide (n < 48), .range),
      (o?.isSome, .undefinedSlot),
      (!s.seqHeld n, .reserved),
      (target.isSome && modeOk, .range),
      (target.all fun (o, f, _) => !s.editBarred o f, .boundField),
      (brought.isSome, .range) ]
    (match target, brought with
      | some (_, f, old), some o' =>
        .completed (code f old ((f.get o').getD 0)) (s.onScene fun sc => sc.modify n fun _ => o')
      | _, _ => .refused .range)

/-! ## Defining (R43) -/

/-- The default clip corners of a record whose clip present is no (R43). -/
def Obj.defaultClip (o : Obj) : Obj :=
  if o.clip then o else { o with clipX0 := 0, clipY0 := 0, clipX1 := 2048, clipY1 := 2048 }

/-- R43: a SLIDE's clip present is set to no, and the corners follow. -/
def Obj.installed (o : Obj) : Obj :=
  match o.body with
  | .slide _ _ _ _ _ _ => Obj.defaultClip { o with clip := false }
  | _ => o.defaultClip

/-- R43: install a record; a placed slot keeps its place when its group is unchanged and leaves the order
otherwise, and either way the mark is set. -/
def Scene.define (sc : Scene) (n : Nat) (o : Obj) : Scene :=
  let kept := sc.inGroup o.group n
  let sc' := sc.put n (some o)
  if sc.placed n then
    { sc' with mark := true, order := if kept then sc.order else sc.order.filter (· ≠ n) }
  else sc'

/-! ## Palettes (R56, R58) -/

/-- Put words into a palette from an entry on. -/
def paletteWith (p : Vector Word 256) (first : Nat) : List Word → Vector Word 256
  | [] => p
  | w :: ws => paletteWith (p.setIfInBounds first w) (first + 1) ws

/-- R58: install the buffered entries, set the mark and empty the buffer. -/
def Scene.installPalette (sc : Scene) : Scene :=
  match sc.load with
  | none => sc
  | some l =>
    let p := sc.palettes[l.palette]?.getD (Vector.replicate 256 0)
    { sc with
      palettes := sc.palettes.setIfInBounds l.palette (paletteWith p l.first l.entries)
      load := none
      mark := true }

end Sys2Proof.Machine
end

