-- ==== Sys2Proof/Machine/Motion.lean ====
section
/-!
DEFINITION. The Motion Engine (04): the arithmetic of travel, braking and peak speed (R68 to R70), the
choice of a step (R72, R73), interpolation (R75), requests and their checks (R79 to R82, R89), holds and
releases (R86, R87), ends (R77, R90) and rewinds (R91).
-/

namespace Sys2Proof.Machine

/-! ## Profiles (R63) -/

/-- Values outside their range are clamped to the nearer end when a profile is stored. -/
def Profile.clamped (p : Profile) : Profile :=
  let vs := clampNat 1 4095 p.vs
  { vs := vs, vp := clampNat vs 4095 p.vp, a := clampNat 1 1023 p.a, d := clampNat 1 1023 p.d,
    lead := min 7 p.lead, auto := p.auto }

/-! ## Travel, braking and the peak (R68 to R70) -/

/-- The travel S: the progress units of the longest-moving field (R68). -/
def travelOf (e0 e1 : Ends) : Nat :=
  max (max (e1.p1 - e0.p1).natAbs (e1.p2 - e0.p2).natAbs)
    (max (max (16 * ((e1.w : Int) - e0.w).natAbs) (16 * ((e1.h : Int) - e0.h).natAbs))
      (16 * ((e1.alpha : Int) - e0.alpha).natAbs))

/-- The braking distance B(v) (R69). -/
def brakingDistance (p : Profile) (v : Nat) : Nat :=
  if v ≤ p.vs then 0
  else
    let n := (v - p.vs + p.d - 1) / p.d
    (n - 1) * v - p.d * (n - 1) * n / 2 + p.vs

/-- The search of R70 from candidate `c` on, `dist` the distance covered before cruising at it and `best`
the largest candidate that fitted so far; `fuel` bounds the candidates. -/
def peakFrom (p : Profile) (remaining : Nat) : Nat → Nat → Nat → Nat → Nat
  | 0, _, _, best => best
  | fuel + 1, c, dist, best =>
    let best := if dist + c + brakingDistance p c ≤ remaining then c else best
    if p.vp ≤ c then best
    else
      let c' := min (c + p.a) p.vp
      peakFrom p remaining fuel c' (dist + c') best

/-- The peak search: Vtop from a starting speed, a number of lead frames and a remaining travel (R70). -/
def peakSearch (p : Profile) (v0 lead remaining : Nat) : Nat :=
  if !p.auto || decide (p.vp ≤ v0) then p.vp
  else peakFrom p remaining (p.vp - v0 + 1) v0 (lead * v0) v0

/-! ## Endpoints and interpolation (R75, R80) -/

/-- An object's current values of P1, P2, W, H and ALPHA; vx and vy under the view flag (R81). -/
def Obj.ends (o : Obj) (view : Bool) : Ends :=
  match view, o.body with
  | true, .slide _ _ _ _ vx vy => ⟨vx, vy, o.w, o.h, o.alpha⟩
  | _, _ => ⟨o.x, o.y, o.w, o.h, o.alpha⟩

/-- The value of one field at progress s of S (R75): rounded to the nearest, halves away from E0. -/
def valueAt (e0 e1 : Int) (s travel : Nat) : Int :=
  if travel = 0 then e1
  else e0 + (e1 - e0).sign * ((((e1 - e0).natAbs * s + travel / 2) / travel : Nat) : Int)

/-- All five values at the channel's progress. -/
def Channel.values (c : Channel) : Ends :=
  { p1 := valueAt c.e0.p1 c.e1.p1 c.s c.travel
    p2 := valueAt c.e0.p2 c.e1.p2 c.s c.travel
    w := (valueAt c.e0.w c.e1.w c.s c.travel).toNat
    h := (valueAt c.e0.h c.e1.h c.s c.travel).toNat
    alpha := (valueAt c.e0.alpha c.e1.alpha c.s c.travel).toNat }

/-- Put the values of a moved-field set into a record as they are. -/
def Obj.setMoved (o : Obj) (m : Moved) (view : Bool) (e : Ends) : Obj :=
  { o with
    x := if m.p1 && !view then e.p1 else o.x
    y := if m.p2 && !view then e.p2 else o.y
    w := if m.w then e.w else o.w
    h := if m.h then e.h else o.h
    alpha := if m.alpha then e.alpha else o.alpha
    body :=
      match o.body with
      | .slide src st iw ih vx vy =>
        .slide src st iw ih (if m.p1 && view then e.p1.toNat else vx)
          (if m.p2 && view then e.p2.toNat else vy)
      | b => b }

/-- The moved fields of one step, written as one change; a moved size then holds the viewport (R55, R75). It may take a
coordinate below the E1 of a channel that moves it without a target (DESIGN CHOICE, log entry 51). -/
def Obj.moveTo (o : Obj) (m : Moved) (view : Bool) (e : Ends) : Obj :=
  let o1 := o.setMoved m view e
  let o2 := if m.w then o1.reclampX else o1
  if m.h then o2.reclampY else o2

/-- The greatest W target of an object, for a SLIDE its image's width in place of 2048, for the highlight too (R80,
R112; log entry 45). -/
def Obj.maxW (o : Obj) : Nat :=
  match o.body with
  | .slide _ _ iw _ _ _ => iw
  | _ => 2048

/-- The greatest H target of an object, for a SLIDE its image's height in place of 2048 (R80, R112; log entry 45). -/
def Obj.maxH (o : Obj) : Nat :=
  match o.body with
  | .slide _ _ _ ih _ _ => ih
  | _ => 2048

/-- R80: the clamped targets for the moved fields and the current values for the others. The current value of a
viewport coordinate stands even where the target size narrows its range (R82; DESIGN CHOICE, log entry 51). -/
def Obj.clampTargets (o : Obj) (m : Moved) (view : Bool) (t : Ends) : Ends :=
  let cur := o.ends view
  let w := if m.w then clampNat 1 o.maxW t.w else o.w
  let h := if m.h then clampNat 1 o.maxH t.h else o.h
  { p1 :=
      if m.p1 then
        (if view then clampInt 0 (((o.maxW - w) * 16 : Nat) : Int) t.p1
          else clampInt (-32768) 65535 t.p1)
      else cur.p1
    p2 :=
      if m.p2 then
        (if view then clampInt 0 (((o.maxH - h) * 16 : Nat) : Int) t.p2
          else clampInt (-32768) 65535 t.p2)
      else cur.p2
    w := w
    h := h
    alpha := if m.alpha then min 255 t.alpha else cur.alpha }

/-- The record as it would stand with the W and H targets in place (R80). The viewport is the one that the storing of
those sizes would leave, held to its new range by R55 before R39 tests it (DEDUCED, log entry 50). -/
def Obj.withSizes (o : Obj) (m : Moved) (e : Ends) : Obj :=
  let o1 := if m.w then o.withW e.w else o
  if m.h then o1.withH e.h else o1

/-! ## Choosing a step (R71 to R73) -/

/-- The remaining travel R. -/
def Channel.remaining (c : Channel) : Nat := c.travel - c.s

/-- The braking test of R69. -/
def Channel.fits (c : Channel) (v : Nat) : Bool := v + brakingDistance c.prof v ≤ c.remaining

/-- The phase from which a motion rises: ACCEL when Vtop lies above the speed, otherwise CRUISE. -/
def risePhase (v vtop : Nat) : Phase := if v < vtop then .accel else .cruise

/-- R87, the HELD row: the release of a channel that stands still. -/
def Channel.releaseHeld (c : Channel) : Channel :=
  let vtop := peakSearch c.prof c.prof.vs 0 c.remaining
  { c with v := c.prof.vs, lead := 0, vtop := vtop, phase := risePhase c.prof.vs vtop, hold := none,
           release := false }

/-- What a tick makes of a channel: it rests (with a phase change or none), its STOPPING ends, or it takes
a step at the speed now in `v`. -/
inductive TickAct where
  | rest (c : Channel)
  | halt
  | move (c : Channel)
  deriving DecidableEq, Repr

/-- The DECEL row of R73. -/
def Channel.decelStep (c : Channel) : TickAct :=
  let v := max (c.v - c.prof.d) c.prof.vs
  .move { c with v := v, phase := if v = c.prof.vs then .creep else .decel }

/-- R71 to R73 for a channel that is not frozen. A LEAD channel installed with lead count 0 leaves LEAD at its
first step (log entry 43). -/
def Channel.tick (c : Channel) : TickAct :=
  match c.phase with
  | .idle => .rest c
  | .held => .rest c
  | .lead =>
    let l := c.lead - 1
    .move { c with v := c.prof.vs, lead := l,
                   phase := if l = 0 then risePhase c.prof.vs c.vtop else .lead }
  | .accel =>
    let v := min (c.v + c.prof.a) c.vtop
    if c.fits v then .move { c with v := v, phase := if v = c.vtop then .cruise else .accel }
    else c.decelStep
  | .cruise => if c.fits c.v then .move c else c.decelStep
  | .slow =>
    let v := max (c.v - c.prof.d) c.vtop
    if c.fits v then .move { c with v := v, phase := if v = c.vtop then .cruise else .slow }
    else c.decelStep
  | .decel => c.decelStep
  | .creep => .move { c with v := c.prof.vs }
  | .easing =>
    if c.v = c.prof.vs then
      (if c.release then .rest (Channel.releaseHeld { c with phase := .held })
        else .rest { c with phase := .held })
    else .move { c with v := max (c.v - c.prof.d) c.prof.vs }
  | .stopping =>
    if c.v = c.prof.vs then .halt else .move { c with v := max (c.v - c.prof.d) c.prof.vs }

/-- A channel bound to a SLIDE-group object (R71, R86, R91). -/
def State.onSlideObject (s : State) (c : Channel) : Bool := c.slot.any fun k => s.scene.inGroup .slide k

/-- The takeover freeze (R71). -/
def State.frozen (s : State) (c : Channel) : Bool :=
  s.takeover.state == .entering && s.onSlideObject c

/-! ## Ends of motions (R77, R78, R90) -/

/-- A channel at the end of its motion (R77; log entry 16). -/
def Channel.ended (c : Channel) : Channel :=
  { c with phase := .idle, owner := none, slot := none, hold := none, release := false }

/-- R77: the channel becomes IDLE and the binding is released. -/
def State.freeChannel (s : State) (n : Nat) : State :=
  let c := s.chan n
  let s1 := match c.slot with
    | some k => s.onScene fun sc => sc.bind k none
    | none => s
  s1.putChan n c.ended

/-- R77, R78: MOTION DONE for a COMMAND-owned channel. -/
def State.reportEnd (s : State) (n : Nat) (reason : EndReason) (abrupt : Bool) (slot : Option Nat) :
    State :=
  let c := s.chan n
  if c.owner = some .command then s.raise (.motionDone n reason abrupt (c.slot.getD 0) c.s) slot else s

/-- R90: a silent halt; an IDLE channel is left as it is. -/
def State.silentHalt (s : State) (n : Nat) : State :=
  if (s.chan n).phase = .idle then s else s.freeChannel n

/-- R48, R90: another block's write undefines a slot; a channel bound to it ends silently. -/
def State.undefineSlot (s : State) (n : Nat) : State :=
  let s1 := match (s.obj n).bind (·.bound) with
    | some ch => s.silentHalt ch
    | none => s
  s1.onScene fun sc => sc.undefine n

/-! ## Requests (R79 to R82, R89) -/

/-- What a MOVE or another block's request carries. -/
structure MotionRequest where
  channel : Nat
  profile : Nat
  slot : Nat
  moved : Moved
  view : Bool
  targets : Ends
  deriving DecidableEq, Repr

def Moved.empty (m : Moved) : Bool := !(m.p1 || m.p2 || m.w || m.h || m.alpha)

def Moved.union (m k : Moved) : Moved :=
  ⟨m.p1 || k.p1, m.p2 || k.p2, m.w || k.w, m.h || k.h, m.alpha || k.alpha⟩

/-- R66: channel 0 while a page is open; channels 5, 6 and 7 while the sequencer is neither STOPPED nor
SUSPENDED. -/
def State.channelReserved (s : State) (n : Nat) : Bool :=
  (n == 0 && s.nav.page.isSome) ||
    ((n == 5 || n == 6 || n == 7) &&
      match s.seq.state with
      | .stopped | .suspended => false
      | .loading | .waiting | .showing | .changing => true)

/-- Step 2 of R79. -/
def State.moveReserved (s : State) (r : MotionRequest) : Bool :=
  s.channelReserved r.channel || s.seqHeld r.slot || s.nav.page.any fun p => p.highlight == r.slot

/-- The checks of R79 but for step 2, which a block's request does not make (R89). -/
def State.requestChecks (s : State) (r : MotionRequest) (reserved : Bool) :
    List (Bool × RefusalReason) :=
  let o? := s.obj r.slot
  let c := s.chan r.channel
  [ (decide (r.channel < 8) && decide (r.profile < 8) && decide (r.slot < 48) && !r.moved.empty, .range),
    (!reserved, .reserved),
    (o?.isSome, .undefinedSlot),
    (!r.view || o?.any (fun o => o.body.code == 3), .range),
    (o?.all (fun o => o.bound == none || o.bound == some r.channel), .slotBusy),
    (c.phase == .idle || (c.slot == some r.slot && c.view == r.view), .channelBusy),
    (o?.all (fun o => (o.withSizes r.moved (o.clampTargets r.moved r.view r.targets)).valid s.cmdw),
      .range) ]

/-- R81: a new motion on an IDLE channel. -/
def newMotion (o : Obj) (p : Profile) (r : MotionRequest) (owner : Owner) (cmdSlot : Option Nat) :
    Channel :=
  let e0 := o.ends r.view
  let e1 := o.clampTargets r.moved r.view r.targets
  let travel := travelOf e0 e1
  let vtop := peakSearch p p.vs p.lead travel
  { phase := if 0 < p.lead then .lead else risePhase p.vs vtop
    owner := some owner
    slot := some r.slot
    moved := r.moved
    view := r.view
    prof := p
    vtop := vtop
    v := p.vs
    s := 0
    travel := travel
    lead := p.lead
    e0 := e0
    e1 := e1
    hold := none
    release := false
    cmdSlot := cmdSlot }

/-- R82, the phase after an override: the first row that applies. -/
def overridePhase (c : Channel) (p : Profile) (v vtop travel : Nat) : Phase :=
  match c.phase with
  | .lead => .lead
  | .held => .held
  | _ =>
    if travel < v + brakingDistance p v then .decel
    else if vtop < v then .slow
    else if v < vtop then .accel
    else .cruise

/-- R82: the motion turns toward new targets with its speed kept. -/
def overrideMotion (c : Channel) (o : Obj) (p : Profile) (r : MotionRequest) (owner : Owner)
    (cmdSlot : Option Nat) : Channel :=
  let e0 := o.ends r.view
  let e1 := o.clampTargets r.moved r.view r.targets
  let travel := travelOf e0 e1
  let v := max c.v p.vs
  let vtop := peakSearch p v c.lead travel
  { c with
    phase := overridePhase c p v vtop travel
    owner := some owner
    moved := c.moved.union r.moved
    prof := p
    vtop := vtop
    v := if c.phase = .lead then p.vs else v
    s := 0
    travel := travel
    e0 := e0
    e1 := e1
    cmdSlot := cmdSlot }

/-- A request that passes its checks starts a motion or overrides one (R81, R82). -/
def State.applyRequest (s : State) (r : MotionRequest) (owner : Owner) (cmdSlot : Option Nat) : State :=
  match s.obj r.slot with
  | none => s
  | some o =>
    let c := s.chan r.channel
    let p := s.motion.profile r.profile
    if c.phase = .idle then
      (s.onScene fun sc => sc.bind r.slot (some r.channel)).putChan r.channel
        (newMotion o p r owner cmdSlot)
    else s.putChan r.channel (overrideMotion c o p r owner cmdSlot)

/-- R89: a request of the Navigator or the Sequencer; none when it fails a check. -/
def State.request (s : State) (r : MotionRequest) (owner : Owner) : Option State :=
  match firstFailure (s.requestChecks r false) with
  | some _ => none
  | none => some (s.applyRequest r owner none)

/-! ## RETUNE and HALT (R84, R85) -/

/-- R84: a new Vp for the profile copy, a new Vtop and the phase that follows. -/
def Channel.retuned (c : Channel) (peak : Nat) : Channel :=
  let p := { c.prof with vp := clampNat c.prof.vs 4095 peak }
  let vtop := peakSearch p c.v c.lead c.remaining
  let phase := match c.phase with
    | .accel => if vtop < c.v then .slow else .accel
    | .cruise => if vtop < c.v then .slow else if c.v < vtop then .accel else .cruise
    | .slow => if c.v < vtop then .accel else .slow
    | ph => ph
  { c with prof := p, vtop := vtop, phase := phase }

/-- R85, EASE: a channel already in STOPPING is left as it is. -/
def Channel.haltEase (c : Channel) (cmdSlot : Nat) : Channel :=
  if c.phase = .stopping then c
  else
    { c with phase := .stopping, hold := none, release := false,
             cmdSlot := if c.owner = some .command then some cmdSlot else c.cmdSlot }

/-- The checks that RETUNE and HALT share (R84). -/
def State.tuneChecks (s : State) (n : Nat) : List (Bool × RefusalReason) :=
  [ (decide (n < 8), .range),
    (!s.channelReserved n, .reserved),
    ((s.chan n).phase != .idle, .wrongState) ]

/-! ## Holds (R86, R87) -/

/-- R86: a hold applied to a channel that is not IDLE. -/
def Channel.holdWith (c : Channel) (mode : HoldMode) : Channel :=
  match c.phase, mode with
  | .idle, _ => c
  | .stopping, _ => c
  | .held, m => { c with hold := some m, release := false }
  | _, .freeze => { c with phase := .held, hold := some .freeze, release := false }
  | .easing, m => { c with hold := some m, release := false }
  | _, m => { c with phase := .easing, lead := 0, hold := some m, release := false }

/-- R86: a hold of the show's motions. -/
def State.holdAll (s : State) (mode : HoldMode) : State :=
  (List.range 8).foldl
    (fun s n =>
      let c := s.chan n
      if c.phase ≠ .idle ∧ (c.owner = some .sequencer ∨ s.onSlideObject c) then
        s.putChan n (c.holdWith mode)
      else s)
    s

/-- R87: a release of a channel whose hold mode is not none (log entry 15 for EASING under FREEZE). -/
def Channel.released (c : Channel) : Channel :=
  match c.phase, c.hold with
  | .held, _ => c.releaseHeld
  | .easing, some .firm => { c with release := true }
  | .easing, _ =>
    let vtop := peakSearch c.prof c.v 0 c.remaining
    { c with vtop := vtop, phase := if c.v ≤ vtop then .accel else .slow, hold := none }
  | _, _ => { c with hold := none }

/-- R87: the release that SLIDE RESUME and a stop send. -/
def State.releaseAll (s : State) : State :=
  (List.range 8).foldl
    (fun s n =>
      let c := s.chan n
      if c.hold ≠ none then s.putChan n c.released else s)
    s

/-! ## Rewind (R91) -/

/-- R91: the channel of a rewound transition; a HELD channel stays as it is (log entry 30), and an EASING one
keeps its Vtop (log entry 37). -/
def Channel.rewound (c : Channel) : Channel :=
  match c.phase with
  | .held => c
  | .easing =>
    let c' := { c with s := 0, v := c.prof.vs, lead := 0, phase := .held }
    if c.release then c'.releaseHeld else c'
  | _ =>
    let vtop := peakSearch c.prof c.prof.vs c.prof.lead c.travel
    { c with s := 0, v := c.prof.vs, lead := c.prof.lead, vtop := vtop,
             phase := if 0 < c.prof.lead then .lead else risePhase c.prof.vs vtop }

/-- R91: rewind a channel and write its moved fields with E0; a HELD channel stays where it is. -/
def State.rewind (s : State) (n : Nat) : State :=
  let c := s.chan n
  if c.phase = .idle ∨ c.phase = .held then s
  else
    let s1 := match c.slot with
      | some k => s.onScene fun sc => sc.modify k fun o => o.moveTo c.moved c.view c.e0
      | none => s
    s1.putChan n c.rewound

end Sys2Proof.Machine
end

