-- ==== Sys2Proof/Machine/Show.lean ====
section
/-!
DEFINITION. The Slide Sequencer (07): the stepping rule (R134), the load of an index (R138), the ready map
(R136), the validation of a descriptor (R140), the slide object and the change (R141 to R144), the
advance (R145) and the stop (R151).
-/

namespace Sys2Proof.Machine

/-! ## The list setup -/

/-- A step from an index in a direction; none when it leaves the list (R134). -/
def SlideList.next (l : SlideList) (i : Nat) (backward : Bool) : Option Nat :=
  if backward then
    (if 0 < i then some (i - 1) else if l.loop then some (l.count - 1) else none)
  else if i + 1 < l.count then some (i + 1)
  else if l.loop then some 0
  else none

/-- The object slot of slot A or slot B. -/
def SlideList.slot (l : SlideList) : Bank → Nat
  | .a => l.slotA
  | .b => l.slotB

/-- A descriptor's address (R153, R183). -/
def SlideList.descriptor (l : SlideList) (i : Nat) : Nat := l.base + 64 * i

/-- The slide list range (R4, R135). -/
def SlideList.range (l : SlideList) : Window := ⟨l.base, l.count * 64⟩

/-- The list setup in force; the empty list where none is set up, with 48 for slots, which names none: no load begins
then, a stop undefines nothing, and check 7 of R166 takes N as 0 (log entry 47). -/
def Sequencer.setup (q : Sequencer) : SlideList := q.list.getD ⟨0, 0, 48, 48, false⟩

/-- The ready flag of an index (R136). -/
def Sequencer.readyAt (q : Sequencer) (i : Nat) : Bool := q.ready[i]?.getD false

/-- The spare slot: slot A when no slide is on show, otherwise the one not shown (R141). -/
def Sequencer.spare (q : Sequencer) : Bank :=
  match q.shown with
  | some .a => .b
  | _ => .a

/-- The object slot now on show. -/
def Sequencer.shownSlot (q : Sequencer) : Option Nat := q.shown.map q.setup.slot

/-! ## Loading (R136, R138) -/

/-- The load of an index begins; `slot` is the command slot for SLIDE LATE (R138, R153). -/
def State.loadBegin (s : State) (j : Nat) (slot : Option Nat) : State :=
  let late := if s.seq.incoming = some j then s.seq.late else false
  let s1 := s.onSeq fun q => { q with incoming := some j, late := late }
  if !s.seq.readyAt j then
    let s2 := s1.onSeq fun q => { q with state := .waiting, late := true }
    if late then s2
    else s2.raise (.slideLate j (s.seq.setup.descriptor j) s.seq.current) slot
  else if s.takeover.state ≠ .normal then s1.onSeq fun q => { q with state := .loading }
  else
    match s.seq.read with
    | some r =>
      s1.onSeq fun q => { q with state := .loading, read := some { r with overtaken := true } }
    | none =>
      (s1.onSeq fun q => { q with state := .loading, read := some ⟨j, false⟩ }).startFetch .descriptor
        (s.seq.setup.descriptor j) 16

/-- A ready-byte notice (R136). -/
def State.readyNotice (s : State) (i : Nat) (value : Byte) : State :=
  let s1 := s.onSeq fun q => { q with ready := q.ready.setIfInBounds i (value != 0) }
  if s.seq.incoming ≠ some i then s1
  else
    match s.seq.state, s.seq.read with
    | .loading, some r =>
      if r.index = i then s1.onSeq fun q => { q with read := some { r with overtaken := true } } else s1
    | .waiting, _ => if value ≠ 0 ∧ s.takeover.state = .normal then s1.loadBegin i none else s1
    | _, _ => s1

/-! ## Stopping (R151) -/

/-- The stop of R151, which the stops of R140 and R170 share: the pause mode goes with a pause and stands
otherwise. Jump pending ends with the load (R167). -/
def State.stopShow (s : State) : State :=
  let l := s.seq.setup
  let s1 := ((s.silentHalt 5).silentHalt 6).silentHalt 7
  let s2 := if (s1.obj l.slotA).isSome then s1.undefineSlot l.slotA else s1
  let s3 := if (s2.obj l.slotB).isSome then s2.undefineSlot l.slotB else s2
  let s4 := if s.seq.paused then s3.releaseAll else s3
  (s4.onSeq fun q =>
    { q with
      read := q.read.map fun r => { r with overtaken := true }
      paused := false, pauseMode := if q.paused then none else q.pauseMode
      shown := none, current := none, incoming := none,
      onShow := none, incomingDesc := none, dwell := 0, panOwed := false, await5 := false,
      await6 := false, skip := 0, state := .stopped }).onTakeover
    fun t => { t with jumpPending := false }

/-! ## The change (R142, R144) -/

/-- The pan request on channel 7 for the slide on show; when it fails the slide stays without a pan
(R142). -/
def State.panRequest (s : State) : State :=
  match s.seq.onShow, s.seq.shownSlot with
  | some o, some n =>
    (s.request
      { channel := 7, profile := o.panProfile, slot := n, moved := ⟨true, true, false, false, false⟩,
        view := true, targets := ⟨16 * (o.panX : Int), 16 * (o.panY : Int), 0, 0, 0⟩ }
      .sequencer).getD s
  | _, _ => s

/-- The on-show record of a descriptor (R142). -/
def Descriptor.onShow (d : Descriptor) : OnShow :=
  ⟨d.dwell, d.panPresent, d.panProfile, d.panEndX, d.panEndY⟩

/-- The slot on show, if any, is undefined (R142). -/
def State.undefineShown (s : State) : State :=
  match s.seq.shownSlot with
  | some n => s.undefineSlot n
  | none => s

/-- A change completes as one change (R142); `kind` is the kind made, `snapped` and `slot` go into SLIDE
SHOWN (R153). -/
def State.changeComplete (s : State) (kind : Nat) (snapped : Bool) (slot : Option Nat) : State :=
  let l := s.seq.setup
  let new := s.seq.spare
  let index := s.seq.incoming.getD 0
  let d := descriptorOf (s.seq.incomingDesc.getD [])
  let s2 := s.undefineShown.onSeq fun q =>
    { q with shown := some new, current := s.seq.incoming, incoming := none, incomingDesc := none,
             await5 := false, await6 := false, onShow := some d.onShow, dwell := d.dwell,
             state := .showing }
  let s3 := s2.raise
    (.slideShown index kind s.seq.shown.isNone snapped (l.descriptor index) (l.slot new)) slot
  if d.panPresent then
    (if s.seq.paused then s3.onSeq fun q => { q with panOwed := true } else s3.panRequest)
  else s3

/-- A channel is among the awaited channels. -/
def Sequencer.awaits (q : Sequencer) (n : Nat) : Bool := (n == 5 && q.await5) || (n == 6 && q.await6)

/-- A completion notice for a SEQUENCER channel (R144): it takes an awaited channel off, whatever the reason it
carries (log entry 33). The kind of the incoming descriptor is reported as it stands (log entry 39). -/
def State.notice (s : State) (n : Nat) (snapped : Bool) (slot : Option Nat) : State :=
  if s.seq.state ≠ .changing ∨ !s.seq.awaits n then s
  else
    let s1 := s.onSeq fun q =>
      { q with await5 := q.await5 && n != 5, await6 := q.await6 && n != 6 }
    if s1.seq.await5 || s1.seq.await6 then s1
    else s1.changeComplete (descriptorOf (s.seq.incomingDesc.getD [])).kind snapped slot

/-- A motion ends and its owner hears of it: MOTION DONE with the slot `done` for a COMMAND owner, a completion
notice for the Sequencer with the slot `shown` for its SLIDE SHOWN; the Navigator's changes nothing (R77, R78,
R123, R144). -/
def State.endMotion (s : State) (n : Nat) (reason : EndReason) (abrupt snapped : Bool)
    (done shown : Option Nat) : State :=
  let c := s.chan n
  let s1 := (s.reportEnd n reason abrupt done).freeChannel n
  if c.owner = some .sequencer then s1.notice n snapped shown else s1

/-! ## The descriptor (R140) -/

/-- The checks of R140: the reason of the first that fails. -/
def Descriptor.fault (d : Descriptor) (cmdw : Nat) : Option SkipReason :=
  if !(1 ≤ d.imageW && d.imageW ≤ 4096 && 1 ≤ d.imageH && d.imageH ≤ 4096) then some .size
  else if !(d.stride % 4 == 0 && d.imageW * 4 ≤ d.stride && d.stride ≤ 16384) then some .stride
  else if !(d.image % 4 == 0 && d.image + d.stride * (d.imageH - 1) + d.imageW * 4 ≤ cmdw) then
    some .source
  else if !(1 ≤ d.kind && d.kind ≤ 4) then some .kind
  else if !(d.profile ≤ 7 && (!d.panPresent || d.panProfile ≤ 7)) then some .profile
  else none

/-- An invalid descriptor is skipped (R140). A skip count of N, which only a save record brings, rises past N and
past the range of R133, and the sweep does not stop for it (DESIGN CHOICE, log entry 53). -/
def State.skipSlide (s : State) (i : Nat) (reason : SkipReason) : State :=
  let l := s.seq.setup
  let skip := s.seq.skip + 1
  let s1 := (s.onSeq fun q => { q with skip := skip }).raise
    (.slideSkipped i reason (l.descriptor i) skip) none
  let noShow (t : State) : State :=
    t.stopShow.raise (.showEnd none false false l.base l.count) none
  if skip = l.count then noShow s1
  else
    match l.next i s.seq.backward with
    | some j => s1.loadBegin j none
    | none =>
      if s.seq.shown.isSome then
        ((s1.onSeq fun q => { q with state := .showing, incoming := none, dwell := 0 }).onTakeover
          fun t => { t with jumpPending := false }).raise
          (.showEnd s.seq.current true s.seq.backward l.base l.count) none
      else noShow s1

/-! ## The slide object and the transition (R141, R143) -/

/-- The Composer's canvas size at this moment; while it is DISABLED a free value, a fresh one for each
`count` (log entry 17). -/
def Composer.canvasSize (k : Composer) (count : Nat) : Nat × Nat :=
  match k.canvas with
  | some c => (c.width, c.height)
  | none => (320 + 16 * (Config.disabledCanvas count).1.val, 240 + 8 * (Config.disabledCanvas count).2.val)

/-- A free value has been taken for a canvas size while the Composer is DISABLED (log entry 17). -/
def State.countFree (s : State) : State :=
  if s.composer.canvas.isNone then { s with freeCount := s.freeCount + 1 } else s

/-- The kinds of transition (R143), with the codes of R183. -/
inductive Transition where
  | cut
  | fade
  | pushLeft
  | pushRight
  deriving DecidableEq, Repr

def Transition.ofCode : Nat → Transition
  | 2 => .fade
  | 3 => .pushLeft
  | 4 => .pushRight
  | _ => .cut

def Transition.code : Transition → Nat
  | .cut => 1
  | .fade => 2
  | .pushLeft => 3
  | .pushRight => 4

/-- The shift of a PUSH's new object from its centred x, in subpixels (R143). -/
def Transition.shift (t : Transition) (width : Nat) : Int :=
  match t with
  | .pushLeft => (width * 16 : Nat)
  | .pushRight => -((width * 16 : Nat) : Int)
  | _ => 0

/-- The size and the centred x and y of the slide object (R141). -/
def Descriptor.box (d : Descriptor) (width height : Nat) : Nat × Nat × Int × Int :=
  let w := min width d.imageW
  let h := min height d.imageH
  (w, h, (((width - w) / 2 * 16 : Nat) : Int), (((height - h) / 2 * 16 : Nat) : Int))

/-- The record of the slide object at its definition (R141, R143). -/
def Descriptor.slideObject (d : Descriptor) (width height : Nat) (t : Transition) : Obj :=
  let (w, h, x, y) := d.box width height
  let rangeX := (d.imageW - w) * 16
  let rangeY := (d.imageH - h) * 16
  { group := .slide, visible := true, x := x + t.shift width, y := y, w := w, h := h,
    alpha := if t = .fade then 0 else 255,
    clip := false, clipX0 := 0, clipY0 := 0, clipX1 := 2048, clipY1 := 2048,
    body := .slide d.image d.stride d.imageW d.imageH
      (if d.panPresent then min rangeX (16 * d.panStartX) else (d.imageW - w) / 2 * 16)
      (if d.panPresent then min rangeY (16 * d.panStartY) else (d.imageH - h) / 2 * 16),
    bound := none }

/-- The request of a transition on channel 5 or 6 (R143). -/
def transitionRequest (channel profile slot : Nat) (moved : Moved) (targets : Ends) : MotionRequest :=
  { channel := channel, profile := profile, slot := slot, moved := moved, view := false,
    targets := targets }

/-- The requests of a FADE or a PUSH, and whether the Motion Engine took them all; when it fails one, the
transition channel just started is halted silently (R143). -/
def State.transitionRequests (s : State) (d : Descriptor) (t : Transition) (width : Nat) (centredX : Int) :
    State × Bool :=
  let new := s.seq.setup.slot s.seq.spare
  let p1 : Moved := ⟨true, false, false, false, false⟩
  let first :=
    if t = .fade then
      transitionRequest 6 d.profile new ⟨false, false, false, false, true⟩ ⟨0, 0, 0, 0, 255⟩
    else transitionRequest 6 d.profile new p1 ⟨centredX, 0, 0, 0, 0⟩
  match s.request first .sequencer with
  | none => (s, false)
  | some s1 =>
    match t, s.seq.shownSlot with
    | .fade, _ => (s1, true)
    | _, none => (s1, true)
    | _, some old =>
      let oldX := ((s.obj old).map (·.x)).getD 0
      match s1.request (transitionRequest 5 d.profile old p1 ⟨oldX - t.shift width, 0, 0, 0, 0⟩)
          .sequencer with
      | some s2 => (s2, true)
      | none => (s1.silentHalt 6, false)

/-- The transition of a slide whose object has been defined and placed (R143). -/
def State.transition (s : State) (d : Descriptor) (t : Transition) (width : Nat) (centredX : Int) : State :=
  let s1 := (s.silentHalt 7).onSeq fun q => { q with panOwed := false }
  if t = .cut then s1.changeComplete Transition.cut.code false none
  else
    let (s2, taken) := s1.transitionRequests d t width centredX
    if taken then
      s2.onSeq fun q =>
        { q with state := .changing, await6 := true, await5 := t != .fade && s.seq.shown.isSome }
    else
      (s2.onScene fun sc =>
          sc.modify (s.seq.setup.slot s.seq.spare) fun o => { o with alpha := 255, x := centredX }
        ).changeComplete Transition.cut.code false none

/-- A valid descriptor starts its slide in the spare slot (R141), and the change begins (R143). A change
made while the show is paused or a jump is pending is a CUT (R143, R167). A binding of the spare slot, which only an
edited save record leaves it, lasts until its channel is IDLE (R67), so the new record shows it (DEDUCED, log
entry 49). -/
def State.startSlide (s : State) (bytes : List Byte) : State :=
  let d := descriptorOf bytes
  let (width, height) := s.composer.canvasSize s.freeCount
  let t := if s.seq.paused || s.takeover.jumpPending then .cut else Transition.ofCode d.kind
  let new := s.seq.setup.slot s.seq.spare
  let position := match s.seq.shownSlot with
    | some old => Position.above old
    | none => .bottom
  let (_, _, centredX, _) := d.box width height
  let s1 := s.countFree.onScene fun sc =>
    let o := { d.slideObject width height t with bound := (sc.obj new).bind (·.bound) }
    { (sc.put new (some o)).place new position with mark := true }
  let s2 := (s1.onSeq fun q => { q with incomingDesc := some (bytes.take 32), skip := 0 }).onTakeover
    fun u => { u with jumpPending := false }
  s2.transition d t width centredX

/-- A descriptor read has ended with these bytes (R139). -/
def State.descriptorRead (s : State) (r : DescriptorRead) (bytes : List Byte) : State :=
  let s1 := s.onSeq fun q => { q with read := none }
  if s.seq.state ≠ .loading then s1
  else if r.overtaken ∨ s.seq.incoming ≠ some r.index then
    match s.seq.incoming with
    | some j => s1.loadBegin j none
    | none => s1
  else
    match (descriptorOf bytes).fault s.cmdw with
    | some reason => s1.skipSlide r.index reason
    | none => s1.startSlide bytes

/-! ## The advance (R145) -/

/-- The advance: a step from the current index in direction FORWARD (R145). -/
def State.advance (s : State) : State :=
  let l := s.seq.setup
  match s.seq.current with
  | none => s
  | some i =>
    match l.next i false with
    | some j => (s.onSeq fun q => { q with backward := false }).loadBegin j none
    | none => s.raise (.showEnd (some i) true false l.base l.count) none

/-- The advance that a counted-out dwell calls for comes before anything else. R145 and R173 leave open where
its SLIDE LATE or SHOW END stands among the events that other parties raise at the tick; the model's step after
the tick raises it after all of them and with the increased frame stamp (DESIGN CHOICE, log entry 6). -/
def State.takeOwedAdvance (s : State) : State :=
  if s.seq.advanceOwed then (s.onSeq fun q => { q with advanceOwed := false }).advance else s

end Sys2Proof.Machine
end

