-- ==== Sys2Proof/Machine/Live.lean ====
section
/-!
DEFINITION. What every step of the part does around its own effect while RSTN is high: the first status
write after RSTN (R172), the advance that is owed (R145), and the Event Unit's view of the step (R177,
R178).
-/

namespace Sys2Proof.Machine

/-- The first burst of a status write is presented: the snapshot is taken, the count rises and the flag is
cleared (R177). The snapshot carries the risen count (log entry 40). -/
def State.presentStatus (s : State) : State :=
  let fields := s.status
  s.onEvents fun u =>
    { u with count := u.count + 1, statusPending := false, firstWrite := false,
             presented := some (.statusFirst (fields.words (u.count + 1))) }

/-- The status write that RSTN calls for is presented, so that it shows the reset values of every block
(R172; log entry 11). -/
def State.takeFirstWrite (s : State) : State := if s.events.firstWrite then s.presentStatus else s

/-- What is due comes first: the status write after RSTN (R172) and the advance owed (R145; log entries 6,
11). -/
def State.begin (s : State) : State :=
  let u := s.takeFirstWrite
  u.takeOwedAdvance.noteStatus u

/-- The Event Unit's view of a step that began at `old`: a changed status field sets the status-write
pending flag, and a waiting record is presented (R177, R178). -/
def State.endStep (s old : State) : State := (s.noteStatus old).onEvents EventUnit.present

/-- One step of the part while RSTN is high: what is due, the step's own effect, and the Event Unit's view
of it (R177, R178). While RSTN is low nothing happens (R1). -/
def State.live (s : State) (f : State → State) : Result :=
  if s.rstnLow then .next s else .next ((f s.begin).endStep s.begin)

end Sys2Proof.Machine
end

