-- ==== Sys2Proof/Machine/Bridge.lean ====
section
/-!
DEFINITION. The controller side of the Bus Bridge (01): taking a request (R3), the status split (R8),
guards (R7, R9, R10), command writes and the held write (R11 to R13, R23, R24), the notices of a granted
write (R14 to R16, R129, R136, R175), and the grant of the forwarded request (R5, R6).
-/

namespace Sys2Proof.Machine

/-! ## Taking a request (R3) -/

/-- The controller side goes to FORWARDING with a request (R3). -/
def State.forward (s : State) (f : Forwarded) : State :=
  s.onBridge fun b => { b with side := .forwarding f }

/-- The test of R11 that a burst into the command area fails first, if any; `off` is its offset in the
Command Window. -/
def strayTest (off : Nat) (lanes : List Lane) : Option StrayReason :=
  let first := lanes.headD ⟨0, 0⟩
  if off % 32 ≠ 0 then some .alignment
  else if first.enables ≠ 15 then some .enables
  else if headerLength first.data ≠ lanes.length then some .length
  else none

/-- A command joins the end of the queue; each entry is a change of the free entries (R23). One that joins an
empty queue is in no run (R25). -/
def State.enqueue (s : State) (c : Command) : State :=
  (s.onIntake fun i =>
    { i with queue := i.queue ++ [c], inRun := i.inRun && !i.queue.isEmpty }).touchStatus

/-- The command that a burst carries (R21). -/
def commandOf (slot : Nat) (lanes : List Lane) : Command := ⟨slot, lanes.map (·.data)⟩

/-- A write at offset `off` of the command area: a stray write, an offered command that the Intake takes, or
the held write (R11, R12, R23). -/
def State.commandAt (s : State) (addr off : Nat) (lanes : List Lane) : State :=
  let slot := off / 32
  match strayTest off lanes with
  | some reason =>
    (s.raise (.strayWrite reason addr lanes.length) (some slot)).forward (.write addr lanes)
  | none =>
    if s.intake.queue.length < Config.queueCapacity then
      (s.enqueue (commandOf slot lanes)).forward (.write addr lanes)
    else s.onBridge fun b => { b with side := .holding addr lanes slot 0 }

/-- A write into the command area, judged by its offset in the Command Window (R11). -/
def State.commandWrite (s : State) (addr : Nat) (lanes : List Lane) : State :=
  s.commandAt addr (addr - s.cmdw) lanes

/-- The offset of the consumer word (R8, R186). -/
def consumerOffset : Nat := 0xC04

/-- A lane is the consumer part: the word at C04h with all four byte enables set (R8). -/
def isConsumerLane (off : Nat) (l : Lane) : Bool := off == consumerOffset && l.enables == 15

/-- The lanes of a burst with their offsets in the Command Window. -/
def laneOffsets : Nat → List Lane → List (Nat × Lane)
  | _, [] => []
  | off, l :: ls => (off, l) :: laneOffsets (off + 4) ls

/-- A write at offset `off` of the Command Window, into the status block, is split (R8). -/
def State.statusAt (s : State) (addr off : Nat) (lanes : List Lane) : State :=
  let parts := laneOffsets off lanes
  let discarded := parts.any fun (o, l) => !isConsumerLane o l && l.enables != 0
  let s1 := if discarded then s.judgeGuard .status addr lanes.length else s
  match parts.find? fun (o, l) => isConsumerLane o l with
  | some (_, l) => s1.forward (.write (s.cmdw + consumerOffset) [l])
  | none => s1

/-- A write into the status block, split by its offset in the Command Window (R8). -/
def State.statusSplit (s : State) (addr : Nat) (lanes : List Lane) : State :=
  s.statusAt addr (addr - s.cmdw) lanes

/-- The Bridge takes a request in READY and classifies it against the Command Window (R3). -/
def State.accept (s : State) (r : Request) : State :=
  let a := r.addr.toNat % s.bridge.memSize
  match r with
  | .read _ enables => s.forward (.read a enables)
  | .write _ lanes =>
    if a < s.cmdw then s.forward (.write a lanes)
    else if a < s.cmdw + 0x800 then s.commandWrite a lanes
    else if a < s.cmdw + 0xC00 then s.judgeGuard .ring a lanes.length
    else if a < s.cmdw + 0xC40 then s.statusSplit a lanes
    else s.forward (.write a lanes)

/-- In READY the Bridge takes the request; in FORWARDING or HOLDING it waits on the controller side (R3; log
entry 41). -/
def State.takeRequest (s : State) (r : Request) : State :=
  let waits : State := s.onBridge fun b => { b with waiting := b.waiting ++ [r] }
  match s.bridge.side with
  | .ready => s.accept r
  | .forwarding _ => waits
  | .holding _ _ _ _ => waits

/-- In READY the Bridge takes the requests that wait, oldest first, until one of them makes it FORWARDING or
HOLDING (R3; log entry 41). -/
def State.acceptWaiting (s : State) : List Request → State
  | [] => s
  | r :: rest =>
    match s.bridge.side with
    | .ready => ((s.onBridge fun b => { b with waiting := rest }).accept r).acceptWaiting rest
    | .forwarding _ => s
    | .holding _ _ _ _ => s

/-- The controller side returns to READY, and takes the next request when one waits (R3). -/
def State.release (s : State) : State :=
  (s.onBridge fun b => { b with side := .ready }).acceptWaiting s.bridge.waiting

/-! ## The held write (R13, R24) -/

/-- An entry has freed: the held command joins the queue and its write is forwarded (R13, R24). -/
def State.joinHeld (s : State) : State :=
  match s.bridge.side with
  | .holding addr lanes slot _ =>
    if s.intake.queue.length < Config.queueCapacity then
      (s.enqueue (commandOf slot lanes)).forward (.write addr lanes)
    else s
  | _ => s

/-- The bus clock at which the hold count reaches the limit with no entry free: the held write is forwarded
and its command dropped (R13, R24). -/
def State.dropHeld (s : State) : State :=
  match s.bridge.side with
  | .holding addr lanes slot count =>
    let c := commandOf slot lanes
    if count + 1 < Config.holdLimit || decide (s.intake.queue.length < Config.queueCapacity) then s
    else
      ((s.raise (.intakeDrop c.kind c.header s.serviceSlot) (some slot)).onEvents
        fun u => { u with intakeDrop := true }).forward (.write addr lanes)
  | _ => s

/-- One bus clock: the hold count rises while a write is held, and the hold ends when it reaches the limit
(R13; log entry 5). -/
def State.busClock (s : State) : State :=
  match s.bridge.side with
  | .holding addr lanes slot count =>
    if count + 1 < Config.holdLimit then
      s.onBridge fun b => { b with side := .holding addr lanes slot (count + 1) }
    else s.dropHeld
  | _ => s

/-! ## Notices (R14 to R16) -/

/-- Some enabled byte of a burst at `addr` lies in the 784 bytes at a page address (R16). -/
def touchesPage (page : Nat) : Nat → List Lane → Bool
  | _, [] => false
  | addr, l :: ls =>
    ((List.range 4).any fun i =>
      l.enables.getLsbD i && page ≤ addr + i && addr + i < page + Config.pageBytes)
      || touchesPage page (addr + 4) ls

/-- A prefetch notice empties the buffer or marks the in-flight prefetch stale (R129). -/
def Navigator.notice (v : Navigator) (addr : Nat) (lanes : List Lane) : Navigator :=
  { v with
    buffer := v.buffer.filter fun b => !touchesPage b.addr addr lanes
    inflight := v.inflight.map fun f => if touchesPage f.addr addr lanes then { f with stale := true } else f }

/-- The consumer index a word gives: as written inside the span from C to P, otherwise P (R175). -/
def EventUnit.clampIndex (e : EventUnit) (i : Nat) : BitVec 6 :=
  let index : BitVec 6 := BitVec.ofNat 6 i
  if i < 64 ∧ (index - e.c).toNat ≤ (e.p - e.c).toNat then index else e.p

/-- The consumer word. A change of C or of a sticky flag sets the status-write pending flag at once, so that a
flag set again within the same step is not missed (R175 to R177). -/
def EventUnit.consume (e : EventUnit) (w : Word) : EventUnit :=
  let c := e.clampIndex (bits w 0 8)
  { e with
    c := c
    overflow := e.overflow && !flag w 8
    intakeDrop := e.intakeDrop && !flag w 9
    guard := e.guard && !flag w 10
    statusPending :=
      e.statusPending || c != e.c || (e.overflow && flag w 8) || (e.intakeDrop && flag w 9)
        || (e.guard && flag w 10) }

/-- A write lies in the slide list range and covers a descriptor's ready byte: the notice's index and
value (R15). -/
def readyByte (range : Window) (addr : Nat) (lanes : List Lane) : Option (Nat × Byte) :=
  match lanes with
  | l :: _ =>
    if (addr - range.base) % 64 = 0 ∧ l.enables.getLsbD 0 then
      some ((addr - range.base) / 64, l.data.extractLsb' 0 8)
    else none
  | [] => none

/-! ## The grant of the forwarded request (R5, R6) -/

/-- What the window map makes of an address outside the Command Window: the first row of R5 that
matches. -/
inductive WindowClass where
  | scan (base : Nat)
  | save
  | slides (range : Window)
  | elsewhere
  deriving DecidableEq, Repr

/-- The classification at grant (R5); the Command Window has no row there. -/
def State.classify (s : State) (a : Nat) : WindowClass :=
  let m := s.bridge.window
  if s.cmdw ≤ a then .elsewhere
  else
    match m.scan.filter (·.holds a) with
    | some w => .scan w.base
    | none =>
      if (Window.mk m.saveBase 0x1000).holds a then .save
      else
        match m.slides.filter (·.holds a) with
        | some w => .slides w
        | none => .elsewhere

/-- The base of a bank. -/
def CanvasSetup.bank (c : CanvasSetup) : Bank → Nat
  | .a => c.bankA
  | .b => c.bankB

/-- The address a forwarded read goes to: in the Scan Window, the same offset in the bank that the front
designation copy names (R6). -/
def State.translate (s : State) (a : Nat) : Nat :=
  match s.classify a, s.composer.canvas with
  | .scan base, some c => c.bank s.bridge.window.front + (a - base)
  | _, _ => a

/-- The guard that discards a write at grant, if any (R5, R7, R9). -/
def State.grantGuard (s : State) (a : Nat) : Option GuardArea :=
  match s.classify a with
  | .scan _ => some .scan
  | .save => if s.takeover.state = .menuOver then none else some .save
  | _ => none

/-- The notices that a granted write gives, each to its owner (R14, R15, R16, R8). -/
def State.giveNotices (s : State) (a : Nat) (lanes : List Lane) : State :=
  let s1 := s.onNav fun v => v.notice a lanes
  let s2 := match s.classify a with
    | .slides range =>
      (match readyByte range a lanes with
        | some (i, v) => s1.readyNotice i v
        | none => s1)
    | _ => s1
  if a = s.cmdw + consumerOffset then
    s2.onEvents fun u => u.consume ((lanes.headD ⟨0, 0⟩).data)
  else s2

/-- The forwarded request is granted or, under a guard, discarded, which counts as no grant and leaves the next
choice to the internal classes still waiting; `internalWaits` says whether one waits (R5, R18; log entry 46). -/
def State.grantForwarded (s : State) (f : Forwarded) (internalWaits : Bool) : State :=
  let count (t : State) : State :=
    t.onBridge fun b => { b with streak := if internalWaits then b.streak + 1 else 0, passed := false }
  match f with
  | .read a enables =>
    (count (s.onBridge fun b =>
      { b with readData := s.readWords (s.translate a) enables.length })).release
  | .write a lanes =>
    match s.grantGuard a with
    | some area =>
      ((s.judgeGuard area a lanes.length).onBridge fun b => { b with passed := internalWaits }).release
    | none => (count ((s.writeLanes a lanes).giveNotices a lanes)).release

end Sys2Proof.Machine
end

