-- ==== Sys2Proof/Machine/Compose.lean ====
section
/-!
DEFINITION. Drawing (05): the drawn area (R102), source pixels (R103, R104), blending (R105), the base
layer (R106), and the bursts of a band with what each reads or writes (R101, R107, R108).
-/

namespace Sys2Proof.Machine

/-! ## Pixels (R105, R106) -/

/-- The four channels of an ARGB word. -/
structure Pixel where
  a : Nat
  r : Nat
  g : Nat
  b : Nat
  deriving DecidableEq, Repr

def pixelOf (w : Word) : Pixel := ⟨bits w 24 8, bits w 16 8, bits w 8 8, bits w 0 8⟩

def Pixel.word (p : Pixel) : Word :=
  wordOf (BitVec.ofNat 8 p.b) (BitVec.ofNat 8 p.g) (BitVec.ofNat 8 p.r) (BitVec.ofNat 8 p.a)

/-- The effective alpha of a source pixel's alpha and an object's alpha (R105). -/
def effectiveAlpha (p o : Nat) : Nat := (p * o + 127) / 255

/-- A colour channel after a blend (R105). -/
def blendChannel (s d a : Nat) : Nat := (s * a + d * (255 - a) + 127) / 255

/-- The alpha after a blend (R105). -/
def blendAlpha (da a : Nat) : Nat := min 255 (a + (da * (255 - a) + 127) / 255)

/-- Blend a source pixel of an object of alpha `o` over a canvas pixel (R105). -/
def blend (src : Pixel) (o : Nat) (dst : Pixel) : Pixel :=
  let a := effectiveAlpha src.a o
  { a := blendAlpha dst.a a, r := blendChannel src.r dst.r a, g := blendChannel src.g dst.g a,
    b := blendChannel src.b dst.b a }

/-- A colour channel of the backdrop under the dim (R106). -/
def dimChannel (c dim : Nat) : Nat := (c * dim + 127) / 255

/-- A backdrop pixel as a base layer: colours dimmed, alpha kept (R106). -/
def dimPixel (dim : Nat) (p : Pixel) : Pixel :=
  ⟨p.a, dimChannel p.r dim, dimChannel p.g dim, dimChannel p.b dim⟩

/-! ## The drawn area (R102) -/

def Obj.left (o : Obj) : Int := (o.x + 8) / 16
def Obj.top (o : Obj) : Int := (o.y + 8) / 16

/-- The columns lo ≤ c < hi of the drawn area on a canvas `width` wide; empty when hi ≤ lo. -/
def Obj.columns (o : Obj) (width : Nat) : Nat × Nat :=
  let lo := max 0 (if o.clip then max o.left o.clipX0 else o.left)
  let right := o.left + o.w
  let hi := min (width : Int) (if o.clip then min right o.clipX1 else right)
  (lo.toNat, hi.toNat)

/-- The rows of the drawn area on a canvas `height` high. -/
def Obj.rows (o : Obj) (height : Nat) : Nat × Nat :=
  let lo := max 0 (if o.clip then max o.top o.clipY0 else o.top)
  let bottom := o.top + o.h
  let hi := min (height : Int) (if o.clip then min bottom o.clipY1 else bottom)
  (lo.toNat, hi.toNat)

/-- A canvas pixel lies in the drawn area. -/
def Obj.covers (o : Obj) (setup : CanvasSetup) (c r : Nat) : Bool :=
  let cols := o.columns setup.width
  let rows := o.rows setup.height
  cols.1 ≤ c && c < cols.2 && rows.1 ≤ r && r < rows.2

/-- The rows of band `k` that the drawn area meets. -/
def Obj.bandRows (o : Obj) (setup : CanvasSetup) (k : Nat) : List Nat :=
  let cols := o.columns setup.width
  let rows := o.rows setup.height
  if cols.1 < cols.2 then
    ((List.range 8).map (8 * k + ·)).filter fun r => rows.1 ≤ r && r < rows.2
  else []

/-! ## Source pixels (R103, R104) -/

/-- The address of the source byte or word at object column j and row i; none for a FILL (R103, R104). -/
def Obj.sourceAddr (o : Obj) (j i : Nat) : Option Nat :=
  match o.body with
  | .fill _ => none
  | .bitmap8 _ src stride => some (src + i * stride + j)
  | .bitmap32 src stride => some (src + i * stride + j * 4)
  | .slide src stride _ _ vx vy =>
    some (src + ((vy + 8) / 16 + i) * stride + ((vx + 8) / 16 + j) * 4)

/-- Bytes per pixel of the source. -/
def Obj.pixelBytes (o : Obj) : Nat :=
  match o.body with
  | .bitmap8 _ _ _ => 1
  | _ => 4

/-- What a composition has read at an address for a source; 0 for an address not read. -/
def lookupWord (reads : List SourceRead) (source : Option Nat) (addr : Nat) : Word :=
  match reads.find? fun r =>
      r.source == source && decide (r.addr ≤ addr) && decide (addr < r.addr + 4 * r.words.length) with
  | some r => r.words.getD ((addr - r.addr) / 4) 0
  | none => 0

/-- The source pixel of the object at a place of the copied order (R103, R104). -/
def sourcePixel (palettes : Vector (Vector Word 256) 4) (reads : List SourceRead) (place : Nat) (o : Obj)
    (j i : Nat) : Pixel :=
  match o.body, o.sourceAddr j i with
  | .fill colour, _ => pixelOf colour
  | .bitmap8 palette _ _, some addr =>
    let w := lookupWord reads (some place) (addr / 4 * 4)
    let entry := bits w (8 * (addr % 4)) 8
    pixelOf ((palettes[palette]?.getD (Vector.replicate 256 0))[entry]?.getD 0)
  | _, some addr => pixelOf (lookupWord reads (some place) addr)
  | _, none => ⟨0, 0, 0, 0⟩

/-! ## A canvas pixel (R101, R106) -/

/-- The address of a canvas pixel in a region (05, 5.2). -/
def CanvasSetup.pixelAddr (setup : CanvasSetup) (base c r : Nat) : Nat := base + (r * setup.width + c) * 4

/-- The base layer of a pixel (R106). -/
def Composition.basePixel (k : Composition) (c r : Nat) : Pixel :=
  match k.dim with
  | none => ⟨0, 0, 0, 0⟩
  | some dim =>
    dimPixel dim (pixelOf (lookupWord k.reads none (k.setup.pixelAddr k.setup.backdrop c r)))

/-- The pixel at column c and row r: the base layer, then every visible object that covers it, back to
front (R101). -/
def Composition.pixel (k : Composition) (palettes : Vector (Vector Word 256) 4) (c r : Nat) : Pixel :=
  (k.copy.zipIdx).foldl
    (fun p ((_, o), place) =>
      if o.visible && o.covers k.setup c r then
        blend
          (sourcePixel palettes k.reads place o ((c : Int) - o.left).toNat ((r : Int) - o.top).toNat)
          o.alpha p
      else p)
    (k.basePixel c r)

/-! ## The bursts of a band (R107) -/

/-- A burst of the Composer: a read of `words` words for the backdrop (`none`) or a copied object, or a
write of the 8 pixels from a column and row of the canvas. -/
inductive ComposeBurst where
  | read (source : Option Nat) (addr : Nat) (words : Nat)
  | write (c r : Nat)
  deriving DecidableEq, Repr

/-- The rows of band `k`. -/
def bandRowNumbers (k : Nat) : List Nat := (List.range 8).map (8 * k + ·)

/-- The first columns of a row's bursts of 8 pixels. -/
def CanvasSetup.burstColumns (setup : CanvasSetup) : List Nat :=
  (List.range (setup.width / 8)).map (8 * ·)

/-- The backdrop reads of a band (R107, item 1). -/
def Composition.backdropReads (k : Composition) : List ComposeBurst :=
  if k.dim.isNone then []
  else
    (bandRowNumbers k.band).flatMap fun r =>
      k.setup.burstColumns.map fun c => .read none (k.setup.pixelAddr k.setup.backdrop c r) 8

/-- The source reads of one object in a band: the blocks that hold the needed bytes, row by row, each with
the words of the block that are needed (R107, item 2). -/
def Composition.objectReads (k : Composition) (place : Nat) (o : Obj) : List ComposeBurst :=
  if !o.visible then []
  else
    let cols := o.columns k.setup.width
    (o.bandRows k.setup k.band).flatMap fun (r : Nat) =>
      match o.sourceAddr ((cols.1 : Int) - o.left).toNat ((r : Int) - o.top).toNat with
      | none => []
      | some addr =>
        let first := addr / 4 * 4
        let last := (addr + (cols.2 - cols.1) * o.pixelBytes + 3) / 4 * 4
        (splitBursts ((last - first) / 4) first ((last - first) / 4)).map fun (a, n) =>
          .read (some place) a n

/-- The band writes (R107, item 3). -/
def Composition.bandWrites (k : Composition) : List ComposeBurst :=
  (bandRowNumbers k.band).flatMap fun r => k.setup.burstColumns.map fun c => .write c r

/-- All bursts of the current band in order (R107). -/
def Composition.bandBursts (k : Composition) : List ComposeBurst :=
  k.backdropReads ++ (k.copy.zipIdx.flatMap fun ((_, o), place) => k.objectReads place o) ++ k.bandWrites

/-- The bands of the canvas (R101). -/
def CanvasSetup.bands (setup : CanvasSetup) : Nat := setup.height / 8

/-! ## A COMPOSE grant (R107, R108) -/

/-- After a burst of the current band: the next burst, the next band, or the end of the composition, whose
last write ends with COMPOSITION_COMPLETE (R98, R101). -/
def State.nextBurst (s : State) (k : Composition) (bursts : Nat) : State :=
  if k.granted + 1 < bursts then s.onComposer fun p => { p with comp := some { k with granted := k.granted + 1 } }
  else if k.band + 1 < k.setup.bands then
    s.onComposer fun p => { p with comp := some { k with band := k.band + 1, granted := 0, reads := [] } }
  else
    (s.onComposer fun p => { p with comp := some { k with granted := k.granted + 1 } }).onBridge
      fun b => { b with busy := some .composition }

/-- The grant of the Composer's next burst: a read takes memory as it stands, a write stores 8 pixels into
the back bank (R107, R108). -/
def State.grantCompose (s : State) : State :=
  match s.composer.comp with
  | none => s
  | some k =>
    let bursts := k.bandBursts
    match bursts[k.granted]? with
    | none => s
    | some (.read source addr n) =>
      s.nextBurst { k with reads := k.reads ++ [⟨source, addr, s.readWords addr n⟩] } bursts.length
    | some (.write c r) =>
      let words := (List.range 8).map fun i => (k.pixel s.scene.palettes (c + i) r).word
      (s.writeWords (k.setup.pixelAddr (k.setup.bank k.back) c r) words).nextBurst k bursts.length

/-- A composition has a burst to present (R17). -/
def State.composeWaits (s : State) : Bool :=
  match s.composer.comp with
  | none => false
  | some k => (k.bandBursts[k.granted]?).isSome

end Sys2Proof.Machine
end

