-- ==== Sys2Proof/Machine/Navigator.lean ====
section
/-!
DEFINITION. The Menu Navigator (06): page addresses (R114), validation (R116), installation (R117, R118),
the opening of a page (R114, R125, R126), focus moves (R120 to R122), the prefetch (R128, R130) and the
close (R127).
-/

namespace Sys2Proof.Machine

/-! ## Buttons and the highlight (R112, R118) -/

/-- The test of R114 on a page address. -/
def pageAddrOk (cmdw addr : Nat) : Bool := addr % 4 == 0 && decide (addr + Config.pageBytes ≤ cmdw)

/-- Button `n` of a page. -/
def Page.button (p : Page) (n : Nat) : Option Button := p.buttons[n]?

/-- Button `n` exists and is enabled. -/
def Page.enabled (p : Page) (n : Nat) : Bool := (p.button n).any (·.enabled)

/-- The focus slot of a button, when it has one. -/
def Page.focusSlot (p : Page) (n : Nat) : Option Nat := (p.button n).bind (·.focusSlot)

/-- The grown rectangle of a button before it is held to the field ranges (R112). -/
def Button.grown (b : Button) (margin : Nat) : Ends :=
  { p1 := 16 * (b.x - margin), p2 := 16 * (b.y - margin), w := b.w + 2 * margin, h := b.h + 2 * margin,
    alpha := 0 }

/-- The fields of a glide: P1, P2, W and H (R122). -/
def glideFields : Moved := ⟨true, true, true, true, false⟩

/-- The size pre-check: the highlight's record with the grown rectangle's size is valid (R118). -/
def Obj.sizeFits (o : Obj) (cmdw : Nat) (grown : Ends) : Bool :=
  (o.withSizes glideFields (o.clampTargets glideFields false grown)).valid cmdw

/-- The highlight's geometry written directly, under the size pre-check (R118). -/
def Obj.jump (o : Obj) (cmdw : Nat) (grown : Ends) : Obj :=
  let e := o.clampTargets glideFields false grown
  let sized := if o.sizeFits cmdw grown then o.withSizes glideFields e else o
  { sized with x := e.p1, y := e.p2 }

/-- Another block's write of a visible field (R48). -/
def State.setVisible (s : State) (n : Nat) (v : Bool) : State :=
  s.onScene fun sc => sc.modify n fun o => { o with visible := v }

/-- The visible field of a focus slot, where there is one. -/
def State.showFocusSlot (s : State) (slot : Option Nat) (v : Bool) : State :=
  match slot with
  | some n => s.setVisible n v
  | none => s

/-! ## Validation (R116) -/

/-- A slot 0..47 that holds a defined MENU-group object. -/
def State.menuSlot (s : State) (n : Nat) : Bool := decide (n < 48) && s.scene.inGroup .menu n

/-- The part of check 5 for one button (R116). -/
def State.buttonFault (s : State) (p : Page) (b : Button) : Option PageReason :=
  let ok (n : Option Nat) : Bool := n.all (· < p.buttons.length)
  if !(ok b.up && ok b.down && ok b.left && ok b.right) then some .neighbour
  else if !(b.focusSlot.all fun n => s.menuSlot n && n != p.highlight) then some .focusSlot
  else none

/-- The first button at fault, in number order, with its number (R116). -/
def State.buttonsFault (s : State) (p : Page) : Nat → List Button → Option (PageReason × Nat)
  | _, [] => none
  | n, b :: bs =>
    match s.buttonFault p b with
    | some reason => some (reason, n)
    | none => s.buttonsFault p (n + 1) bs

/-- The checks of R116: the reason of the first that fails, with value B of PAGE REJECTED. -/
def State.pageFault (s : State) (bytes : List Byte) : Option (PageReason × Nat) :=
  let p := pageAt 0 bytes
  if pageFormat bytes ≠ 1 then some (.format, pageFormat bytes)
  else if ¬ (1 ≤ pageCount bytes ∧ pageCount bytes ≤ 32) then some (.count, pageCount bytes)
  else if 7 < p.profile then some (.profile, p.profile)
  else if !s.menuSlot p.highlight then some (.highlight, p.highlight)
  else s.buttonsFault p 0 p.buttons

/-! ## Installation (R117, R118) -/

/-- The initial focus rule (R117). -/
def Page.initialFocus (p : Page) : Option Nat :=
  if p.enabled p.initial then some p.initial
  else (List.range p.buttons.length).find? p.enabled

/-- The focus at installation (R117, item 3). -/
def Page.focusFor (p : Page) (cause : Cause) (saved : Nat) : Option Nat :=
  if cause = .back ∧ p.enabled saved then some saved else p.initialFocus

/-- The scene and channel 0 at installation, from the old page and focus to the new (R118). The old focus slot
is made invisible after the highlight's visibility is set (log entry 34), and each write is judged by itself for
the mark (log entry 42). -/
def State.dressPage (s : State) (old : Option Page) (oldFocus : Option Nat) (p : Page)
    (focus : Option Nat) : State :=
  let s1 := s.silentHalt 0
  let s2 := match (s1.obj p.highlight).bind (·.bound) with
    | some ch => s1.silentHalt ch
    | none => s1
  let s3 := match focus.bind p.button with
    | some b => s2.onScene fun sc => sc.modify p.highlight fun o => o.jump s.cmdw (b.grown p.margin)
    | none => s2
  let s4 := match old with
    | some q => if q.highlight ≠ p.highlight then s3.setVisible q.highlight false else s3
    | none => s3
  let s5 := s4.setVisible p.highlight focus.isSome
  let s6 := if s5.scene.placed p.highlight then s5
    else s5.onScene fun sc => sc.place p.highlight .top
  let s7 := s6.showFocusSlot (old.bind fun q => oldFocus.bind q.focusSlot) false
  let s8 := p.buttons.foldl (fun t b => t.showFocusSlot b.focusSlot false) s7
  s8.showFocusSlot (focus.bind p.focusSlot) true

/-- A valid page is installed (R117); `slot` is the causing command's. -/
def State.installPage (s : State) (p : Page) (cause : Cause) (saved : Nat) (fromBuffer : Bool)
    (slot : Nat) : State :=
  let focus := p.focusFor cause saved
  let s1 := s.onNav fun v =>
    { v with page := some p, focus := focus, stack := if cause = .command then [] else v.stack }
  (s1.dressPage s.nav.page s.nav.focus p focus).raise
    (.pageOpened focus cause fromBuffer p.addr p.buttons.length) (some slot)

/-- A rejected page (R116): a rejected ENTER pops the record it pushed, a rejected BACK pushes back the
record it popped (R124). -/
def State.rejectPage (s : State) (cause : Cause) (addr saved : Nat) (reason : PageReason) (detail : Nat)
    (slot : Nat) : State :=
  let s1 := match cause with
    | .command => s
    | .enter => s.onNav fun v => { v with stack := v.stack.dropLast }
    | .back => s.onNav fun v => { v with stack := v.stack ++ [Link.mk addr saved] }
  s1.raise (.pageRejected cause reason addr detail) (some slot)

/-- The 784 bytes of a page are at hand: it is validated and installed or rejected, with the code of the
command that caused it (R116, R117). -/
def State.settlePage (s : State) (cause : Cause) (addr saved : Nat) (bytes : List Byte)
    (fromBuffer : Bool) (slot : Nat) : State × Fin 4 :=
  match s.pageFault bytes with
  | some (reason, detail) => (s.rejectPage cause addr saved reason detail slot, 3)
  | none => (s.installPage (pageAt addr bytes) cause saved fromBuffer slot, 0)

/-! ## Opening (R114, R125, R126) -/

/-- A page whose address has passed is taken from the prefetch buffer, from the in-flight prefetch, or by a
page read (R114). -/
def State.openPage (s : State) (cause : Cause) (addr saved : Nat) (slot : Nat) : Verdict :=
  match s.nav.buffer.filter (·.addr == addr) with
  | some b =>
    let (t, code) := s.settlePage cause addr saved b.bytes true slot
    .completed code t
  | none =>
    match s.nav.inflight.filter (fun f => f.addr == addr && !f.stale) with
    | some _ => .began (s.serve slot (.openPage cause addr saved true))
    | none =>
      .began ((s.serve slot (.openPage cause addr saved false)).startFetch .page addr
        (Config.pageBytes / 4))

/-- A page read has ended (R115, R116). -/
def State.pageRead (s : State) (bytes : List Byte) : State :=
  match s.intake.inService with
  | some ⟨slot, .openPage cause addr saved _⟩ =>
    let (t, code) := s.settlePage cause addr saved bytes false slot
    t.complete code
  | _ => s

/-! ## Prefetching (R128, R130) -/

/-- A prefetch read of an address starts (R128, R130). -/
def State.startPrefetch (s : State) (addr : Nat) : State :=
  (s.onNav fun v => { v with inflight := some ⟨addr, false⟩ }).startFetch .prefetch addr
    (Config.pageBytes / 4)

/-- PREFETCH PAGE by the prefetch state (R128). -/
def State.prefetchPage (s : State) (addr : Nat) : State :=
  let v := s.nav
  if v.buffer.any (·.addr == addr) || v.inflight.any (fun f => f.addr == addr && !f.stale)
      || v.waiting == some addr then s
  else
    match v.inflight with
    | none => (s.onNav fun v => { v with buffer := none }).startPrefetch addr
    | some f =>
      s.onNav fun v =>
        { v with buffer := none, inflight := some { f with stale := true }, waiting := some addr }

/-- A pending prefetch becomes the in-flight prefetch (R130). -/
def State.nextPrefetch (s : State) : State :=
  match s.nav.waiting with
  | some addr => (s.onNav fun v => { v with waiting := none }).startPrefetch addr
  | none => s

/-- The command that waits on a prefetch starts its own page read when that read ended stale (R130). -/
def State.ownPageRead (s : State) : State :=
  match s.intake.inService with
  | some ⟨slot, .openPage cause addr saved true⟩ =>
    (s.serve slot (.openPage cause addr saved false)).startFetch .page addr (Config.pageBytes / 4)
  | _ => s

/-- The command that waits on a prefetch takes the new buffer (R130). -/
def State.takeBuffer (s : State) (bytes : List Byte) : State :=
  match s.intake.inService with
  | some ⟨slot, .openPage cause addr saved true⟩ =>
    let (t, code) := s.settlePage cause addr saved bytes true slot
    t.complete code
  | _ => s

/-- A prefetch read has ended; `pageFirst` orders the two reads that may start at this moment (R130,
R20). -/
def State.prefetchRead (s : State) (f : Prefetch) (bytes : List Byte) (pageFirst : Bool) : State :=
  let s1 := s.onNav fun v => { v with inflight := none }
  if f.stale then
    (if pageFirst then s1.ownPageRead.nextPrefetch else s1.nextPrefetch.ownPageRead)
  else ((s1.onNav fun v => { v with buffer := some ⟨f.addr, bytes⟩ }).nextPrefetch).takeBuffer bytes

/-! ## Keys (R119 to R126) -/

/-- The four directions. -/
inductive Direction where
  | up
  | down
  | left
  | right
  deriving DecidableEq, Repr

def Button.neighbour (b : Button) : Direction → Option Nat
  | .up => b.up
  | .down => b.down
  | .left => b.left
  | .right => b.right

/-- The outcome of a neighbour chain: the focus moves to a button, or the key ends with a code. -/
inductive Walk where
  | moved (n : Nat)
  | stays (code : Fin 4)
  deriving DecidableEq, Repr

/-- The neighbour chain from button `n` with `hops` hops left; `first` marks the first hop (R120). -/
def Page.walk (p : Page) (d : Direction) (focus : Nat) : Nat → Nat → Bool → Walk
  | 0, _, _ => .stays 2
  | hops + 1, n, first =>
    match (p.button n).bind (·.neighbour d) with
    | none => .stays (if first then 1 else 2)
    | some k =>
      if k = focus then .stays 2
      else if p.enabled k then .moved k
      else p.walk d focus hops k false

/-- The glide of the highlight to button g: a request on channel 0; W and H are left out when the size
would not fit, and a failed request leaves the highlight where it stands (R122). -/
def State.glide (s : State) (p : Page) (g : Nat) : State :=
  match p.button g, s.obj p.highlight with
  | some b, some o =>
    let e := b.grown p.margin
    let moved : Moved := if o.sizeFits s.cmdw e then glideFields else ⟨true, true, false, false, false⟩
    (s.request
      { channel := 0, profile := p.profile, slot := p.highlight, moved := moved, view := false,
        targets := e }
      .navigator).getD s
  | _, _ => s

/-- The focus moves from button f to button g (R122); each write is judged by itself for the mark (log entry
42). -/
def State.moveFocus (s : State) (p : Page) (f g : Nat) : State :=
  let s1 := s.onNav fun v => { v with focus := some g }
  ((s1.showFocusSlot (p.focusSlot f) false).showFocusSlot (p.focusSlot g) true).glide p g

/-- SELECT moves the focus from none to button g: a jump, not a glide (R121). -/
def State.firstFocus (s : State) (p : Page) (g : Nat) : State :=
  let s1 := s.onNav fun v => { v with focus := some g }
  let s2 := match p.button g with
    | some b => s1.onScene fun sc => sc.modify p.highlight fun o => o.jump s.cmdw (b.grown p.margin)
    | none => s1
  (s2.setVisible p.highlight true).showFocusSlot (p.focusSlot g) true

/-- A direction key on the open page (R120). -/
def State.directionKey (s : State) (p : Page) (d : Direction) : Verdict :=
  match s.nav.focus with
  | none => .completed 2 s
  | some f =>
    match p.walk d f 32 f true with
    | .moved g => .completed 0 (s.moveFocus p f g)
    | .stays code => .completed code s

/-- SELECT n on the open page (R121). -/
def State.selectKey (s : State) (p : Page) (n : Nat) : Verdict :=
  if p.buttons.length ≤ n then .completed 1 s
  else if !p.enabled n then .completed 2 s
  else
    match s.nav.focus with
    | none => .completed 0 (s.firstFocus p n)
    | some f => if f = n then .completed 0 s else .completed 0 (s.moveFocus p f n)

/-- ENTER on the focused button f of the open page (R125). -/
def State.enterKey (s : State) (p : Page) (f : Nat) (slot : Nat) : Verdict :=
  match p.button f with
  | none => .completed 1 s
  | some b =>
    let full := b.submenu && decide (Config.stackCapacity ≤ s.nav.stack.length)
    let s1 := s.raise (.activated f (b.submenu && !full) full p.addr b.action) (some slot)
    if !b.submenu then .completed 1 s1
    else if full then .completed 2 s1
    else if !pageAddrOk s.cmdw b.submenuAddr then
      .completed 3 (s1.raise (.pageRejected .enter .address b.submenuAddr 0) (some slot))
    else
      (s1.onNav fun v => { v with stack := v.stack ++ [Link.mk p.addr f] }).openPage .enter b.submenuAddr 0 slot

/-- BACK on the open page (R126). -/
def State.backKey (s : State) (p : Page) (slot : Nat) : Verdict :=
  match s.nav.stack.getLast? with
  | none => .completed 1 (s.raise (.backAtTop s.nav.focus p.addr) (some slot))
  | some link =>
    (s.onNav fun v => { v with stack := v.stack.dropLast }).openPage .back link.addr link.button slot

/-! ## Closing (R127) -/

/-- The close of R127, which CLOSE of RESUME shares (R165). -/
def State.closeMenu (s : State) : State :=
  match s.nav.page with
  | none => s
  | some p =>
    let s1 := (s.silentHalt 0).setVisible p.highlight false
    let s2 := s1.showFocusSlot (s.nav.focus.bind p.focusSlot) false
    s2.onNav fun v => { v with page := none, focus := none, stack := [] }

end Sys2Proof.Machine
end

