-- ==== Sys2Proof/Machine/Tick.lean ====
section
/-!
DEFINITION. The frame tick: the step of each channel (R71 to R75), the Composer's part (R97), the dwell
(R145), the settle (R76) and the start of a composition (R99, R100); and the snap (R90), which ends a
motion as its last step would.
-/

namespace Sys2Proof.Machine

/-! ## Ends by arrival (R74, R77, R90) -/

/-- The bound object's moved fields are written with the channel's values. -/
def State.writeMoved (s : State) (c : Channel) (e : Ends) : State :=
  match c.slot with
  | some k => s.onScene fun sc => sc.modify k fun o => o.moveTo c.moved c.view e
  | none => s

/-- A motion ends with ARRIVED, its MOTION DONE carrying the channel's command slot (R77, R78). -/
def State.arrive (s : State) (n : Nat) (abrupt snapped : Bool) (slot : Option Nat) : State :=
  s.endMotion n .arrived abrupt snapped (s.chan n).cmdSlot slot

/-- A snap: s becomes S, the moved fields E1, and the motion ends with ARRIVED; `slot` is the command slot
for SLIDE SHOWN (R90, R153). -/
def State.snap (s : State) (n : Nat) (slot : Option Nat) : State :=
  let c := s.chan n
  if c.phase = .idle then s
  else ((s.writeMoved c c.e1).putChan n { c with s := c.travel }).arrive n false true slot

/-! ## The step of a channel (R71 to R75) -/

/-- A channel takes its step at the speed now in `c.v` (R74). -/
def State.stepMotion (s : State) (n : Nat) (c : Channel) : State :=
  let moved := { c with s := c.s + min c.v c.remaining }
  let s1 := (s.writeMoved moved moved.values).putChan n moved
  if moved.s = moved.travel then s1.arrive n (abruptEnd c.v c.remaining c.prof.vs) false none else s1

/-- The tick's dealings with one channel (R71); the end of STOPPING is an end with HALTED (R73, R77). -/
def State.tickChannel (s : State) (n : Nat) : State :=
  let c := s.chan n
  if c.phase = .idle ∨ c.phase = .held ∨ s.frozen c then s
  else
    match c.tick with
    | .rest c' => s.putChan n c'
    | .halt => s.endMotion n .halted false false c.cmdSlot none
    | .move c' => s.stepMotion n c'

/-! ## The Composer's part (R97) -/

def Bank.other : Bank → Bank
  | .a => .b
  | .b => .a

/-- The Composer's part of a tick: the frame number, the flip with its copy at the Bridge, the late
count (R97). -/
def State.tickComposer (s : State) : State :=
  let k := s.composer
  let front := if k.swapPending then k.front.other else k.front
  (s.onComposer fun k =>
    { k with
      frame := k.frame + 1, front := front, swapPending := false,
      late := if k.comp.isSome then min 65535 (k.late + 1) else k.late }).onBridge
    fun b => { b with window := { b.window with front := front } }

/-! ## The Sequencer's part (R145) -/

/-- The Sequencer's part of a tick: the dwell counts, and an advance is owed when it reaches 0. -/
def State.tickSequencer (s : State) : State :=
  let q := s.seq
  if q.state = .showing ∧ q.paused = false ∧ s.takeover.state = .normal ∧ 0 < q.dwell then
    s.onSeq fun q => { q with dwell := q.dwell - 1, advanceOwed := q.dwell == 1 }
  else s

/-! ## The settle (R76, R99, R100) -/

/-- A SET CANVAS is in service (R95). -/
def State.settingCanvas (s : State) : Bool :=
  match s.intake.inService with
  | some ⟨_, .setCanvas _⟩ => true
  | _ => false

/-- The scene copy: every placed object's record in display order (R100). -/
def Scene.copy (sc : Scene) : List (Nat × Obj) :=
  sc.order.filterMap fun n => (sc.obj n).map fun o => (n, o)

/-- The conditions of R99, with the canvas setup when all hold. -/
def State.startable (s : State) : Option CanvasSetup :=
  match s.composer.canvas with
  | none => none
  | some setup =>
    if (s.takeover.state = .normal ∨ s.takeover.state = .menuOver) ∧ s.composer.comp.isNone
        ∧ s.composer.swapPending = false ∧ s.settingCanvas = false ∧ s.scene.mark then some setup
    else none

/-- The settle starts a composition when every condition holds, and clears the mark (R99, R100, R60). -/
def State.settle (s : State) : State :=
  match s.startable with
  | none => s
  | some setup =>
    let comp : Composition :=
      { copy := s.scene.copy
        dim := if s.takeover.state = .menuOver then some s.takeover.dim else none
        setup := setup
        back := s.composer.front.other
        band := 0
        granted := 0
        reads := [] }
    (s.onComposer fun k => { k with comp := some comp }).onScene fun sc => { sc with mark := false }

/-! ## The tick -/

/-- One party's dealings with the tick. -/
def State.tickPart (s : State) : TickPart → State
  | .channel n => s.tickChannel n.val
  | .composer => s.tickComposer
  | .sequencer => s.tickSequencer

/-- The parties in the order the model takes them when the command names none. Channel 7 comes first, so
that a pan requested at this tick takes its first step at the next one (R81; log entry 7). -/
def tickParts : List TickPart :=
  [.channel 7, .channel 0, .channel 1, .channel 2, .channel 3, .channel 4, .channel 5, .channel 6,
    .composer, .sequencer]

/-- Every party once: first those that the command names, in its order, then the others. -/
def tickOrder (order : List TickPart) : List TickPart := (order ++ tickParts).eraseDups

/-- One FTK (R71, R97, R145, R76): every party deals with it once, and the settle comes last. -/
def State.frameTick (s : State) (order : List TickPart) : State :=
  ((tickOrder order).foldl State.tickPart s).settle

end Sys2Proof.Machine
end

