-- ==== Sys2Proof/Machine/SaveRecord.lean ====
section
/-!
DEFINITION. The save record (R184): the bytes that SAVE writes for a slide context, the bytes that RESTORE
reads as objects, channels and a sequencer context, and the checks of R166 with value B of R184.
-/

namespace Sys2Proof.Machine

/-! ## Codes (R184) -/

def HoldMode.code : Option HoldMode → Nat
  | none => 0
  | some .freeze => 1
  | some .ease => 2
  | some .firm => 3

/-- A hold mode's code; the outer none is an unknown code. -/
def holdOfCode : Nat → Option (Option HoldMode)
  | 0 => some none
  | 1 => some (some .freeze)
  | 2 => some (some .ease)
  | 3 => some (some .firm)
  | _ => none

def Owner.code : Option Owner → Nat
  | none => 0
  | some .command => 1
  | some .navigator => 2
  | some .sequencer => 3

def ownerOfCode : Nat → Option Owner
  | 1 => some .command
  | 2 => some .navigator
  | 3 => some .sequencer
  | _ => none

def Phase.code : Phase → Nat
  | .idle => 0
  | .lead => 1
  | .accel => 2
  | .cruise => 3
  | .slow => 4
  | .decel => 5
  | .creep => 6
  | .easing => 7
  | .held => 8
  | .stopping => 9

def phaseOfCode : Nat → Option Phase
  | 0 => some .idle
  | 1 => some .lead
  | 2 => some .accel
  | 3 => some .cruise
  | 4 => some .slow
  | 5 => some .decel
  | 6 => some .creep
  | 7 => some .easing
  | 8 => some .held
  | 9 => some .stopping
  | _ => none

def seqStateOfCode : Nat → Option SeqState
  | 0 => some .stopped
  | 1 => some .loading
  | 2 => some .waiting
  | 3 => some .showing
  | 4 => some .changing
  | _ => none

/-- A byte that holds a number or FFh for none. -/
def byteOption (n : Nat) : Option Nat := if n = 0xFF then none else some n

/-- An index field: FFFFh for none. -/
def indexOption (n : Nat) : Option Nat := if n = 0xFFFF then none else some n

/-! ## Writing (R161, R184) -/

/-- The object slots that SAVE takes: every defined SLIDE-group object, placed or not (R161). -/
def Scene.slideSlots (sc : Scene) : List Nat := (List.range 48).filter fun n => sc.inGroup .slide n

/-- The channels that SAVE takes: every channel bound to a SLIDE-group object (R161). -/
def State.slideChannels (s : State) : List Nat := (List.range 8).filter fun n => s.onSlideObject (s.chan n)

/-- The place of a slot among the SLIDE-group entries of the order; none when unplaced (R161). -/
def Scene.slidePosition (sc : Scene) (n : Nat) : Option Nat :=
  (sc.order.filter fun k => sc.inGroup .slide k).findIdx? (· == n)

/-- The 96 bytes of the fixed part (R161, R184). -/
def State.saveFixed (s : State) (facts : EntryFacts) (objects channels : Nat) : List Byte :=
  let q := s.seq
  let o := q.onShow.getD ⟨0, false, 0, 0, 0⟩
  let base := leBytes 4 s.takeover.saveBase
  leBytes 4 0x303 ++ base ++ base
    ++ [0, 0] ++ leBytes 2 0xFFFF
    ++ leBytes 1 facts.source.code ++ leBytes 1 (flagsOf [facts.wasChanging, facts.paused])
    ++ leBytes 1 (HoldMode.code facts.pauseMode) ++ [0]
    ++ leBytes 1 objects ++ leBytes 1 channels ++ [0, 0]
    ++ leBytes 1 q.state.code ++ leBytes 1 ((q.shown.map Bank.code).getD 0xFF)
    ++ leBytes 1 (boolCode q.backward) ++ leBytes 1 (flagsOf [q.late, q.paused, q.panOwed])
    ++ leBytes 1 (HoldMode.code q.pauseMode) ++ leBytes 1 (flagsOf [q.await5, q.await6])
    ++ leBytes 2 q.skip
    ++ leBytes 2 (q.current.getD 0xFFFF) ++ leBytes 2 (q.incoming.getD 0xFFFF)
    ++ leBytes 2 q.dwell
    ++ leBytes 2 o.dwell ++ leBytes 1 (boolCode o.panPresent) ++ leBytes 1 o.panProfile
    ++ leBytes 2 o.panX ++ leBytes 2 o.panY ++ [0, 0]
    ++ (((q.incomingDesc.getD []).take 32) ++ List.replicate 32 0).take 32
    ++ List.replicate 16 0

/-- The 48 bytes of an object entry (R184). -/
def objectEntry (slot : Nat) (position : Option Nat) (o : Obj) : List Byte :=
  let view := o.ends true
  leBytes 1 slot ++ leBytes 1 (o.bound.getD 0xFF) ++ leBytes 1 (position.getD 0xFF) ++ [0]
    ++ o.defineWords.flatMap wordBytes
    ++ (match o.body with
        | .slide _ _ _ _ _ _ => leBytes 2 view.p1.toNat ++ leBytes 2 view.p2.toNat
        | _ => [0, 0, 0, 0])
    ++ List.replicate 12 0

/-- A signed field of four bytes (R180). -/
def signedBytes (z : Int) : List Byte := wordBytes (BitVec.ofInt 32 z)

/-- The 64 bytes of a channel entry (R184). -/
def channelEntry (n : Nat) (c : Channel) : List Byte :=
  let p := c.prof
  leBytes 1 n ++ leBytes 1 (Owner.code c.owner) ++ leBytes 1 c.phase.code
    ++ leBytes 1 (c.slot.getD 0xFF)
    ++ leBytes 1 (flagsOf [c.moved.p1, c.moved.p2, c.moved.w, c.moved.h, c.moved.alpha])
    ++ leBytes 1 (flagsOf [c.view, c.release]) ++ leBytes 1 (HoldMode.code c.hold)
    ++ leBytes 1 c.lead ++ leBytes 1 (c.cmdSlot.getD 0xFF)
    ++ leBytes 1 p.lead ++ leBytes 1 (boolCode (!p.auto)) ++ [0]
    ++ leBytes 2 p.vs ++ leBytes 2 p.vp ++ leBytes 2 p.a ++ leBytes 2 p.d
    ++ leBytes 2 c.vtop ++ leBytes 2 c.v ++ leBytes 4 c.s ++ leBytes 4 c.travel
    ++ signedBytes c.e0.p1 ++ signedBytes c.e0.p2 ++ leBytes 2 c.e0.w ++ leBytes 2 c.e0.h
    ++ leBytes 1 c.e0.alpha ++ leBytes 1 c.e1.alpha ++ [0, 0]
    ++ signedBytes c.e1.p1 ++ signedBytes c.e1.p2 ++ leBytes 2 c.e1.w ++ leBytes 2 c.e1.h
    ++ [0, 0, 0, 0]

/-- Words from an address on as bursts, one for each 32-byte block they cover; `fuel` bounds their
number. -/
def wordBursts : Nat → Nat → List Word → List (Nat × List Word)
  | 0, _, _ => []
  | _, _, [] => []
  | fuel + 1, addr, ws =>
    let n := burstLength addr ws.length
    (addr, ws.take n) :: wordBursts fuel (addr + 4 * n) (ws.drop n)

/-- The bursts of SAVE in ascending address order (R161, R184). -/
def State.saveBursts (s : State) (facts : EntryFacts) (slots channels : List Nat) : List (Nat × List Word) :=
  let base := s.takeover.saveBase
  let bursts (addr : Nat) (bytes : List Byte) : List (Nat × List Word) :=
    let ws := bytesToWords bytes
    wordBursts ws.length addr ws
  let objects := slots.flatMap fun n =>
    match s.obj n with
    | some o => objectEntry n (s.scene.slidePosition n) o
    | none => []
  let entries := channels.flatMap fun n => channelEntry n (s.chan n)
  bursts base (s.saveFixed facts slots.length channels.length) ++ bursts (base + 96) objects
    ++ bursts (base + 2400) entries

/-! ## Reading (R166, R184) -/

/-- The object and channel counts of the fixed part, and how many of each RESTORE reads. -/
def objectCount (bs : List Byte) : Nat := byteAt bs 20
def channelCount (bs : List Byte) : Nat := byteAt bs 21
def objectsRead (bs : List Byte) : Nat := min 48 (objectCount bs)
def channelsRead (bs : List Byte) : Nat := min 8 (channelCount bs)

/-- The bursts of RESTORE: the fixed part, and then, once it has been read, the entries its counts call for
(R166, R184). -/
def restorePlan (base : Nat) (bs : List Byte) : List (Nat × Nat) :=
  splitBursts 24 base 24 ++
    (if bs.length < 96 then []
      else splitBursts 600 (base + 96) (12 * objectsRead bs)
        ++ splitBursts 128 (base + 2400) (16 * channelsRead bs))

/-- An object entry as read. -/
structure SavedObject where
  slot : Nat
  position : Option Nat
  obj : Obj
  deriving DecidableEq, Repr

/-- A channel entry as read; an unknown owner, phase or hold mode is none. -/
structure SavedChannel where
  channel : Nat
  owner : Option Owner
  phase : Option Phase
  slot : Nat
  hold : Option (Option HoldMode)
  peakCode : Nat
  chan : Channel
  deriving DecidableEq, Repr

def savedObject (bs : List Byte) : SavedObject :=
  { slot := byteAt bs 0
    position := byteOption (byteAt bs 2)
    obj := defineLayout (bytesToWords ((bs.drop 4).take 28)) (fieldAt bs 32 2) (fieldAt bs 34 2)
      (byteOption (byteAt bs 1)) }

def signedFieldAt (bs : List Byte) (off : Nat) : Int := signedOf 32 (fieldAt bs off 4)

/-- A channel entry as read (R184); the bits of its flag bytes that the table does not list are ignored (log
entry 44), and a command slot of 64 to 254 is taken as it stands (log entry 48). -/
def savedChannel (bs : List Byte) : SavedChannel :=
  let movedBits := byteAt bs 4
  let flags := byteAt bs 5
  let owner := ownerOfCode (byteAt bs 1)
  let phase := phaseOfCode (byteAt bs 2)
  let hold := holdOfCode (byteAt bs 6)
  { channel := byteAt bs 0
    owner := owner
    phase := phase
    slot := byteAt bs 3
    hold := hold
    peakCode := byteAt bs 10
    chan :=
      { phase := phase.getD .idle
        owner := owner
        slot := some (byteAt bs 3)
        moved := ⟨movedBits.testBit 0, movedBits.testBit 1, movedBits.testBit 2, movedBits.testBit 3,
          movedBits.testBit 4⟩
        view := flags.testBit 0
        prof :=
          { vs := fieldAt bs 12 2, vp := fieldAt bs 14 2, a := fieldAt bs 16 2, d := fieldAt bs 18 2,
            lead := byteAt bs 9, auto := byteAt bs 10 == 0 }
        vtop := fieldAt bs 20 2
        v := fieldAt bs 22 2
        s := fieldAt bs 24 4
        travel := fieldAt bs 28 4
        lead := byteAt bs 7
        e0 := ⟨signedFieldAt bs 32, signedFieldAt bs 36, fieldAt bs 40 2, fieldAt bs 42 2, byteAt bs 44⟩
        e1 := ⟨signedFieldAt bs 48, signedFieldAt bs 52, fieldAt bs 56 2, fieldAt bs 58 2, byteAt bs 45⟩
        hold := hold.getD none
        release := flags.testBit 1
        cmdSlot := byteOption (byteAt bs 8) } }

/-- The save record as read; offsets are kept in entry order. -/
structure SaveRecord where
  bytes : List Byte
  objects : List SavedObject
  channels : List SavedChannel
  deriving DecidableEq, Repr

/-- The record of the bytes that RESTORE read: the fixed part, the object entries and the channel entries
one after the other. -/
def saveRecordOf (bs : List Byte) : SaveRecord :=
  let n := objectsRead bs
  { bytes := bs
    objects := (List.range n).map fun k => savedObject ((bs.drop (96 + 48 * k)).take 48)
    channels :=
      (List.range (channelsRead bs)).map fun k => savedChannel ((bs.drop (96 + 48 * n + 64 * k)).take 64) }

def SaveRecord.nextBase (r : SaveRecord) : Nat := fieldAt r.bytes 8 4
def SaveRecord.dwellFlag (r : SaveRecord) : Nat := byteAt r.bytes 12
def SaveRecord.transitionFlag (r : SaveRecord) : Nat := byteAt r.bytes 13
def SaveRecord.jump (r : SaveRecord) : Option Nat := indexOption (fieldAt r.bytes 14 2)
def SaveRecord.state (r : SaveRecord) : Option SeqState := seqStateOfCode (byteAt r.bytes 24)
def SaveRecord.current (r : SaveRecord) : Option Nat := indexOption (fieldAt r.bytes 32 2)
def SaveRecord.incoming (r : SaveRecord) : Option Nat := indexOption (fieldAt r.bytes 34 2)
def SaveRecord.skip (r : SaveRecord) : Nat := fieldAt r.bytes 30 2
def SaveRecord.seqFlags (r : SaveRecord) : Nat := byteAt r.bytes 27
def SaveRecord.awaited (r : SaveRecord) : Nat := byteAt r.bytes 29

/-- The shown slot; the outer none is an unknown code. -/
def SaveRecord.shown (r : SaveRecord) : Option (Option Bank) :=
  match byteAt r.bytes 25 with
  | 0 => some (some .a)
  | 1 => some (some .b)
  | 0xFF => some none
  | _ => none

/-- The restored object of a slot. -/
def SaveRecord.object (r : SaveRecord) (slot : Nat) : Option SavedObject := r.objects.find? (·.slot == slot)

/-- The restored channel of a number. -/
def SaveRecord.channel (r : SaveRecord) (n : Nat) : Option SavedChannel :=
  r.channels.find? (·.channel == n)

/-! ## The checks (R166) -/

/-- The canvas regions of the setup in force (R94, R156). -/
def CanvasSetup.regions (c : CanvasSetup) : List Window :=
  let len := c.width * c.height * 4
  [⟨c.bankA, len⟩, ⟨c.bankB, len⟩, ⟨c.scan, len⟩, ⟨c.backdrop, len⟩]

/-- The 4 KiB at a save base share no byte with a canvas region. -/
def State.clearOfCanvas (s : State) (u : Window) : Bool :=
  s.composer.canvas.all fun c => c.regions.all fun r => !r.overlaps u

/-- A range shares no byte with the slide list range. -/
def State.clearOfList (s : State) (u : Window) : Bool := s.seq.list.all fun l => !l.range.overlaps u

/-- A save base is a multiple of 1000h and its 4 KiB end below the Command Window (R156, R166). -/
def State.saveBaseOk (s : State) (base : Nat) : Bool :=
  base % 0x1000 == 0 && decide (base + 0x1000 ≤ s.cmdw)

/-- Check 2. -/
def State.baseFits (s : State) (base : Nat) : Bool :=
  s.saveBaseOk base && s.clearOfCanvas ⟨base, 0x1000⟩ && s.clearOfList ⟨base, 0x1000⟩

/-- Check 4 for the object entry `e`, with the entries before it and the number placed; of two entries that repeat a
slot or a position the later is at fault (log entry 22). -/
def objectEntryOk (cmdw placed : Nat) (before : List SavedObject) (e : SavedObject) : Bool :=
  decide (e.slot < 48) && !(before.any (·.slot == e.slot)) && e.obj.group == .slide && e.obj.valid cmdw
    && e.position.all fun p => decide (p < placed) && !(before.any (·.position == some p))

/-- The values of an endpoint lie in the fields' ranges (check 5; log entry 19). -/
def endsOk (o : Option Obj) (view : Bool) (e : Ends) : Bool :=
  let positions :=
    if view then
      o.any fun o => decide (0 ≤ e.p1) && decide (e.p1 ≤ ((o.maxW - e.w) * 16 : Nat))
        && decide (0 ≤ e.p2) && decide (e.p2 ≤ ((o.maxH - e.h) * 16 : Nat))
    else
      decide (-32768 ≤ e.p1) && decide (e.p1 ≤ 65535) && decide (-32768 ≤ e.p2) && decide (e.p2 ≤ 65535)
  positions && decide (1 ≤ e.w) && decide (e.w ≤ 2048) && decide (1 ≤ e.h) && decide (e.h ≤ 2048)

/-- Fields outside the moved-field set have equal endpoints (check 5). -/
def equalOutside (m : Moved) (e0 e1 : Ends) : Bool :=
  (m.p1 || e0.p1 == e1.p1) && (m.p2 || e0.p2 == e1.p2) && (m.w || e0.w == e1.w) && (m.h || e0.h == e1.h)
    && (m.alpha || e0.alpha == e1.alpha)

/-- Profile values within the profile ranges (R63, check 5). -/
def Profile.inRange (p : Profile) : Bool :=
  decide (1 ≤ p.vs) && decide (p.vs ≤ 4095) && decide (p.vs ≤ p.vp) && decide (p.vp ≤ 4095)
    && decide (1 ≤ p.a) && decide (p.a ≤ 1023) && decide (1 ≤ p.d) && decide (p.d ≤ 1023)
    && decide (p.lead ≤ 7)

/-- Check 5 for the channel entry `e`, with the entries before it; of two entries that repeat a channel number the
later is at fault (log entry 22). -/
def channelEntryOk (r : SaveRecord) (before : List SavedChannel) (e : SavedChannel) : Bool :=
  let c := e.chan
  let o := (r.object e.slot).map (·.obj)
  decide (e.channel < 8) && !(before.any (·.channel == e.channel))
    && (e.owner == some .command || e.owner == some .sequencer)
    && e.phase.any (· != .idle) && c.prof.inRange && decide (e.peakCode ≤ 1)
    && !c.moved.empty && (!c.view || o.any fun o => o.body.code == 3)
    && c.travel == travelOf c.e0 c.e1 && decide (c.s ≤ c.travel)
    && decide (c.prof.vs ≤ c.v) && decide (c.v ≤ 4095)
    && decide (c.prof.vs ≤ c.vtop) && decide (c.vtop ≤ 4095)
    && (c.phase != .lead || c.v == c.prof.vs) && decide (c.lead ≤ 7) && e.hold.isSome
    && (!c.release || (c.hold == some .firm && c.phase == .easing))
    && endsOk o c.view c.e0 && endsOk o c.view c.e1 && equalOutside c.moved c.e0 c.e1

/-- A value lies between two endpoints, inclusive (check 6). -/
def between (z e0 e1 : Int) : Bool := decide (min e0 e1 ≤ z) && decide (z ≤ max e0 e1)

/-- Each moved field of the bound object lies between the channel's endpoints (check 6). -/
def movedBetween (o : Obj) (c : Channel) : Bool :=
  let z := o.ends c.view
  (!c.moved.p1 || between z.p1 c.e0.p1 c.e1.p1) && (!c.moved.p2 || between z.p2 c.e0.p2 c.e1.p2)
    && (!c.moved.w || between z.w c.e0.w c.e1.w) && (!c.moved.h || between z.h c.e0.h c.e1.h)
    && (!c.moved.alpha || between z.alpha c.e0.alpha c.e1.alpha)

/-- Check 6 for a channel entry. -/
def bindingOk (cmdw : Nat) (r : SaveRecord) (e : SavedChannel) : Bool :=
  let c := e.chan
  ((r.object e.slot).any fun so =>
      so.obj.bound == some e.channel && movedBetween so.obj c
        && (so.obj.setMoved c.moved c.view c.e0).valid cmdw
        && (so.obj.setMoved c.moved c.view c.e1).valid cmdw)
    && !(e.owner == some .command && decide (5 ≤ e.channel) && r.state != some .stopped)

/-- Check 6 for an object entry: a bound channel it names is matched by that channel's context. -/
def boundMatched (r : SaveRecord) (o : SavedObject) : Bool :=
  o.obj.bound.all fun n => (r.channel n).any (·.slot == o.slot)

/-- Check 7: the sequencer context. The bits of bytes 17, 27 and 29 that R184 does not list fail no check (log
entry 44). With no list set up N is taken as 0 (log entry 47). -/
def sequencerOk (s : State) (r : SaveRecord) : Bool :=
  let l := s.seq.setup
  match r.state, r.shown with
  | some state, some shown =>
    let spare := l.slot (match shown with | some .a => .b | _ => .a)
    let holdsSlide (n : Nat) : Bool := (r.object n).any fun o => o.obj.body.code == 3
    let awaitedOk (bit n : Nat) : Bool :=
      !r.awaited.testBit bit || (r.channel n).any fun c => c.owner == some .sequencer
    (state == .stopped || s.seq.list.isSome)
      && r.current.all (fun i => decide (i < l.count)) && r.incoming.all (fun i => decide (i < l.count))
      && shown.all (fun bank =>
          s.seq.list.isSome && holdsSlide (l.slot bank)
            && (r.object (l.slot bank)).any fun o => o.position.isSome)
      && (state != .showing || (shown.isSome && r.current.isSome))
      && (!(state == .loading || state == .waiting || state == .changing) || r.incoming.isSome)
      && (state != .changing ||
          (holdsSlide spare && (r.awaited.testBit 0 || r.awaited.testBit 1)
            && awaitedOk 0 5 && awaitedOk 1 6))
      && (!(state == .loading || state == .waiting || state == .showing) || (r.object spare).isNone)
      && decide (r.skip ≤ l.count) && decide (byteAt r.bytes 26 ≤ 1)
      && (holdOfCode (byteAt r.bytes 28)).isSome
      && r.channels.all (fun c => c.chan.hold == none || r.seqFlags.testBit 1 || c.chan.release)
      && (byteAt r.bytes 17).testBit 0 == (state == .changing)
  | _, _ => false

/-- The index of the first entry that fails a test made with the entries before it. -/
def firstBad {α : Type} (ok : List α → α → Bool) : List α → List α → Nat → Option Nat
  | _, [], _ => none
  | before, e :: es, k => if ok before e then firstBad ok (before ++ [e]) es (k + 1) else some k

/-- The checks of R166 in order: the reason of the first failure, with value B of LOCKOUT (R171, R184). -/
def State.recordFault (s : State) (r : SaveRecord) : Option (LockReason × Nat) :=
  let placed := (r.objects.filter (·.position.isSome)).length
  if byteAt r.bytes 0 ≠ 3 then some (.revision, fieldAt r.bytes 0 4)
  else if !s.baseFits r.nextBase then some (.base, r.nextBase)
  else if 1 < r.dwellFlag ∨ 1 < r.transitionFlag then some (.record, 12)
  else if 48 < objectCount r.bytes ∨ 8 < channelCount r.bytes then some (.record, 20)
  else
    match firstBad (objectEntryOk s.cmdw placed) [] r.objects 0 with
    | some k => some (.record, 96 + 48 * k)
    | none =>
    match firstBad (channelEntryOk r) [] r.channels 0 with
    | some k => some (.record, 2400 + 64 * k)
    | none =>
    match firstBad (fun _ e => bindingOk s.cmdw r e) [] r.channels 0 with
    | some k => some (.record, 2400 + 64 * k)
    | none =>
    match firstBad (fun _ o => boundMatched r o) [] r.objects 0 with
    | some k => some (.record, 96 + 48 * k)
    | none => if sequencerOk s r then none else some (.record, 24)

end Sys2Proof.Machine
end

