-- ==== Sys2Proof/Machine/Takeover.lean ====
section
/-!
DEFINITION. The Takeover Unit (08): acceptance (R159), DRAIN (R160), SAVE (R161, R162), COPY (R163),
requests (R158), CLOSE (R165), RESTORE (R166 to R169) and recovery (R170).
-/

namespace Sys2Proof.Machine

/-! ## COPY (R163) -/

/-- A TAKEOVER command is in service. -/
def State.takeoverServed (s : State) : Bool :=
  match s.intake.inService with
  | some ⟨_, .takeover⟩ => true
  | _ => false

/-- COPY ends: MENU-OVER, the mark, TAKEOVER ENTERED, and the completion of a TAKEOVER in service (R163,
R171). The head may start again (R25). -/
def State.copyDone (s : State) : State :=
  let f := s.takeover.facts.getD ⟨.line, false, false, false, none⟩
  let counts := if f.recovered then (0, 0) else s.takeover.savedCounts
  let s1 := (s.onTakeover fun t => { t with state := .menuOver, phase := none, job := .none }).onScene
    fun sc => { sc with mark := true }
  let s2 := s1.raise
    (.takeoverEntered f.source f.recovered f.wasChanging f.paused s.takeover.saveBase counts.1 counts.2)
    (if s.takeoverServed then s.serviceSlot else none)
  if s.takeoverServed then s2.complete 0 else s2.endRun

/-- COPY begins: from the newest complete frame into the backdrop, or ends at its start while the Composer
is DISABLED (R163). -/
def State.startCopy (s : State) : State :=
  let s1 := s.onTakeover fun t => { t with phase := some .copy }
  match s.composer.canvas with
  | none => s1.copyDone
  | some c =>
    let newest := if s.composer.swapPending then s.composer.front.other else s.composer.front
    s1.onTakeover fun t =>
      { t with job := .copy (c.bank newest) c.backdrop (c.width * c.height * 4 / 32) 0 none }

/-! ## SAVE (R161, R162) -/

/-- SAVE begins: the slide context is taken as it stands (R161). -/
def State.startSave (s : State) : State :=
  let q := s.seq
  let f := s.takeover.facts.getD ⟨.line, false, false, false, none⟩
  let facts : EntryFacts :=
    { f with wasChanging := q.state == .changing, paused := q.paused, pauseMode := q.pauseMode }
  let slots := s.scene.slideSlots
  let channels := s.slideChannels
  s.onTakeover fun t =>
    { t with phase := some .save, facts := some facts, savedCounts := (slots.length, channels.length),
             job := .save (s.saveBursts facts slots channels) slots channels }

/-- The last SAVE burst has ended: the saved channels end silently, the saved slots are undefined, the
Sequencer is SUSPENDED, and COPY begins (R162). -/
def State.saveDone (s : State) (slots channels : List Nat) : State :=
  let s1 := channels.foldl State.silentHalt s
  let s2 := slots.foldl State.undefineSlot s1
  (s2.onSeq fun q => { q with state := .suspended }).startCopy

/-! ## DRAIN (R160, R170) -/

/-- What recovery does in place of SAVE (R170). -/
def State.recoverShow (s : State) : State :=
  s.stopShow.onSeq fun q => { q with ready := Vector.replicate 256 false }

/-- DRAIN ends when nothing it waits for is left; then SAVE, or for a recovery COPY, begins at the same
event (R160, R170). -/
def State.drainStep (s : State) : State :=
  if s.takeover.state ≠ .entering ∨ s.takeover.phase ≠ some .drain ∨ s.composer.comp.isSome then s
  else if s.takeover.facts.any (·.recovered) then s.recoverShow.startCopy
  else if (s.intake.inService.isNone ∨ s.takeoverServed) ∧ s.seq.read.isNone then s.startSave
  else s

/-! ## Requests (R157 to R159, R170) -/

/-- A request is accepted in NORMAL, or a held request re-enters: ENTERING with phase DRAIN and new entry
facts, and jump pending clear in either case (R159, R167, R168; log entry 36). -/
def State.acceptRequest (s : State) (source : Source) : State :=
  (s.onTakeover fun t =>
    { t with state := .entering, phase := some .drain, facts := some ⟨source, false, false, false, none⟩,
             jumpPending := false }).drainStep

/-- Recovery from LOCKOUT (R170); the facts that SAVE takes stay clear (log entry 35). -/
def State.recover (s : State) (source : Source) : State :=
  (s.onTakeover fun t =>
    { t with state := .entering, phase := some .drain, facts := some ⟨source, true, false, false, none⟩,
             jumpPending := false, lockReason := none }).drainStep

/-- The held-request flag is set (R158). -/
def State.holdRequest (s : State) : State := s.onTakeover fun t => { t with held := true }

/-- A request from TKRQ by the takeover state (R158). -/
def State.lineRequest (s : State) : State :=
  match s.takeover.state with
  | .normal => s.acceptRequest .line
  | .entering | .menuOver | .leaving => s.holdRequest
  | .lockout => s.recover .line

/-- The line edge selection names an edge to `level` (R157). -/
def LineEdge.names (e : LineEdge) (level : Bool) : Bool :=
  match e with
  | .off => false
  | .rising => level
  | .falling => !level
  | .both => true

/-- TKRQ shows a level; a change is an edge (R157). -/
def State.lineLevel (s : State) (level : Bool) : State :=
  if s.takeover.level = level then s
  else
    let s1 := s.onTakeover fun t => { t with level := level }
    if s.takeover.edge.names level then s1.lineRequest else s1

/-! ## CLOSE (R165) -/

/-- CLOSE, which sets the mark when the order was not empty, and the beginning of RESTORE (R165). -/
def State.closeScene (s : State) : State :=
  let s1 := s.onTakeover fun t => { t with state := .leaving, phase := some .close }
  let s2 := s1.closeMenu
  let s3 := (List.range 8).foldl State.silentHalt s2
  let s4 := (List.range 48).foldl
    (fun t n => if t.scene.inGroup .menu n then t.undefineSlot n else t) s3
  let s5 := s4.onScene fun sc => { sc with mark := sc.mark || !s.scene.order.isEmpty }
  s5.onTakeover fun t => { t with phase := some .restore, job := .restore 0 [] }

/-! ## RESTORE (R167 to R169) -/

/-- Items 1 of R167: the objects and their order. -/
def Scene.restore (sc : Scene) (objects : List SavedObject) : Scene :=
  let slots := objects.map (·.slot)
  let placed := (List.range objects.length).filterMap fun p =>
    (objects.find? (·.position == some p)).map (·.slot)
  let sc1 := objects.foldl (fun t o => t.put o.slot (some o.obj)) sc
  { sc1 with order := placed ++ sc.order.filter (fun n => !slots.contains n), mark := true }

/-- Item 3 of R167: the sequencer state and its context. The on-show record is present with a shown slot and
the incoming descriptor in CHANGING (R133; log entry 27); any byte 40 but 0 is a pan (log entry 38), and the
unlisted bits of the flag bytes are ignored (log entry 44). -/
def Sequencer.restore (q : Sequencer) (r : SaveRecord) : Sequencer :=
  let bs := r.bytes
  let state := r.state.getD .stopped
  let shown := r.shown.getD none
  { q with
    state := state
    shown := shown
    current := r.current
    incoming := r.incoming
    backward := byteAt bs 26 == 1
    late := r.seqFlags.testBit 0
    paused := r.seqFlags.testBit 1
    panOwed := r.seqFlags.testBit 2
    pauseMode := (holdOfCode (byteAt bs 28)).getD none
    await5 := r.awaited.testBit 0
    await6 := r.awaited.testBit 1
    skip := r.skip
    dwell := fieldAt bs 36 2
    onShow :=
      if shown.isSome then
        some ⟨fieldAt bs 38 2, byteAt bs 40 != 0, byteAt bs 41, fieldAt bs 42 2, fieldAt bs 44 2⟩
      else none
    incomingDesc := if state = .changing then some ((bs.drop 48).take 32) else none }

/-- Items 1 to 4 of R167. -/
def State.installRecord (s : State) (r : SaveRecord) : State :=
  let s1 := s.onScene fun sc => sc.restore r.objects
  let s2 := r.channels.foldl (fun t c => t.putChan c.channel c.chan) s1
  let s3 := s2.onSeq fun q => q.restore r
  if r.dwellFlag = 1 ∧ s3.seq.state = .showing then
    s3.onSeq fun q => { q with dwell := (q.onShow.map (·.dwell)).getD 0 }
  else s3

/-- The awaited channels are snapped (R167, items 5 and 6). -/
def State.snapAwaited (s : State) (slot : Option Nat) : State :=
  let s1 := if s.seq.await5 then s.snap 5 slot else s
  if s.seq.await6 then s1.snap 6 slot else s1

/-- The awaited channels are rewound (R167, item 5). -/
def State.rewindAwaited (s : State) : State :=
  let s1 := if s.seq.await5 then s.rewind 5 else s
  if s.seq.await6 then s1.rewind 6 else s1

/-- Item 5 of R167: the transition flag; REDO or FINISH act in CHANGING alone. -/
def State.applyTransitionFlag (s : State) (r : SaveRecord) (slot : Option Nat) : State :=
  if s.seq.state ≠ .changing then s
  else if r.transitionFlag = 1 then s.rewindAwaited
  else s.snapAwaited slot

/-- Item 6 of R167: the jump index that acts. -/
def State.jumpTarget (s : State) (r : SaveRecord) : Option Nat :=
  r.jump.filter fun j => decide (j < s.seq.setup.count) && s.seq.state != .stopped

/-- Item 6 of R167. -/
def State.applyJump (s : State) (j : Option Nat) (slot : Option Nat) : State :=
  match j with
  | none => s
  | some j =>
    let s1 := if s.seq.state = .changing then s.snapAwaited slot else s
    let s2 := s1.onSeq fun q => { q with dwell := 0, backward := false, skip := 0 }
    (s2.loadBegin j slot).onTakeover fun t => { t with jumpPending := true }

/-- The Sequencer takes up its load when the state becomes NORMAL (R168; log entry 20). -/
def State.takeUpLoad (s : State) : State :=
  match s.seq.state, s.seq.incoming with
  | .loading, some j => if s.seq.read.isNone then s.loadBegin j none else s
  | .waiting, some j => if s.seq.readyAt j then s.loadBegin j none else s
  | _, _ => s

/-- The end of a RESTORE whose record passed, after its install (R168, R171). The descriptor read that it may
start joins the FETCH list before what the head of the queue then starts (log entry 32). -/
def State.restoreDone (s : State) (r : SaveRecord) (redone finished jumped : Bool) (slot : Option Nat) :
    State :=
  let next := r.nextBase
  let held := s.takeover.held
  let s1 := (s.onTakeover fun t => { t with saveBase := next, phase := none, job := .none }).onBridge
    fun b => { b with window := { b.window with saveBase := next } }
  let s2 := s1.raise
    (.takeoverLeft s.seq.state (next != s.takeover.saveBase) redone finished jumped held next
      s.seq.current) slot
  let s3 := s2.complete 0
  if held then (s3.onTakeover fun t => { t with held := false }).acceptRequest .held
  else (s3.onTakeover fun t => { t with state := .normal }).takeUpLoad

/-- A failed RESTORE (R169). -/
def State.enterLockout (s : State) (reason : LockReason) (detail : Nat) (slot : Option Nat) : State :=
  let s1 := s.onTakeover fun t =>
    { t with state := .lockout, phase := none, lockReason := some reason, held := false, job := .none }
  (s1.raise (.lockout reason s.takeover.saveBase detail) slot).complete 3

/-- The last RESTORE burst has ended: the record is checked, and installed or refused (R166 to R169). -/
def State.restoreRead (s : State) (bytes : List Byte) : State :=
  let r := saveRecordOf bytes
  let slot := s.serviceSlot
  match s.recordFault r with
  | some (reason, detail) => s.enterLockout reason detail slot
  | none =>
    let s1 := s.installRecord r
    let changing := s1.seq.state == .changing
    let s2 := s1.applyTransitionFlag r slot
    let j := s2.jumpTarget r
    let s3 := s2.applyJump j slot
    s3.restoreDone r (changing && r.transitionFlag == 1) (changing && r.transitionFlag == 0) j.isSome slot

end Sys2Proof.Machine
end

