-- ==== Sys2Proof/Machine/Grant.lean ====
section
/-!
DEFINITION. The memory-side arbiter (R17 to R20) and the internal bursts of the classes EVENT (R174, R177,
R178), TAKEOVER (R161, R163, R166) and FETCH (R20, R57, R115, R138); and the ends of a composition
(R98) and of a palette read (R58).
-/

namespace Sys2Proof.Machine

/-! ## EVENT (R174, R177, R178) -/

/-- A status write may be presented now: nothing is presented, the flag is set, and no record waits whose
turn it is (R178). -/
def EventUnit.statusTurn (u : EventUnit) : Bool :=
  u.presented.isNone && u.statusPending && (u.records.isEmpty || u.lastWasRecord)

/-- The EVENT burst at a grant, when the Event Unit has presented none yet (R178). -/
def State.choosePresented (s : State) : State :=
  let s1 := s.onEvents EventUnit.present
  if s1.events.presented.isNone ∧ s1.events.statusPending then s1.presentStatus else s1

/-- The address of ring slot P (R174). -/
def State.ringSlot (s : State) : Nat := s.cmdw + 0x800 + 16 * s.events.p.toNat

/-- The grant of the presented EVENT burst (R174, R177, R186). A status write covers all its words but the
consumer word. -/
def State.grantEvent (s : State) : State :=
  let s1 := s.choosePresented
  match s1.events.presented with
  | none => s1
  | some .record =>
    match s1.events.records with
    | [] => s1
    | r :: _ =>
      (s1.writeWords s1.ringSlot r.words).onBridge fun b => { b with busy := some .eventRecord }
  | some (.statusFirst words) =>
    let base := s1.cmdw + 0xC00
    (((s1.writeWords base (words.take 1)).writeWords (base + 8) ((words.drop 2).take 6))).onEvents
      fun u => { u with presented := some (.statusSecond (words.drop 8)) }
  | some (.statusSecond words) =>
    (s1.writeWords (s1.cmdw + 0xC20) words).onEvents fun u =>
      { u with presented := none, lastWasRecord := false }

/-- The end of a record write: the record leaves the pending set, P advances, and the status-write pending
flag is set (R174). -/
def EventUnit.recordWritten (u : EventUnit) : EventUnit :=
  { u with records := u.records.tail, p := u.p + 1, statusPending := true, presented := none,
           lastWasRecord := true }

/-! ## TAKEOVER (R161, R163, R166) -/

/-- A burst of the Takeover Unit whose end is a step of its own. -/
def State.lastBurst (s : State) (e : BurstEnd) : State := s.onBridge fun b => { b with busy := some e }

/-- The grant of the Takeover Unit's next burst. -/
def State.grantTakeover (s : State) : State :=
  let setJob (t : State) (j : TakeoverJob) : State := t.onTakeover fun u => { u with job := j }
  match s.takeover.job with
  | .none => s
  | .save [] _ _ => s
  | .save ((addr, words) :: rest) slots channels =>
    let s1 := setJob (s.writeWords addr words) (.save rest slots channels)
    if rest.isEmpty then s1.lastBurst .save else s1
  | .copy src dst total next none =>
    setJob s (.copy src dst total next (some (s.readWords (src + 32 * next) 8)))
  | .copy src dst total next (some words) =>
    let s1 := setJob (s.writeWords (dst + 32 * next) words) (.copy src dst total (next + 1) none)
    if total ≤ next + 1 then s1.lastBurst .copy else s1
  | .restore granted bytes =>
    match (restorePlan s.takeover.saveBase bytes)[granted]? with
    | none => s
    | some (addr, n) =>
      let bytes' := bytes ++ (s.readWords addr n).flatMap wordBytes
      let s1 := setJob s (.restore (granted + 1) bytes')
      if (restorePlan s.takeover.saveBase bytes').length ≤ granted + 1 then s1.lastBurst .restore else s1

/-- The Takeover Unit has a burst to present. -/
def State.takeoverWaits (s : State) : Bool :=
  match s.takeover.job with
  | .none => false
  | .save bursts _ _ => !bursts.isEmpty
  | .copy _ _ total next _ => decide (next < total)
  | .restore granted bytes => ((restorePlan s.takeover.saveBase bytes)[granted]?).isSome

/-! ## FETCH (R20) -/

/-- The grant of the next burst of the oldest fetch operation; a palette read's words go into the load
buffer (R20, R56, R57). -/
def State.grantFetch (s : State) : State :=
  match s.bridge.fetch with
  | [] => s
  | op :: rest =>
    let n := burstLength (op.addr + 4 * op.done) (op.words - op.done)
    let words := s.readWords (op.addr + 4 * op.done) n
    let keep := op.kind != .palette
    let op' := { op with done := op.done + n,
                         data := if keep then op.data ++ words.flatMap wordBytes else op.data }
    let s1 := s.onBridge fun b =>
      { b with fetch := op' :: rest, busy := if op'.words ≤ op'.done then some (.fetch op.kind) else none }
    if keep then s1
    else s1.onScene fun sc =>
      { sc with load := sc.load.map fun l => { l with entries := l.entries ++ words } }

/-! ## The arbiter (R17 to R19) -/

/-- The internal classes in order of priority (R17, R19). -/
inductive BurstClass where
  | event
  | takeover
  | fetch
  | compose
  deriving DecidableEq, Repr

/-- A class offers a burst (R17). -/
def State.waits (s : State) : BurstClass → Bool
  | .event => s.events.presented.isSome || s.events.statusPending || !s.events.records.isEmpty
  | .takeover => s.takeoverWaits
  | .fetch => !s.bridge.fetch.isEmpty
  | .compose => s.composeWaits

/-- At least one internal class waits. -/
def State.internalWaits (s : State) : Bool :=
  s.waits .event || s.waits .takeover || s.waits .fetch || s.waits .compose

/-- The class that an internal grant goes to (R19). -/
def State.internalChoice (s : State) : Option BurstClass :=
  if s.waits .compose && s.bridge.composeWait == 3 then some .compose
  else if s.waits .event then some .event
  else if s.waits .takeover then some .takeover
  else if s.waits .fetch then some .fetch
  else if s.waits .compose then some .compose
  else none

/-- The COMPOSE wait count after a grant of a class (R19). -/
def composeCount (c : BurstClass) (composeWaits : Bool) (count : Nat) : Nat :=
  if c = .compose then 0 else if composeWaits then count + 1 else 0

/-- The next choice of the arbiter goes to an internal class, even past a forwarded request: its streak is 3, or
a discard has left the choice to the classes still waiting (R5, R18; log entry 46). -/
def State.internalFirst (s : State) : Bool := s.bridge.streak == 3 || s.bridge.passed

/-- The next choice of the arbiter goes to the forwarded request (R5, R17, R18). -/
def State.forwardedTurn (s : State) : Bool :=
  s.bridge.busy.isNone && (!s.internalWaits || !s.internalFirst)

/-- A forwarded request waits. -/
def State.forwardedWaits (s : State) : Bool :=
  match s.bridge.side with
  | .forwarding _ => true
  | _ => false

/-- The next choice of the arbiter goes to an internal class (R5, R17, R18). -/
def State.internalTurn (s : State) : Bool :=
  s.bridge.busy.isNone && (!s.forwardedWaits || s.internalFirst)

/-- The burst of a class. -/
def State.grantClass (s : State) : BurstClass → State
  | .event => s.grantEvent
  | .takeover => s.grantTakeover
  | .fetch => s.grantFetch
  | .compose => s.grantCompose

/-- An internal grant: the class, its burst and the counters (R18, R19). -/
def State.grantInternal (s : State) : State :=
  if !s.internalTurn then s
  else
    match s.internalChoice with
    | none => s
    | some c =>
      (s.grantClass c).onBridge fun b =>
        { b with
          streak := 0, passed := false
          composeWait := composeCount c (s.waits .compose) s.bridge.composeWait }

/-! ## Ends of compositions and palette reads (R98, R58, R95) -/

/-- The memory side is free again (R17). -/
def State.free (s : State) : State := s.onBridge fun b => { b with busy := none }

/-- The new setup applies; the SET CANVAS completes at its start or with the composition (R95). -/
def State.applyCanvas (s : State) (c : CanvasSetup) : State :=
  ((s.onComposer fun k => { k with canvas := some c, front := .a, swapPending := false, late := 0 }).onBridge
    fun b => { b with window := { b.window with scan := some ⟨c.scan, c.width * c.height * 4⟩, front := .a } }
    ).onScene fun sc => { sc with mark := true }

/-- The buffered palette entries are installed and the LOAD PALETTE completes (R58). -/
def State.installEntries (s : State) : State := (s.onScene Scene.installPalette).complete 0

/-- A composition completes (R98). -/
def State.compositionDone (s : State) : State :=
  let s1 := s.onComposer fun k => { k with swapPending := true, comp := none }
  let s2 := if s1.scene.load.any (·.ended) then s1.installEntries else s1
  let s3 := match s2.intake.inService with
    | some ⟨_, .setCanvas c⟩ => (s2.applyCanvas c).complete 0
    | _ => s2
  s3.drainStep

/-- A palette read has ended: the entries are installed at once, or wait for the composition in flight
(R58). -/
def State.paletteRead (s : State) : State :=
  if s.composer.comp.isNone then s.installEntries
  else s.onScene fun sc => { sc with load := sc.load.map fun l => { l with ended := true } }

end Sys2Proof.Machine
end

