-- ==== Sys2Proof/Machine/Intake.lean ====
section
/-!
DEFINITION. The start of a command (02): when the head starts (R25, R26), the condition mask (R27), the
Intake's judgement (R28), and the end of a command (R29 to R32).
-/

namespace Sys2Proof.Machine

/-- No command is in service and the takeover state lets one start (R25, R26). -/
def State.canStart (s : State) : Bool :=
  s.intake.inService.isNone &&
    match s.takeover.state with
    | .normal | .menuOver | .lockout => true
    | .entering | .leaving => false

/-- The Intake's judgement by kind, length and takeover state: the refusal reason of the first test that
fails (R28). -/
def Command.judgement (c : Command) (t : TakeoverState) : Option RefusalReason :=
  match c.known with
  | none => some .unknownKind
  | some k =>
    if headerLength c.header ≠ k.words then some .badLength
    else if t = .lockout ∧ k ≠ .restart ∧ k ≠ .takeover then some .lockout
    else none

/-- A refused command: REFUSED, and result code 3 (R31, R32). -/
def State.refuse (s : State) (c : Command) (r : RefusalReason) : State :=
  (s.raise (.refused c.kind r c.header c.second) (some c.slot)).setCode 3

/-- The end that an owner's verdict gives (R29, R31). -/
def State.finish (s : State) (c : Command) : Verdict → State
  | .refused r => s.refuse c r
  | .completed code t => t.setCode code
  | .began t => t

/-- The head leaves the queue, and a held command joins at once (R23, R24; log entry 23). What is then the head
follows it in a run, unless the one that left goes into service (R25). -/
def State.departed (s : State) (rest : List Command) : State :=
  ((s.onIntake fun i => { i with queue := rest, inRun := true }).touchStatus).joinHeld

/-- The head of the queue starts, when it may and is one of the row's commands: it leaves the queue, and is
skipped, refused by the Intake, or handed to its owner (R25 to R29; log entries 1, 2). -/
def State.startHead (s : State) (row : Command → Bool) (run : Command → State → Verdict) : State :=
  match s.intake.queue with
  | [] => s
  | c :: rest =>
    if !s.canStart || !row c then s
    else
      let s1 := s.departed rest
      if !c.runsOn s.intake.code then s1
      else
        match c.judgement s.takeover.state with
        | some r => s1.refuse c r
        | none => s1.finish c (run c s1)

/-- The commands of a kind. -/
def ofKind (k : Kind) (c : Command) : Bool := c.known == some k

end Sys2Proof.Machine
end

