-- ==== Sys2Proof/Machine/ExecIntake.lean ====
section
/-!
DEFINITION. The meanings of the Intake's own commands, MARK and RESTART, and of a command of an unknown
kind (R28, R34, R35).
-/

namespace Sys2Proof.Machine

/-- MARK raises a MARK event and completes with code 0 (R34). -/
def runMark (c : Command) (s : State) : Verdict :=
  .completed 0 (s.raise (.mark c.small (c.word 1) s.intake.queue.length) (some c.slot))

/-- MARK. -/
def execMark (s : State) : Result := s.live fun t => t.startHead (ofKind .mark) runMark

/-- R62. -/
def Scene.restart (sc : Scene) : Scene := { Scene.reset with palettes := sc.palettes }

/-- R63, R65. -/
def Motion.restart (m : Motion) : Motion := { m with channels := Vector.replicate 8 Channel.idle }

/-- R113. -/
def Navigator.restart (v : Navigator) : Navigator :=
  { Navigator.reset with inflight := v.inflight.map fun f => { f with stale := true } }

/-- R133. -/
def Sequencer.restart (q : Sequencer) : Sequencer :=
  { Sequencer.reset with
    list := q.list, ready := q.ready, read := q.read.map fun r => { r with overtaken := true } }

/-- R155. -/
def Takeover.restart (t : Takeover) : Takeover :=
  { t with state := .normal, phase := none, held := false, facts := none, jumpPending := false,
           lockReason := none, job := .none }

/-- Every block takes its restart values; the Bridge, the Composer and the Event Unit keep theirs (R2, R22,
R35, R92, R172). -/
def State.restart (s : State) : State :=
  { s with scene := s.scene.restart, motion := s.motion.restart, nav := s.nav.restart,
           seq := s.seq.restart, takeover := s.takeover.restart }

/-- RESTART completes with code 0 (R35). -/
def runRestart (_ : Command) (s : State) : Verdict := .completed 0 s.restart

/-- RESTART. -/
def execRestart (s : State) : Result := s.live fun t => t.startHead (ofKind .restart) runRestart

/-- UNKNOWN_KIND_COMMAND: a command that passes its mask is refused with UNKNOWN KIND (R28). -/
def execUnknownKindCommand (s : State) : Result :=
  s.live fun t => t.startHead (fun c => c.known.isNone) fun _ _ => .refused .unknownKind

end Sys2Proof.Machine
end

