-- ==== Sys2Proof/Machine/ExecMenu.lean ====
section
/-!
DEFINITION. The meanings of the Menu Navigator's commands: OPEN PAGE (R114), PREFETCH PAGE (R128), KEY with
each of its keys (R119 to R126) and CLOSE MENU (R127).
-/

namespace Sys2Proof.Machine

/-- OPEN PAGE (R114). -/
def runOpenPage (c : Command) (s : State) : Verdict :=
  let addr := (c.word 1).toNat
  judged [(pageAddrOk s.cmdw addr, .range)] (s.openPage .command addr 0 c.slot)

/-- OPEN PAGE. -/
def execOpenPage (s : State) : Result := s.live fun t => t.startHead (ofKind .openPage) runOpenPage

/-- PREFETCH PAGE (R128). -/
def runPrefetchPage (c : Command) (s : State) : Verdict :=
  let addr := (c.word 1).toNat
  judged [(pageAddrOk s.cmdw addr, .range)] (.completed 0 (s.prefetchPage addr))

/-- PREFETCH PAGE. -/
def execPrefetchPage (s : State) : Result := s.live fun t => t.startHead (ofKind .prefetchPage) runPrefetchPage

/-- The KEY commands of a key; one whose key is unknown starts under any of the seven rows (R119, step 1;
log entry 18). -/
def ofKey (k : Key) (c : Command) : Bool := ofKind .key c && (c.key == some k || c.key.isNone)

/-- The checks of R119, and then the key's own rule on the open page. -/
def runKey (c : Command) (s : State) (needsFocus : Bool) (act : Page → Verdict) : Verdict :=
  judged
    [ (c.key.isSome, .range),
      (s.nav.page.isSome, .noPage),
      (!needsFocus || s.nav.focus.isSome, .wrongState) ]
    (match s.nav.page with
      | some p => act p
      | none => .refused .noPage)

/-- KEY with key UP (R120). -/
def runKeyUp (c : Command) (s : State) : Verdict := runKey c s false fun p => s.directionKey p .up

/-- KEY UP. -/
def execKeyUp (s : State) : Result := s.live fun t => t.startHead (ofKey .up) runKeyUp

/-- KEY with key DOWN (R120). -/
def runKeyDown (c : Command) (s : State) : Verdict := runKey c s false fun p => s.directionKey p .down

/-- KEY DOWN. -/
def execKeyDown (s : State) : Result := s.live fun t => t.startHead (ofKey .down) runKeyDown

/-- KEY with key LEFT (R120). -/
def runKeyLeft (c : Command) (s : State) : Verdict := runKey c s false fun p => s.directionKey p .left

/-- KEY LEFT. -/
def execKeyLeft (s : State) : Result := s.live fun t => t.startHead (ofKey .left) runKeyLeft

/-- KEY with key RIGHT (R120). -/
def runKeyRight (c : Command) (s : State) : Verdict := runKey c s false fun p => s.directionKey p .right

/-- KEY RIGHT. -/
def execKeyRight (s : State) : Result := s.live fun t => t.startHead (ofKey .right) runKeyRight

/-- KEY with key SELECT (R121). -/
def runKeySelect (c : Command) (s : State) : Verdict := runKey c s false fun p => s.selectKey p c.smallHigh

/-- KEY SELECT. -/
def execKeySelect (s : State) : Result := s.live fun t => t.startHead (ofKey .select) runKeySelect

/-- KEY with key ENTER (R125). -/
def runKeyEnter (c : Command) (s : State) : Verdict := runKey c s true fun p => s.enterKey p (s.nav.focus.getD 0) c.slot

/-- KEY ENTER. -/
def execKeyEnter (s : State) : Result := s.live fun t => t.startHead (ofKey .enter) runKeyEnter

/-- KEY with key BACK (R126). -/
def runKeyBack (c : Command) (s : State) : Verdict := runKey c s false fun p => s.backKey p c.slot

/-- KEY BACK. -/
def execKeyBack (s : State) : Result := s.live fun t => t.startHead (ofKey .back) runKeyBack

/-- CLOSE MENU (R127). -/
def runCloseMenu (_ : Command) (s : State) : Verdict := .completed 0 s.closeMenu

/-- CLOSE MENU. -/
def execCloseMenu (s : State) : Result := s.live fun t => t.startHead (ofKind .closeMenu) runCloseMenu

end Sys2Proof.Machine
end

