-- ==== Sys2Proof/Machine/ExecMotion.lean ====
section
/-!
DEFINITION. The meanings of the Motion Engine's commands: SET PROFILE (R64), MOVE (R79 to R82), RETUNE (R84)
and HALT in its two modes (R85).
-/

namespace Sys2Proof.Machine

/-- SET PROFILE stores its values, clamped (R63, R64). -/
def runSetProfile (c : Command) (s : State) : Verdict :=
  let n := c.small
  judged [(decide (n < 8), .range)]
    (.completed 0
      (s.onMotion fun m => { m with profiles := m.profiles.setIfInBounds n c.profileValues.clamped }))

/-- SET PROFILE. -/
def execSetProfile (s : State) : Result := s.live fun t => t.startHead (ofKind .setProfile) runSetProfile

/-- What a MOVE asks for (R79, R181). -/
def Command.motion (c : Command) : MotionRequest :=
  { channel := c.smallLow, profile := c.smallHigh, slot := bits (c.word 1) 0 8, moved := c.movedSet,
    view := flag (c.word 1) 16, targets := c.targets }

/-- MOVE starts a motion with code 0 or overrides one with code 1 (R79 to R82). -/
def runMove (c : Command) (s : State) : Verdict :=
  let r := c.motion
  judged (s.requestChecks r (s.moveReserved r))
    (.completed (if (s.chan r.channel).phase = .idle then 0 else 1)
      (s.applyRequest r .command (some c.slot)))

/-- MOVE. -/
def execMove (s : State) : Result := s.live fun t => t.startHead (ofKind .move) runMove

/-- RETUNE (R84). -/
def runRetune (c : Command) (s : State) : Verdict :=
  let n := c.small
  judged (s.tuneChecks n)
    (.completed 0 (s.putChan n ((s.chan n).retuned (bits (c.word 1) 0 16))))

/-- RETUNE. -/
def execRetune (s : State) : Result := s.live fun t => t.startHead (ofKind .retune) runRetune

/-- HALT, mode IMMEDIATE (R77, R85). -/
def runHaltImmediate (c : Command) (s : State) : Verdict :=
  let n := c.smallLow
  judged (s.tuneChecks n)
    (.completed 0 (s.endMotion n .halted false false (some c.slot) (some c.slot)))

/-- HALT_IMMEDIATE. -/
def execHaltImmediate (s : State) : Result :=
  s.live fun t => t.startHead (fun c => ofKind .halt c && !c.haltEases) runHaltImmediate

/-- HALT, mode EASE (R85). -/
def runHaltEase (c : Command) (s : State) : Verdict :=
  let n := c.smallLow
  judged (s.tuneChecks n) (.completed 0 (s.putChan n ((s.chan n).haltEase c.slot)))

/-- HALT_EASE. -/
def execHaltEase (s : State) : Result :=
  s.live fun t => t.startHead (fun c => ofKind .halt c && c.haltEases) runHaltEase

end Sys2Proof.Machine
end

