-- ==== Sys2Proof/Machine/ExecScene.lean ====
section
/-!
DEFINITION. The meanings of the Scene Store's commands: DEFINE (R42, R43), DROP (R44), PLACE (R46), UNPLACE
(R47), PATCH (R51), STEP (R52) and LOAD PALETTE (R57).
-/

namespace Sys2Proof.Machine

/-- The record that a DEFINE carries, its viewport at 0, 0 (R43, R181). -/
def Command.record (c : Command) : Obj := defineLayout (c.words.drop 1) 0 0 none

/-- DEFINE (R42, R43). -/
def runDefine (c : Command) (s : State) : Verdict :=
  let n := c.small
  let o := c.record
  judged
    [ (decide (n < 48), .range),
      (!s.seqHeld n && !(s.pageHeld n && o.group == .slide), .reserved),
      ((s.obj n).all (·.bound.isNone), .slotBusy),
      (o.group == .menu || s.takeover.state == .normal || s.takeover.state == .lockout, .wrongState),
      (o.defaultClip.valid s.cmdw, .range) ]
    (.completed 0 (s.onScene fun sc => sc.define n o.installed))

/-- DEFINE. -/
def execDefine (s : State) : Result := s.live fun t => t.startHead (ofKind .define) runDefine

/-- The motion of a dropped object ends with REMOVED (R44, R90); a SLIDE SHOWN that the notice leads to carries
the DROP's slot (R33, R153; log entry 33). -/
def State.removeMotion (s : State) (n : Nat) (slot : Nat) : State :=
  match (s.obj n).bind (·.bound) with
  | some ch => s.endMotion ch .removed false false (some slot) (some slot)
  | none => s

/-- DROP (R44). -/
def runDrop (c : Command) (s : State) : Verdict :=
  let n := c.small
  judged
    [ (decide (n < 48), .range),
      ((s.obj n).isSome, .undefinedSlot),
      (!s.seqHeld n && !s.pageHeld n, .reserved) ]
    (.completed 0 ((s.removeMotion n c.slot).onScene fun sc => sc.undefine n))

/-- DROP. -/
def execDrop (s : State) : Result := s.live fun t => t.startHead (ofKind .drop) runDrop

/-- The reference slot of ABOVE is another placed slot of the same group (R46, check 4). -/
def Scene.aboveOk (sc : Scene) (n : Nat) (p : Option Position) : Bool :=
  match p with
  | some (.above k) => k != n && sc.placed k && (sc.obj k).map (·.group) == (sc.obj n).map (·.group)
  | _ => true

/-- The position of a PLACE is known, and its reference slot is 0..47 (R46, check 1). -/
def positionOk (p : Option Position) : Bool :=
  match p with
  | none => false
  | some (.above k) => decide (k < 48)
  | some _ => true

/-- PLACE (R46). -/
def runPlace (c : Command) (s : State) : Verdict :=
  let n := c.small
  judged
    [ (decide (n < 48) && positionOk c.position, .range),
      ((s.obj n).isSome, .undefinedSlot),
      (!s.seqHeld n, .reserved),
      (s.scene.aboveOk n c.position, .range) ]
    (.completed 0 (s.onScene fun sc => sc.place n (c.position.getD .top)))

/-- PLACE. -/
def execPlace (s : State) : Result := s.live fun t => t.startHead (ofKind .place) runPlace

/-- UNPLACE (R47). -/
def runUnplace (c : Command) (s : State) : Verdict :=
  let n := c.small
  judged
    [ (decide (n < 48), .range),
      ((s.obj n).isSome, .undefinedSlot),
      (!s.seqHeld n, .reserved) ]
    (.completed 0 (s.onScene fun sc => sc.reorder (sc.order.filter (· ≠ n))))

/-- UNPLACE. -/
def execUnplace (s : State) : Result := s.live fun t => t.startHead (ofKind .unplace) runUnplace

/-- The value that PATCH gives a field: the kept positions of the old field, the others from the value
(R51). -/
def patchValue (keep value : Word) (f : Field) (old : Int) : Int :=
  let k := keep.setWidth f.width
  f.ofBits ((BitVec.ofInt f.width old &&& k) ||| (value.setWidth f.width &&& ~~~k))

/-- PATCH (R50, R51, R53). -/
def runPatch (c : Command) (s : State) : Verdict :=
  s.edit c.smallLow c.field true (patchValue (c.word 1) (c.word 2))
    fun f _ stored => patchCode ((c.word 1).setWidth f.width) (BitVec.ofInt f.width stored)

/-- PATCH. -/
def execPatch (s : State) : Result := s.live fun t => t.startHead (ofKind .patch) runPatch

/-- The value that STEP chooses: the limit when the sum has passed it in mode STOP, else the sum (R52). -/
def stepValue (increment limit : Int) (stops : Bool) (old : Int) : Int :=
  if stepCode increment (old + increment) limit = 2 ∧ stops then limit else old + increment

/-- STEP (R50, R52, R53). -/
def runStep (c : Command) (s : State) : Verdict :=
  let increment := signedWord (c.word 1)
  let limit := signedWord (c.word 2)
  s.edit c.smallLow c.field c.stepStops.isSome
    (fun _ old => stepValue increment limit (c.stepStops.getD true) old)
    fun _ old _ => stepCode increment (old + increment) limit

/-- STEP. -/
def execStep (s : State) : Result := s.live fun t => t.startHead (ofKind .step) runStep

/-- LOAD PALETTE goes into service and starts its palette read (R57). -/
def runLoadPalette (c : Command) (s : State) : Verdict :=
  let palette := c.smallLow
  let first := c.smallHigh
  let count := bits (c.word 1) 0 16
  let source := (c.word 2).toNat
  judged
    [ (decide (palette ≤ 3), .range),
      (decide (1 ≤ count) && decide (count ≤ 256) && decide (first + count ≤ 256), .range),
      (source % 4 == 0, .range),
      (decide (source + count * 4 ≤ s.cmdw), .range) ]
    (.began
      (((s.serve c.slot .loadPalette).onScene fun sc =>
        { sc with load := some ⟨palette, first, count, [], false⟩ }).startFetch .palette source count))

/-- LOAD PALETTE. -/
def execLoadPalette (s : State) : Result := s.live fun t => t.startHead (ofKind .loadPalette) runLoadPalette

end Sys2Proof.Machine
end

