-- ==== Sys2Proof/Machine/ExecSetup.lean ====
section
/-!
DEFINITION. The meanings of the setup commands SET CANVAS (R94, R95), SET TAKEOVER (R156) and SET SLIDES
(R135).
-/

namespace Sys2Proof.Machine

/-- No two of the windows share a byte (R94). -/
def disjointWindows : List Window → Bool
  | [] => true
  | u :: us => (us.all fun v => !u.overlaps v) && disjointWindows us

/-- The checks of R94. -/
def State.canvasChecks (s : State) (c : CanvasSetup) : List (Bool × RefusalReason) :=
  [ (s.takeover.state == .normal, .wrongState),
    (decide (320 ≤ c.width) && decide (c.width ≤ 1920) && c.width % 16 == 0
      && decide (240 ≤ c.height) && decide (c.height ≤ 1080) && c.height % 8 == 0, .range),
    (c.regions.all fun u => u.base % 0x1000 == 0, .range),
    (c.regions.all fun u => decide (u.base + u.len ≤ s.cmdw), .range),
    (disjointWindows c.regions, .overlap),
    (c.regions.all fun u => !u.overlaps ⟨s.takeover.saveBase, 0x1000⟩, .overlap),
    (c.regions.all fun u => s.clearOfList u, .overlap) ]

/-- SET CANVAS applies at once when no composition is in flight, and waits otherwise (R94, R95). -/
def runSetCanvas (c : Command) (s : State) : Verdict :=
  judged (s.canvasChecks c.canvasSetup)
    (if s.composer.comp.isNone then .completed 0 (s.applyCanvas c.canvasSetup)
      else .began (s.serve c.slot (.setCanvas c.canvasSetup)))

/-- SET CANVAS. -/
def execSetCanvas (s : State) : Result := s.live fun t => t.startHead (ofKind .setCanvas) runSetCanvas

/-- SET TAKEOVER stores its three values and moves the save area (R156). -/
def runSetTakeover (c : Command) (s : State) : Verdict :=
  let base := (c.word 1).toNat
  let dim := bits (c.word 2) 16 16
  judged
    [ (s.takeover.state == .normal, .wrongState),
      (c.lineEdge.isSome && decide (dim ≤ 255), .range),
      (s.saveBaseOk base, .range),
      (s.clearOfCanvas ⟨base, 0x1000⟩, .overlap),
      (s.clearOfList ⟨base, 0x1000⟩, .overlap) ]
    (.completed 0
      ((s.onTakeover fun t =>
          { t with saveBase := base, edge := c.lineEdge.getD .off, dim := dim }).onBridge
        fun b => { b with window := { b.window with saveBase := base } }))

/-- SET TAKEOVER. -/
def execSetTakeover (s : State) : Result := s.live fun t => t.startHead (ofKind .setTakeover) runSetTakeover

/-- The list range shares no byte with a canvas region (R135). -/
def State.listClear (s : State) (l : SlideList) : Bool :=
  s.composer.canvas.all fun c => c.regions.all fun r => !r.overlaps l.range

/-- SET SLIDES replaces the list setup and clears the ready map (R135, R4). -/
def runSetSlides (c : Command) (s : State) : Verdict :=
  let l := c.slideList
  judged
    [ (s.takeover.state != .menuOver, .suspended),
      (s.seq.state == .stopped, .wrongState),
      (decide (1 ≤ l.count) && decide (l.count ≤ 256) && decide (l.slotA < 48) && decide (l.slotB < 48)
        && l.slotA != l.slotB, .range),
      (l.base % 64 == 0 && decide (l.base + l.count * 64 ≤ s.cmdw), .range),
      (s.listClear l, .overlap) ]
    (.completed 0
      ((s.onSeq fun q => { q with list := some l, ready := Vector.replicate 256 false }).onBridge
        fun b => { b with window := { b.window with slides := some l.range } }))

/-- SET SLIDES. -/
def execSetSlides (s : State) : Result := s.live fun t => t.startHead (ofKind .setSlides) runSetSlides

end Sys2Proof.Machine
end

