-- ==== Sys2Proof/Machine/ExecSlides.lean ====
section
/-!
DEFINITION. The meanings of the Slide Sequencer's commands: SLIDE START (R137), SLIDE STOP (R151), SLIDE STEP
(R146 to R148), SLIDE PAUSE (R149) and SLIDE RESUME (R150).
-/

namespace Sys2Proof.Machine

/-- SLIDE START (R137). -/
def runSlideStart (c : Command) (s : State) : Verdict :=
  let i := c.small
  let l := s.seq.setup
  let s1 := (((s.silentHalt 5).silentHalt 6).silentHalt 7).onSeq fun q =>
    { q with shown := none, current := none, backward := false, skip := 0 }
  judged
    [ (s.takeover.state != .menuOver, .suspended),
      (s.seq.state == .stopped, .wrongState),
      (s.seq.list.isSome && s.composer.canvas.isSome, .wrongState),
      (decide (i < l.count), .range),
      ((s.obj l.slotA).isNone && (s.obj l.slotB).isNone, .slotBusy) ]
    (.completed 0 (s1.loadBegin i (some c.slot)))

/-- SLIDE START. -/
def execSlideStart (s : State) : Result := s.live fun t => t.startHead (ofKind .slideStart) runSlideStart

/-- SLIDE STOP (R151). -/
def runSlideStop (_ : Command) (s : State) : Verdict :=
  judged [(s.takeover.state != .menuOver, .suspended)]
    (.completed 0 (if s.seq.state = .stopped then s else s.stopShow))

/-- SLIDE STOP. -/
def execSlideStop (s : State) : Result := s.live fun t => t.startHead (ofKind .slideStop) runSlideStop

/-- The checks of R149 and R150 on the states, which SLIDE STEP makes too (R146). -/
def State.showChecks (s : State) : List (Bool × RefusalReason) :=
  [ (s.takeover.state != .menuOver, .suspended),
    (s.seq.state != .stopped, .wrongState) ]

/-- A step from an index: the load of the next one begins, or SHOW END is raised (R146, R148); `prepare` is
what the step does before the load. -/
def State.stepFrom (s : State) (i : Nat) (backward : Bool) (slot : Nat) (prepare : Sequencer → Sequencer) :
    Verdict :=
  let l := s.seq.setup
  match l.next i backward with
  | some j =>
    .completed 0
      ((s.onSeq fun q => { prepare q with backward := backward, skip := 0 }).loadBegin j (some slot))
  | none =>
    .completed 1 (s.raise (.showEnd s.seq.current true backward l.base l.count) (some slot))

/-- SLIDE STEP in SHOWING (R146). With no current index, which only an edited save record leads to, it steps from a
free index of the list (log entry 52). -/
def State.stepShown (s : State) (backward : Bool) (slot : Nat) : Verdict :=
  let prepare (q : Sequencer) : Sequencer := { q with dwell := 0 }
  match s.seq.current with
  | some i => s.stepFrom i backward slot prepare
  | none =>
    State.stepFrom { s with freeCount := s.freeCount + 1 } (Config.stepIndex s.freeCount % s.seq.setup.count) backward
      slot prepare

/-- SLIDE STEP by the sequencer state (R146 to R148). -/
def State.stepShow (s : State) (backward : Bool) (slot : Nat) : Verdict :=
  match s.seq.state with
  | .showing => s.stepShown backward slot
  | .changing => (s.snapAwaited (some slot)).stepShown backward slot
  | .loading | .waiting =>
    s.stepFrom (s.seq.incoming.getD 0) backward slot fun q =>
      { q with read := q.read.map fun r => { r with overtaken := true } }
  | .stopped | .suspended => .completed 0 s

/-- SLIDE STEP (R146). -/
def runSlideStep (c : Command) (s : State) : Verdict :=
  judged ((c.direction.isSome, .range) :: s.showChecks) (s.stepShow (c.direction.getD false) c.slot)

/-- SLIDE STEP. -/
def execSlideStep (s : State) : Result := s.live fun t => t.startHead (ofKind .slideStep) runSlideStep

/-- SLIDE PAUSE (R149). -/
def runSlidePause (c : Command) (s : State) : Verdict :=
  let mode := c.holdMode.getD .freeze
  judged ((c.holdMode.isSome, .range) :: s.showChecks)
    (.completed 0 ((s.onSeq fun q => { q with paused := true, pauseMode := some mode }).holdAll mode))

/-- SLIDE PAUSE. -/
def execSlidePause (s : State) : Result := s.live fun t => t.startHead (ofKind .slidePause) runSlidePause

/-- The end of a pause: the release, and the pan that is owed (R150). -/
def State.resumeShow (s : State) : State :=
  let s1 := (s.onSeq fun q => { q with paused := false, pauseMode := none }).releaseAll
  let onShow := s.seq.shown.isSome &&
    (s.seq.state == .showing || s.seq.state == .loading || s.seq.state == .waiting)
  if onShow && s.seq.panOwed then (s1.onSeq fun q => { q with panOwed := false }).panRequest else s1

/-- SLIDE RESUME (R150). -/
def runSlideResume (_ : Command) (s : State) : Verdict :=
  judged s.showChecks (.completed 0 (if s.seq.paused then s.resumeShow else s))

/-- SLIDE RESUME. -/
def execSlideResume (s : State) : Result := s.live fun t => t.startHead (ofKind .slideResume) runSlideResume

end Sys2Proof.Machine
end

