-- ==== Sys2Proof/Machine/ExecTakeover.lean ====
section
/-!
DEFINITION. The meanings of the Takeover Unit's commands TAKEOVER (R158) and RESUME (R165).
-/

namespace Sys2Proof.Machine

/-- TAKEOVER begins an entry or a recovery in service, or sets the held-request flag at once (R158). A recovery
while the Composer is DISABLED ends at its start (R163, R170). -/
def runTakeover (c : Command) (s : State) : Verdict :=
  match s.takeover.state with
  | .normal => .began ((s.serve c.slot .takeover).acceptRequest .command)
  | .lockout => .began ((s.serve c.slot .takeover).recover .command).keepRun
  | .entering | .menuOver | .leaving => .completed 1 s.holdRequest

/-- TAKEOVER. -/
def execTakeover (s : State) : Result := s.live fun t => t.startHead (ofKind .takeover) runTakeover

/-- RESUME goes into service in MENU-OVER and closes the scene (R165). -/
def runResume (c : Command) (s : State) : Verdict :=
  judged [(s.takeover.state == .menuOver, .wrongState)]
    (.began ((s.serve c.slot .resume).closeScene))

/-- RESUME. -/
def execResume (s : State) : Result := s.live fun t => t.startHead (ofKind .resume) runResume

end Sys2Proof.Machine
end

