-- ==== Sys2Proof/Machine/Start.lean ====
section
/-!
DEFINITION. The start of a head that is due (R25, R26): what its owner makes of it, whatever its kind, and
the step of an event that is no command, before which a due head starts.
-/

namespace Sys2Proof.Machine

/-- KEY by its key; an unknown one is refused whichever of the keys' meanings judges it (R119, step 1; log
entry 18). -/
def runAnyKey (c : Command) (s : State) : Verdict :=
  match c.key with
  | some .up => runKeyUp c s
  | some .down => runKeyDown c s
  | some .left => runKeyLeft c s
  | some .right => runKeyRight c s
  | some .select => runKeySelect c s
  | some .enter => runKeyEnter c s
  | some .back => runKeyBack c s
  | none => runKeyUp c s

/-- What the owner of a command of a kind makes of it (R29; Commands at a Glance, 02). -/
def runKind (k : Kind) (c : Command) (s : State) : Verdict :=
  match k with
  | .mark => runMark c s
  | .restart => runRestart c s
  | .setCanvas => runSetCanvas c s
  | .setTakeover => runSetTakeover c s
  | .setSlides => runSetSlides c s
  | .define => runDefine c s
  | .drop => runDrop c s
  | .place => runPlace c s
  | .unplace => runUnplace c s
  | .patch => runPatch c s
  | .step => runStep c s
  | .loadPalette => runLoadPalette c s
  | .setProfile => runSetProfile c s
  | .move => runMove c s
  | .retune => runRetune c s
  | .halt => if c.haltEases then runHaltEase c s else runHaltImmediate c s
  | .openPage => runOpenPage c s
  | .prefetchPage => runPrefetchPage c s
  | .key => runAnyKey c s
  | .closeMenu => runCloseMenu c s
  | .slideStart => runSlideStart c s
  | .slideStop => runSlideStop c s
  | .slideStep => runSlideStep c s
  | .slidePause => runSlidePause c s
  | .slideResume => runSlideResume c s
  | .takeover => runTakeover c s
  | .resume => runResume c s

/-- What its owner makes of a command; one of an unknown kind has none (R28, R29). -/
def Command.run (c : Command) (s : State) : Verdict :=
  match c.known with
  | some k => runKind k c s
  | none => .refused .unknownKind

/-- The conditions of R25 hold: the queue is not empty and its head may start. -/
def State.headReady (s : State) : Bool := s.canStart && !s.intake.queue.isEmpty

/-- The head is due: it may start, and it does so at the event that let it. Within a run of commands other events
may fall before it (R25; log entry 1). -/
def State.headDue (s : State) : Bool := s.headReady && !s.intake.inRun

/-- The head starts, whatever its kind (R25, R26). -/
def State.startDue (s : State) : State := s.startHead (fun _ => true) Command.run

/-- A step with an effect of its own, before which the head starts when `first` says so (R25). -/
def State.afterStart (s : State) (first : Bool) (f : State → State) : Result :=
  if first then
    match s.live State.startDue with
    | .next t => t.live f
    | r => r
  else s.live f

/-- The step of an event that is no command of the queue: a head that is due starts before it, so that no
event comes between what made the head due and its start (R25, R26; log entry 1). -/
def State.event (s : State) (f : State → State) : Result := s.afterStart s.headDue f

/-- A bus clock in which nothing comes from outside: a head that may start does so, in a run too, since nothing
has come before it (R25; log entries 1, 5). -/
def State.clock (s : State) (f : State → State) : Result := s.afterStart s.headReady f

end Sys2Proof.Machine
end

