-- ==== Sys2Proof/Machine/ExecBus.lean ====
section
/-!
DEFINITION. The meanings of the bus events: CONTROLLER_REQUEST, HOLD_LIMIT, FORWARDED_GRANT, INTERNAL_GRANT,
EVENT_RECORD_WRITE_END and STATUS_WRITE.
-/

namespace Sys2Proof.Machine

/-- The last burst of a kind ends, which frees the memory side; without such a burst nothing ends (R17;
log entry 2). -/
def State.atEnd (s : State) (e : BurstEnd) (f : State → State) : State :=
  if s.bridge.busy = some e then f s.free else s

/-- CONTROLLER_REQUEST: in READY the Bridge takes the request and classifies it against the Command Window;
otherwise the request waits (R3, R8, R10 to R12, R23). -/
def execControllerRequest (r : Request) (s : State) : Result :=
  if r.wf then s.event fun t => t.takeRequest r else .fault .notABurst

/-- HOLD_LIMIT: at the bus clock that takes the hold count to 2048 the held write is forwarded, and its
command is dropped (R13, R24). -/
def execHoldLimit (s : State) : Result := s.event State.dropHeld

/-- One bus clock, in which nothing comes from outside (R13; log entry 5). -/
def execClock (s : State) : Result := s.clock State.busClock

/-- The forwarded request, when it is its turn (R5, R17, R18). -/
def State.forwardedGrant (s : State) : State :=
  match s.bridge.side with
  | .forwarding f => if s.forwardedTurn then s.grantForwarded f s.internalWaits else s
  | _ => s

/-- FORWARDED_GRANT: the arbiter chooses the forwarded request (R5 to R10, R14 to R18, R129, R136, R175). -/
def execForwardedGrant (s : State) : Result := s.event State.forwardedGrant

/-- INTERNAL_GRANT: the arbiter grants one internal burst (R17 to R20). -/
def execInternalGrant (s : State) : Result := s.event State.grantInternal

/-- EVENT_RECORD_WRITE_END: the oldest pending record is in memory, and P advances (R174, R179). -/
def execEventRecordWriteEnd (s : State) : Result :=
  s.event fun t => t.atEnd .eventRecord fun u => u.onEvents EventUnit.recordWritten

/-- STATUS_WRITE: the first burst of a status write is presented with its snapshot (R177, R178). -/
def execStatusWrite (s : State) : Result :=
  s.event fun t => if t.events.statusTurn then t.presentStatus else t

end Sys2Proof.Machine
end

