-- ==== Sys2Proof/Machine/ExecEnds.lean ====
section
/-!
DEFINITION. The meanings of the ends of internal operations: COMPOSITION_COMPLETE, PALETTE_READ_END,
PAGE_READ_END, PREFETCH_READ_END, DESCRIPTOR_READ_END, SAVE_END, COPY_END and RESTORE_READ_END.
-/

namespace Sys2Proof.Machine

/-- The bytes that a fetch operation has read. -/
def State.fetched (s : State) (kind : FetchKind) : List Byte :=
  ((s.bridge.fetchOf kind).map (·.data)).getD []

/-- COMPOSITION_COMPLETE (R98, R58, R95, R160). -/
def execCompositionComplete (s : State) : Result :=
  s.event fun t => t.atEnd .composition State.compositionDone

/-- PALETTE_READ_END (R20, R58, R160). -/
def execPaletteReadEnd (s : State) : Result :=
  s.event fun t => t.atEnd (.fetch .palette) fun u => (u.endFetch .palette).paletteRead.drainStep

/-- PAGE_READ_END (R20, R115 to R118, R160). -/
def execPageReadEnd (s : State) : Result :=
  s.event fun t => t.atEnd (.fetch .page) fun u =>
    ((u.endFetch .page).pageRead (u.fetched .page)).drainStep

/-- PREFETCH_READ_END (R20, R130, R160). -/
def execPrefetchReadEnd (pageFirst : Bool) (s : State) : Result :=
  s.event fun t => t.atEnd (.fetch .prefetch) fun u =>
    match u.nav.inflight with
    | some f => ((u.endFetch .prefetch).prefetchRead f (u.fetched .prefetch) pageFirst).drainStep
    | none => u.endFetch .prefetch

/-- DESCRIPTOR_READ_END (R20, R139 to R143, R160). -/
def execDescriptorReadEnd (s : State) : Result :=
  s.event fun t => t.atEnd (.fetch .descriptor) fun u =>
    match u.seq.read with
    | some r => ((u.endFetch .descriptor).descriptorRead r (u.fetched .descriptor)).drainStep
    | none => u.endFetch .descriptor

/-- SAVE_END (R162, R163). -/
def execSaveEnd (s : State) : Result :=
  s.event fun t => t.atEnd .save fun u =>
    match u.takeover.job with
    | .save _ slots channels => u.saveDone slots channels
    | _ => u

/-- COPY_END (R163, R171). -/
def execCopyEnd (s : State) : Result := s.event fun t => t.atEnd .copy State.copyDone

/-- RESTORE_READ_END (R166 to R169, R171). -/
def execRestoreReadEnd (s : State) : Result :=
  s.event fun t => t.atEnd .restore fun u =>
    match u.takeover.job with
    | .restore _ bytes => u.restoreRead bytes
    | _ => u

end Sys2Proof.Machine
end

