-- ==== Sys2Proof/Machine/ExecLines.lean ====
section
/-!
DEFINITION. The meanings of the line events: RSTN_ASSERT, RSTN_RELEASE, FRAME_TICK, DWELL_EXPIRY and
TKRQ_EDGE.
-/

namespace Sys2Proof.Machine

/-- RSTN_ASSERT: every block ends what it does and takes its reset values (R1, R2, R22, R61, R63, R65,
R92, R113, R133, R155, R172). -/
def execRstnAssert (s : State) : Result :=
  if s.rstnLow then .next s
  else .next { s.rstn s.bridge.memSize s.takeover.level with rstnLow := true }

/-- RSTN_RELEASE: the straps and the TKRQ level are sampled, and every block holds its reset values (R1,
R2, R155, R157, R172). -/
def execRstnRelease (msz : BitVec 2) (tkrq : Bool) (s : State) : Result :=
  if s.rstnLow then .next { s.rstn (Config.memorySize msz) tkrq with rstnLow := false } else .next s

/-- FRAME_TICK: every channel, the Composer and the Sequencer deal with the tick, and the settle follows
(R71 to R78, R97, R99, R100, R145). -/
def execFrameTick (order : List TickPart) (s : State) : Result := s.event fun t => t.frameTick order

/-- DWELL_EXPIRY: the advance that the counted-out dwell calls for, which every step takes before its own
effect (R145; log entry 6). -/
def execDwellExpiry (s : State) : Result := s.event fun t => t

/-- TKRQ_EDGE: the line shows a level; a change is an edge, and the edge selection makes it a request (R157,
R158). -/
def execTkrqEdge (level : Bool) (s : State) : Result := s.event fun t => t.lineLevel level

end Sys2Proof.Machine
end

