-- ==== Sys2Proof/Machine/Dispatch.lean ====
section
/-!
DEFINITION. The map from the commands to their meanings, one arm per row of spec/opcode_table.json.
-/

namespace Sys2Proof.Machine

/-- The effect of a command on everything but the sender's queue. -/
def exec (i : Instr) (s : State) : Host.Outcome State Fault Refusal :=
  match i with
  | .rstnAssert => Sys2Proof.Machine.execRstnAssert s
  | .rstnRelease msz tkrq => Sys2Proof.Machine.execRstnRelease msz tkrq s
  | .frameTick order => Sys2Proof.Machine.execFrameTick order s
  | .dwellExpiry => Sys2Proof.Machine.execDwellExpiry s
  | .tkrqEdge level => Sys2Proof.Machine.execTkrqEdge level s
  | .controllerRequest r => Sys2Proof.Machine.execControllerRequest r s
  | .holdLimit => Sys2Proof.Machine.execHoldLimit s
  | .forwardedGrant => Sys2Proof.Machine.execForwardedGrant s
  | .internalGrant => Sys2Proof.Machine.execInternalGrant s
  | .compositionComplete => Sys2Proof.Machine.execCompositionComplete s
  | .paletteReadEnd => Sys2Proof.Machine.execPaletteReadEnd s
  | .pageReadEnd => Sys2Proof.Machine.execPageReadEnd s
  | .prefetchReadEnd pageFirst => Sys2Proof.Machine.execPrefetchReadEnd pageFirst s
  | .descriptorReadEnd => Sys2Proof.Machine.execDescriptorReadEnd s
  | .saveEnd => Sys2Proof.Machine.execSaveEnd s
  | .copyEnd => Sys2Proof.Machine.execCopyEnd s
  | .restoreReadEnd => Sys2Proof.Machine.execRestoreReadEnd s
  | .eventRecordWriteEnd => Sys2Proof.Machine.execEventRecordWriteEnd s
  | .statusWrite => Sys2Proof.Machine.execStatusWrite s
  | .mark => Sys2Proof.Machine.execMark s
  | .restart => Sys2Proof.Machine.execRestart s
  | .setCanvas => Sys2Proof.Machine.execSetCanvas s
  | .setTakeover => Sys2Proof.Machine.execSetTakeover s
  | .setSlides => Sys2Proof.Machine.execSetSlides s
  | .define => Sys2Proof.Machine.execDefine s
  | .drop => Sys2Proof.Machine.execDrop s
  | .place => Sys2Proof.Machine.execPlace s
  | .unplace => Sys2Proof.Machine.execUnplace s
  | .patch => Sys2Proof.Machine.execPatch s
  | .step => Sys2Proof.Machine.execStep s
  | .loadPalette => Sys2Proof.Machine.execLoadPalette s
  | .setProfile => Sys2Proof.Machine.execSetProfile s
  | .move => Sys2Proof.Machine.execMove s
  | .retune => Sys2Proof.Machine.execRetune s
  | .haltImmediate => Sys2Proof.Machine.execHaltImmediate s
  | .haltEase => Sys2Proof.Machine.execHaltEase s
  | .openPage => Sys2Proof.Machine.execOpenPage s
  | .prefetchPage => Sys2Proof.Machine.execPrefetchPage s
  | .keyUp => Sys2Proof.Machine.execKeyUp s
  | .keyDown => Sys2Proof.Machine.execKeyDown s
  | .keyLeft => Sys2Proof.Machine.execKeyLeft s
  | .keyRight => Sys2Proof.Machine.execKeyRight s
  | .keySelect => Sys2Proof.Machine.execKeySelect s
  | .keyEnter => Sys2Proof.Machine.execKeyEnter s
  | .keyBack => Sys2Proof.Machine.execKeyBack s
  | .closeMenu => Sys2Proof.Machine.execCloseMenu s
  | .slideStart => Sys2Proof.Machine.execSlideStart s
  | .slideStop => Sys2Proof.Machine.execSlideStop s
  | .slideStep => Sys2Proof.Machine.execSlideStep s
  | .slidePause => Sys2Proof.Machine.execSlidePause s
  | .slideResume => Sys2Proof.Machine.execSlideResume s
  | .takeover => Sys2Proof.Machine.execTakeover s
  | .resume => Sys2Proof.Machine.execResume s
  | .unknownKindCommand => Sys2Proof.Machine.execUnknownKindCommand s

end Sys2Proof.Machine
end

