-- ==== Sys2Proof/Machine/Step.lean ====
section
/-!
DEFINITION. A step of the machine: the command at the front of the sender's queue, or a bus clock on an
empty queue; and the placing of a decoded command at the front.
-/

namespace Sys2Proof.Machine

/-- The next step: the front command acts on the state with the queue's rest; on an empty queue one bus
clock passes (R13; log entry 5). -/
def step (s : State) : Host.Outcome State Fault Refusal :=
  match s.pending with
  | [] => execClock s
  | c :: rest => exec c { s with pending := rest }

/-- The state with the command that a word spells at the front of its queue. The rows of this hardware's
table give no bits, so no word spells one. -/
def State.withFetchWord (s : State) (nbits w : Nat) : State :=
  match decodeTableWord nbits w with
  | some c => { s with pending := c :: s.pending }
  | none => s

end Sys2Proof.Machine
end

