-- ==== Sys2Proof/Safety.lean ====
section
/-!
DEFINITION. The terms the claims use: what a step leaves as it was, when a command starts and runs, and the
laws of the whole machine: memory, the arbiter, the queue, the event ring, the display order, the window
map, the banks, the menu and the held write.
-/

namespace Sys2Proof.Machine

/-! ## Frames -/

/-- The parts of the state. -/
inductive Part where
  | pending
  | line
  | free
  | mem
  | bridge
  | intake
  | scene
  | motion
  | composer
  | nav
  | seq
  | takeover
  | events
  deriving DecidableEq, Repr

/-- Two states agree in a part. -/
def Part.same (p : Part) (s t : State) : Prop :=
  match p with
  | .pending => t.pending = s.pending
  | .line => t.rstnLow = s.rstnLow
  | .free => t.freeCount = s.freeCount
  | .mem => t.mem = s.mem
  | .bridge => t.bridge = s.bridge
  | .intake => t.intake = s.intake
  | .scene => t.scene = s.scene
  | .motion => t.motion = s.motion
  | .composer => t.composer = s.composer
  | .nav => t.nav = s.nav
  | .seq => t.seq = s.seq
  | .takeover => t.takeover = s.takeover
  | .events => t.events = s.events

/-- Nothing but the listed parts differs. -/
def State.sameBut (parts : List Part) (s t : State) : Prop := ∀ p, p ∉ parts → p.same s t

/-! ## Commands that start (R25 to R28) -/

/-- RSTN is high, the status write after RSTN has been presented and no advance is owed, so a command of the
queue has its own effect at once. -/
structure State.Quiet (s : State) : Prop where
  high : s.rstnLow = false
  clear : s.seq.advanceOwed = false
  shown : s.events.firstWrite = false

/-- Nor is a head due, so every event has its own effect at once (R25). -/
structure State.Settled (s : State) : Prop extends s.Quiet where
  idle : s.headDue = false

/-- The head of the queue is `c`, and it may start (R25, R26). -/
structure State.Head (s : State) (c : Command) (rest : List Command) : Prop extends s.Quiet where
  head : s.intake.queue = c :: rest
  may : s.canStart = true

/-- The head of the queue is `c` of kind `k`, and it starts, passes its mask and the Intake's judgement
(R25 to R28). -/
structure State.Starts (s : State) (c : Command) (rest : List Command) (k : Kind) : Prop
    extends s.Head c rest where
  kind : c.known = some k
  length : headerLength c.header = k.words
  mask : c.runsOn s.intake.code = true
  unlocked : s.takeover.state ≠ .lockout ∨ k = .restart ∨ k = .takeover

/-- The end of a step: the Event Unit presents a record that waits for its turn (R178). -/
def State.closed (s : State) : State := s.onEvents EventUnit.present

/-- What a command leaves that has gone from the head of the queue, has ended with a code and has done
nothing else (R23, R24, R31). -/
def State.doneWith (s : State) (rest : List Command) (code : Fin 4) : State :=
  ((s.departed rest).setCode code).closed

/-- The same for a command that has raised one event (R31, R33). -/
def State.doneRaising (s : State) (rest : List Command) (code : Fin 4) (e : Event) (slot : Nat) : State :=
  (((s.departed rest).raise e (some slot)).setCode code).closed

/-- What a command leaves that has gone from the head of the queue into service (R23, R29, R30). -/
def State.servedWith (s : State) (rest : List Command) (slot : Nat) (op : ServiceOp) : State :=
  ((s.departed rest).serve slot op).closed

/-- The command of a row is refused with the reason of the first of these conditions that fails, and nothing
else happens to it (R29, R31, R32). -/
def State.refusesIn (s : State) (row : Instr) (c : Command) (rest : List Command) :
    List (Prop × RefusalReason) → Prop
  | [] => True
  | (ok, r) :: more =>
    (¬ ok → exec row s = .next (s.doneRaising rest 3 (.refused c.kind r c.header c.second) c.slot))
      ∧ (ok → s.refusesIn row c rest more)

/-- The conditions of R79 on a MOVE of the object `o` in its slot. -/
def State.movePasses (s : State) (r : MotionRequest) (o : Obj) : Prop :=
  r.channel < 8 ∧ r.profile < 8 ∧ r.moved ≠ ⟨false, false, false, false, false⟩
    ∧ s.channelReserved r.channel = false ∧ s.seqHeld r.slot = false
    ∧ (∀ p, s.nav.page = some p → p.highlight ≠ r.slot)
    ∧ s.obj r.slot = some o ∧ (r.view = true → o.body.code = 3)
    ∧ (o.withSizes r.moved (o.clampTargets r.moved r.view r.targets)).valid s.cmdw = true

/-- The checks of R89 on another block's request: those of R79 but for the reservations. -/
def State.requestPasses (s : State) (r : MotionRequest) (o : Obj) : Prop :=
  r.channel < 8 ∧ r.profile < 8 ∧ r.moved ≠ ⟨false, false, false, false, false⟩
    ∧ s.obj r.slot = some o ∧ (r.view = true → o.body.code = 3)
    ∧ (o.bound = none ∨ o.bound = some r.channel)
    ∧ ((s.chan r.channel).phase = .idle
        ∨ (s.chan r.channel).slot = some r.slot ∧ (s.chan r.channel).view = r.view)
    ∧ (o.withSizes r.moved (o.clampTargets r.moved r.view r.targets)).valid s.cmdw = true

/-- The opening of a page by a command that ends at once or goes into service (R114, R125, R126). -/
def State.opening (s : State) (cause : Cause) (addr saved slot : Nat) : State :=
  match s.openPage cause addr saved slot with
  | .completed code t => t.setCode code
  | .began t => t
  | .refused _ => s

/-- An object of a size w by h, its viewport kept in range (R55). -/
def Obj.sized (o : Obj) (w h : Nat) : Obj :=
  { o with
    w := w
    h := h
    body :=
      match o.body with
      | .slide src st iw ih vx vy => .slide src st iw ih (min vx ((iw - w) * 16)) (min vy ((ih - h) * 16))
      | b => b }

/-- The greatest width and height of an object: 2048, or a SLIDE's image in its place (R80; the model's reading, log
entry 45). -/
def Obj.greatest (o : Obj) : Nat × Nat :=
  match o.body with
  | .slide _ _ iw ih _ _ => (iw, ih)
  | _ => (2048, 2048)

/-- The highlight with the size of a button's grown rectangle, held to the ranges of the fields (R80, R112; log
entries 45 and 50). -/
def Obj.grownTo (o : Obj) (b : Button) (margin : Nat) : Obj :=
  o.sized (max 1 (min o.greatest.1 (b.w + 2 * margin))) (max 1 (min o.greatest.2 (b.h + 2 * margin)))

/-- The highlight at a button: its grown rectangle, whose size is left out when the record would be invalid with
it (R112, R118). -/
def Obj.atButton (o : Obj) (cmdw : Nat) (b : Button) (margin : Nat) : Obj :=
  { (if (o.grownTo b margin).valid cmdw = true then o.grownTo b margin else o) with
    x := max (-32768) (min 65535 (16 * (b.x - margin)))
    y := max (-32768) (min 65535 (16 * (b.y - margin))) }

/-- The request by which the highlight glides to a button: its grown rectangle with the page's profile on
channel 0, the size left out when the record would be invalid with it (R122). -/
def Page.glideTo (p : Page) (o : Obj) (cmdw : Nat) (b : Button) : MotionRequest :=
  let fits := (o.grownTo b p.margin).valid cmdw
  { channel := 0, profile := p.profile, slot := p.highlight, moved := ⟨true, true, fits, fits, false⟩
    view := false
    targets :=
      ⟨16 * (b.x - p.margin), 16 * (b.y - p.margin), b.w + 2 * p.margin, b.h + 2 * p.margin, 0⟩ }

/-- The motion of channel n, in context c, on object o of slot k has ended with a reason from `u`: the object
stands unbound in its slot, the channel is IDLE, and a COMMAND-owned motion raises MOTION DONE (R74, R77,
R78; the fields that R77 does not name by log entry 16). -/
def State.motionEnded (u : State) (n : Nat) (c : Channel) (k : Nat) (o : Obj) (reason : EndReason)
    (abrupt : Bool) (slot : Option Nat) : State :=
  let v : State :=
    { u with
      scene :=
        { u.scene with
          slots := u.scene.slots.setIfInBounds k (some { o with bound := none })
          mark := u.scene.mark || (decide (u.obj k ≠ some o) && u.scene.placed k) }
      motion :=
        u.motion.putChannel n
          { c with phase := .idle, owner := none, slot := none, hold := none, release := false } }
  if c.owner = some .command then v.raise (.motionDone n reason abrupt k c.s) slot else v

/-- These channels have ended silently, from `s` to `t`: each is IDLE, and one that was not has lost its owner, its
slot, its hold mode and its release, keeps its other fields (log entry 16), and has left the object of its slot
unbound (R77, R90). -/
def State.silenced (s t : State) (channels : List Nat) : Prop :=
  ∀ n ∈ channels, (t.chan n).phase = .idle
    ∧ ((s.chan n).phase ≠ .idle →
        t.chan n =
            { s.chan n with phase := .idle, owner := none, slot := none, hold := none, release := false }
          ∧ ∀ k o, (s.chan n).slot = some k → t.obj k = some o → o.bound = none)

/-- What SLIDE STOP leaves of the Sequencer: every value of the show is cleared, the pause with its mode when
there was one, and the list setup and the ready map are kept (R151). -/
def Sequencer.withoutShow (q : Sequencer) : Sequencer :=
  { q with
    state := .stopped, shown := none, current := none, incoming := none
    read := q.read.map fun r => { r with overtaken := true }
    incomingDesc := none, onShow := none, dwell := 0, paused := false
    pauseMode := if q.paused then none else q.pauseMode
    panOwed := false, skip := 0, await5 := false, await6 := false }

/-- A channel `c` that a release reaches becomes `r`, row by row of R87; one with no hold mode gets none. A
channel in EASING under FREEZE takes the row of EASE (log entry 15). -/
def Channel.takesRelease (c r : Channel) : Prop :=
  let restarted := peakSearch c.prof c.prof.vs 0 (c.travel - c.s)
  let risen := peakSearch c.prof c.v 0 (c.travel - c.s)
  (c.hold = none → r = c)
    ∧ (c.hold ≠ none → c.phase = .held →
        r =
          { c with
            v := c.prof.vs, lead := 0, vtop := restarted, hold := none, release := false
            phase := if c.prof.vs < restarted then .accel else .cruise })
    ∧ (c.hold = some .firm → c.phase = .easing → r = { c with release := true })
    ∧ (c.hold = some .ease ∨ c.hold = some .freeze → c.phase = .easing →
        r =
          { c with
            vtop := risen, hold := none, phase := if c.v ≤ risen then .accel else .slow })
    ∧ (c.hold ≠ none → c.phase ∈ [.lead, .accel, .cruise, .slow, .decel, .creep] →
        r = { c with hold := none })

/-- An object record without its derived field, the bound channel (R38). -/
def Obj.unbound (o : Obj) : Obj := { o with bound := none }

/-- Slot A and slot B of the list setup, or no slot where none is set up (R133). -/
def Sequencer.slots (q : Sequencer) : List Nat :=
  match q.list with
  | some l => [l.slotA, l.slotB]
  | none => []

/-- The scene and the channels when the show has stopped, from `s` to `t` (R151): the channels 5, 6 and 7 and those
bound to slot A or slot B have ended silently, the other held channels of a paused show are released and every other
channel stands, both slots are undefined and out of the order, and every other slot keeps its record, with its bound
channel while no ended channel has that slot. -/
def State.showStopped (s t : State) : Prop :=
  let slots := s.seq.slots
  let holds (n : Nat) : Prop := ∃ k ∈ slots, ∃ o, s.obj k = some o ∧ o.bound = some n
  State.silenced s t [5, 6, 7]
    ∧ (∀ n k o, k ∈ slots → s.obj k = some o → o.bound = some n →
        (∀ m, m ≠ n → (s.chan m).slot ≠ some k) → State.silenced s t [n])
    ∧ (∀ n : Fin 8, n.val ∉ [5, 6, 7] → ¬ holds n.val →
        (s.seq.paused = false → t.chan n = s.chan n)
          ∧ (s.seq.paused = true → (s.chan n).takesRelease (t.chan n)))
    ∧ t.motion.profiles = s.motion.profiles
    ∧ (∀ k ∈ slots, t.obj k = none)
    ∧ (∀ k, k ∉ slots →
        (t.obj k).map Obj.unbound = (s.obj k).map Obj.unbound
          ∧ ((∀ n, n ∈ [5, 6, 7] ∨ holds n → (s.chan n).slot ≠ some k) → t.obj k = s.obj k))
    ∧ t.scene.order = s.scene.order.filter (fun k => !(slots.contains k && (s.obj k).isSome))
    ∧ t.scene.palettes = s.scene.palettes ∧ t.scene.load = s.scene.load

/-- The focus has moved from button f to button g of page p with code 0: the focus, the markers, the glide on
channel 0, the mark for each write that changes a placed marker (log entry 42), and nothing else (R59, R122). -/
def State.focusMoved (s : State) (rest : List Command) (p : Page) (f g : Nat) (t : State) : Prop :=
  State.sameBut [.nav, .scene, .motion] (s.doneWith rest 0) t
    ∧ t.nav = { s.nav with focus := some g }
    ∧ t.scene.order = s.scene.order
    ∧ (∀ n o, p.focusSlot g = some n → t.obj n = some o → o.visible = true)
    ∧ (∀ n o, p.focusSlot f = some n → p.focusSlot g ≠ some n → t.obj n = some o →
        o.visible = false)
    ∧ (∀ n o, s.obj n = some o → p.focusSlot f ≠ some n → p.focusSlot g ≠ some n →
        n ≠ p.highlight → t.obj n = some o)
    ∧ (t.scene.mark = true ↔
        s.scene.mark = true
          ∨ ∃ n o, n ∈ s.scene.order ∧ s.obj n = some o
              ∧ (p.focusSlot f = some n ∧ o.visible = true
                ∨ p.focusSlot g = some n ∧ (o.visible = false ∨ p.focusSlot f = some n)))
    ∧ t.scene.palettes = s.scene.palettes ∧ t.scene.load = s.scene.load
    ∧ t.motion.profiles = s.motion.profiles
    ∧ (∀ k, k ≠ 0 → t.chan k = s.chan k)
    ∧ ∃ u : State, State.sameBut [.nav, .scene] (s.departed rest) u
        ∧ (∀ n, u.obj n =
            (s.obj n).map fun o =>
              { o with
                visible :=
                  if p.focusSlot g = some n then true
                  else if p.focusSlot f = some n then false else o.visible })
        ∧ ∀ b o, p.button g = some b → u.obj p.highlight = some o →
            t = (((u.request (p.glideTo o s.cmdw b) .navigator).getD u).setCode 0).closed

/-- The load of index j has begun, from `u` to `t` (R138): an index that is not ready makes the state WAITING,
late, with one SLIDE LATE for each entry; a ready one makes it LOADING, and while the takeover state is
NORMAL it overtakes the descriptor read in flight or starts one. -/
def State.loadBegun (u : State) (j : Nat) (slot : Option Nat) (t : State) : Prop :=
  let entered : Bool := decide (u.seq.incoming = some j) && u.seq.late
  State.sameBut [.seq, .bridge, .events] u t
    ∧ t.bridge = { u.bridge with fetch := t.bridge.fetch }
    ∧ (u.seq.readyAt j = false →
        t.seq = { u.seq with incoming := some j, state := .waiting, late := true }
          ∧ t.bridge = u.bridge
          ∧ t.events =
              if entered then u.events
              else (u.raise (.slideLate j (u.seq.setup.base + 64 * j) u.seq.current) slot).events)
    ∧ (u.seq.readyAt j = true →
        t.events = u.events
          ∧ t.seq =
              { u.seq with incoming := some j, state := .loading, late := entered, read := t.seq.read }
          ∧ (u.takeover.state ≠ .normal → t.seq.read = u.seq.read ∧ t.bridge = u.bridge)
          ∧ (u.takeover.state = .normal →
              (∀ r, u.seq.read = some r →
                t.seq.read = some { r with overtaken := true } ∧ t.bridge = u.bridge)
              ∧ (u.seq.read = none →
                  t.seq.read = some ⟨j, false⟩
                    ∧ t.bridge.fetch = u.bridge.fetch
                        ++ [⟨.descriptor, u.seq.setup.base + 64 * j, 16, 0, []⟩])))

/-- DRAIN of an entry waits: a composition, a command in service other than TAKEOVER, or a descriptor read is left
(R160). -/
def State.drainWaits (u : State) : Prop :=
  u.composer.comp ≠ none ∨ (u.intake.inService ≠ none ∧ u.takeoverServed = false) ∨ u.seq.read ≠ none

/-- SAVE has begun, from `u` to `t`, with the entry facts `f`, the Sequencer's facts of this moment beside them, and
the SLIDE objects and channels it will write (R161). -/
def State.saveBegun (u : State) (f : EntryFacts) (t : State) : Prop :=
  ∃ bursts slots channels,
    t = { u with takeover :=
      { u.takeover with
        phase := some .save
        facts :=
          some ⟨f.source, f.recovered, decide (u.seq.state = .changing), u.seq.paused, u.seq.pauseMode⟩
        job := .save bursts slots channels
        savedCounts := (slots.length, channels.length) } }
    ∧ (∀ facts, t.takeover.facts = some facts → bursts = u.saveBursts facts slots channels)
    ∧ slots.Pairwise (· < ·) ∧ channels.Pairwise (· < ·)
    ∧ (∀ n, n ∈ slots ↔ ∃ o, u.obj n = some o ∧ o.group = .slide)
    ∧ ∀ n, n ∈ channels ↔ n < 8 ∧ ∃ k o, (u.chan n).slot = some k ∧ u.obj k = some o
        ∧ o.group = .slide

/-- A request of a source has been accepted, from `u` to `t` (R159 to R161): the state is ENTERING; DRAIN stands
while something it waits for is left, and otherwise SAVE has begun. -/
def State.enters (u : State) (source : Source) (t : State) : Prop :=
  let f : EntryFacts := ⟨source, false, false, false, none⟩
  let v : State :=
    { u with takeover :=
      { u.takeover with state := .entering, phase := some .drain, facts := some f, jumpPending := false } }
  (u.drainWaits → t = v) ∧ (¬ u.drainWaits → State.saveBegun v f t)

/-- COPY of the newest complete frame into the backdrop has begun (R163). -/
def State.copyBegun (u t : State) (k : CanvasSetup) : Prop :=
  t.takeover.phase = some .copy
    ∧ t.takeover.job =
        .copy
          (match u.composer.front, u.composer.swapPending with
            | .a, false | .b, true => k.bankA
            | .b, false | .a, true => k.bankB)
          k.backdrop (k.width * k.height * 4 / 32) 0 none

/-- The DRAIN of a recovery with the entry facts `f` has ended, from `u` to `t` (R170): the show is stopped with its
channels and slots released and what the stop does not name kept, the ready map cleared, the mark set when the order
has changed, and COPY begins in place of SAVE, or while the Composer is DISABLED the state is MENU-OVER at once, with
the mark set. -/
def State.recoveryCopies (u : State) (f : EntryFacts) (t : State) : Prop :=
  t.seq = { u.seq.withoutShow with ready := Vector.replicate 256 false }
    ∧ State.showStopped u t
    ∧ (∀ k, u.composer.canvas = some k → State.copyBegun u t k
        ∧ t.scene.mark = (u.scene.mark || decide (t.scene.order ≠ u.scene.order))
        ∧ t.takeover = { u.takeover with phase := some .copy, jumpPending := false, job := t.takeover.job }
        ∧ State.sameBut [.seq, .takeover, .scene, .motion] u t)
    ∧ (u.composer.canvas = none →
        t.takeover = { u.takeover with state := .menuOver, phase := none, jumpPending := false, job := .none }
        ∧ t.scene.mark = true
        ∧ State.sameBut [.seq, .takeover, .scene, .motion, .events, .intake] u t
        ∧ t.intake =
            (if u.takeoverServed then { u.intake with inService := none, code := 0, inRun := false }
              else { u.intake with inRun := false })
        ∧ t.events =
            (u.raise (.takeoverEntered f.source true f.wasChanging f.paused u.takeover.saveBase 0 0)
              (if u.takeoverServed then u.serviceSlot else none)).events)

/-- A recovery of a source has begun, from `u` to `t` (R170): the lock reason is gone, DRAIN stands while a
composition is in flight, and otherwise it has ended. -/
def State.recovers (u : State) (source : Source) (t : State) : Prop :=
  let f : EntryFacts := ⟨source, true, false, false, none⟩
  let v : State :=
    { u with takeover :=
      { u.takeover with
        state := .entering, phase := some .drain, facts := some f, jumpPending := false, lockReason := none } }
  (u.composer.comp ≠ none → t = v) ∧ (u.composer.comp = none → State.recoveryCopies v f t)

/-- A record has been installed, from `u` to `a` (items 1 to 4 of R167): its objects in their slots, the placed
ones in the order of their positions ahead of what was in the order, its channels, the mark, and its sequencer
context, in SHOWING with the on-show record's dwell where the dwell flag is RESTART. An on-show record comes with
a shown slot and an incoming descriptor with CHANGING (log entry 27); any byte 40 but 0 is a pan (log entry 38),
and the bits that R184 does not list are ignored (log entry 44). -/
def State.recordInstalled (u : State) (r : SaveRecord) (a : State) : Prop :=
  let bs := r.bytes
  let flag (n bit : Nat) : Bool := (byteAt bs n).testBit bit
  let onShow : OnShow :=
    ⟨fieldAt bs 38 2, decide (byteAt bs 40 ≠ 0), byteAt bs 41, fieldAt bs 42 2, fieldAt bs 44 2⟩
  State.sameBut [.scene, .motion, .seq] u a
    ∧ (∀ e ∈ r.objects, a.obj e.slot = some e.obj)
    ∧ (∀ n, n ∉ r.objects.map (·.slot) → a.obj n = u.obj n)
    ∧ (∃ front, a.scene.order
          = front ++ u.scene.order.filter (fun n => !(r.objects.map (·.slot)).contains n)
        ∧ front.Nodup
        ∧ (∀ n, n ∈ front ↔ ∃ e ∈ r.objects, e.slot = n ∧ e.position ≠ none)
        ∧ ∀ e ∈ r.objects, ∀ e' ∈ r.objects, ∀ p p', e.position = some p → e'.position = some p' →
            p < p' → [e.slot, e'.slot].Sublist front)
    ∧ a.scene.mark = true ∧ a.scene.palettes = u.scene.palettes ∧ a.scene.load = u.scene.load
    ∧ (∀ e ∈ r.channels, a.chan e.channel = e.chan)
    ∧ (∀ n, n ∉ r.channels.map (·.channel) → a.chan n = u.chan n)
    ∧ a.motion.profiles = u.motion.profiles
    ∧ ∃ state shown hold, r.state = some state ∧ r.shown = some shown
        ∧ holdOfCode (byteAt bs 28) = some hold
        ∧ a.seq =
            { list := u.seq.list, ready := u.seq.ready, state := state, shown := shown
              current := r.current, incoming := r.incoming, backward := decide (byteAt bs 26 = 1)
              late := flag 27 0, read := u.seq.read
              incomingDesc := if state = .changing then some ((bs.drop 48).take 32) else none
              onShow := if shown = none then none else some onShow
              dwell := if byteAt bs 12 = 1 ∧ state = .showing then onShow.dwell else fieldAt bs 36 2
              paused := flag 27 1, pauseMode := hold, panOwed := flag 27 2, skip := fieldAt bs 30 2
              await5 := flag 29 0, await6 := flag 29 1, advanceOwed := u.seq.advanceOwed }

/-- The rows of the table that start a command of the Command Intake, each with the commands it starts. -/
def commandRows : List (Instr × (Command → Bool)) :=
  [ (.mark, ofKind .mark), (.restart, ofKind .restart), (.setCanvas, ofKind .setCanvas),
    (.setTakeover, ofKind .setTakeover), (.setSlides, ofKind .setSlides), (.define, ofKind .define),
    (.drop, ofKind .drop), (.place, ofKind .place), (.unplace, ofKind .unplace),
    (.patch, ofKind .patch), (.step, ofKind .step), (.loadPalette, ofKind .loadPalette),
    (.setProfile, ofKind .setProfile), (.move, ofKind .move), (.retune, ofKind .retune),
    (.haltImmediate, fun c => ofKind .halt c && !c.haltEases),
    (.haltEase, fun c => ofKind .halt c && c.haltEases),
    (.openPage, ofKind .openPage), (.prefetchPage, ofKind .prefetchPage),
    (.keyUp, ofKey .up), (.keyDown, ofKey .down), (.keyLeft, ofKey .left), (.keyRight, ofKey .right),
    (.keySelect, ofKey .select), (.keyEnter, ofKey .enter), (.keyBack, ofKey .back),
    (.closeMenu, ofKind .closeMenu), (.slideStart, ofKind .slideStart),
    (.slideStop, ofKind .slideStop), (.slideStep, ofKind .slideStep),
    (.slidePause, ofKind .slidePause), (.slideResume, ofKind .slideResume),
    (.takeover, ofKind .takeover), (.resume, ofKind .resume),
    (.unknownKindCommand, fun c => c.known.isNone) ]

/-! ## Laws of the whole machine -/

/-- Memory has its canonical form. -/
def State.memoryLaw (s : State) : Bool := s.mem.wf

/-- The event ring never holds more than 63 unconsumed and pending records, and at most 8 are pending
(R173). -/
def State.ringLaw (s : State) : Bool :=
  decide (s.events.unconsumed + s.events.records.length ≤ Config.ringCapacity)
    && decide (s.events.records.length ≤ Config.recordCapacity)

/-- The command queue never holds more than 16 commands (R23). -/
def State.queueLaw (s : State) : Bool := decide (s.intake.queue.length ≤ Config.queueCapacity)

/-- The two counters of the arbiter stay within 0..3 (R2). -/
def State.arbiterLaw (s : State) : Bool :=
  decide (s.bridge.streak ≤ 3) && decide (s.bridge.composeWait ≤ 3)

/-- The display order holds no slot twice (R45). -/
def Scene.orderNodup (sc : Scene) : Bool := decide sc.order.Nodup

/-- The display order holds no undefined slot (R45). -/
def Scene.orderDefined (sc : Scene) : Bool := sc.order.all fun n => (sc.obj n).isSome

/-- Every SLIDE-group entry stands before every MENU-group entry (R45): the order is its SLIDE part followed
by the rest. -/
def Scene.orderGrouped (sc : Scene) : Bool :=
  sc.order == (sc.order.filter fun n => sc.inGroup .slide n) ++
    sc.order.filter fun n => !sc.inGroup .slide n

/-- The law of the display order (R45). -/
def Scene.orderLaw (sc : Scene) : Bool := sc.orderNodup && sc.orderDefined && sc.orderGrouped

/-- The window map agrees with its owners' state (R4): the Scan Window and the front designation copy with
the Composer, the save area with the Takeover Unit, the slide list range with the list setup. -/
def State.windowLaw (s : State) : Bool :=
  s.bridge.window.scan == s.composer.canvas.map (fun c => ⟨c.scan, c.width * c.height * 4⟩)
    && s.bridge.window.front == s.composer.front
    && s.bridge.window.saveBase == s.takeover.saveBase
    && s.bridge.window.slides == s.seq.list.map SlideList.range

/-- Swap-pending and a composition in flight are never both present, and the back bank of a composition in
flight is never the front bank (R96, R97). -/
def State.bankLaw (s : State) : Bool :=
  s.composer.comp.all fun k => !s.composer.swapPending && k.back != s.composer.front

/-- A BACK is in service (R126). -/
def State.backServed (s : State) : Bool :=
  match s.intake.inService with
  | some ⟨_, .openPage .back _ _ _⟩ => true
  | _ => false

/-- The focus names an enabled button of the open page; the Menu Stack holds at most 8 records, none while no
page is open; and while a BACK is in service a page is open and the record it has popped has its place (R117,
R124, R126). -/
def State.menuLaw (s : State) : Bool :=
  (match s.nav.page with
    | some p => s.nav.focus.all p.enabled
    | none => s.nav.focus.isNone && s.nav.stack.isEmpty && !s.backServed)
    && decide (s.nav.stack.length ≤ Config.stackCapacity)
    && (!s.backServed || decide (s.nav.stack.length < Config.stackCapacity))

/-- No command is held for a slot that the queue could take: a held write means a full queue (R12, R13,
R24). -/
def State.holdLaw (s : State) : Bool :=
  match s.bridge.side with
  | .holding _ _ _ _ => decide (Config.queueCapacity ≤ s.intake.queue.length)
  | _ => true

/-- No request waits on the controller side while it is READY (R3). -/
def State.waitLaw (s : State) : Bool :=
  match s.bridge.side with
  | .ready => s.bridge.waiting.isEmpty
  | _ => true

end Sys2Proof.Machine
end

