-- ==== Sys2Proof/Certificates/Slice0/Obligations.lean ====
section
/-!
DEFINITION. The statements for the provers. Each says, for states and operands that meet conditions stated
on them alone, which next state a command gives, what it leaves as it was, or which law every step keeps.
`State.doneWith`, `State.doneRaising` and `State.closed` (Safety) say what is left when a command of the queue
ends; `State.sameBut` is the
frame. -/

open Sys2Proof Sys2Proof.Machine

/-! ## The step, RSTN and reset -/

/-- A step takes the command at the front of the sender's queue and runs it on the state with the queue's
rest (this model's step; 95_what_each_step_holds). On an empty queue one bus clock passes (the model's
choice, log entry 5): with no head to start the hold count rises by one while a write is held, the clock at
which it reaches 2048 is the hold limit (R13), and nothing else happens; a head that may start does so first,
within a run of commands too (R25; log entry 1). -/
def Obligations.StepRunsFrontCommand : Prop :=
  (∀ (c : Instr) (rest : List Instr) (s : State),
    step { s with pending := c :: rest } = exec c { s with pending := rest })
  ∧ ∀ s : State, s.pending = [] →
      (s.rstnLow = true → step s = .next s)
      ∧ (s.Quiet → s.headReady = false → (∀ a ls n k, s.bridge.side ≠ .holding a ls n k) →
          step s = .next s.closed)
      ∧ (∀ a ls n k, s.Quiet → s.headReady = false → s.bridge.side = .holding a ls n k →
          (k < 2047 →
            step s = .next
              (State.closed { s with bridge := { s.bridge with side := .holding a ls n (k + 1) } }))
          ∧ (k = 2047 → step s = exec .holdLimit s))
      ∧ ∀ (c : Command) (rest : List Command), s.Head c rest →
          ∃ p ∈ commandRows, p.2 c = true
            ∧ ∃ u, exec p.1 s = .next u ∧ step s = .next (u.busClock.endStep u)

/-- RSTN released: the straps fix the memory size, every block holds the values of its RSTN column, and the
memory and the sender's queue stand (R1, R2, R22, R61, R63, R65, R92, R113, R133, R155, R172; the model's
own fields by log entries 1, 6, 10, 11, 17 and 46). -/
def Obligations.RstnReleaseSetsResetValues : Prop :=
  ∀ (msz : BitVec 2) (level : Bool) (s : State), s.rstnLow = true →
    ∃ t, exec (.rstnRelease msz level) s = .next t
      ∧ t.rstnLow = false ∧ t.pending = s.pending ∧ t.mem = s.mem ∧ t.freeCount = s.freeCount
      ∧ t.bridge =
          { memSize := Config.memorySize msz, side := .ready, waiting := [],
            window := { scan := none, front := .a, saveBase := Config.memorySize msz - 0x2000,
                        slides := none },
            streak := 0, passed := false, composeWait := 0, fetch := [], busy := none, readData := [] }
      ∧ t.intake = { queue := [], inService := none, code := 0, inRun := false }
      ∧ t.scene =
          { slots := Vector.replicate 48 none, order := [],
            palettes := Vector.replicate 4 (Vector.replicate 256 0), load := none, mark := true }
      ∧ (∀ n : Fin 8, t.motion.profile n = ⟨16, 256, 16, 16, 0, true⟩)
      ∧ (∀ n : Fin 8, t.chan n =
          { phase := .idle, owner := none, slot := none, moved := ⟨false, false, false, false, false⟩
            view := false, prof := ⟨0, 0, 0, 0, 0, true⟩, vtop := 0, v := 0, s := 0, travel := 0
            lead := 0, e0 := ⟨0, 0, 0, 0, 0⟩, e1 := ⟨0, 0, 0, 0, 0⟩, hold := none, release := false
            cmdSlot := none })
      ∧ t.composer =
          { canvas := none, front := .a, swapPending := false, comp := none, frame := 0, late := 0 }
      ∧ t.nav =
          { page := none, focus := none, stack := [], buffer := none, inflight := none,
            waiting := none }
      ∧ t.seq =
          { list := none, ready := Vector.replicate 256 false, state := .stopped, shown := none
            current := none, incoming := none, backward := false, late := false, read := none
            incomingDesc := none, onShow := none, dwell := 0, paused := false, pauseMode := none
            panOwed := false, skip := 0, await5 := false, await6 := false, advanceOwed := false }
      ∧ t.takeover =
          { state := .normal, phase := none, held := false
            saveBase := Config.memorySize msz - 0x2000, edge := .off, dim := 160, level := level
            facts := none, jumpPending := false, lockReason := none, job := .none
            savedCounts := (0, 0) }
      ∧ t.events =
          { p := 0, c := 0, records := [], overflow := false, intakeDrop := false, guard := false
            statusPending := true, count := 0, presented := none, lastWasRecord := true
            firstWrite := true }

/-- RSTN asserted ends at once every request, held write, internal operation, command, motion, composition
and phase, and drops every pending record (R1, R22, R65, R92, R155, R172); and while it is low no command
but the release has any effect (deduced from R1, R76 and R157: log entry 28). -/
def Obligations.RstnAssertEndsEverything : Prop :=
  (∀ s : State, s.rstnLow = false →
    ∃ t, exec .rstnAssert s = .next t
      ∧ t.rstnLow = true ∧ t.pending = s.pending ∧ t.mem = s.mem
      ∧ t.bridge.side = .ready ∧ t.bridge.waiting = [] ∧ t.bridge.fetch = [] ∧ t.bridge.busy = none
      ∧ t.intake.queue = [] ∧ t.intake.inService = none
      ∧ t.composer.comp = none ∧ t.scene.load = none ∧ t.nav.inflight = none
      ∧ (∀ n : Fin 8, t.chan n = Channel.idle)
      ∧ t.seq.read = none ∧ t.takeover.phase = none ∧ t.takeover.job = .none
      ∧ t.events.records = [] ∧ t.events.presented = none
      ∧ t.bridge.memSize = s.bridge.memSize)
  ∧ ∀ (c : Instr) (s : State), s.rstnLow = true → c.wf = true →
      (∀ msz level, c ≠ .rstnRelease msz level) → exec c s = .next s

/-- A dwell that has counted out: before anything else the Sequencer advances by a step FORWARD, to the load
of the next index as R138 begins it, with SLIDE LATE for an index that is not ready, or to SHOW END, END OF
LIST (R138, R145; the waiting step, and with it the order and the frame stamp of that SLIDE LATE or SHOW END
against the events that others raise at the tick, is the model's, log entry 6). -/
def Obligations.OwedAdvanceComesFirst : Prop :=
  (∀ (s : State) (i : Nat), s.rstnLow = false → s.seq.advanceOwed = true → s.events.firstWrite = false →
    s.headDue = false → s.seq.current = some i →
    let u : State := { s with seq := { s.seq with advanceOwed := false } }
    (∀ j, s.seq.setup.next i false = some j →
      ∃ v, exec .dwellExpiry s = .next (v.endStep s)
        ∧ State.loadBegun { u with seq := { u.seq with backward := false } } j none v)
    ∧ (s.seq.setup.next i false = none →
        exec .dwellExpiry s = .next
          ((u.raise (.showEnd (some i) true false s.seq.setup.base s.seq.setup.count) none).endStep s)))
  ∧ ∀ (c : Instr) (s : State), s.rstnLow = false → s.seq.advanceOwed = true →
      s.events.firstWrite = false → c ≠ .rstnAssert → (∀ msz level, c ≠ .rstnRelease msz level) →
      exec c s = exec c (s.takeOwedAdvance.noteStatus s)
        ∧ (s.takeOwedAdvance.noteStatus s).seq.advanceOwed = false

/-- Every law of the machine holds right after reset. -/
def Obligations.ResetMeetsEveryLaw : Prop :=
  State.reset.memoryLaw = true ∧ State.reset.ringLaw = true ∧ State.reset.queueLaw = true
    ∧ State.reset.arbiterLaw = true ∧ State.reset.holdLaw = true ∧ State.reset.waitLaw = true
    ∧ State.reset.windowLaw = true
    ∧ State.reset.scene.orderLaw = true ∧ State.reset.bankLaw = true ∧ State.reset.menuLaw = true

/-! ## The Command Intake -/

/-- The head that starts leaves its entry free; a held command takes it at once, at the end of the queue,
and the held write is forwarded (R23, R24). A head that the end of a command in service, the joining of an
empty queue or the end of a takeover has made due starts before any event that is no command, so that nothing
comes between (R25, R26). Within a run, where the head follows a command that ended at its start, an event has
its effect with the head still waiting, so that any number of events may fall there (R25; how the model tells a
run is log entry 1). -/
def Obligations.HeadDepartureFreesEntry : Prop :=
  (∀ (s : State) (rest : List Command),
    ((∀ a ls n k, s.bridge.side ≠ .holding a ls n k) →
      s.departed rest =
        { s with intake := { s.intake with queue := rest, inRun := true },
                 events := { s.events with statusPending := true } })
    ∧ ∀ a ls n k, s.bridge.side = .holding a ls n k → rest.length < 16 →
        s.departed rest =
          { s with intake :=
                     { s.intake with
                       queue := rest ++ [⟨n, ls.map (·.data)⟩], inRun := decide (rest ≠ []) },
                   bridge := { s.bridge with side := .forwarding (.write a ls) },
                   events := { s.events with statusPending := true } })
  ∧ (∀ (s : State) (code : Fin 4),
      s.complete code =
        { s with intake := { s.intake with inService := none, code := code, inRun := false } })
  ∧ ∀ i : Instr, i.wf = true → i ≠ .rstnAssert → (∀ msz level, i ≠ .rstnRelease msz level) →
      (∀ p ∈ commandRows, p.1 ≠ i) →
      ∃ own : State → State,
        (∀ s : State, s.Settled → exec i s = .next ((own s).endStep s))
        ∧ (∀ (s : State) (c : Command) (rest : List Command), s.Head c rest → s.intake.inRun = true →
            exec i s = .next ((own s).endStep s))
        ∧ ∀ (s : State) (c : Command) (rest : List Command), s.Head c rest → s.intake.inRun = false →
            ∃ p ∈ commandRows, p.2 c = true
              ∧ ∃ u, exec p.1 s = .next u ∧ exec i s = .next ((own u).endStep u)

/-- A command whose mask flag for the current result code is clear is skipped, whatever else is wrong with
it: it leaves the queue, and nothing else happens. One that passes its mask is refused with UNKNOWN KIND,
BAD LENGTH or LOCKOUT, in this order; the refusal raises REFUSED and sets code 3, and nothing else happens
(R27, R28, R31, R32). -/
def Obligations.IntakeSkipsAndRefuses : Prop :=
  ∀ p ∈ commandRows, ∀ (s : State) (c : Command) (rest : List Command), s.Head c rest → p.2 c = true →
    let passes := c.header.getLsbD (8 + s.intake.code.val)
    let refused (r : RefusalReason) : Prop :=
      exec p.1 s = .next (s.doneRaising rest 3 (.refused c.kind r c.header c.second) c.slot)
    (passes = false → exec p.1 s = .next (s.departed rest).closed)
    ∧ (passes = true → c.known = none → refused .unknownKind)
    ∧ ∀ k, passes = true → c.known = some k →
        (headerLength c.header ≠ k.words → refused .badLength)
        ∧ (headerLength c.header = k.words → s.takeover.state = .lockout → k ≠ .restart →
            k ≠ .takeover → refused .lockout)

/-- MARK raises a MARK event with the small field, its slot, its tag and the number of waiting commands, and
completes with code 0 (R34; the number by log entry 23). -/
def Obligations.MarkRaisesMark : Prop :=
  ∀ (s : State) (c : Command) (rest : List Command), s.Starts c rest .mark →
    exec .mark s =
      .next (s.doneRaising rest 0
        (.mark c.small (c.word 1) (s.departed rest).intake.queue.length) c.slot)

/-- RESTART: every block takes its restart values and the command completes with code 0 (R2, R22, R35, R62,
R63, R65, R92, R113, R133, R155, R172). -/
def Obligations.RestartTakesRestartValues : Prop :=
  ∀ (s : State) (c : Command) (rest : List Command), s.Starts c rest .restart →
    ∃ t, exec .restart s = .next t
      ∧ State.sameBut [.scene, .motion, .nav, .seq, .takeover] (s.doneWith rest 0) t
      ∧ t.scene =
          { slots := Vector.replicate 48 none, order := [], palettes := s.scene.palettes, load := none,
            mark := true }
      ∧ t.motion.profiles = s.motion.profiles
      ∧ (∀ n : Fin 8, t.chan n =
          { phase := .idle, owner := none, slot := none, moved := ⟨false, false, false, false, false⟩
            view := false, prof := ⟨0, 0, 0, 0, 0, true⟩, vtop := 0, v := 0, s := 0, travel := 0
            lead := 0, e0 := ⟨0, 0, 0, 0, 0⟩, e1 := ⟨0, 0, 0, 0, 0⟩, hold := none, release := false
            cmdSlot := none })
      ∧ t.nav =
          { page := none, focus := none, stack := [], buffer := none,
            inflight := s.nav.inflight.map fun f => { f with stale := true }, waiting := none }
      ∧ t.seq =
          { list := s.seq.list, ready := s.seq.ready, state := .stopped, shown := none
            current := none, incoming := none, backward := false, late := false
            read := s.seq.read.map fun r => { r with overtaken := true }
            incomingDesc := none, onShow := none, dwell := 0, paused := false, pauseMode := none
            panOwed := false, skip := 0, await5 := false, await6 := false, advanceOwed := false }
      ∧ t.takeover =
          { s.takeover with state := .normal, phase := none, held := false, facts := none,
                            jumpPending := false, lockReason := none, job := .none }

/-! ## The setup commands -/

/-- SET CANVAS that passes R94: with no composition in flight the setup applies at once, with the Scan
Window and the front designation copy at the Bridge, the mark and code 0; otherwise the command goes into
service with the setup held aside (R4, R94, R95). The first check of R94 that fails refuses the command with
its reason. -/
def Obligations.SetCanvasAppliesOrWaits : Prop :=
  (∀ (s : State) (c : Command) (rest : List Command) (k : CanvasSetup),
    s.Starts c rest .setCanvas → k = c.canvasSetup → s.takeover.state = .normal →
    320 ≤ k.width → k.width ≤ 1920 → k.width % 16 = 0 →
    240 ≤ k.height → k.height ≤ 1080 → k.height % 8 = 0 →
    (∀ u ∈ k.regions, u.base % 0x1000 = 0 ∧ u.base + u.len ≤ s.cmdw
      ∧ u.overlaps ⟨s.takeover.saveBase, 0x1000⟩ = false
      ∧ ∀ l, s.seq.list = some l → l.range.overlaps u = false) →
    k.regions.Pairwise (fun u v => u.overlaps v = false) →
    (s.composer.comp = none →
      exec .setCanvas s = .next
        { s.doneWith rest 0 with
          composer := { s.composer with canvas := some k, front := .a, swapPending := false, late := 0 },
          bridge :=
            { (s.departed rest).bridge with
              window :=
                { s.bridge.window with scan := some ⟨k.scan, k.width * k.height * 4⟩, front := .a } },
          scene := { s.scene with mark := true } })
    ∧ (s.composer.comp ≠ none →
        exec .setCanvas s = .next (s.servedWith rest c.slot (.setCanvas k))))
  ∧ ∀ (s : State) (c : Command) (rest : List Command) (k : CanvasSetup),
      s.Starts c rest .setCanvas → k = c.canvasSetup →
      s.refusesIn .setCanvas c rest
        [ (s.takeover.state = .normal, .wrongState),
          (320 ≤ k.width ∧ k.width ≤ 1920 ∧ k.width % 16 = 0
            ∧ 240 ≤ k.height ∧ k.height ≤ 1080 ∧ k.height % 8 = 0, .range),
          ((∀ u ∈ k.regions, u.base % 0x1000 = 0), .range),
          ((∀ u ∈ k.regions, u.base + u.len ≤ s.cmdw), .range),
          (k.regions.Pairwise (fun u v => u.overlaps v = false), .overlap),
          ((∀ u ∈ k.regions, u.overlaps ⟨s.takeover.saveBase, 0x1000⟩ = false), .overlap),
          ((∀ l, s.seq.list = some l → ∀ u ∈ k.regions, l.range.overlaps u = false), .overlap) ]

/-- SET TAKEOVER that passes R156 stores the save base, the line edge and the dim, moves the save area at
the Bridge, and completes with code 0 (R4, R156). The first check of R156 that fails refuses the command
with its reason. -/
def Obligations.SetTakeoverStoresItsValues : Prop :=
  (∀ (s : State) (c : Command) (rest : List Command) (e : LineEdge) (base dim : Nat),
    s.Starts c rest .setTakeover → s.takeover.state = .normal → c.lineEdge = some e →
    base = (c.word 1).toNat → dim = (c.word 2).toNat / 2 ^ 16 → dim ≤ 255 →
    base % 0x1000 = 0 → base + 0x1000 ≤ s.cmdw →
    (∀ k, s.composer.canvas = some k → ∀ u ∈ k.regions, u.overlaps ⟨base, 0x1000⟩ = false) →
    (∀ l, s.seq.list = some l → l.range.overlaps ⟨base, 0x1000⟩ = false) →
    exec .setTakeover s = .next
      { s.doneWith rest 0 with
        takeover := { s.takeover with saveBase := base, edge := e, dim := dim },
        bridge :=
          { (s.departed rest).bridge with window := { s.bridge.window with saveBase := base } } })
  ∧ ∀ (s : State) (c : Command) (rest : List Command), s.Starts c rest .setTakeover →
      s.refusesIn .setTakeover c rest
        [ (s.takeover.state = .normal, .wrongState),
          (c.lineEdge ≠ none ∧ (c.word 2).toNat / 2 ^ 16 ≤ 255, .range),
          ((c.word 1).toNat % 0x1000 = 0 ∧ (c.word 1).toNat + 0x1000 ≤ s.cmdw, .range),
          ((∀ k, s.composer.canvas = some k →
              ∀ u ∈ k.regions, u.overlaps ⟨(c.word 1).toNat, 0x1000⟩ = false), .overlap),
          ((∀ l, s.seq.list = some l →
              l.range.overlaps ⟨(c.word 1).toNat, 0x1000⟩ = false), .overlap) ]

/-- SET SLIDES that passes R135 replaces the list setup, clears the ready map, moves the slide list range at
the Bridge, and completes with code 0 (R4, R135). The first check of R135 that fails refuses the command
with its reason. -/
def Obligations.SetSlidesReplacesTheList : Prop :=
  (∀ (s : State) (c : Command) (rest : List Command) (l : SlideList),
    s.Starts c rest .setSlides → l = c.slideList → s.takeover.state ≠ .menuOver →
    s.seq.state = .stopped → 1 ≤ l.count → l.count ≤ 256 → l.slotA < 48 → l.slotB < 48 →
    l.slotA ≠ l.slotB → l.base % 64 = 0 → l.base + l.count * 64 ≤ s.cmdw →
    (∀ k, s.composer.canvas = some k → ∀ u ∈ k.regions,
      u.overlaps ⟨l.base, l.count * 64⟩ = false) →
    exec .setSlides s = .next
      { s.doneWith rest 0 with
        seq := { s.seq with list := some l, ready := Vector.replicate 256 false },
        bridge :=
          { (s.departed rest).bridge with
            window := { s.bridge.window with slides := some ⟨l.base, l.count * 64⟩ } } })
  ∧ ∀ (s : State) (c : Command) (rest : List Command) (l : SlideList),
      s.Starts c rest .setSlides → l = c.slideList →
      s.refusesIn .setSlides c rest
        [ (s.takeover.state ≠ .menuOver, .suspended),
          (s.seq.state = .stopped, .wrongState),
          (1 ≤ l.count ∧ l.count ≤ 256 ∧ l.slotA < 48 ∧ l.slotB < 48 ∧ l.slotA ≠ l.slotB, .range),
          (l.base % 64 = 0 ∧ l.base + l.count * 64 ≤ s.cmdw, .range),
          ((∀ k, s.composer.canvas = some k →
              ∀ u ∈ k.regions, u.overlaps ⟨l.base, l.count * 64⟩ = false), .overlap) ]

/-! ## The scene -/

/-- DEFINE that passes R42 installs its record: a SLIDE loses its clip, an absent clip takes the corners 0,
0, 2048, 2048; a placed slot keeps its place when the group is unchanged and leaves the order otherwise, and
either way the mark is set; code 0 (R42, R43). The first check of R42 that fails refuses the command with
its reason; which corners a record is tested with is log entry 14. -/
def Obligations.DefineInstallsItsRecord : Prop :=
  (∀ (s : State) (c : Command) (rest : List Command) (n : Nat) (o : Obj),
    s.Starts c rest .define → n = c.small → o = c.record → n < 48 → s.seqHeld n = false →
    (s.pageHeld n = true → o.group = .menu) → (∀ old, s.obj n = some old → old.bound = none) →
    (o.group = .menu ∨ s.takeover.state = .normal) → o.defaultClip.valid s.cmdw = true →
    exec .define s = .next
      { s.doneWith rest 0 with
        scene :=
          { s.scene with
            slots :=
              s.scene.slots.setIfInBounds n
                (some (if o.clip = true ∧ o.body.code ≠ 3 then o
                  else { o with clip := false, clipX0 := 0, clipY0 := 0, clipX1 := 2048,
                                clipY1 := 2048 }))
            order :=
              if (s.obj n).map (·.group) = some o.group then s.scene.order
              else s.scene.order.filter (· ≠ n)
            mark := s.scene.mark || s.scene.placed n } })
  ∧ ∀ (s : State) (c : Command) (rest : List Command) (n : Nat) (o : Obj),
      s.Starts c rest .define → n = c.small → o = c.record →
      s.refusesIn .define c rest
        [ (n < 48, .range),
          (s.seqHeld n = false ∧ (s.pageHeld n = true → o.group = .menu), .reserved),
          ((∀ old, s.obj n = some old → old.bound = none), .slotBusy),
          (o.group = .menu ∨ s.takeover.state = .normal ∨ s.takeover.state = .lockout, .wrongState),
          (o.defaultClip.valid s.cmdw = true, .range) ]

/-- DROP that passes undefines the slot, takes it out of the order and sets the mark when it was placed; a
bound motion ends with REMOVED, with MOTION DONE for a COMMAND-owned channel, and its channel is IDLE with
the fields that R77 does not name as they were (log entry 16); code 0 (R44, R77, R78, R90). A SEQUENCER
owner gets a notice with the reason (R77, R90), which changes nothing unless the channel is awaited; that it
takes an awaited channel off, and that the SLIDE SHOWN it may lead to carries the DROP's slot, is the
model's reading (log entry 33). The first check of R44 that fails refuses the command with its reason. -/
def Obligations.DropUndefinesItsSlot : Prop :=
  (∀ (s : State) (c : Command) (rest : List Command) (n : Nat) (o : Obj),
    s.Starts c rest .drop → n = c.small → s.obj n = some o → s.seqHeld n = false →
    s.pageHeld n = false →
    let scene :=
      { s.scene with
        slots := s.scene.slots.setIfInBounds n none
        order := s.scene.order.filter (· ≠ n)
        mark := s.scene.mark || s.scene.placed n }
    (o.bound = none → exec .drop s = .next { s.doneWith rest 0 with scene := scene })
    ∧ ∀ ch, o.bound = some ch → (s.chan ch).slot = some n →
        let motion :=
          s.motion.putChannel ch
            { s.chan ch with phase := .idle, owner := none, slot := none, hold := none,
                             release := false }
        let awaited : Prop :=
          (s.chan ch).owner = some .sequencer ∧ s.seq.state = .changing
            ∧ (ch = 5 ∧ s.seq.await5 = true ∨ ch = 6 ∧ s.seq.await6 = true)
        ((s.chan ch).owner ≠ some .command → ¬ awaited →
          exec .drop s = .next { s.doneWith rest 0 with scene := scene, motion := motion })
        ∧ (awaited →
            let v :=
              State.notice
                { s.departed rest with
                  scene :=
                    { s.scene with
                      slots := s.scene.slots.setIfInBounds n (some { o with bound := none }) }
                  motion := motion }
                ch false (some c.slot)
            exec .drop s = .next
              (State.setCode
                { v with
                  scene :=
                    { v.scene with
                      slots := v.scene.slots.setIfInBounds n none
                      order := v.scene.order.filter (· ≠ n)
                      mark := v.scene.mark || v.scene.placed n } }
                0).closed)
        ∧ ((s.chan ch).owner = some .command →
            exec .drop s = .next
              { s.doneRaising rest 0 (.motionDone ch .removed false n (s.chan ch).s) c.slot with
                scene := scene, motion := motion }))
  ∧ ∀ (s : State) (c : Command) (rest : List Command), s.Starts c rest .drop →
      s.refusesIn .drop c rest
        [ (c.small < 48, .range),
          (s.obj c.small ≠ none, .undefinedSlot),
          (s.seqHeld c.small = false ∧ s.pageHeld c.small = false, .reserved) ]

/-- PLACE that passes takes the slot out of the order and puts it at the named position of its own group in
the order that remains; the mark is set when the order changed; code 0 (R45, R46). The first check of R46
that fails refuses the command with its reason. -/
def Obligations.PlacePutsAtThePosition : Prop :=
  (∀ (s : State) (c : Command) (rest : List Command) (n : Nat) (o : Obj) (p : Position),
    s.Starts c rest .place → n = c.small → s.obj n = some o → s.seqHeld n = false →
    c.position = some p → s.scene.orderLaw = true →
    (∀ r, p = .above r → r < 48 ∧ r ≠ n ∧ r ∈ s.scene.order
      ∧ (s.obj r).map (·.group) = some o.group) →
    ∃ pre post : List Nat, pre ++ post = s.scene.order.filter (· ≠ n)
      ∧ exec .place s = .next
          { s.doneWith rest 0 with
            scene :=
              { s.scene with
                order := pre ++ n :: post
                mark := s.scene.mark || decide (pre ++ n :: post ≠ s.scene.order) } }
      ∧ (p = .bottom → o.group = .slide → pre = [])
      ∧ (p = .top → o.group = .menu → post = [])
      ∧ ((p = .top ∧ o.group = .slide ∨ p = .bottom ∧ o.group = .menu) →
          (∀ k ∈ pre, s.scene.inGroup .slide k = true)
            ∧ ∀ k ∈ post, s.scene.inGroup .slide k = false)
      ∧ ∀ r, p = .above r → pre.getLast? = some r)
  ∧ ∀ (s : State) (c : Command) (rest : List Command) (n : Nat), s.Starts c rest .place → n = c.small →
      s.refusesIn .place c rest
        [ (n < 48 ∧ c.position ≠ none ∧ ∀ r, c.position = some (.above r) → r < 48, .range),
          (s.obj n ≠ none, .undefinedSlot),
          (s.seqHeld n = false, .reserved),
          ((∀ r, c.position = some (.above r) →
              r ≠ n ∧ r ∈ s.scene.order ∧ (s.obj r).map (·.group) = (s.obj n).map (·.group)), .range) ]

/-- UNPLACE that passes takes the slot out of the order and leaves its record and its motion as they are;
code 0 (R47). The first check of R47 that fails refuses the command with its reason. -/
def Obligations.UnplaceTakesOutOfTheOrder : Prop :=
  (∀ (s : State) (c : Command) (rest : List Command) (n : Nat),
    s.Starts c rest .unplace → n = c.small → (s.obj n).isSome = true → s.seqHeld n = false →
    exec .unplace s = .next
      { s.doneWith rest 0 with
        scene :=
          { s.scene with
            order := s.scene.order.filter (· ≠ n)
            mark := s.scene.mark || s.scene.placed n } })
  ∧ ∀ (s : State) (c : Command) (rest : List Command), s.Starts c rest .unplace →
      s.refusesIn .unplace c rest
        [ (c.small < 48, .range),
          (s.obj c.small ≠ none, .undefinedSlot),
          (s.seqHeld c.small = false, .reserved) ]

/-- PATCH that passes R50: the field takes its new pattern from the old field where the keep-mask has a one
and from the value elsewhere, brought into the record by its class; code 1 when a position taken from the
value is one in the stored field (R50, R51, R53, R59). The first check of R50 that fails refuses the command
with its reason. -/
def Obligations.PatchWritesAField : Prop :=
  (∀ (s : State) (c : Command) (rest : List Command) (n : Nat) (o o' : Obj) (f : Field)
      (old new : Int),
    s.Starts c rest .patch → n = c.smallLow → s.obj n = some o → s.seqHeld n = false →
    c.field = some f → f.get o = some old → s.editBarred o f = false →
    f.bringIn s.cmdw o
      (f.ofBits ((BitVec.ofInt f.width old &&& (c.word 1).setWidth f.width)
        ||| ((c.word 2).setWidth f.width &&& ~~~ (c.word 1).setWidth f.width))) = some o' →
    f.get o' = some new →
    exec .patch s = .next
      { s.doneWith rest
          (if BitVec.ofInt f.width new &&& ~~~ (c.word 1).setWidth f.width = 0 then 0 else 1) with
        scene :=
          { s.scene with
            slots := s.scene.slots.setIfInBounds n (some o')
            mark := s.scene.mark || (decide (o' ≠ o) && s.scene.placed n) } })
  ∧ ∀ (s : State) (c : Command) (rest : List Command) (n : Nat), s.Starts c rest .patch → n = c.smallLow →
      s.refusesIn .patch c rest
        [ (n < 48, .range),
          (s.obj n ≠ none, .undefinedSlot),
          (s.seqHeld n = false, .reserved),
          ((∃ f o, c.field = some f ∧ s.obj n = some o ∧ f.get o ≠ none), .range),
          ((∀ f o, c.field = some f → s.obj n = some o → s.editBarred o f = false), .boundField),
          ((∀ f o old, c.field = some f → s.obj n = some o → f.get o = some old →
              f.bringIn s.cmdw o
                (f.ofBits ((BitVec.ofInt f.width old &&& (c.word 1).setWidth f.width)
                  ||| ((c.word 2).setWidth f.width &&& ~~~ (c.word 1).setWidth f.width))) ≠ none), .range) ]

/-- STEP that passes R50: the sum is compared with the limit, and the code says within, reached or passed; a
sum that passed the limit becomes the limit in mode STOP; the chosen value is brought into the record by the
field's class (R50, R52, R53, R59). The first check of R50 that fails refuses the command with its
reason. -/
def Obligations.StepComparesAndStores : Prop :=
  (∀ (s : State) (c : Command) (rest : List Command) (n : Nat) (o o' : Obj) (f : Field)
      (stops : Bool) (old : Int) (code : Fin 4),
    s.Starts c rest .step → n = c.smallLow → s.obj n = some o → s.seqHeld n = false →
    c.field = some f → c.stepStops = some stops → f.get o = some old → s.editBarred o f = false →
    let increment := (c.word 1).toInt
    let limit := (c.word 2).toInt
    let sum := old + increment
    (code = 0 ↔ (0 ≤ increment ∧ sum < limit) ∨ (increment < 0 ∧ limit < sum)) →
    (code = 1 ↔ sum = limit) →
    (code = 2 ↔ (0 ≤ increment ∧ limit < sum) ∨ (increment < 0 ∧ sum < limit)) →
    f.bringIn s.cmdw o (if code = 2 ∧ stops = true then limit else sum) = some o' →
    exec .step s = .next
      { s.doneWith rest code with
        scene :=
          { s.scene with
            slots := s.scene.slots.setIfInBounds n (some o')
            mark := s.scene.mark || (decide (o' ≠ o) && s.scene.placed n) } })
  ∧ ∀ (s : State) (c : Command) (rest : List Command) (n : Nat), s.Starts c rest .step → n = c.smallLow →
      s.refusesIn .step c rest
        [ (n < 48, .range),
          (s.obj n ≠ none, .undefinedSlot),
          (s.seqHeld n = false, .reserved),
          ((∃ f o, c.field = some f ∧ s.obj n = some o ∧ f.get o ≠ none) ∧ c.stepStops ≠ none, .range),
          ((∀ f o, c.field = some f → s.obj n = some o → s.editBarred o f = false), .boundField),
          ((∀ f o old stops, c.field = some f → s.obj n = some o → f.get o = some old →
              c.stepStops = some stops →
              let increment := (c.word 1).toInt
              let limit := (c.word 2).toInt
              let sum := old + increment
              let passed : Prop := if 0 ≤ increment then limit < sum else sum < limit
              (passed → stops = true → f.bringIn s.cmdw o limit ≠ none)
                ∧ (¬ (passed ∧ stops = true) → f.bringIn s.cmdw o sum ≠ none)), .range) ]

/-- Bringing a value into a valid record leaves a valid record: geometric fields saturate at their range,
structural fields are stored only when the record stays valid, wrapping fields keep the value modulo their
width, and nothing but the named field changes, apart from the viewport under a new size: the group, the image
size and the bound channel stand too (R53, R55). -/
def Obligations.EditKeepsTheRecordValid : Prop :=
  ∀ (f g : Field) (cmdw : Nat) (o o' : Obj) (z : Int),
    o.valid cmdw = true → (f.get o).isSome = true → f.bringIn cmdw o z = some o' →
    o'.valid cmdw = true
      ∧ (f = .x ∨ f = .y → f.get o' = some (max (-32768) (min 65535 z)))
      ∧ (f = .alpha → f.get o' = some (max 0 (min 255 z)))
      ∧ (f = .clipX0 ∨ f = .clipY0 ∨ f = .clipX1 ∨ f = .clipY1 →
          f.get o' = some (max 0 (min 2048 z)))
      ∧ (∀ src st iw ih vx vy, o.body = .slide src st iw ih vx vy →
          (f = .vx → f.get o' = some (max 0 (min (((iw - o.w) * 16 : Nat) : Int) z)))
            ∧ (f = .vy → f.get o' = some (max 0 (min (((ih - o.h) * 16 : Nat) : Int) z))))
      ∧ (f = .w ∨ f = .h ∨ f = .palette ∨ f = .source ∨ f = .stride → f.get o' = some z)
      ∧ (f = .visible ∨ f = .clip → f.get o' = some (z % 2))
      ∧ (f = .colour → f.get o' = some (z % 2 ^ 32))
      ∧ (g ≠ f → ¬ (f = .w ∧ g = .vx) → ¬ (f = .h ∧ g = .vy) → g.get o' = g.get o)
      ∧ o' =
          { o with
            x := if f = .x then o'.x else o.x
            y := if f = .y then o'.y else o.y
            w := if f = .w then o'.w else o.w
            h := if f = .h then o'.h else o.h
            alpha := if f = .alpha then o'.alpha else o.alpha
            visible := if f = .visible then o'.visible else o.visible
            clip := if f = .clip then o'.clip else o.clip
            clipX0 := if f = .clipX0 then o'.clipX0 else o.clipX0
            clipY0 := if f = .clipY0 then o'.clipY0 else o.clipY0
            clipX1 := if f = .clipX1 then o'.clipX1 else o.clipX1
            clipY1 := if f = .clipY1 then o'.clipY1 else o.clipY1
            body :=
              match o.body with
              | .fill colour => .fill (if f = .colour then BitVec.ofInt 32 z else colour)
              | .bitmap8 palette src st =>
                .bitmap8 (if f = .palette then z.toNat else palette) (if f = .source then z.toNat else src)
                  (if f = .stride then z.toNat else st)
              | .bitmap32 src st =>
                .bitmap32 (if f = .source then z.toNat else src) (if f = .stride then z.toNat else st)
              | .slide src st iw ih vx vy =>
                .slide (if f = .source then z.toNat else src) (if f = .stride then z.toNat else st) iw ih
                  (if f = .vx then (max 0 (min (((iw - o.w) * 16 : Nat) : Int) z)).toNat
                    else if f = .w then min vx ((iw - z.toNat) * 16) else vx)
                  (if f = .vy then (max 0 (min (((ih - o.h) * 16 : Nat) : Int) z)).toNat
                    else if f = .h then min vy ((ih - z.toNat) * 16) else vy) }

/-- LOAD PALETTE that passes R57 goes into service, fills the load buffer's numbers and starts its palette
read (R20, R57). The first check of R57 that fails refuses the command with its reason. -/
def Obligations.LoadPaletteStartsItsRead : Prop :=
  (∀ (s : State) (c : Command) (rest : List Command) (count source : Nat),
    s.Starts c rest .loadPalette → c.smallLow ≤ 3 → count = (c.word 1).toNat % 2 ^ 16 →
    source = (c.word 2).toNat → 1 ≤ count → count ≤ 256 → c.smallHigh + count ≤ 256 →
    source % 4 = 0 → source + count * 4 ≤ s.cmdw →
    exec .loadPalette s = .next
      { s.servedWith rest c.slot .loadPalette with
        scene := { s.scene with load := some ⟨c.smallLow, c.smallHigh, count, [], false⟩ },
        bridge :=
          { (s.departed rest).bridge with
            fetch := s.bridge.fetch ++ [⟨.palette, source, count, 0, []⟩] } })
  ∧ ∀ (s : State) (c : Command) (rest : List Command) (count : Nat), s.Starts c rest .loadPalette →
      count = (c.word 1).toNat % 2 ^ 16 →
      s.refusesIn .loadPalette c rest
        [ (c.smallLow ≤ 3, .range),
          (1 ≤ count ∧ count ≤ 256 ∧ c.smallHigh + count ≤ 256, .range),
          ((c.word 2).toNat % 4 = 0, .range),
          ((c.word 2).toNat + count * 4 ≤ s.cmdw, .range) ]

/-- The end of a palette read: with no composition in flight the entries read are installed, in order, the
mark is set, the buffer is empty and the command completes with code 0; otherwise the entries wait. Then
DRAIN looks whether it may end (R58, R160). -/
def Obligations.PaletteReadEndInstalls : Prop :=
  ∀ (s : State) (l : PaletteLoad), s.Settled → s.bridge.busy = some (.fetch .palette) →
    s.scene.load = some l →
    ∃ t, exec .paletteReadEnd s = .next (t.drainStep.endStep s)
      ∧ State.sameBut [.bridge, .scene, .intake] s t
      ∧ t.bridge =
          { s.bridge with fetch := s.bridge.fetch.filter (·.kind != .palette), busy := none }
      ∧ t.scene.slots = s.scene.slots ∧ t.scene.order = s.scene.order
      ∧ (s.composer.comp ≠ none →
          t.intake = s.intake ∧ t.scene = { s.scene with load := some { l with ended := true } })
      ∧ (s.composer.comp = none →
          t.intake = { s.intake with inService := none, code := 0, inRun := false }
            ∧ t.scene.load = none ∧ t.scene.mark = true
            ∧ ∀ (q : Fin 4) (i : Fin 256),
                (t.scene.palettes[q])[i] =
                  if q.val = l.palette ∧ l.first ≤ i.val ∧ i.val < l.first + l.entries.length then
                    l.entries.getD (i.val - l.first) 0
                  else (s.scene.palettes[q])[i])

/-! ## Motion -/

/-- SET PROFILE stores its six values, clamped, with code 0; a number outside 0..7 refuses it with RANGE
(R63, R64). -/
def Obligations.SetProfileStoresClampedValues : Prop :=
  ∀ (s : State) (c : Command) (rest : List Command) (p : Profile),
    s.Starts c rest .setProfile → p = c.profileValues →
    (c.small < 8 →
      exec .setProfile s = .next
        { s.doneWith rest 0 with
          motion :=
            { s.motion with
              profiles :=
                s.motion.profiles.setIfInBounds c.small
                  { vs := max 1 (min 4095 p.vs), vp := max (max 1 (min 4095 p.vs)) (min 4095 p.vp),
                    a := max 1 (min 1023 p.a), d := max 1 (min 1023 p.d), lead := min 7 p.lead,
                    auto := p.auto } } })
    ∧ (8 ≤ c.small →
        exec .setProfile s = .next
          (s.doneRaising rest 3 (.refused c.kind .range c.header c.second) c.slot))

/-- MOVE on an IDLE channel starts a new motion: the binding, E0 from the object, E1 from the clamped
targets, S the travel, v = Vs, the lead count, Vtop by the peak search, the phase by L and Vtop; code 0
(R81). The travel is the largest of its five quantities (R68), and the targets are clamped to the ranges of
their fields (R80). The first check of R79 that fails refuses the command with its reason. Another block's
request makes the same checks but for the reservations and starts the same motion for its owner, with no
command slot; one that fails is not taken (R89). That a SLIDE's sizes run to its image's size, in place of
2048, is the model's reading (log entry 45), and so is that step 7 tests the record with its viewport held to
the range of the target sizes (log entry 50). -/
def Obligations.MoveStartsAMotion : Prop :=
  let started (s : State) (r : MotionRequest) (o : Obj) (owner : Owner) (slot : Option Nat) : State :=
    let p := s.motion.profile r.profile
    let e0 := o.ends r.view
    let e1 := o.clampTargets r.moved r.view r.targets
    let vtop := peakSearch p p.vs p.lead (travelOf e0 e1)
    { s with
      scene :=
        { s.scene with
          slots := s.scene.slots.setIfInBounds r.slot (some { o with bound := some r.channel }) },
      motion :=
        s.motion.putChannel r.channel
          { phase := if 0 < p.lead then .lead else if p.vs < vtop then .accel else .cruise
            owner := some owner
            slot := some r.slot
            moved := r.moved
            view := r.view
            prof := p
            vtop := vtop
            v := p.vs
            s := 0
            travel := travelOf e0 e1
            lead := p.lead
            e0 := e0
            e1 := e1
            hold := none
            release := false
            cmdSlot := slot } }
  ((∀ (s : State) (c : Command) (rest : List Command) (r : MotionRequest) (o : Obj),
    s.Starts c rest .move → r = c.motion → s.movePasses r o →
    (s.chan r.channel).phase = .idle → (o.bound = none ∨ o.bound = some r.channel) →
    exec .move s = .next (started (s.doneWith rest 0) r o .command (some c.slot)))
  ∧ (∀ (s : State) (r : MotionRequest) (owner : Owner),
      ((∀ o, ¬ s.requestPasses r o) → s.request r owner = none)
      ∧ ∀ o, s.requestPasses r o → (s.chan r.channel).phase = .idle →
          s.request r owner = some (started s r o owner none))
  ∧ ∀ (s : State) (c : Command) (rest : List Command) (r : MotionRequest),
      s.Starts c rest .move → r = c.motion →
      s.refusesIn .move c rest
        [ (r.channel < 8 ∧ r.profile < 8 ∧ r.slot < 48 ∧ r.moved ≠ ⟨false, false, false, false, false⟩, .range),
          (s.channelReserved r.channel = false ∧ s.seqHeld r.slot = false
            ∧ ∀ p, s.nav.page = some p → p.highlight ≠ r.slot, .reserved),
          (s.obj r.slot ≠ none, .undefinedSlot),
          ((r.view = true → ∀ o, s.obj r.slot = some o → o.body.code = 3), .range),
          ((∀ o, s.obj r.slot = some o → o.bound = none ∨ o.bound = some r.channel), .slotBusy),
          ((s.chan r.channel).phase = .idle
            ∨ (s.chan r.channel).slot = some r.slot ∧ (s.chan r.channel).view = r.view, .channelBusy),
          ((∀ o, s.obj r.slot = some o →
              (o.withSizes r.moved (o.clampTargets r.moved r.view r.targets)).valid s.cmdw = true), .range) ])
  ∧ (∀ e0 e1 : Ends,
      let quantities : List Nat :=
        [ (e1.p1 - e0.p1).natAbs, (e1.p2 - e0.p2).natAbs, 16 * ((e1.w : Int) - e0.w).natAbs,
          16 * ((e1.h : Int) - e0.h).natAbs, 16 * ((e1.alpha : Int) - e0.alpha).natAbs ]
      travelOf e0 e1 ∈ quantities ∧ ∀ q ∈ quantities, q ≤ travelOf e0 e1)
  ∧ ∀ (o : Obj) (m : Moved) (view : Bool) (t : Ends),
      let now : Ends := o.ends view
      let e := o.clampTargets m view t
      (view = false → now = ⟨o.x, o.y, o.w, o.h, o.alpha⟩)
      ∧ (∀ src st iw ih vx vy, view = true → o.body = .slide src st iw ih vx vy →
          now = ⟨vx, vy, o.w, o.h, o.alpha⟩)
      ∧ e.w = (if m.w then max 1 (min o.greatest.1 t.w) else o.w)
      ∧ e.h = (if m.h then max 1 (min o.greatest.2 t.h) else o.h)
      ∧ e.alpha = (if m.alpha then min 255 t.alpha else o.alpha)
      ∧ (m.p1 = false → e.p1 = now.p1) ∧ (m.p2 = false → e.p2 = now.p2)
      ∧ (m.p1 = true → view = false → e.p1 = max (-32768) (min 65535 t.p1))
      ∧ (m.p2 = true → view = false → e.p2 = max (-32768) (min 65535 t.p2))
      ∧ (m.p1 = true → view = true →
          e.p1 = max 0 (min (((o.greatest.1 - e.w) * 16 : Nat) : Int) t.p1))
      ∧ (m.p2 = true → view = true →
          e.p2 = max 0 (min (((o.greatest.2 - e.h) * 16 : Nat) : Int) t.p2))

/-- MOVE on a channel bound to the slot overrides its motion: new endpoints from where the object stands,
the union of the field sets, the named profile, s = 0, the speed kept or raised to the new Vs, Vtop by the
peak search, the phase by the rows of R82; code 1 (R82; the search in LEAD by log entry 26, and that the
hold mode and release-recorded stand by log entry 16). Another block's request does the same for its owner,
with no command slot (R89). The clamping of sizes and the test of the record are the model's readings of log
entries 45 and 50, and a viewport coordinate that is not named keeps its value as E1 even where the target
size narrows its range, the model's choice of log entry 51. -/
def Obligations.MoveOverridesAMotion : Prop :=
  let overridden (s : State) (r : MotionRequest) (o : Obj) (ch : Channel) (owner : Owner)
      (slot : Option Nat) : State :=
    let p := s.motion.profile r.profile
    let e0 := o.ends r.view
    let e1 := o.clampTargets r.moved r.view r.targets
    let travel := travelOf e0 e1
    let v := max ch.v p.vs
    let vtop := peakSearch p v ch.lead travel
    { s with
      motion :=
        s.motion.putChannel r.channel
          { ch with
            phase :=
              if ch.phase = .lead then .lead
              else if ch.phase = .held then .held
              else if travel < v + brakingDistance p v then .decel
              else if vtop < v then .slow
              else if v < vtop then .accel
              else .cruise
            owner := some owner
            moved :=
              ⟨ch.moved.p1 || r.moved.p1, ch.moved.p2 || r.moved.p2, ch.moved.w || r.moved.w,
                ch.moved.h || r.moved.h, ch.moved.alpha || r.moved.alpha⟩
            prof := p
            vtop := vtop
            v := if ch.phase = .lead then p.vs else v
            s := 0
            travel := travel
            e0 := e0
            e1 := e1
            cmdSlot := slot } }
  (∀ (s : State) (c : Command) (rest : List Command) (r : MotionRequest) (o : Obj) (ch : Channel),
    s.Starts c rest .move → r = c.motion → s.movePasses r o → ch = s.chan r.channel →
    ch.phase ≠ .idle → ch.slot = some r.slot → ch.view = r.view → o.bound = some r.channel →
    exec .move s = .next (overridden (s.doneWith rest 1) r o ch .command (some c.slot)))
  ∧ ∀ (s : State) (r : MotionRequest) (owner : Owner) (o : Obj) (ch : Channel),
      s.requestPasses r o → ch = s.chan r.channel → ch.phase ≠ .idle →
      s.request r owner = some (overridden s r o ch owner none)

/-- RETUNE gives a running channel a new peak speed, a new Vtop and the phase that follows; code 0 (R84).
The first check of R84 that fails refuses the command with its reason. -/
def Obligations.RetuneChangesThePeak : Prop :=
  (∀ (s : State) (c : Command) (rest : List Command) (n : Nat) (ch : Channel),
    s.Starts c rest .retune → n = c.small → n < 8 → s.channelReserved n = false →
    ch = s.chan n → ch.phase ≠ .idle →
    let p := { ch.prof with vp := max ch.prof.vs (min 4095 ((c.word 1).toNat % 2 ^ 16)) }
    let vtop := peakSearch p ch.v ch.lead (ch.travel - ch.s)
    exec .retune s = .next
      { s.doneWith rest 0 with
        motion :=
          s.motion.putChannel n
            { ch with
              prof := p
              vtop := vtop
              phase :=
                if (ch.phase = .accel ∨ ch.phase = .cruise) ∧ vtop < ch.v then .slow
                else if (ch.phase = .cruise ∨ ch.phase = .slow) ∧ ch.v < vtop then .accel
                else ch.phase } })
  ∧ ∀ (s : State) (c : Command) (rest : List Command) (n : Nat), s.Starts c rest .retune → n = c.small →
      s.refusesIn .retune c rest
        [ (n < 8, .range),
          (s.channelReserved n = false, .reserved),
          ((s.chan n).phase ≠ .idle, .wrongState) ]

/-- HALT, mode EASE, sends a running channel to STOPPING and clears its hold; mode IMMEDIATE ends the motion
with HALTED, releases the binding and raises MOTION DONE for a COMMAND-owned channel, which keeps the fields
that R77 does not name (log entry 16); code 0 (R77, R78, R85). The first check of R84 that fails refuses the
command with its reason. -/
def Obligations.HaltEasesOrEnds : Prop :=
  (∀ (s : State) (c : Command) (rest : List Command) (n : Nat) (ch : Channel),
    s.Starts c rest .halt → n = c.smallLow → n < 8 → s.channelReserved n = false →
    ch = s.chan n → ch.phase ≠ .idle →
    (c.haltEases = true →
      exec .haltEase s = .next
        { s.doneWith rest 0 with
          motion :=
            s.motion.putChannel n
              (if ch.phase = .stopping then ch
                else
                  { ch with
                    phase := .stopping, hold := none, release := false
                    cmdSlot := if ch.owner = some .command then some c.slot else ch.cmdSlot }) })
    ∧ ∀ k o, c.haltEases = false → ch.slot = some k → s.obj k = some o →
        let scene :=
          { s.scene with slots := s.scene.slots.setIfInBounds k (some { o with bound := none }) }
        let motion :=
          s.motion.putChannel n
            { ch with phase := .idle, owner := none, slot := none, hold := none, release := false }
        (ch.owner ≠ some .command →
          exec .haltImmediate s = .next { s.doneWith rest 0 with scene := scene, motion := motion })
        ∧ (ch.owner = some .command →
            exec .haltImmediate s = .next
              { s.doneRaising rest 0 (.motionDone n .halted false k ch.s) c.slot with
                scene := scene, motion := motion }))
  ∧ ∀ (s : State) (c : Command) (rest : List Command) (n : Nat), s.Starts c rest .halt → n = c.smallLow →
      s.refusesIn (if c.haltEases then .haltEase else .haltImmediate) c rest
        [ (n < 8, .range),
          (s.channelReserved n = false, .reserved),
          ((s.chan n).phase ≠ .idle, .wrongState) ]

/-- The braking distance: 0 at Vs, the formula of R69 above it, which is the sum of the speeds of the frames
that follow, compared by the braking test with the remaining travel. The peak search: Vp with correction OFF
or from v0 at Vp or above; otherwise the largest candidate that can be reached, cruised at for one frame and
braked from within the remaining travel, and v0 when none can (R69, R70). -/
def Obligations.BrakingDistanceAndPeakSearch : Prop :=
  (∀ (p : Profile), 1 ≤ p.d →
    brakingDistance p p.vs = 0
    ∧ (∀ v n : Nat, p.vs < v → p.vs + p.d * (n - 1) < v → v ≤ p.vs + p.d * n →
        (brakingDistance p v : Int) = ((n : Int) - 1) * v - p.d * ((n : Int) - 1) * n / 2 + p.vs)
    ∧ (∀ v, p.vs < v →
        brakingDistance p v
          = max (v - p.d) p.vs + (if v - p.d ≤ p.vs then 0 else brakingDistance p (v - p.d)))
    ∧ ∀ (c : Channel) (v : Nat), c.prof = p →
        (c.fits v = true ↔ v + brakingDistance p v ≤ c.travel - c.s))
  ∧ ∀ (p : Profile) (v0 lead remaining : Nat), 1 ≤ p.a →
    (p.auto = false ∨ p.vp ≤ v0 → peakSearch p v0 lead remaining = p.vp)
    ∧ (p.auto = true → v0 < p.vp →
        let candidate (k : Nat) : Nat := min (v0 + k * p.a) p.vp
        let reach (k : Nat) : Nat := lead * v0 + ((List.range k).map fun i => candidate (i + 1)).sum
        let fits (k : Nat) : Prop :=
          reach k + candidate k + brakingDistance p (candidate k) ≤ remaining
        (∀ k, fits k → candidate k ≤ peakSearch p v0 lead remaining)
          ∧ ((∃ k, fits k ∧ peakSearch p v0 lead remaining = candidate k)
              ∨ ((∀ k, ¬ fits k) ∧ peakSearch p v0 lead remaining = v0)))

/-- The step of a channel is the one of its phase's row, a braking test that fails taking it as DECEL, and
EASING and STOPPING resting at Vs (R72, R73; the release recorded by R87). A channel whose braking distance
fits its remaining travel keeps fitting it through every step it takes, in every phase, and so never arrives
abruptly (R69, R74). That a lead count of 0 stays 0 and ends LEAD at that step is the model's choice (log
entry 43). -/
def Obligations.BrakeableChannelNeverArrivesAbruptly : Prop :=
  (∀ c c' : Channel, 1 ≤ c.prof.d → c.prof.vs ≤ c.v → c.prof.vs ≤ c.vtop →
    brakingDistance c.prof c.v ≤ c.travel - c.s → c.tick = .move c' →
    abruptEnd c'.v (c.travel - c.s) c.prof.vs = false
      ∧ c'.prof = c.prof ∧ c'.s = c.s ∧ c'.travel = c.travel ∧ c.prof.vs ≤ c'.v
      ∧ c.prof.vs ≤ c'.vtop
      ∧ brakingDistance c.prof c'.v ≤ c.travel - (c.s + min c'.v (c.travel - c.s)))
  ∧ ∀ c : Channel,
      let vs := c.prof.vs
      let fits (v : Nat) : Prop := v + brakingDistance c.prof v ≤ c.travel - c.s
      let rising := min (c.v + c.prof.a) c.vtop
      let falling := max (c.v - c.prof.d) c.vtop
      let slower := max (c.v - c.prof.d) vs
      let braked : TickAct := .move { c with v := slower, phase := if slower = vs then .creep else .decel }
      let found := peakSearch c.prof vs 0 (c.travel - c.s)
      (c.phase = .idle ∨ c.phase = .held → c.tick = .rest c)
      ∧ (c.phase = .lead →
          c.tick =
            .move
              { c with
                v := vs, lead := c.lead - 1
                phase := if c.lead - 1 = 0 then (if vs < c.vtop then .accel else .cruise) else .lead })
      ∧ (c.phase = .accel →
          (fits rising →
            c.tick = .move { c with v := rising, phase := if rising = c.vtop then .cruise else .accel })
          ∧ (¬ fits rising → c.tick = braked))
      ∧ (c.phase = .cruise → (fits c.v → c.tick = .move c) ∧ (¬ fits c.v → c.tick = braked))
      ∧ (c.phase = .slow →
          (fits falling →
            c.tick = .move { c with v := falling, phase := if falling = c.vtop then .cruise else .slow })
          ∧ (¬ fits falling → c.tick = braked))
      ∧ (c.phase = .decel → c.tick = braked)
      ∧ (c.phase = .creep → c.tick = .move { c with v := vs })
      ∧ (c.phase = .easing ∨ c.phase = .stopping → c.v ≠ vs → c.tick = .move { c with v := slower })
      ∧ (c.phase = .stopping → c.v = vs → c.tick = .halt)
      ∧ (c.phase = .easing → c.v = vs → c.release = false → c.tick = .rest { c with phase := .held })
      ∧ (c.phase = .easing → c.v = vs → c.release = true →
          c.tick =
            .rest
              { c with
                lead := 0, vtop := found, hold := none, release := false
                phase := if vs < found then .accel else .cruise })

/-- The value of a moved field: E0 at progress 0, E1 at the travel (and always when the travel is 0),
between the two on the way, the nearest value with halves away from E0, and E0 throughout when the endpoints
are equal (R75). One step writes the moved fields and no other, and a moved size holds the paired viewport
coordinate to its new range (R55, R74, R75); that it does so even below an E1 of that coordinate is the model's
choice (log entry 51). -/
def Obligations.MovedValueRunsBetweenEndpoints : Prop :=
  (∀ (e0 e1 : Int) (s travel : Nat), s ≤ travel →
    valueAt e0 e1 travel travel = e1
    ∧ (0 < travel → valueAt e0 e1 0 travel = e0)
    ∧ min e0 e1 ≤ valueAt e0 e1 s travel ∧ valueAt e0 e1 s travel ≤ max e0 e1
    ∧ (0 < travel →
        let exact2 : Int := 2 * (e1 - e0) * s
        let got2 : Int := 2 * (valueAt e0 e1 s travel - e0) * travel
        |got2 - exact2| ≤ travel
          ∧ (|got2 - exact2| = travel → |exact2| < |got2|)))
  ∧ ∀ (o : Obj) (m : Moved) (view : Bool) (e : Ends),
      let t := o.moveTo m view e
      t = { o with x := t.x, y := t.y, w := t.w, h := t.h, alpha := t.alpha, body := t.body }
      ∧ t.x = (if m.p1 = true ∧ view = false then e.p1 else o.x)
      ∧ t.y = (if m.p2 = true ∧ view = false then e.p2 else o.y)
      ∧ t.w = (if m.w then e.w else o.w) ∧ t.h = (if m.h then e.h else o.h)
      ∧ t.alpha = (if m.alpha then e.alpha else o.alpha)
      ∧ (o.body.code ≠ 3 → t.body = o.body)
      ∧ ∀ src st iw ih vx vy, o.body = .slide src st iw ih vx vy →
          let ux := if m.p1 = true ∧ view = true then e.p1.toNat else vx
          let uy := if m.p2 = true ∧ view = true then e.p2.toNat else vy
          t.body =
            .slide src st iw ih (if m.w then min ux ((iw - e.w) * 16) else ux)
              (if m.h then min uy ((ih - e.h) * 16) else uy)

/-- One FTK. At the Composer, whatever the canvas state and whatever the order in which the parties take the
tick: the frame number rises, wrapping; a pending swap flips the front bank, at the Bridge too, and is
cleared; a composition in flight counts a late frame, up to 65535 (R97). The tick stores nothing in memory,
and an advance that it makes due is left to the next step, so that it starts no fetch (R145; log entry 6).
Every party takes the tick once, first those that the command names, and the settle comes last (R71, R76;
the order of the rest by log entry 7). A channel rests, halts, or steps as R74 and R75 say and arrives with
MOTION DONE or a notice, frozen and still ones excepted (R71, R77, R78); the notice of the last awaited
channel completes the change (R144; that a halted one's notice counts there too is the model's reading, log
entry 33; a kind outside 1..4 is reported as it stands by the model's choice, log entry 39; the fields an end
keeps by log entry 16); the dwell counts (R145); and the settle starts a
composition, with its scene copy, and clears the mark when every condition holds (R99, R100). -/
def Obligations.FrameTickCountsFlipsAndCountsLate : Prop :=
  (∀ (s : State) (order : List TickPart), s.Settled →
    ∃ t, exec (.frameTick order) s = .next t
      ∧ State.sameBut [.bridge, .scene, .motion, .composer, .seq, .events] s t
      ∧ t.composer.frame = s.composer.frame + 1
      ∧ t.composer.front =
          (if s.composer.swapPending then (if s.composer.front = .a then .b else .a)
            else s.composer.front)
      ∧ t.composer.swapPending = false
      ∧ t.composer.late =
          (if s.composer.comp.isSome then min 65535 (s.composer.late + 1) else s.composer.late)
      ∧ t.composer.canvas = s.composer.canvas
      ∧ (s.composer.comp.isSome = true → t.composer.comp = s.composer.comp)
      ∧ t.bridge = { s.bridge with window := { s.bridge.window with front := t.composer.front } }
      ∧ t.scene.palettes = s.scene.palettes ∧ t.scene.load = s.scene.load
      ∧ t.motion.profiles = s.motion.profiles
      ∧ t.seq.list = s.seq.list ∧ t.seq.ready = s.seq.ready ∧ t.seq.read = s.seq.read)
  ∧ (∀ (s : State) (order : List TickPart), s.Settled →
      ∃ parts : List TickPart, parts.Perm tickParts ∧ order.eraseDups <+: parts
        ∧ exec (.frameTick order) s
            = .next ((State.settle (parts.foldl State.tickPart s)).endStep s))
  ∧ (∀ (s : State) (n : Fin 8),
      let c := s.chan n
      let t := s.tickPart (.channel n)
      let frozen : Prop :=
        s.takeover.state = .entering ∧ ∃ k o, c.slot = some k ∧ s.obj k = some o ∧ o.group = .slide
      (c.phase = .idle ∨ c.phase = .held ∨ frozen → t = s)
      ∧ (c.phase ≠ .idle → c.phase ≠ .held → ¬ frozen →
          (∀ r, c.tick = .rest r → t = { s with motion := s.motion.putChannel n r })
          ∧ ∀ k o, c.slot = some k → s.obj k = some o →
              (c.tick = .halt →
                let u := s.motionEnded n c k o .halted false c.cmdSlot
                t = if c.owner = some .sequencer then u.notice n false none else u)
              ∧ ∀ r, c.tick = .move r →
                  let progress := c.s + min r.v (c.travel - c.s)
                  let value (e0 e1 : Int) : Int := valueAt e0 e1 progress c.travel
                  let stepped : Channel := { r with s := progress }
                  let moved : Obj :=
                    o.moveTo c.moved c.view
                      ⟨value c.e0.p1 c.e1.p1, value c.e0.p2 c.e1.p2, (value c.e0.w c.e1.w).toNat,
                        (value c.e0.h c.e1.h).toNat, (value c.e0.alpha c.e1.alpha).toNat⟩
                  (progress ≠ c.travel →
                    t =
                      { s with
                        scene :=
                          { s.scene with
                            slots := s.scene.slots.setIfInBounds k (some moved)
                            mark := s.scene.mark || (decide (moved ≠ o) && s.scene.placed k) }
                        motion := s.motion.putChannel n stepped })
                  ∧ (progress = c.travel →
                      let u :=
                        s.motionEnded n stepped k moved .arrived
                          (abruptEnd r.v (c.travel - c.s) c.prof.vs) c.cmdSlot
                      t = if c.owner = some .sequencer then u.notice n false none else u)))
  ∧ (∀ (s : State) (n : Nat) (snapped : Bool) (slot : Option Nat),
      let awaited : Prop := (n = 5 ∧ s.seq.await5 = true) ∨ (n = 6 ∧ s.seq.await6 = true)
      let rest : State :=
        { s with
          seq :=
            { s.seq with
              await5 := s.seq.await5 && decide (n ≠ 5), await6 := s.seq.await6 && decide (n ≠ 6) } }
      (s.seq.state ≠ .changing ∨ ¬ awaited → s.notice n snapped slot = s)
      ∧ (s.seq.state = .changing → awaited →
          (rest.seq.await5 = true ∨ rest.seq.await6 = true → s.notice n snapped slot = rest)
          ∧ ∀ bytes, rest.seq.await5 = false → rest.seq.await6 = false →
              s.seq.incomingDesc = some bytes →
              s.notice n snapped slot = rest.changeComplete (descriptorOf bytes).kind snapped slot))
  ∧ (∀ s : State,
      let counts : Prop :=
        s.seq.state = .showing ∧ s.seq.paused = false ∧ s.takeover.state = .normal ∧ 0 < s.seq.dwell
      (counts →
        s.tickPart .sequencer =
          { s with
            seq := { s.seq with dwell := s.seq.dwell - 1, advanceOwed := decide (s.seq.dwell = 1) } })
      ∧ (¬ counts → s.tickPart .sequencer = s))
  ∧ ∀ s : State,
      let starts (k : CanvasSetup) : Prop :=
        s.composer.canvas = some k ∧ (s.takeover.state = .normal ∨ s.takeover.state = .menuOver)
          ∧ s.composer.comp = none ∧ s.composer.swapPending = false
          ∧ (∀ slot k', s.intake.inService ≠ some ⟨slot, .setCanvas k'⟩) ∧ s.scene.mark = true
      (∀ k, starts k →
        s.settle =
          { s with
            composer :=
              { s.composer with
                comp :=
                  some
                    { copy := s.scene.order.filterMap fun n => (s.obj n).map fun o => (n, o)
                      dim := if s.takeover.state = .menuOver then some s.takeover.dim else none
                      setup := k
                      back := if s.composer.front = .a then .b else .a
                      band := 0
                      granted := 0
                      reads := [] } }
            scene := { s.scene with mark := false } })
      ∧ ((∀ k, ¬ starts k) → s.settle = s)

/-! ## Menus -/

/-- OPEN PAGE whose address passes opens its page; an opening, whatever its cause, takes the page from the
VALID buffer of that address at once, else waits on a fresh in-flight prefetch of it, else starts a page
read of 784 bytes and stays in service (R114, R115, R20). The first check of R114 that fails refuses the
command with its reason. -/
def Obligations.OpenPageTakesTheFirstSource : Prop :=
  ((∀ (s : State) (c : Command) (rest : List Command) (addr : Nat), s.Starts c rest .openPage →
    addr = (c.word 1).toNat → addr % 4 = 0 → addr + 784 ≤ s.cmdw →
    exec .openPage s = .next ((s.departed rest).opening .command addr 0 c.slot).closed)
  ∧ ∀ (s : State) (cause : Cause) (addr saved slot : Nat),
      (∀ b, s.nav.buffer = some b → b.addr = addr →
        s.opening cause addr saved slot =
          ((s.settlePage cause addr saved b.bytes true slot).1).setCode
            (s.settlePage cause addr saved b.bytes true slot).2)
      ∧ ((∀ b, s.nav.buffer = some b → b.addr ≠ addr) →
          (s.nav.inflight = some ⟨addr, false⟩ →
            s.opening cause addr saved slot =
              { s with intake :=
                { s.intake with inService := some ⟨slot, .openPage cause addr saved true⟩ } })
          ∧ (s.nav.inflight ≠ some ⟨addr, false⟩ →
              s.opening cause addr saved slot =
                { s with
                  intake := { s.intake with inService := some ⟨slot, .openPage cause addr saved false⟩ },
                  bridge :=
                    { s.bridge with fetch := s.bridge.fetch ++ [⟨.page, addr, 196, 0, []⟩] } })))
  ∧ ∀ (s : State) (c : Command) (rest : List Command), s.Starts c rest .openPage →
      s.refusesIn .openPage c rest
        [ ((c.word 1).toNat % 4 = 0 ∧ (c.word 1).toNat + 784 ≤ s.cmdw, .range) ]

/-- The 784 bytes of a page at hand: a valid page is installed with code 0 and PAGE OPENED, the focus by its
rule, the highlight jumped to the focused button and visible just when a button has the focus (unless it is
the old focus slot, made invisible after it: log entry 34), at the top of the MENU group when it was
unplaced, every other object but the markers as it was, the motions of channel 0 and of the highlight ended
silently (R77, R90; log entry 16); the mark is set for every write that
changes a placed object, a marker hidden and shown again among them (R48, R59; that each write counts by
itself is the model's choice, log entry 42); an object keeps its bound channel while no ended channel has its
slot; that the grown size of a SLIDE highlight is held to its image's size in place of 2048 is the model's
reading (log entry 45), and so is the viewport that the size is tested with (log entry 50); a rejected page leaves the page, the focus, the scene and the
channels as they were, restores the stack and gives PAGE REJECTED and code 3 (R112, R117, R118, R124, R131).
A page is rejected by the first check of R116 that fails. -/
def Obligations.PageIsInstalledOrRejected : Prop :=
  (∀ (s : State) (cause : Cause) (addr saved slot : Nat) (bytes : List Byte) (fromBuffer : Bool),
    let t := (s.settlePage cause addr saved bytes fromBuffer slot).1
    let code := (s.settlePage cause addr saved bytes fromBuffer slot).2
    let p := pageAt addr bytes
    let untouched (k : Nat) : Prop :=
      (s.chan 0).slot ≠ some k
        ∧ ∀ o n, s.obj p.highlight = some o → o.bound = some n → (s.chan n).slot ≠ some k
    (s.pageFault bytes = none →
      code = 0 ∧ State.sameBut [.nav, .scene, .motion, .events] s t
        ∧ t.nav =
            { s.nav with
              page := some p
              focus :=
                if cause = .back ∧ p.enabled saved = true then some saved
                else if p.enabled p.initial = true then some p.initial
                else (List.range p.buttons.length).find? p.enabled
              stack := if cause = .command then [] else s.nav.stack }
        ∧ (∃ o, t.obj p.highlight = some o
            ∧ ((∀ q f, s.nav.page = some q → s.nav.focus = some f → q.focusSlot f ≠ some p.highlight) →
                o.visible = t.nav.focus.isSome))
        ∧ (∀ n, t.nav.focus.bind p.focusSlot = some n → ∀ o, t.obj n = some o → o.visible = true)
        ∧ State.silenced s t [0]
        ∧ (∀ o n, s.obj p.highlight = some o → o.bound = some n →
            (s.chan 0).slot ≠ some p.highlight → State.silenced s t [n])
        ∧ p.highlight ∈ t.scene.order
        ∧ t.events =
            (s.raise (.pageOpened t.nav.focus cause fromBuffer addr (pageCount bytes)) (some slot)).events
        ∧ (∀ o, s.obj p.highlight = some o → ∃ o', t.obj p.highlight = some o'
            ∧ o'.unbound =
                { (match t.nav.focus.bind p.button with
                    | some b => o.atButton s.cmdw b p.margin
                    | none => o).unbound with visible := o'.visible }
            ∧ (untouched p.highlight → o'.bound = o.bound))
        ∧ (let marker : Option Nat := t.nav.focus.bind p.focusSlot
          let oldMarker (n : Nat) : Prop :=
            ∃ q f, s.nav.page = some q ∧ s.nav.focus = some f ∧ q.focusSlot f = some n
          let hidden (n : Nat) : Prop :=
            (∃ b ∈ p.buttons, b.focusSlot = some n) ∨ oldMarker n
              ∨ ∃ q, s.nav.page = some q ∧ q.highlight = n
          (∀ n o, n ≠ p.highlight → s.obj n = some o →
            ∃ o', t.obj n = some o' ∧ o'.unbound = { o.unbound with visible := o'.visible }
              ∧ (untouched n → o'.bound = o.bound)
              ∧ (marker = some n → o'.visible = true)
              ∧ (marker ≠ some n → hidden n → o'.visible = false)
              ∧ (marker ≠ some n → ¬ hidden n → o'.visible = o.visible))
          ∧ (p.highlight ∉ s.scene.order → t.scene.mark = true)
          ∧ (p.highlight ∈ s.scene.order →
              (t.scene.mark = true ↔
                s.scene.mark = true
                  ∨ (∃ n o, n ≠ p.highlight ∧ n ∈ s.scene.order ∧ s.obj n = some o
                      ∧ (hidden n ∧ o.visible = true ∨ marker = some n))
                  ∨ ∃ o, s.obj p.highlight = some o
                      ∧ ((∃ b, t.nav.focus.bind p.button = some b
                            ∧ (o.atButton s.cmdw b p.margin).unbound ≠ o.unbound)
                          ∨ o.visible ≠ t.nav.focus.isSome
                          ∨ oldMarker p.highlight ∧ t.nav.focus.isSome = true))))
        ∧ (∀ n, s.obj n = none → t.obj n = none)
        ∧ (p.highlight ∈ s.scene.order → t.scene.order = s.scene.order)
        ∧ (p.highlight ∉ s.scene.order → s.scene.orderLaw = true →
            t.scene.order = s.scene.order ++ [p.highlight])
        ∧ t.scene.palettes = s.scene.palettes ∧ t.scene.load = s.scene.load
        ∧ t.motion.profiles = s.motion.profiles
        ∧ ∀ k, k ≠ 0 → (∀ o, s.obj p.highlight = some o → o.bound ≠ some k) → t.chan k = s.chan k)
    ∧ ∀ reason detail, s.pageFault bytes = some (reason, detail) →
        code = 3 ∧ State.sameBut [.nav, .events] s t
          ∧ t.nav =
              { s.nav with
                stack :=
                  match cause with
                  | .command => s.nav.stack
                  | .enter => s.nav.stack.dropLast
                  | .back => s.nav.stack ++ [⟨addr, saved⟩] }
          ∧ t.events = (s.raise (.pageRejected cause reason addr detail) (some slot)).events)
  ∧ ∀ (s : State) (bytes : List Byte),
      let p := pageAt 0 bytes
      let count := pageCount bytes
      let menuObject (n : Nat) : Prop := ∃ o, s.obj n = some o ∧ o.group = .menu
      let linked (b : Button) : Prop := ∀ k ∈ [b.up, b.down, b.left, b.right], ∀ n, k = some n → n < count
      let marked (b : Button) : Prop := ∀ n, b.focusSlot = some n → menuObject n ∧ n ≠ p.highlight
      (pageFormat bytes ≠ 1 → s.pageFault bytes = some (.format, pageFormat bytes))
      ∧ (pageFormat bytes = 1 →
          (¬ (1 ≤ count ∧ count ≤ 32) → s.pageFault bytes = some (.count, count))
          ∧ (1 ≤ count → count ≤ 32 →
              (7 < p.profile → s.pageFault bytes = some (.profile, p.profile))
              ∧ (p.profile ≤ 7 →
                  (¬ menuObject p.highlight → s.pageFault bytes = some (.highlight, p.highlight))
                  ∧ (menuObject p.highlight →
                      ((∀ b ∈ p.buttons, linked b ∧ marked b) → s.pageFault bytes = none)
                      ∧ ∀ n b, p.button n = some b →
                          (∀ k c, k < n → p.button k = some c → linked c ∧ marked c) →
                          (¬ linked b → s.pageFault bytes = some (.neighbour, n))
                          ∧ (linked b → ¬ marked b → s.pageFault bytes = some (.focusSlot, n))))))

/-- The end of a page read: the page is installed or rejected from the 784 bytes read, and the command in
service completes with its code; then DRAIN looks whether it may end (R20, R30, R115, R116, R160). -/
def Obligations.PageReadEndSettlesThePage : Prop :=
  ∀ (s u : State) (slot addr saved : Nat) (cause : Cause) (awaits : Bool) (op : FetchOp),
    s.Settled → s.bridge.busy = some (.fetch .page) → s.bridge.fetchOf .page = some op →
    s.intake.inService = some ⟨slot, .openPage cause addr saved awaits⟩ →
    u = { s with bridge :=
          { s.bridge with fetch := s.bridge.fetch.filter (·.kind != .page), busy := none } } →
    exec .pageReadEnd s = .next
      ((((u.settlePage cause addr saved op.data false slot).1.complete
        (u.settlePage cause addr saved op.data false slot).2).drainStep).endStep s)

/-- PREFETCH PAGE whose address passes completes with code 0: nothing for a page that is buffered, freshly
in flight or pending; otherwise the buffer is emptied and the read starts, or waits as the pending prefetch
behind a read that turns stale (R128). The first check of R128 that fails refuses the command with its
reason. -/
def Obligations.PrefetchPageStartsOrWaits : Prop :=
  (∀ (s : State) (c : Command) (rest : List Command) (addr : Nat), s.Starts c rest .prefetchPage →
    addr = (c.word 1).toNat → addr % 4 = 0 → addr + 784 ≤ s.cmdw →
    let known : Prop :=
      (∃ b, s.nav.buffer = some b ∧ b.addr = addr) ∨ s.nav.inflight = some ⟨addr, false⟩
        ∨ s.nav.waiting = some addr
    (known → exec .prefetchPage s = .next (s.doneWith rest 0))
    ∧ (¬ known → s.nav.inflight = none →
        exec .prefetchPage s = .next
          { s.doneWith rest 0 with
            nav := { s.nav with buffer := none, inflight := some ⟨addr, false⟩ },
            bridge :=
              { (s.departed rest).bridge with
                fetch := s.bridge.fetch ++ [⟨.prefetch, addr, 196, 0, []⟩] } })
    ∧ ∀ f, ¬ known → s.nav.inflight = some f →
        exec .prefetchPage s = .next
          { s.doneWith rest 0 with
            nav :=
              { s.nav with buffer := none, inflight := some { f with stale := true },
                           waiting := some addr } })
  ∧ ∀ (s : State) (c : Command) (rest : List Command), s.Starts c rest .prefetchPage →
      s.refusesIn .prefetchPage c rest
        [ ((c.word 1).toNat % 4 = 0 ∧ (c.word 1).toNat + 784 ≤ s.cmdw, .range) ]

/-- The end of a prefetch read: a fresh read fills the buffer, a stale one is discarded, and a pending
prefetch starts its read. A command that waits on the prefetch takes the new buffer at once, or after a
stale read starts its own page read, in the order the command's operand gives; then DRAIN looks whether it
may end (R20, R129, R130, R160; the order by log entry 8). -/
def Obligations.PrefetchReadEndFillsTheBuffer : Prop :=
  ∀ (s u : State) (f : Prefetch) (op : FetchOp) (pageFirst : Bool),
    s.Settled → s.bridge.busy = some (.fetch .prefetch) → s.bridge.fetchOf .prefetch = some op →
    s.nav.inflight = some f →
    let fetch := s.bridge.fetch.filter (·.kind != .prefetch)
    let next : List FetchOp :=
      match s.nav.waiting with
      | some a => [⟨.prefetch, a, 196, 0, []⟩]
      | none => []
    u = { s with
      nav :=
        { s.nav with
          buffer := if f.stale then s.nav.buffer else some ⟨f.addr, op.data⟩
          inflight := s.nav.waiting.map (⟨·, false⟩)
          waiting := none },
      bridge := { s.bridge with fetch := fetch ++ next, busy := none } } →
    ((∀ slot cause addr saved,
        s.intake.inService ≠ some ⟨slot, .openPage cause addr saved true⟩) →
      exec (.prefetchReadEnd pageFirst) s = .next (u.drainStep.endStep s))
    ∧ ∀ slot cause addr saved,
        s.intake.inService = some ⟨slot, .openPage cause addr saved true⟩ →
        (f.stale = false →
          exec (.prefetchReadEnd pageFirst) s = .next
            ((((u.settlePage cause addr saved op.data true slot).1.complete
              (u.settlePage cause addr saved op.data true slot).2).drainStep).endStep s))
        ∧ (f.stale = true →
            exec (.prefetchReadEnd pageFirst) s = .next
              ((State.drainStep
                { u with
                  intake := { s.intake with inService := some ⟨slot, .openPage cause addr saved false⟩ },
                  bridge :=
                    { u.bridge with
                      fetch :=
                        if pageFirst then fetch ++ [⟨.page, addr, 196, 0, []⟩] ++ next
                        else fetch ++ next ++ [⟨.page, addr, 196, 0, []⟩] } }).endStep s))

/-- A direction key: with no focus code 2; along the neighbour links from the focus, past disabled buttons,
none at the first link gives code 1, none at a later one, the focus itself or a chain of 32 disabled buttons
code 2, each with nothing changed, and an enabled button takes the focus with code 0, with the mark for each
write that changes a placed marker (R48, R59, R120, R122; that each write counts by itself is the model's
choice, log entry 42). In the glide, that the grown size of a SLIDE highlight is held to its image's size in
place of 2048 is the model's reading (log entry 45), and so is the viewport that the size is tested with (log
entry 50). The first check of R119 that fails refuses the command with its reason; a KEY whose key is unknown
starts under any of the keys' rows (log entry 18). -/
def Obligations.DirectionKeysFollowNeighbours : Prop :=
  (∀ e ∈ [(Instr.keyUp, Key.up, Direction.up), (.keyDown, .down, .down), (.keyLeft, .left, .left),
      (.keyRight, .right, .right)],
    ∀ (s : State) (c : Command) (rest : List Command) (p : Page), s.Starts c rest .key →
      c.key = some e.2.1 → s.nav.page = some p →
      (s.nav.focus = none → exec e.1 s = .next (s.doneWith rest 2))
      ∧ ∀ f, s.nav.focus = some f →
          let link (k : Nat) : Option Nat := (p.button k).bind (·.neighbour e.2.2)
          (link f = none → exec e.1 s = .next (s.doneWith rest 1))
          ∧ (link f = some f → exec e.1 s = .next (s.doneWith rest 2))
          ∧ (∀ g, link f = some g → g ≠ f → p.enabled g = true →
              ∃ t, exec e.1 s = .next t ∧ s.focusMoved rest p f g t)
          ∧ (∀ g, p.walk e.2.2 f 32 f true = .moved g →
              p.enabled g = true ∧ g ≠ f ∧ ∃ t, exec e.1 s = .next t ∧ s.focusMoved rest p f g t)
          ∧ ∀ code, p.walk e.2.2 f 32 f true = .stays code →
              exec e.1 s = .next (s.doneWith rest code))
  ∧ (∀ e ∈ [(Instr.keyUp, Key.up, Direction.up), (.keyDown, .down, .down), (.keyLeft, .left, .left),
      (.keyRight, .right, .right)],
      ∀ (s : State) (c : Command) (rest : List Command) (p : Page) (f : Nat) (path : List Nat),
        s.Starts c rest .key → c.key = some e.2.1 → s.nav.page = some p → s.nav.focus = some f →
        let link (k : Nat) : Option Nat := (p.button k).bind (·.neighbour e.2.2)
        let last := (f :: path).getD path.length f
        (∀ i, i < path.length → link ((f :: path).getD i f) = some (path.getD i f)) →
        (∀ b ∈ path, b ≠ f ∧ p.enabled b = false) → path.length ≤ 32 →
        (path.length = 32 → exec e.1 s = .next (s.doneWith rest 2))
        ∧ (path.length < 32 →
            (link last = none → exec e.1 s = .next (s.doneWith rest (if path = [] then 1 else 2)))
            ∧ (link last = some f → exec e.1 s = .next (s.doneWith rest 2))
            ∧ ∀ g, link last = some g → g ≠ f → p.enabled g = true →
                ∃ t, exec e.1 s = .next t ∧ s.focusMoved rest p f g t))
  ∧ ∀ e ∈ [(Instr.keyUp, Key.up), (.keyDown, .down), (.keyLeft, .left), (.keyRight, .right)],
      ∀ (s : State) (c : Command) (rest : List Command), s.Starts c rest .key →
        c.key = some e.2 ∨ c.key = none →
        s.refusesIn e.1 c rest [ (c.key ≠ none, .range), (s.nav.page ≠ none, .noPage) ]

/-- SELECT n: code 1 beyond the count, code 2 on a disabled button, code 0 with nothing changed on the focus
itself, and otherwise the focus moves; from no focus the highlight jumps to the button and becomes visible,
and so does the focus slot of n, with the mark when a placed object has changed (R48, R59, R118, R121, R122;
in a move each write counts by itself, the model's choice, log entry 42). In the jump and the glide, that the
grown size of a SLIDE highlight is held to its image's size in place of 2048 is the model's reading (log entry
45), and so is the viewport that the size is tested with (log entry 50). The first check of R119 that fails
refuses the command with its reason; a KEY whose key is unknown starts under any of the keys' rows (log entry
18). -/
def Obligations.SelectMovesTheFocus : Prop :=
  (∀ (s : State) (c : Command) (rest : List Command) (p : Page) (n : Nat), s.Starts c rest .key →
    c.key = some .select → n = c.smallHigh → s.nav.page = some p →
    (p.buttons.length ≤ n → exec .keySelect s = .next (s.doneWith rest 1))
    ∧ (n < p.buttons.length → p.enabled n = false → exec .keySelect s = .next (s.doneWith rest 2))
    ∧ (p.enabled n = true → s.nav.focus = some n → exec .keySelect s = .next (s.doneWith rest 0))
    ∧ (∀ f, p.enabled n = true → s.nav.focus = some f → f ≠ n →
        ∃ t, exec .keySelect s = .next t ∧ s.focusMoved rest p f n t)
    ∧ (p.enabled n = true → s.nav.focus = none →
        ∃ t, exec .keySelect s = .next t
          ∧ State.sameBut [.nav, .scene] (s.doneWith rest 0) t
          ∧ t.nav = { s.nav with focus := some n }
          ∧ t.scene.order = s.scene.order
          ∧ (∀ b o, p.button n = some b → s.obj p.highlight = some o →
              t.obj p.highlight = some { o.atButton s.cmdw b p.margin with visible := true })
          ∧ (∀ k o, p.focusSlot n = some k → k ≠ p.highlight → s.obj k = some o →
              t.obj k = some { o with visible := true })
          ∧ (∀ k, s.obj k = none → t.obj k = none)
          ∧ t.scene.palettes = s.scene.palettes ∧ t.scene.load = s.scene.load
          ∧ (t.scene.mark = true ↔
              s.scene.mark = true ∨ ∃ k, k ∈ s.scene.order ∧ t.obj k ≠ s.obj k)
          ∧ ∀ k o, s.obj k = some o → p.focusSlot n ≠ some k → k ≠ p.highlight → t.obj k = some o))
  ∧ ∀ (s : State) (c : Command) (rest : List Command),
      s.Starts c rest .key → c.key = some .select ∨ c.key = none →
      s.refusesIn .keySelect c rest
        [ (c.key ≠ none, .range),
          (s.nav.page ≠ none, .noPage) ]

/-- ENTER on the focused button: ACTIVATED, and then code 1 without a submenu, code 2 with a full stack,
code 3 and PAGE REJECTED for a submenu address that fails; otherwise the link record is pushed and the
submenu page opened (R125). The first check of R119 that fails refuses the command with its reason; a KEY
whose key is unknown starts under any of the keys' rows (log entry 18). -/
def Obligations.EnterActivatesAndOpens : Prop :=
  (∀ (s : State) (c : Command) (rest : List Command) (p : Page) (f : Nat) (b : Button),
    s.Starts c rest .key → c.key = some .enter → s.nav.page = some p → s.nav.focus = some f →
    p.button f = some b →
    (b.submenu = false →
      exec .keyEnter s = .next
        (s.doneRaising rest 1 (.activated f false false p.addr b.action) c.slot))
    ∧ (b.submenu = true → 8 ≤ s.nav.stack.length →
        exec .keyEnter s = .next
          (s.doneRaising rest 2 (.activated f false true p.addr b.action) c.slot))
    ∧ (b.submenu = true → s.nav.stack.length < 8 →
        let raised := (s.departed rest).raise (.activated f true false p.addr b.action) (some c.slot)
        (¬ (b.submenuAddr % 4 = 0 ∧ b.submenuAddr + 784 ≤ s.cmdw) →
          exec .keyEnter s = .next
            ((raised.raise (.pageRejected .enter .address b.submenuAddr 0)
              (some c.slot)).setCode 3).closed)
        ∧ (b.submenuAddr % 4 = 0 → b.submenuAddr + 784 ≤ s.cmdw →
            exec .keyEnter s = .next
              (State.opening
                { raised with nav := { s.nav with stack := s.nav.stack ++ [⟨p.addr, f⟩] } }
                .enter b.submenuAddr 0 c.slot).closed)))
  ∧ ∀ (s : State) (c : Command) (rest : List Command),
      s.Starts c rest .key → c.key = some .enter ∨ c.key = none →
      s.refusesIn .keyEnter c rest
        [ (c.key ≠ none, .range),
          (s.nav.page ≠ none, .noPage),
          (s.nav.focus ≠ none, .wrongState) ]

/-- BACK: with an empty stack BACK AT TOP and code 1; otherwise the newest link record is popped and its
page opened with the saved button (R126). The first check of R119 that fails refuses the command with its
reason; a KEY whose key is unknown starts under any of the keys' rows (log entry 18). -/
def Obligations.BackReturnsToTheLink : Prop :=
  (∀ (s : State) (c : Command) (rest : List Command) (p : Page), s.Starts c rest .key →
    c.key = some .back → s.nav.page = some p →
    (s.nav.stack = [] →
      exec .keyBack s = .next (s.doneRaising rest 1 (.backAtTop s.nav.focus p.addr) c.slot))
    ∧ ∀ links addr button, s.nav.stack = links ++ [⟨addr, button⟩] →
        exec .keyBack s = .next
          (State.opening { s.departed rest with nav := { s.nav with stack := links } }
            .back addr button c.slot).closed)
  ∧ ∀ (s : State) (c : Command) (rest : List Command),
      s.Starts c rest .key → c.key = some .back ∨ c.key = none →
      s.refusesIn .keyBack c rest
        [ (c.key ≠ none, .range),
          (s.nav.page ≠ none, .noPage) ]

/-- CLOSE MENU: code 0; with no page open nothing changes; with a page open channel 0 ends silently, the highlight
and the focused button's marker are invisible, the page, the focus and the stack are gone, and every slot
keeps its definition, its other fields and its place, its bound channel too unless channel 0 has that slot, and
the mark is set when a placed object was hidden (R48, R59, R77, R90, R127; the fields a silent end keeps by log
entry 16). -/
def Obligations.CloseMenuClosesThePage : Prop :=
  ∀ (s : State) (c : Command) (rest : List Command), s.Starts c rest .closeMenu →
    (s.nav.page = none → exec .closeMenu s = .next (s.doneWith rest 0))
    ∧ ∀ p, s.nav.page = some p →
        ∃ t, exec .closeMenu s = .next t
          ∧ State.sameBut [.nav, .scene, .motion] (s.doneWith rest 0) t
          ∧ t.nav = { s.nav with page := none, focus := none, stack := [] }
          ∧ t.scene.order = s.scene.order
          ∧ State.silenced s t [0] ∧ (∀ k, k ≠ 0 → t.chan k = s.chan k)
          ∧ (∀ o, t.obj p.highlight = some o → o.visible = false)
          ∧ (∀ n o, s.nav.focus.bind p.focusSlot = some n → t.obj n = some o → o.visible = false)
          ∧ (∀ n, (t.obj n).isSome = (s.obj n).isSome)
          ∧ (let hidden (n : Nat) : Prop := n = p.highlight ∨ s.nav.focus.bind p.focusSlot = some n
            (∀ n o, s.obj n = some o →
              ∃ o', t.obj n = some o' ∧ o'.unbound = { o.unbound with visible := o'.visible }
                ∧ (¬ hidden n → o'.visible = o.visible)
                ∧ ((s.chan 0).slot ≠ some n → o'.bound = o.bound))
            ∧ (t.scene.mark = true ↔
                s.scene.mark = true
                  ∨ ∃ n o, n ∈ s.scene.order ∧ s.obj n = some o ∧ hidden n ∧ o.visible = true))
          ∧ t.scene.palettes = s.scene.palettes ∧ t.scene.load = s.scene.load
          ∧ t.motion.profiles = s.motion.profiles

/-! ## Slides -/

/-- SLIDE START from STOPPED with both slots undefined: channels 5, 6 and 7 end silently, nothing is shown,
the direction is FORWARD, the skip count 0, and the load of the start index begins; code 0 (R90, R137, R138;
the fields a silent end keeps by log entry 16). The first check of R137 that fails refuses the command with
its reason. -/
def Obligations.SlideStartBeginsTheLoad : Prop :=
  (∀ (s : State) (c : Command) (rest : List Command) (l : SlideList),
    s.Starts c rest .slideStart → s.takeover.state = .normal → s.seq.state = .stopped →
    s.seq.list = some l → s.composer.canvas ≠ none → c.small < l.count →
    s.obj l.slotA = none → s.obj l.slotB = none →
    ∃ u v, exec .slideStart s = .next (v.setCode 0).closed
      ∧ State.loadBegun u c.small (some c.slot) v
      ∧ State.sameBut [.scene, .motion, .seq] (s.departed rest) u
      ∧ u.seq = { s.seq with shown := none, current := none, backward := false, skip := 0 }
      ∧ u.motion.profiles = s.motion.profiles
      ∧ State.silenced s u [5, 6, 7]
      ∧ (∀ n, n ∉ [5, 6, 7] → u.chan n = s.chan n)
      ∧ u.scene = { s.scene with slots := u.scene.slots }
      ∧ (∀ n, (u.obj n).map Obj.unbound = (s.obj n).map Obj.unbound)
      ∧ ∀ k, (∀ n ∈ [5, 6, 7], (s.chan n).slot ≠ some k) → u.obj k = s.obj k)
  ∧ ∀ (s : State) (c : Command) (rest : List Command), s.Starts c rest .slideStart →
      s.refusesIn .slideStart c rest
        [ (s.takeover.state ≠ .menuOver, .suspended),
          (s.seq.state = .stopped, .wrongState),
          (s.seq.list ≠ none ∧ s.composer.canvas ≠ none, .wrongState),
          ((∀ l, s.seq.list = some l → c.small < l.count), .range),
          ((∀ l, s.seq.list = some l → s.obj l.slotA = none ∧ s.obj l.slotB = none), .slotBusy) ]

/-- SLIDE STOP: code 0, with nothing else from STOPPED; otherwise channels 5, 6 and 7 end silently, slot A
and slot B are undefined, every value of the show is cleared, a descriptor read in flight is overtaken, and
the state is STOPPED, the list setup and the ready map kept; of a paused show the pause and its mode are
cleared and the other held channels released, row by row of R87 (R90, R151, R167; EASING under FREEZE by log
entry 15, the fields a silent end keeps by log entry 16). The first check of R151 that fails refuses the
command with its reason. -/
def Obligations.SlideStopStopsTheShow : Prop :=
  (∀ (s : State) (c : Command) (rest : List Command),
    s.Starts c rest .slideStop → s.takeover.state = .normal →
    (s.seq.state = .stopped → exec .slideStop s = .next (s.doneWith rest 0))
    ∧ (s.seq.state ≠ .stopped →
        ∃ t, exec .slideStop s = .next t
          ∧ State.sameBut [.scene, .motion, .seq, .takeover] (s.doneWith rest 0) t
          ∧ t.takeover = { s.takeover with jumpPending := false }
          ∧ t.seq = s.seq.withoutShow
          ∧ State.showStopped s t
          ∧ t.scene.mark = (s.scene.mark || decide (t.scene.order ≠ s.scene.order))))
  ∧ ∀ (s : State) (c : Command) (rest : List Command), s.Starts c rest .slideStop →
      s.refusesIn .slideStop c rest
        [ (s.takeover.state ≠ .menuOver, .suspended) ]

/-- SLIDE STEP: from the current index in SHOWING, and in CHANGING after the awaited motions have been
snapped; from the incoming index in LOADING and WAITING. The load of the next index begins with code 0, or a
step beyond the list's end raises SHOW END, END OF LIST, with code 1 (R134, R146, R147, R148). A snap ends
an awaited motion at its targets with ARRIVED, not abrupt, and gives its notice (R90; the fields that R77
does not name by log entry 16). Where SHOWING has no current index, the spec names none to step from: the step
goes from some index of the list, a free value (log entry 52). The first check of R146 that fails refuses the
command with its reason. -/
def Obligations.SlideStepLoadsTheNext : Prop :=
  (∀ (s : State) (c : Command) (rest : List Command) (l : SlideList) (back : Bool),
    s.Starts c rest .slideStep → s.takeover.state = .normal → s.seq.list = some l →
    c.direction = some back →
    let beyond (u : State) : Prop :=
      exec .slideStep s = .next
        (((u.raise (.showEnd u.seq.current true back l.base l.count) (some c.slot)).setCode 1).endStep s)
    let loads (u : State) (j : Nat) : Prop :=
      ∃ v, exec .slideStep s = .next (v.setCode 0).closed ∧ State.loadBegun u j (some c.slot) v
    let fromIndex (u : State) (i : Nat) : Prop :=
      (l.next i back = none → beyond u)
        ∧ ∀ j, l.next i back = some j →
            loads { u with seq := { u.seq with dwell := 0, backward := back, skip := 0 } } j
    let fromShown (u : State) : Prop :=
      (∀ i, u.seq.current = some i → fromIndex u i)
        ∧ (u.seq.current = none → 0 < l.count →
            ∃ i, i < l.count ∧ fromIndex { u with freeCount := u.freeCount + 1 } i)
    (s.seq.state = .showing → fromShown (s.departed rest))
    ∧ (s.seq.state = .changing → fromShown ((s.departed rest).snapAwaited (some c.slot)))
    ∧ ∀ i, s.seq.state = .loading ∨ s.seq.state = .waiting → s.seq.incoming = some i →
        (l.next i back = none → beyond (s.departed rest))
        ∧ ∀ j, l.next i back = some j →
            loads
              { s.departed rest with
                seq :=
                  { s.seq with
                    read := s.seq.read.map fun r => { r with overtaken := true }
                    backward := back, skip := 0 } } j)
  ∧ (∀ (s : State) (slot : Option Nat),
      s.snapAwaited slot =
        (let u := if s.seq.await5 = true then s.snap 5 slot else s
         if s.seq.await6 = true then u.snap 6 slot else u)
      ∧ ∀ n c, c = s.chan n →
          (c.phase = .idle → s.snap n slot = s)
          ∧ ∀ k o, c.phase ≠ .idle → c.slot = some k → s.obj k = some o →
              let u :=
                s.motionEnded n { c with s := c.travel } k (o.moveTo c.moved c.view c.e1) .arrived false
                  c.cmdSlot
              s.snap n slot = if c.owner = some .sequencer then u.notice n true slot else u)
  ∧ ∀ (s : State) (c : Command) (rest : List Command), s.Starts c rest .slideStep →
      s.refusesIn .slideStep c rest
        [ (c.direction ≠ none, .range),
          (s.takeover.state ≠ .menuOver, .suspended),
          (s.seq.state ≠ .stopped, .wrongState) ]

/-- The stepping rule: FORWARD the index after, BACKWARD the index before, and past an end the other end in
a list that loops or nothing (R134). -/
def Obligations.SteppingFollowsTheList : Prop :=
  ∀ (l : SlideList) (i : Nat), i < l.count →
    l.next i false = (if i + 1 < l.count then some (i + 1) else if l.loop then some 0 else none)
      ∧ l.next i true = (if i = 0 then (if l.loop then some (l.count - 1) else none) else some (i - 1))
      ∧ ∀ back j, l.next i back = some j → j < l.count ∧ (l.loop = true → l.next j (!back) = some i)

/-- SLIDE PAUSE holds every motion of the show in its mode, a channel in STOPPING excepted, with code 0; and
SLIDE RESUME ends the pause, releases every held motion, row by row of R87, one that an override has set
moving again among them (R88), and makes the pan request that is owed (R86, R87, R149, R150; EASING under
FREEZE, which only an edited record gives, by log entry 15). The first check of R149 or R150 that fails
refuses the command with its reason. -/
def Obligations.PauseHoldsAndResumeReleases : Prop :=
  ((∀ (s : State) (c : Command) (rest : List Command) (mode : HoldMode),
    s.Starts c rest .slidePause → s.takeover.state = .normal → c.holdMode = some mode →
    s.seq.state ≠ .stopped →
    ∃ t, exec .slidePause s = .next t ∧ State.sameBut [.seq, .motion] (s.doneWith rest 0) t
      ∧ t.seq = { s.seq with paused := true, pauseMode := some mode }
      ∧ t.motion.profiles = s.motion.profiles
      ∧ ∀ n : Fin 8,
          let ch := s.chan n
          let ofShow : Prop :=
            ch.phase ≠ .idle ∧ (ch.owner = some .sequencer
              ∨ ∃ k o, ch.slot = some k ∧ s.obj k = some o ∧ o.group = .slide)
          (¬ ofShow ∨ ch.phase = .stopping → t.chan n = ch)
          ∧ (ofShow → ch.phase = .held →
              t.chan n = { ch with hold := some mode, release := false })
          ∧ (ofShow → ch.phase ≠ .held → ch.phase ≠ .stopping → mode = .freeze →
              t.chan n = { ch with phase := .held, hold := some .freeze, release := false })
          ∧ (ofShow → ch.phase ≠ .held → ch.phase ≠ .stopping → mode ≠ .freeze →
              t.chan n =
                { ch with
                  phase := .easing, lead := if ch.phase = .easing then ch.lead else 0
                  hold := some mode, release := false }))
  ∧ ∀ (s : State) (c : Command) (rest : List Command), s.Starts c rest .slideResume →
      s.takeover.state = .normal → s.seq.state ≠ .stopped →
      (s.seq.paused = false → exec .slideResume s = .next (s.doneWith rest 0))
      ∧ (s.seq.paused = true →
          ∃ u, State.sameBut [.seq, .motion] (s.departed rest) u
            ∧ u.seq = { s.seq with paused := false, pauseMode := none }
            ∧ u.motion.profiles = s.motion.profiles
            ∧ (∀ n : Fin 8, (s.chan n).takesRelease (u.chan n))
            ∧ (s.seq.panOwed = false → exec .slideResume s = .next (u.setCode 0).closed)
            ∧ ∀ o bank, s.seq.panOwed = true → s.seq.state ∈ [.showing, .loading, .waiting] →
                s.seq.onShow = some o → s.seq.shown = some bank →
                let w : State := { u with seq := { u.seq with panOwed := false } }
                exec .slideResume s = .next
                  (((w.request
                      ⟨7, o.panProfile, s.seq.setup.slot bank, ⟨true, true, false, false, false⟩, true,
                        ⟨16 * o.panX, 16 * o.panY, 0, 0, 0⟩⟩ .sequencer).getD w).setCode 0).closed))
  ∧ (∀ (s : State) (c : Command) (rest : List Command), s.Starts c rest .slidePause →
      s.refusesIn .slidePause c rest
        [ (c.holdMode ≠ none, .range),
          (s.takeover.state ≠ .menuOver, .suspended),
          (s.seq.state ≠ .stopped, .wrongState) ])
  ∧ ∀ (s : State) (c : Command) (rest : List Command), s.Starts c rest .slideResume →
      s.refusesIn .slideResume c rest
        [ (s.takeover.state ≠ .menuOver, .suspended),
          (s.seq.state ≠ .stopped, .wrongState) ]

/-- The end of a descriptor read. In LOADING with the read not overtaken and its index still the incoming
one, a valid descriptor starts its slide in the spare slot: a CUT shows it at once in place of the old one,
a FADE starts at alpha 0 and a PUSH a canvas width aside, with a request on channel 6 and, for a PUSH over a
shown slide, one on channel 5, and the state is CHANGING; when a request fails, the channel just started is
halted and the change is a CUT. While paused or with a jump pending every change is a CUT. Channel 7 ends
silently, and the new slot stands directly above the shown one, or at the bottom of the SLIDE group. All
this holds in any takeover state, in ENTERING too. An invalid one, by the first check of R140 that fails,
raises SLIDE SKIPPED, and the next index is loaded, the slide on show stays, or the show stops, with its
SHOW END; that a stop for NO SHOWABLE SLIDE names no index even while a slide is on show is the model's
reading (log entry 21), and that a skip count beyond N goes on rising its choice (log entry 53). A read overtaken or for another index begins the load of the incoming index again,
and outside LOADING nothing but the read's end happens (R90, R139 to R143, R152, R160, R167). A change
completes as one change, the old slot undefined with the motion bound to it, with SLIDE SHOWN and the pan
requested or owed (R142, R153; the fields a silent end keeps by log entry 16). A spare slot that is still defined
is written over, and a binding of it lasts until its channel is IDLE (R67; the model's reading, log entry 49). -/
def Obligations.DescriptorReadEndStartsTheSlide : Prop :=
  (∀ (s u : State) (r : DescriptorRead) (op : FetchOp),
    s.Settled → s.bridge.busy = some (.fetch .descriptor) →
    s.bridge.fetchOf .descriptor = some op → s.seq.read = some r →
    u = { s with
      seq := { s.seq with read := none },
      bridge :=
        { s.bridge with fetch := s.bridge.fetch.filter (·.kind != .descriptor), busy := none } } →
    (s.seq.state ≠ .loading → exec .descriptorReadEnd s = .next (u.drainStep.endStep s))
    ∧ (∀ j, s.seq.state = .loading → s.seq.incoming = some j → r.overtaken = true ∨ j ≠ r.index →
        ∃ v, exec .descriptorReadEnd s = .next (v.drainStep.endStep s) ∧ State.loadBegun u j none v)
    ∧ ∀ (l : SlideList) (k : CanvasSetup) (d : Descriptor) (new : Nat),
        s.seq.state = .loading → r.overtaken = false → s.seq.incoming = some r.index →
        s.takeover.state = .normal → s.seq.list = some l → l.slotA < 48 → l.slotB < 48 →
        l.slotA ≠ l.slotB → s.composer.canvas = some k → d = descriptorOf op.data →
        d.fault s.cmdw = none → new = (if s.seq.shown = some .a then l.slotB else l.slotA) →
        ∃ t o, exec .descriptorReadEnd s = .next t
          ∧ t.obj new = some o ∧ new ∈ t.scene.order ∧ t.scene.mark = true ∧ t.seq.skip = 0
          ∧ t.takeover.jumpPending = false
          ∧ (t.seq.state = .changing ∧ t.seq.incoming = some r.index ∧ t.seq.shown = s.seq.shown
                ∧ t.seq.await6 = true ∨
              t.seq.state = .showing ∧ t.seq.current = some r.index ∧ t.seq.incoming = none
                ∧ t.seq.shown = some (if s.seq.shown = some .a then .b else .a))
          ∧ (d.kind = 1 ∨ s.seq.paused = true ∨ s.takeover.jumpPending = true →
              t.seq.state = .showing ∧ t.seq.dwell = d.dwell
                ∧ (∀ old, s.seq.shown = some old →
                    t.obj (l.slot old) = none ∧ l.slot old ∉ t.scene.order)
                ∧ o.unbound =
                    { group := .slide, visible := true
                      x := ((k.width - min k.width d.imageW) / 2 * 16 : Nat)
                      y := ((k.height - min k.height d.imageH) / 2 * 16 : Nat)
                      w := min k.width d.imageW, h := min k.height d.imageH, alpha := 255
                      clip := false, clipX0 := 0, clipY0 := 0, clipX1 := 2048, clipY1 := 2048
                      body :=
                        .slide d.image d.stride d.imageW d.imageH
                          (if d.panPresent then
                              min ((d.imageW - min k.width d.imageW) * 16) (16 * d.panStartX)
                            else (d.imageW - min k.width d.imageW) / 2 * 16)
                          (if d.panPresent then
                              min ((d.imageH - min k.height d.imageH) * 16) (16 * d.panStartY)
                            else (d.imageH - min k.height d.imageH) / 2 * 16)
                      bound := none }))
  ∧ (∀ (s : State) (r : DescriptorRead) (op : FetchOp) (l : SlideList) (k : CanvasSetup) (d : Descriptor)
      (new : Nat),
      s.Settled → s.bridge.busy = some (.fetch .descriptor) →
      s.bridge.fetchOf .descriptor = some op → s.seq.read = some r → s.seq.state = .loading →
      r.overtaken = false → s.seq.incoming = some r.index → s.seq.list = some l → l.slotA < 48 →
      l.slotB < 48 → l.slotA ≠ l.slotB → s.composer.canvas = some k → d = descriptorOf op.data →
      d.fault s.cmdw = none → new = (if s.seq.shown = some .a then l.slotB else l.slotA) →
      s.scene.orderLaw = true →
      (∀ bank, s.seq.shown = some bank →
        l.slot bank ∈ s.scene.order ∧ s.scene.inGroup .slide (l.slot bank) = true) →
      let kind : Nat := if s.seq.paused = true ∨ s.takeover.jumpPending = true then 1 else d.kind
      let centred : Int := ((k.width - min k.width d.imageW) / 2 * 16 : Nat)
      let width : Int := (16 * k.width : Nat)
      let shift : Int := if kind = 3 then width else if kind = 4 then -width else 0
      let gives (t : State) : Prop := exec .descriptorReadEnd s = .next (t.drainStep.endStep s)
      ∃ (w : State) (o : Obj),
        State.sameBut [.bridge, .scene, .motion, .seq, .takeover] s w
        ∧ w.bridge =
            { s.bridge with fetch := s.bridge.fetch.filter (·.kind != .descriptor), busy := none }
        ∧ w.seq =
            { s.seq with
              read := none, incomingDesc := some (op.data.take 32), skip := 0, panOwed := false }
        ∧ w.takeover = { s.takeover with jumpPending := false }
        ∧ w.obj new = some o ∧ o.x = centred + shift ∧ o.alpha = (if kind = 2 then 0 else 255)
        ∧ o.body.code = 3 ∧ o.group = .slide ∧ o.visible = true
        ∧ o.bound =
            (if (s.chan 7).phase ≠ .idle ∧ (s.chan 7).slot = some new then none
              else (s.obj new).bind (·.bound))
        ∧ (∀ n, n ≠ new → (w.obj n).map Obj.unbound = (s.obj n).map Obj.unbound)
        ∧ (∀ n, n ≠ new → (s.chan 7).slot ≠ some n → w.obj n = s.obj n)
        ∧ (s.seq.shown = none → w.scene.order = new :: s.scene.order.filter (· ≠ new))
        ∧ (∀ bank, s.seq.shown = some bank →
            ∃ front back, s.scene.order.filter (· ≠ new) = front ++ l.slot bank :: back
              ∧ w.scene.order = front ++ l.slot bank :: new :: back)
        ∧ w.scene.mark = true ∧ w.scene.palettes = s.scene.palettes ∧ w.scene.load = s.scene.load
        ∧ State.silenced s w [7] ∧ (∀ n, n ≠ 7 → w.chan n = s.chan n)
        ∧ w.motion.profiles = s.motion.profiles
        ∧ (let alone : Moved := ⟨true, false, false, false, false⟩
          let enter : MotionRequest :=
            if kind = 2 then
              ⟨6, d.profile, new, ⟨false, false, false, false, true⟩, false, ⟨0, 0, 0, 0, 255⟩⟩
            else ⟨6, d.profile, new, alone, false, ⟨centred, 0, 0, 0, 0⟩⟩
          let leave (old : Nat) (x : Int) : MotionRequest :=
            ⟨5, d.profile, old, alone, false, ⟨x - shift, 0, 0, 0, 0⟩⟩
          let changes (u : State) (both : Bool) : Prop :=
            gives { u with seq := { u.seq with state := .changing, await6 := true, await5 := both } }
          let cuts (u : State) : Prop :=
            gives
              (State.changeComplete
                (u.onScene fun sc => sc.modify new fun o => { o with alpha := 255, x := centred })
                1 false none)
          (kind = 1 → gives (w.changeComplete 1 false none))
          ∧ (kind ≠ 1 →
              (w.request enter .sequencer = none → cuts w)
              ∧ ∀ u, w.request enter .sequencer = some u →
                  (kind = 2 ∨ s.seq.shown = none → changes u false)
                  ∧ ∀ bank old, kind ≠ 2 → s.seq.shown = some bank → s.obj (l.slot bank) = some old →
                      (∀ v, u.request (leave (l.slot bank) old.x) .sequencer = some v → changes v true)
                      ∧ (u.request (leave (l.slot bank) old.x) .sequencer = none →
                          cuts (u.silentHalt 6)))))
  ∧ (∀ (s : State) (r : DescriptorRead) (op : FetchOp) (l : SlideList) (d : Descriptor) (reason : SkipReason),
      s.Settled → s.bridge.busy = some (.fetch .descriptor) →
      s.bridge.fetchOf .descriptor = some op → s.seq.read = some r →
      s.seq.state = .loading → r.overtaken = false → s.seq.incoming = some r.index →
      s.seq.list = some l → d = descriptorOf op.data → d.fault s.cmdw = some reason →
      let skip := s.seq.skip + 1
      let u : State :=
        State.raise
          { s with
            seq := { s.seq with read := none, skip := skip },
            bridge :=
              { s.bridge with fetch := s.bridge.fetch.filter (·.kind != .descriptor), busy := none } }
          (.slideSkipped r.index reason (l.base + 64 * r.index) skip) none
      let gives (t : State) : Prop := exec .descriptorReadEnd s = .next (t.drainStep.endStep s)
      let stops : Prop := gives (u.stopShow.raise (.showEnd none false false l.base l.count) none)
      (skip = l.count → stops)
      ∧ (skip ≠ l.count →
          (∀ j, l.next r.index s.seq.backward = some j → ∃ v, gives v ∧ State.loadBegun u j none v)
          ∧ (l.next r.index s.seq.backward = none →
              (s.seq.shown = none → stops)
              ∧ (s.seq.shown ≠ none →
                  gives
                    (State.raise
                      { u with
                        seq := { u.seq with state := .showing, incoming := none, dwell := 0 },
                        takeover := { s.takeover with jumpPending := false } }
                      (.showEnd s.seq.current true s.seq.backward l.base l.count) none)))))
  ∧ (∀ (d : Descriptor) (cmdw : Nat),
      d.fault cmdw =
        if ¬ (1 ≤ d.imageW ∧ d.imageW ≤ 4096 ∧ 1 ≤ d.imageH ∧ d.imageH ≤ 4096) then some .size
        else if ¬ (d.stride % 4 = 0 ∧ d.imageW * 4 ≤ d.stride ∧ d.stride ≤ 16384) then some .stride
        else if ¬ (d.image % 4 = 0
            ∧ d.image + d.stride * (d.imageH - 1) + d.imageW * 4 ≤ cmdw) then some .source
        else if ¬ (1 ≤ d.kind ∧ d.kind ≤ 4) then some .kind
        else if ¬ (d.profile ≤ 7 ∧ (d.panPresent = true → d.panProfile ≤ 7)) then some .profile
        else none)
  ∧ ∀ (s : State) (kind : Nat) (snapped : Bool) (slot : Option Nat) (l : SlideList) (bytes : List Byte)
      (d : Descriptor) (i : Nat), s.seq.list = some l → s.seq.incoming = some i →
      s.seq.incomingDesc = some bytes → d = descriptorOf bytes →
      let bank : Bank := if s.seq.shown = some .a then .b else .a
      ∃ u v : State, State.sameBut [.scene, .motion] s u
        ∧ (s.seq.shown = none → u = s)
        ∧ (∀ old, s.seq.shown = some old →
            u.obj (l.slot old) = none
            ∧ u.scene.order = s.scene.order.filter (· ≠ l.slot old)
            ∧ u.scene.mark = (s.scene.mark || decide (u.scene.order ≠ s.scene.order))
            ∧ u.scene.palettes = s.scene.palettes ∧ u.scene.load = s.scene.load
            ∧ u.motion.profiles = s.motion.profiles
            ∧ (∀ n, n ≠ l.slot old → (u.obj n).map Obj.unbound = (s.obj n).map Obj.unbound
                ∧ ((∀ m o, s.obj (l.slot old) = some o → o.bound = some m → (s.chan m).slot ≠ some n) →
                    u.obj n = s.obj n))
            ∧ (∀ n, (∀ o, s.obj (l.slot old) = some o → o.bound ≠ some n) → u.chan n = s.chan n)
            ∧ ∀ n o, s.obj (l.slot old) = some o → o.bound = some n → State.silenced s u [n])
        ∧ v =
            State.raise
              { u with
                seq :=
                  { s.seq with
                    shown := some bank, current := some i, incoming := none, incomingDesc := none
                    await5 := false, await6 := false
                    onShow := some ⟨d.dwell, d.panPresent, d.panProfile, d.panEndX, d.panEndY⟩
                    dwell := d.dwell, state := .showing } }
              (.slideShown i kind (decide (s.seq.shown = none)) snapped (l.base + 64 * i) (l.slot bank))
              slot
        ∧ (d.panPresent = false → s.changeComplete kind snapped slot = v)
        ∧ (d.panPresent = true → s.seq.paused = true →
            s.changeComplete kind snapped slot = { v with seq := { v.seq with panOwed := true } })
        ∧ (d.panPresent = true → s.seq.paused = false →
            s.changeComplete kind snapped slot =
              (v.request
                ⟨7, d.panProfile, l.slot bank, ⟨true, true, false, false, false⟩, true,
                  ⟨16 * d.panEndX, 16 * d.panEndY, 0, 0, 0⟩⟩ .sequencer).getD v)

/-! ## Takeover and resume -/

/-- A request of TKRQ or of TAKEOVER: accepted in NORMAL, held in ENTERING, MENU-OVER and LEAVING, a
recovery in LOCKOUT. The line makes a request at an edge that the edge selection names, the command goes
into service or completes with code 1 (R157 to R160, R170; the order of the slots and channels saved by log
entry 24; that a recovery leaves was-CHANGING, paused and the pause mode clear is the model's reading, log
entry 35; the fields that the silent ends of a recovery keep by log entry 16; that a recovery which ends at
the start of its TAKEOVER is followed in a run, log entry 1). -/
def Obligations.RequestsEnterHoldOrRecover : Prop :=
  (∀ (level : Bool) (s u : State), s.Settled → u = { s with takeover := { s.takeover with level := level } } →
    let named : Prop :=
      level ≠ s.takeover.level ∧ (s.takeover.edge = .both
        ∨ (s.takeover.edge = .rising ∧ level = true) ∨ (s.takeover.edge = .falling ∧ level = false))
    (¬ named → exec (.tkrqEdge level) s = .next u.closed)
    ∧ (named → s.takeover.state = .normal →
        ∃ t, exec (.tkrqEdge level) s = .next (t.endStep s) ∧ State.enters u .line t)
    ∧ (named → s.takeover.state ∈ [.entering, .menuOver, .leaving] →
        exec (.tkrqEdge level) s = .next
          (State.endStep { u with takeover := { u.takeover with held := true } } s))
    ∧ (named → s.takeover.state = .lockout →
        ∃ t, exec (.tkrqEdge level) s = .next (t.endStep s) ∧ State.recovers u .line t))
  ∧ ∀ (s u : State) (c : Command) (rest : List Command), s.Starts c rest .takeover →
      u = (s.departed rest).serve c.slot .takeover →
      (s.takeover.state = .normal →
        ∃ t, exec .takeover s = .next t.closed ∧ State.enters u .command t)
      ∧ (s.takeover.state = .menuOver →
          exec .takeover s = .next
            { s.doneWith rest 1 with takeover := { s.takeover with held := true } })
      ∧ (s.takeover.state = .lockout →
          ∃ t, State.recovers u .command t
            ∧ ((s.composer.comp ≠ none ∨ s.composer.canvas ≠ none) → exec .takeover s = .next t.closed)
            ∧ (s.composer.comp = none → s.composer.canvas = none →
                exec .takeover s = .next
                  (State.closed { t with intake := { t.intake with inRun := true } })))

/-- RESUME in MENU-OVER goes into service: the page is closed, every motion ends silently, every MENU-group
slot is undefined and leaves the order, every SLIDE-group slot keeps its record, the mark is set when the
order was not empty, and RESTORE begins (R165). A silent end frees the channel and the binding of its object
and writes nothing else (R77, R90; the fields a silent end keeps by log entry 16). The first check of R165
that fails refuses the command with its reason. -/
def Obligations.ResumeClosesTheScene : Prop :=
  (∀ (s : State) (c : Command) (rest : List Command), s.Starts c rest .resume →
    s.takeover.state = .menuOver →
    ∃ t, exec .resume s = .next t
      ∧ State.sameBut [.nav, .scene, .motion, .takeover] (s.servedWith rest c.slot .resume) t
      ∧ t.takeover =
          { s.takeover with state := .leaving, phase := some .restore, job := .restore 0 [] }
      ∧ (s.nav.page = none → t.nav = s.nav)
      ∧ (s.nav.page ≠ none → t.nav = { s.nav with page := none, focus := none, stack := [] })
      ∧ t.motion.profiles = s.motion.profiles
      ∧ State.silenced s t (List.range 8)
      ∧ (∀ n o, t.obj n = some o → o.group = .slide)
      ∧ (let hidden (n : Nat) : Prop :=
          ∃ p, s.nav.page = some p ∧ (n = p.highlight ∨ s.nav.focus.bind p.focusSlot = some n)
        ∀ n o, s.obj n = some o → o.group = .slide →
          ∃ o', t.obj n = some o' ∧ o'.unbound = { o.unbound with visible := o'.visible }
            ∧ (hidden n → o'.visible = false) ∧ (¬ hidden n → o'.visible = o.visible)
            ∧ ((∀ m, (s.chan m).slot ≠ some n) → o'.bound = o.bound))
      ∧ t.scene.order = s.scene.order.filter (fun n => !s.scene.inGroup .menu n)
      ∧ t.scene.mark = (s.scene.mark || decide (s.scene.order ≠ []))
      ∧ t.scene.load = s.scene.load
      ∧ t.scene.palettes = s.scene.palettes)
  ∧ (∀ (s : State) (n : Nat) (c : Channel), c = s.chan n →
      (c.phase = .idle → s.silentHalt n = s)
      ∧ (c.phase ≠ .idle →
          let u : State :=
            { s with
              motion :=
                s.motion.putChannel n
                  { c with phase := .idle, owner := none, slot := none, hold := none, release := false } }
          (c.slot = none → s.silentHalt n = u)
          ∧ ∀ k, c.slot = some k →
              (s.obj k = none → s.silentHalt n = u)
              ∧ ∀ o, s.obj k = some o →
                  s.silentHalt n =
                    { u with
                      scene :=
                        { s.scene with
                          slots := s.scene.slots.setIfInBounds k (some { o with bound := none }) } }))
  ∧ ∀ (s : State) (c : Command) (rest : List Command), s.Starts c rest .resume →
      s.refusesIn .resume c rest
        [ (s.takeover.state = .menuOver, .wrongState) ]

/-- The ends of SAVE and COPY. After the last SAVE burst the saved channels end silently (R90; log entry 16)
and every other stands unless a saved object is bound to it, the saved slots are undefined, the mark is set
when one was placed, no event is raised, the Sequencer is SUSPENDED, and COPY begins, or while the Composer
is DISABLED ends at its start; at the end of COPY the state is MENU-OVER, the mark is set, TAKEOVER ENTERED
is raised, and a TAKEOVER in service completes with code 0 (R162, R163, R171).
A SAVE burst writes its words and no other byte; the bursts carry the record in ascending address order, the
fixed part, the object entries and the channel entries, one burst for each 32-byte block (R161, R184). A
COPY burst reads a block of the source, and the next one writes it to the backdrop (R163). That a burst has its
whole effect at its grant is the model's choice (log entry 10). -/
def Obligations.SaveAndCopyEndInMenuOver : Prop :=
  ((∀ (s : State) (k : CanvasSetup) (bursts : List (Nat × List Word)) (slots channels : List Nat),
    s.Settled → s.bridge.busy = some .save → s.takeover.job = .save bursts slots channels →
    s.composer.canvas = some k →
    ∃ t, exec .saveEnd s = .next (t.endStep s)
      ∧ State.sameBut [.bridge, .scene, .motion, .seq, .takeover] s t
      ∧ t.bridge = { s.bridge with busy := none }
      ∧ t.seq = { s.seq with state := .suspended }
      ∧ State.copyBegun s t k
      ∧ t.takeover = { s.takeover with phase := some .copy, job := t.takeover.job }
      ∧ State.silenced s t channels
      ∧ (∀ n, n ∉ channels → (∀ k ∈ slots, ∀ o, s.obj k = some o → o.bound ≠ some n) →
          t.chan n = s.chan n)
      ∧ t.motion.profiles = s.motion.profiles
      ∧ t.scene.palettes = s.scene.palettes ∧ t.scene.load = s.scene.load
      ∧ (∀ n ∈ slots, t.obj n = none)
      ∧ (∀ n, n ∉ slots → (t.obj n).map Obj.unbound = (s.obj n).map Obj.unbound)
      ∧ (∀ n, n ∉ slots →
          (∀ m, (m ∈ channels ∨ ∃ k ∈ slots, ∃ o, s.obj k = some o ∧ o.bound = some m) →
            (s.chan m).slot ≠ some n) →
          t.obj n = s.obj n)
      ∧ (t.scene.order = s.scene.order.filter fun n => !slots.contains n)
      ∧ t.scene.mark = (s.scene.mark || slots.any fun n => s.scene.order.contains n))
  ∧ (∀ (s : State) (f : EntryFacts) (bursts : List (Nat × List Word)) (slots channels : List Nat),
    s.Settled → s.bridge.busy = some .save → s.takeover.job = .save bursts slots channels →
    s.composer.canvas = none → s.takeover.facts = some f →
    ∃ u : State, State.sameBut [.bridge, .scene, .motion, .seq, .takeover] s u
      ∧ u.bridge = { s.bridge with busy := none } ∧ u.seq = { s.seq with state := .suspended }
      ∧ u.takeover = { s.takeover with state := .menuOver, phase := none, job := .none }
      ∧ State.silenced s u channels
      ∧ (∀ n, n ∉ channels → (∀ k ∈ slots, ∀ o, s.obj k = some o → o.bound ≠ some n) →
          u.chan n = s.chan n)
      ∧ u.motion.profiles = s.motion.profiles
      ∧ u.scene.palettes = s.scene.palettes ∧ u.scene.load = s.scene.load
      ∧ u.scene.mark = true ∧ (∀ n ∈ slots, u.obj n = none)
      ∧ (∀ n, n ∉ slots → (u.obj n).map Obj.unbound = (s.obj n).map Obj.unbound)
      ∧ (∀ n, n ∉ slots →
          (∀ m, (m ∈ channels ∨ ∃ k ∈ slots, ∃ o, s.obj k = some o ∧ o.bound = some m) →
            (s.chan m).slot ≠ some n) →
          u.obj n = s.obj n)
      ∧ (u.scene.order = s.scene.order.filter fun n => !slots.contains n)
      ∧ (let counts := if f.recovered then (0, 0) else s.takeover.savedCounts
        let entered : Event :=
          .takeoverEntered f.source f.recovered f.wasChanging f.paused s.takeover.saveBase counts.1 counts.2
        (∀ slot, s.intake.inService = some ⟨slot, .takeover⟩ →
          exec .saveEnd s = .next (((u.raise entered (some slot)).complete 0).endStep s))
        ∧ ((∀ slot, s.intake.inService ≠ some ⟨slot, .takeover⟩) →
            exec .saveEnd s = .next
              (State.endStep
                { u.raise entered none with intake := { s.intake with inRun := false } } s))))
  ∧ ∀ (s u : State) (f : EntryFacts), s.Settled → s.bridge.busy = some .copy → s.takeover.facts = some f →
      u = { s with
        bridge := { s.bridge with busy := none },
        takeover := { s.takeover with state := .menuOver, phase := none, job := .none },
        scene := { s.scene with mark := true } } →
      let counts := if f.recovered then (0, 0) else s.takeover.savedCounts
      let entered : Event :=
        .takeoverEntered f.source f.recovered f.wasChanging f.paused s.takeover.saveBase counts.1 counts.2
      (∀ slot, s.intake.inService = some ⟨slot, .takeover⟩ →
        exec .copyEnd s = .next (((u.raise entered (some slot)).complete 0).endStep s))
      ∧ ((∀ slot, s.intake.inService ≠ some ⟨slot, .takeover⟩) →
          exec .copyEnd s = .next
            (State.endStep { u.raise entered none with intake := { s.intake with inRun := false } } s)))
  ∧ (∀ (s : State) (addr : Nat) (words : List Word) (more : List (Nat × List Word))
      (slots channels : List Nat), s.takeover.job = .save ((addr, words) :: more) slots channels →
      words.length ≤ 8 → 32 ≤ s.bridge.memSize → s.memoryLaw = true →
      let t := s.grantTakeover
      State.sameBut [.mem, .bridge, .takeover] s t
      ∧ t.takeover = { s.takeover with job := .save more slots channels }
      ∧ t.bridge = { s.bridge with busy := if more = [] then some .save else s.bridge.busy }
      ∧ (∀ k w, words[k]? = some w → t.readWord (addr + 4 * k) = w)
      ∧ ∀ x, (∀ i, i < 4 * words.length → x % s.bridge.memSize ≠ (addr + i) % s.bridge.memSize) →
          t.readByte x = s.readByte x)
  ∧ (∀ (s : State) (facts : EntryFacts) (slots channels : List Nat), s.takeover.saveBase % 32 = 0 →
      let placed (a : Nat) (bytes : List Byte) : List (Nat × Word) :=
        (bytesToWords bytes).zipIdx.map fun (w, i) => (a + 4 * i, w)
      let base := s.takeover.saveBase
      let bursts := s.saveBursts facts slots channels
      (bursts.flatMap fun (a, ws) => ws.zipIdx.map fun (w, i) => (a + 4 * i, w))
          = placed base (s.saveFixed facts slots.length channels.length)
            ++ placed (base + 96)
                (slots.flatMap fun n =>
                  ((s.obj n).map (objectEntry n (s.scene.slidePosition n))).getD [])
            ++ placed (base + 2400) (channels.flatMap fun n => channelEntry n (s.chan n))
      ∧ ∀ b ∈ bursts, 1 ≤ b.2.length ∧ b.2.length ≤ 8
          ∧ (b.1 + 4 * (b.2.length - 1)) / 32 = b.1 / 32 ∧ b.1 % 32 = 0)
  ∧ ∀ (s : State) (src dst total next : Nat),
      (s.takeover.job = .copy src dst total next none →
        s.grantTakeover =
          { s with takeover :=
            { s.takeover with job := .copy src dst total next (some (s.readWords (src + 32 * next) 8)) } })
      ∧ ∀ words, s.takeover.job = .copy src dst total next (some words) → words.length = 8 →
          32 ≤ s.bridge.memSize → s.memoryLaw = true →
          let t := s.grantTakeover
          State.sameBut [.mem, .bridge, .takeover] s t
          ∧ t.takeover = { s.takeover with job := .copy src dst total (next + 1) none }
          ∧ t.bridge =
              { s.bridge with busy := if total ≤ next + 1 then some .copy else s.bridge.busy }
          ∧ (∀ k w, words[k]? = some w → t.readWord (dst + 32 * next + 4 * k) = w)
          ∧ ∀ x, (∀ i, i < 32 → x % s.bridge.memSize ≠ (dst + 32 * next + i) % s.bridge.memSize) →
              t.readByte x = s.readByte x

/-- The last RESTORE burst has ended. A record that fails a check of R166 locks the machine out: LOCKOUT
with its reason, no held request, RESUME completed with code 3, nothing installed (R166, R169). A record
that passes is installed: the objects, the order, the channels and the sequencer context with its dwell; in
CHANGING the awaited channels are rewound for REDO or snapped for FINISH; a jump index that acts begins its
load with jump pending. TAKEOVER LEFT shows the state after all that (R167, R168, R171; log entry 20),
RESUME completes with code 0, and the save base moves to the record's next base here and at the Bridge. The
state is then NORMAL and the Sequencer takes up its load, or for a held request ENTERING again (R168; jump
pending by log entry 36). What a rewind does is R91's, a HELD channel staying as it is (log entry 30) and an
EASING one keeping its Vtop (log entry 37). Fields the record does not flag follow log entries 27, 38 and
44. A RESTORE burst reads the next words of the record: the fixed part, and then the entries that its counts
call for (R166, R184). -/
def Obligations.RestoreInstallsOrLocksOut : Prop :=
  (∀ (s : State) (granted : Nat) (bytes : List Byte) (r : SaveRecord),
    s.Settled → s.bridge.busy = some .restore → s.takeover.job = .restore granted bytes →
    s.takeover.state = .leaving → r = saveRecordOf bytes →
    (∀ reason detail, s.recordFault r = some (reason, detail) →
      exec .restoreReadEnd s = .next
        (((State.raise
          { s with
            bridge := { s.bridge with busy := none },
            takeover :=
              { s.takeover with
                state := .lockout, phase := none, lockReason := some reason, held := false
                job := .none } }
          (.lockout reason s.takeover.saveBase detail) s.serviceSlot).complete 3).endStep s))
    ∧ (s.recordFault r = none →
        ∃ t, exec .restoreReadEnd s = .next t
          ∧ State.sameBut [.bridge, .intake, .scene, .motion, .seq, .takeover, .events] s t
          ∧ t.intake = { s.intake with inService := none, code := 0, inRun := false }
          ∧ t.takeover.saveBase = r.nextBase ∧ t.bridge.window.saveBase = r.nextBase
          ∧ t.takeover.held = false
          ∧ (s.takeover.held = false → t.takeover.state = .normal ∧ t.takeover.phase = none)
          ∧ (s.takeover.held = true → t.takeover.state = .entering)
          ∧ t.scene.mark = true ∧ t.seq.list = s.seq.list ∧ t.seq.ready = s.seq.ready
          ∧ (r.state ≠ some .changing →
              (∀ j, r.jump = some j → s.seq.setup.count ≤ j ∨ r.state = some .stopped) →
              (∀ e ∈ r.objects, t.obj e.slot = some e.obj)
              ∧ (∀ e ∈ r.channels, t.chan e.channel = e.chan)
              ∧ (∀ n, n ∉ r.objects.map (·.slot) → t.obj n = s.obj n)
              ∧ (∀ n, n ∉ r.channels.map (·.channel) → t.chan n = s.chan n)
              ∧ (∃ front, t.scene.order
                    = front ++ s.scene.order.filter (fun n => !(r.objects.map (·.slot)).contains n)
                  ∧ front.Nodup
                  ∧ (∀ n, n ∈ front ↔ ∃ e ∈ r.objects, e.slot = n ∧ e.position ≠ none)
                  ∧ ∀ e ∈ r.objects, ∀ e' ∈ r.objects, ∀ p p', e.position = some p →
                      e'.position = some p' → p < p' → [e.slot, e'.slot].Sublist front)
              ∧ t.seq.current = r.current ∧ some t.seq.shown = r.shown
              ∧ (r.state ≠ some .loading → r.state ≠ some .waiting → some t.seq.state = r.state))
          ∧ ∀ j, r.jump = some j → j < s.seq.setup.count → r.state ≠ some .stopped →
              t.seq.incoming = some j ∧ (s.takeover.held = false → t.takeover.jumpPending = true)))
  ∧ (∀ (s : State) (granted : Nat) (bytes : List Byte) (r : SaveRecord),
      s.Settled → s.bridge.busy = some .restore → s.takeover.job = .restore granted bytes →
      s.takeover.state = .leaving → r = saveRecordOf bytes → s.recordFault r = none →
      let slot := s.serviceSlot
      let base := r.nextBase
      let changing : Bool := decide (r.state = some .changing)
      let flag (code : Nat) : Bool := decide (byteAt r.bytes 13 = code)
      let jump : Option Nat :=
        r.jump.filter fun j => decide (j < s.seq.setup.count ∧ r.state ≠ some .stopped)
      ∃ a b c e : State,
        State.recordInstalled { s with bridge := { s.bridge with busy := none } } r a
        ∧ b = (if changing = false then a else if flag 1 then a.rewindAwaited else a.snapAwaited slot)
        ∧ (jump = none → c = b)
        ∧ (∀ j, jump = some j →
            let d := if b.seq.state = .changing then b.snapAwaited slot else b
            ∃ v, State.loadBegun { d with seq := { d.seq with dwell := 0, backward := false, skip := 0 } } j
                slot v
              ∧ c = { v with takeover := { v.takeover with jumpPending := true } })
        ∧ e =
            (State.raise
              { c with
                takeover := { c.takeover with saveBase := base, phase := none, job := .none }
                bridge := { c.bridge with window := { c.bridge.window with saveBase := base } } }
              (.takeoverLeft c.seq.state (decide (base ≠ s.takeover.saveBase)) (changing && flag 1)
                (changing && flag 0) jump.isSome s.takeover.held base c.seq.current) slot).complete 0
        ∧ (s.takeover.held = true →
            ∃ t, exec .restoreReadEnd s = .next (t.endStep s)
              ∧ State.enters { e with takeover := { e.takeover with held := false } } .held t)
        ∧ (s.takeover.held = false →
            let f : State := { e with takeover := { e.takeover with state := .normal } }
            let takesUp (i : Nat) : Prop :=
              f.seq.incoming = some i
                ∧ (f.seq.state = .loading ∧ f.seq.read = none
                  ∨ f.seq.state = .waiting ∧ f.seq.readyAt i = true)
            (∀ i, takesUp i →
              ∃ t, exec .restoreReadEnd s = .next (t.endStep s) ∧ State.loadBegun f i none t)
            ∧ ((∀ i, ¬ takesUp i) → exec .restoreReadEnd s = .next (f.endStep s))))
  ∧ (∀ s : State,
      s.rewindAwaited =
        (let u := if s.seq.await5 = true then s.rewind 5 else s
         if s.seq.await6 = true then u.rewind 6 else u))
  ∧ (∀ (s : State) (n : Nat) (c : Channel), n < 8 → c = s.chan n →
      (c.phase = .idle ∨ c.phase = .held → s.rewind n = s)
      ∧ ∀ k o, c.slot = some k → s.obj k = some o →
          let moved := o.moveTo c.moved c.view c.e0
          let rewinds (r : Channel) : Prop :=
            s.rewind n =
              { s with
                scene :=
                  { s.scene with
                    slots := s.scene.slots.setIfInBounds k (some moved)
                    mark := s.scene.mark || (decide (moved ≠ o) && s.scene.placed k) }
                motion := s.motion.putChannel n r }
          let full := peakSearch c.prof c.prof.vs c.prof.lead c.travel
          let freed := peakSearch c.prof c.prof.vs 0 c.travel
          (c.phase ∈ [.lead, .accel, .cruise, .slow, .decel, .creep, .stopping] →
            rewinds
              { c with
                s := 0, v := c.prof.vs, lead := c.prof.lead, vtop := full
                phase :=
                  if 0 < c.prof.lead then .lead else if c.prof.vs < full then .accel else .cruise })
          ∧ (c.phase = .easing → c.release = false →
              rewinds { c with s := 0, v := c.prof.vs, lead := 0, phase := .held })
          ∧ (c.phase = .easing → c.release = true →
              rewinds
                { c with
                  s := 0, v := c.prof.vs, lead := 0, vtop := freed, hold := none, release := false
                  phase := if c.prof.vs < freed then .accel else .cruise }))
  ∧ (∀ (s : State) (granted addr n : Nat) (bytes : List Byte),
      s.takeover.job = .restore granted bytes →
      (restorePlan s.takeover.saveBase bytes)[granted]? = some (addr, n) →
      let got := bytes ++ (s.readWords addr n).flatMap wordBytes
      s.grantTakeover =
        { s with
          takeover := { s.takeover with job := .restore (granted + 1) got }
          bridge :=
            { s.bridge with
              busy :=
                if (restorePlan s.takeover.saveBase got).length ≤ granted + 1 then some .restore
                else s.bridge.busy } })
  ∧ ∀ (base : Nat) (bytes : List Byte), base % 32 = 0 →
      let words (a n : Nat) : List Nat := (List.range n).map (a + 4 * ·)
      ((restorePlan base bytes).flatMap fun (a, n) => words a n)
          = words base 24 ++
            (if bytes.length < 96 then []
              else words (base + 96) (12 * min 48 (byteAt bytes 20))
                ++ words (base + 2400) (16 * min 8 (byteAt bytes 21)))
      ∧ ∀ b ∈ restorePlan base bytes, 1 ≤ b.2 ∧ b.2 ≤ 8 ∧ (b.1 + 4 * (b.2 - 1)) / 32 = b.1 / 32

/-! ## The bus -/

/-- A controller request. Anything that is no burst of the bus is a fault; a request that finds the
controller side busy waits, and is taken when the side is READY again, the oldest first until one makes it
busy (log entry 41); in READY a read is forwarded, and a write is classified by its address: into the
command area it is a stray write, a queued command, or the held write of a full queue; into the ring it is
discarded under a guard; into the status block it is split; elsewhere it is forwarded. At the clock that
takes the hold count to 2048 the held write is forwarded and its command dropped, and before it nothing
happens (R3, R8, R10 to R13, R23, R24). The model's choices here: the fault (log entry 9), the clocks (log
entry 5), value A of STRAY WRITE and GUARD as the address modulo the memory size (log entry 10), and that a
queued command keeps the bus words of bytes that are not enabled (log entry 13). -/
def Obligations.ControllerRequestIsClassified : Prop :=
  (∀ (r : Request) (s : State), r.wf = false → exec (.controllerRequest r) s = .fault .notABurst)
  ∧ (∀ (r : Request) (s : State), r.wf = true → s.Settled → s.bridge.side ≠ .ready →
      exec (.controllerRequest r) s = .next
        (State.closed { s with bridge := { s.bridge with waiting := s.bridge.waiting ++ [r] } }))
  ∧ (∀ (r : Request) (s : State), r.wf = true → s.Settled → s.bridge.side = .ready →
      exec (.controllerRequest r) s = .next ((s.accept r).endStep s))
  ∧ (∀ (s : State) (r : Request) (rest : List Request),
      s.acceptWaiting [] = s
      ∧ (s.bridge.side = .ready →
          s.acceptWaiting (r :: rest) =
            (State.accept { s with bridge := { s.bridge with waiting := rest } } r).acceptWaiting rest)
      ∧ (s.bridge.side ≠ .ready → s.acceptWaiting (r :: rest) = s))
  ∧ (∀ (a : Word) (es : List (BitVec 4)) (s : State), (Request.read a es).wf = true → s.Settled →
      s.bridge.side = .ready →
      exec (.controllerRequest (.read a es)) s = .next
        (State.closed { s with bridge :=
          { s.bridge with side := .forwarding (.read (a.toNat % s.bridge.memSize) es) } }))
  ∧ (∀ (a : Word) (first : Lane) (more : List Lane) (s : State) (addr off : Nat),
      (Request.write a (first :: more)).wf = true → s.Settled → s.bridge.side = .ready →
      addr = a.toNat % s.bridge.memSize → off = addr - s.cmdw →
      let ls := first :: more
      let forwarded (u : State) (b : Nat) (part : List Lane) : State :=
        { u with bridge := { u.bridge with side := .forwarding (.write b part) } }
      let gives (t : State) : Prop := exec (.controllerRequest (.write a ls)) s = .next (t.endStep s)
      let guarded (area : GuardArea) (t : State) : Prop :=
        (s.events.guard = true → t = s)
        ∧ (s.events.guard = false →
            t = (s.raise (.guard area addr ls.length) none).onEvents fun e => { e with guard := true })
      let stray (reason : StrayReason) : Prop :=
        gives (forwarded (s.raise (.strayWrite reason addr ls.length) (some (off / 32))) addr ls)
      (addr < s.cmdw ∨ s.cmdw + 0xC40 ≤ addr → gives (forwarded s addr ls))
      ∧ (s.cmdw ≤ addr → addr < s.cmdw + 0x800 →
          (off % 32 ≠ 0 → stray .alignment)
          ∧ (off % 32 = 0 → first.enables ≠ 15 → stray .enables)
          ∧ (off % 32 = 0 → first.enables = 15 → headerLength first.data ≠ ls.length → stray .length)
          ∧ (off % 32 = 0 → first.enables = 15 → headerLength first.data = ls.length →
              (s.intake.queue.length < 16 →
                gives
                  (forwarded
                    { s with
                      intake :=
                        { s.intake with
                          queue := s.intake.queue ++ [⟨off / 32, ls.map (·.data)⟩],
                          inRun := s.intake.inRun && decide (s.intake.queue ≠ []) },
                      events := { s.events with statusPending := true } }
                    addr ls))
              ∧ (16 ≤ s.intake.queue.length →
                  gives { s with bridge := { s.bridge with side := .holding addr ls (off / 32) 0 } })))
      ∧ (s.cmdw + 0x800 ≤ addr → addr < s.cmdw + 0xC00 → ∃ t, gives t ∧ guarded .ring t)
      ∧ (s.cmdw + 0xC00 ≤ addr → addr < s.cmdw + 0xC40 →
          let consumer (i : Nat) (x : Lane) : Prop :=
            ls[i]? = some x ∧ off + 4 * i = 0xC04 ∧ x.enables = 15
          let others : Prop :=
            ∃ i x, ls[i]? = some x ∧ x.enables ≠ 0 ∧ ¬ (off + 4 * i = 0xC04 ∧ x.enables = 15)
          ∃ t, (others → guarded .status t) ∧ (¬ others → t = s)
            ∧ (∀ i x, consumer i x → gives (forwarded t (s.cmdw + 0xC04) [x]))
            ∧ ((∀ i x, ¬ consumer i x) → gives t)))
  ∧ ∀ (s : State) (a : Nat) (ls : List Lane) (n k : Nat), s.Settled →
      s.bridge.side = .holding a ls n k → 16 ≤ s.intake.queue.length →
      let c : Command := ⟨n, ls.map (·.data)⟩
      (k < 2047 → exec .holdLimit s = .next s.closed)
      ∧ (2047 ≤ k →
          exec .holdLimit s = .next
            (State.endStep
              { (s.raise (.intakeDrop c.kind c.header s.serviceSlot) (some n)).onEvents
                  (fun e => { e with intakeDrop := true }) with
                bridge := { s.bridge with side := .forwarding (.write a ls) } } s))

/-- The grant of the forwarded request, when it is its turn. A read returns memory's words, in the Scan
Window those of the bank of the front designation copy. A write into the Scan Window, or into the save area
outside MENU-OVER, is discarded under a guard, which is no grant and leaves the next choice to the internal
classes still waiting (log entry 46); any other stores its enabled bytes and no other, notifies the
Navigator, and at the consumer word sets C inside the span from C to P and clears the flags named, the
status-write pending flag set when C or a flag has changed; a ready byte goes to the Sequencer: its flag is
set or cleared, in LOADING the read of that index is overtaken, and in WAITING a ready incoming index begins
its load. The controller side is then READY, and the requests that wait are taken (R3, R5 to R9, R14 to R16,
R18, R129, R136, R138, R175 to R177; the requests that wait by log entry 41, that a burst has its whole effect
at its grant by log entry 10). -/
def Obligations.ForwardedGrantReadsWritesOrDiscards : Prop :=
  ∀ (s : State) (f : Forwarded), s.Settled → s.bridge.side = .forwarding f → s.bridge.busy = none →
    s.internalWaits = false ∨ (s.bridge.streak ≠ 3 ∧ s.bridge.passed = false) →
    let streak := if s.internalWaits then s.bridge.streak + 1 else 0
    let inScan (a : Nat) (w : Window) : Prop :=
      s.bridge.window.scan = some w ∧ a < s.cmdw ∧ w.base ≤ a ∧ a < w.base + w.len
    let inSave (a : Nat) : Prop :=
      a < s.cmdw ∧ s.bridge.window.saveBase ≤ a ∧ a < s.bridge.window.saveBase + 0x1000
    let inSlides (a : Nat) (w : Window) : Prop :=
      s.bridge.window.slides = some w ∧ a < s.cmdw ∧ w.base ≤ a ∧ a < w.base + w.len
    let discarded (area : GuardArea) (a n : Nat) : Prop :=
      ∃ t, exec .forwardedGrant s = .next ((t.acceptWaiting s.bridge.waiting).endStep s)
        ∧ State.sameBut [.bridge, .events] s t
        ∧ t.bridge = { s.bridge with side := .ready, passed := s.internalWaits }
        ∧ (s.events.guard = true → t.events = s.events)
        ∧ (s.events.guard = false →
            t.events = { (s.raise (.guard area a n) none).events with guard := true })
    (∀ a es, f = .read a es →
      let gives (b : Nat) : Prop :=
        exec .forwardedGrant s = .next
          ((State.acceptWaiting
            { s with bridge :=
              { s.bridge with
                side := .ready, streak := streak, passed := false, readData := s.readWords b es.length } }
            s.bridge.waiting).endStep s)
      ((∀ w, ¬ inScan a w) → gives a)
      ∧ ∀ w k, inScan a w → s.composer.canvas = some k →
          gives ((if s.bridge.window.front = .a then k.bankA else k.bankB) + (a - w.base)))
    ∧ ∀ a ls, f = .write a ls → ls.length ≤ 8 → 32 ≤ s.bridge.memSize → s.memoryLaw = true →
        (∀ w, inScan a w → discarded .scan a ls.length)
        ∧ ((∀ w, ¬ inScan a w) → inSave a → s.takeover.state ≠ .menuOver →
            discarded .save a ls.length)
        ∧ ((∀ w, ¬ inScan a w) → (inSave a → s.takeover.state = .menuOver) →
            ∃ t, exec .forwardedGrant s = .next ((t.acceptWaiting s.bridge.waiting).endStep s)
              ∧ State.sameBut [.bridge, .mem, .nav, .seq, .events] s t
              ∧ t.bridge =
                  { s.bridge with
                    side := .ready, streak := streak, passed := false, fetch := t.bridge.fetch }
              ∧ (∀ k i l, ls[k]? = some l → i < 4 →
                  t.readByte (a + 4 * k + i) =
                    if l.enables.getLsbD i then l.data.extractLsb' (8 * i) 8
                    else s.readByte (a + 4 * k + i))
              ∧ (∀ x, (∀ k i, k < ls.length → i < 4 →
                    x % s.bridge.memSize ≠ (a + 4 * k + i) % s.bridge.memSize) →
                  t.readByte x = s.readByte x)
              ∧ (let touched (page : Nat) : Prop :=
                  ∃ k i l, ls[k]? = some l ∧ i < 4 ∧ l.enables.getLsbD i = true
                    ∧ page ≤ a + 4 * k + i ∧ a + 4 * k + i < page + 784
                (∀ b, s.nav.buffer = some b →
                  (touched b.addr → t.nav.buffer = none)
                  ∧ (¬ touched b.addr → t.nav.buffer = some b))
                ∧ (∀ g, s.nav.inflight = some g →
                    (touched g.addr → t.nav.inflight = some { g with stale := true })
                    ∧ (¬ touched g.addr → t.nav.inflight = some g)))
              ∧ (s.nav.buffer = none → t.nav.buffer = none)
              ∧ (s.nav.inflight = none → t.nav.inflight = none)
              ∧ t.nav = { s.nav with buffer := t.nav.buffer, inflight := t.nav.inflight }
              ∧ ((∀ w, ¬ inSlides a w) → t.seq = s.seq ∧ t.bridge.fetch = s.bridge.fetch)
              ∧ (inSave a → t.seq = s.seq ∧ t.bridge.fetch = s.bridge.fetch)
              ∧ (∀ w l more, ¬ inSave a → inSlides a w → ls = l :: more →
                  (a - w.base) % 64 = 0 → l.enables.getLsbD 0 = true → (a - w.base) / 64 < 256 →
                  t.seq.readyAt ((a - w.base) / 64) = decide (l.data.extractLsb' 0 8 ≠ 0))
              ∧ (∀ w l more, ¬ inSave a → inSlides a w → ls = l :: more →
                  let i := (a - w.base) / 64
                  let value : Byte := l.data.extractLsb' 0 8
                  let noted : Sequencer :=
                    { s.seq with ready := s.seq.ready.setIfInBounds i (decide (value ≠ 0)) }
                  let noticed : Prop := (a - w.base) % 64 = 0 ∧ l.enables.getLsbD 0 = true
                  let overtakes (g : DescriptorRead) : Prop :=
                    s.seq.incoming = some i ∧ s.seq.state = .loading ∧ s.seq.read = some g ∧ g.index = i
                  let begins : Prop :=
                    s.seq.incoming = some i ∧ s.seq.state = .waiting ∧ value ≠ 0
                      ∧ s.takeover.state = .normal
                  (¬ noticed → t.seq = s.seq ∧ t.bridge.fetch = s.bridge.fetch)
                  ∧ (noticed →
                      (∀ g, overtakes g →
                        t.seq = { noted with read := some { g with overtaken := true } }
                          ∧ t.bridge.fetch = s.bridge.fetch)
                      ∧ (begins →
                          State.loadBegun
                            { t with
                              seq := noted, events := s.events
                              bridge := { t.bridge with fetch := s.bridge.fetch } }
                            i none t)
                      ∧ ((∀ g, ¬ overtakes g) → ¬ begins →
                          t.seq = noted ∧ t.bridge.fetch = s.bridge.fetch)))
              ∧ (a ≠ s.cmdw + 0xC04 → (∀ w, inSlides a w → (a - w.base) / 64 < 256) →
                  t.events = s.events)
              ∧ ∀ l more, ls = l :: more → a = s.cmdw + 0xC04 →
                  t.events =
                      { s.events with
                        c := t.events.c, overflow := t.events.overflow,
                        intakeDrop := t.events.intakeDrop, guard := t.events.guard,
                        statusPending := t.events.statusPending }
                    ∧ t.events.c =
                        (let i : BitVec 6 := l.data.setWidth 6
                         if l.data.getLsbD 6 = false ∧ l.data.getLsbD 7 = false
                            ∧ i - s.events.c ≤ s.events.p - s.events.c then i
                          else s.events.p)
                    ∧ t.events.overflow = (s.events.overflow && !l.data.getLsbD 8)
                    ∧ t.events.intakeDrop = (s.events.intakeDrop && !l.data.getLsbD 9)
                    ∧ t.events.guard = (s.events.guard && !l.data.getLsbD 10)
                    ∧ (t.events.statusPending = true ↔
                        s.events.statusPending = true ∨ t.events.c ≠ s.events.c
                          ∨ t.events.overflow ≠ s.events.overflow
                          ∨ t.events.intakeDrop ≠ s.events.intakeDrop
                          ∨ t.events.guard ≠ s.events.guard))

/-- The arbiter's internal grant: with the memory side free and no forwarded request, a streak of 3, or a
discard that has left the choice to the internal classes (R5; log entry 46), COMPOSE after three waits, else
EVENT, TAKEOVER, FETCH, COMPOSE in this order; the streak clears and the COMPOSE count follows. An EVENT
burst of a record stores its 16 bytes at ring slot P; a FETCH burst reads up to the end of its 32-byte block
(R17 to R20, R57, R115, R174). That a burst has its whole effect at its grant, so that the record's bytes stand
in memory while the burst is still on the memory side, is the model's choice (log entry 10). -/
def Obligations.InternalGrantFollowsPriority : Prop :=
  ∀ s : State, s.Settled → s.bridge.busy = none →
    (∀ f, s.bridge.side ≠ .forwarding f) ∨ s.bridge.streak = 3 ∨ s.bridge.passed = true →
    let ev := s.waits .event
    let tk := s.waits .takeover
    let fe := s.waits .fetch
    let co := s.waits .compose
    let count := if co then s.bridge.composeWait + 1 else 0
    let granted (u : State) (composeWait : Nat) : Prop :=
      exec .internalGrant s = .next
        (State.endStep
          { u with bridge :=
            { u.bridge with streak := 0, passed := false, composeWait := composeWait } } s)
    (ev = false → tk = false → fe = false → co = false → exec .internalGrant s = .next s.closed)
    ∧ ((co = true ∧ s.bridge.composeWait = 3) ∨ (co = true ∧ ev = false ∧ tk = false ∧ fe = false) →
      granted s.grantCompose 0)
    ∧ (ev = true → ¬ (co = true ∧ s.bridge.composeWait = 3) →
        granted s.grantEvent count
        ∧ ∀ r more, s.events.presented = some .record → s.events.records = r :: more →
            16 ≤ s.bridge.memSize → s.memoryLaw = true →
            s.grantEvent.bridge = { s.bridge with busy := some .eventRecord }
              ∧ State.sameBut [.bridge, .mem] s s.grantEvent
              ∧ (let base := s.cmdw + 0x800 + 16 * s.events.p.toNat
                (∀ k w, r.words[k]? = some w → s.grantEvent.readWord (base + 4 * k) = w)
                ∧ ∀ x, (∀ i, i < 16 → x % s.bridge.memSize ≠ (base + i) % s.bridge.memSize) →
                    s.grantEvent.readByte x = s.readByte x))
    ∧ (ev = false → tk = true → ¬ (co = true ∧ s.bridge.composeWait = 3) →
        granted s.grantTakeover count)
    ∧ (ev = false → tk = false → fe = true → ¬ (co = true ∧ s.bridge.composeWait = 3) →
        ∃ op more, s.bridge.fetch = op :: more ∧
          (let a := op.addr + 4 * op.done
           let n := min (op.words - op.done) (8 - a / 4 % 8)
           let words := s.readWords a n
           ∃ data,
            (op.kind ≠ .palette → data = op.data ++ words.flatMap wordBytes)
            ∧ (op.kind = .palette → data = op.data)
            ∧ granted
                { s with
                  bridge :=
                    { s.bridge with
                      fetch := { op with done := op.done + n, data := data } :: more
                      busy := if op.words ≤ op.done + n then some (.fetch op.kind) else none },
                  scene :=
                    { s.scene with
                      load :=
                        if op.kind = .palette then
                          s.scene.load.map fun l => { l with entries := l.entries ++ words }
                        else s.scene.load } }
                count))

/-- The Event Unit's own steps. The end of a record write takes the record off the pending set, steps P, and
sets the status-write flag, and IRQN is low just while P and C differ; a status write is presented with the
count stepped and its snapshot of the fields, which clears the flag (R174, R177 to R179; that the snapshot
carries the stepped count is log entry 40). The status write that RSTN calls for is presented before
anything else, so that it shows the reset values (R172; log entry 11). The two bursts of a status write
store the snapshot's words and no other byte, the consumer word's place left alone, and the layout of the
words is the table's (R177, R186); at a grant with nothing presented the kind that did not go last is
presented (R178); that a burst has its whole effect at its grant is the model's choice (log entry 10). The
unused bytes of the status block are 0 (R180). The 16 bytes of an event record are the layout's, with the codes
of its kind, reason and flags and its values (R173, R185). That the bits which the layouts neither list nor mark
unused are 0 is the model's choice (log entry 44): the other bits of the flags byte and of the sticky-flag byte,
and the high half of value B of TAKEOVER ENTERED. -/
def Obligations.RecordEndStepsPAndStatusIsPresented : Prop :=
  ((∀ s : State, s.Settled → s.bridge.busy = some .eventRecord →
    ∃ t, exec .eventRecordWriteEnd s = .next t
      ∧ State.sameBut [.bridge, .events] s t ∧ t.bridge = { s.bridge with busy := none }
      ∧ t.events =
          EventUnit.present
            { s.events with
              p := s.events.p + 1, records := s.events.records.tail, presented := none
              statusPending := true, lastWasRecord := true }
      ∧ (t.irqnLow = true ↔ s.events.p + 1 ≠ s.events.c))
  ∧ ∀ s : State, s.Settled →
      (s.events.presented = none → s.events.statusPending = true →
        s.events.records = [] ∨ s.events.lastWasRecord = true →
        exec .statusWrite s = .next
          { s with events :=
            { s.events with
              count := s.events.count + 1, statusPending := false
              presented := some (.statusFirst (s.status.words (s.events.count + 1))) } })
      ∧ (s.events.statusPending = false → exec .statusWrite s = .next s.closed))
  ∧ (∀ (c : Instr) (s : State), s.rstnLow = false → s.events.firstWrite = true → c ≠ .rstnAssert →
      (∀ msz level, c ≠ .rstnRelease msz level) →
      exec c s =
        exec c
          { s with events :=
            { s.events with
              count := s.events.count + 1, statusPending := false, firstWrite := false
              presented := some (.statusFirst (s.status.words (s.events.count + 1))) } })
  ∧ (∀ (s : State) (words : List Word), s.memoryLaw = true → 64 ≤ s.bridge.memSize →
      let base := s.cmdw + 0xC00
      (s.events.presented = some (.statusFirst words) → words.length = 16 →
        let t := s.grantEvent
        State.sameBut [.mem, .events] s t
        ∧ t.events = { s.events with presented := some (.statusSecond (words.drop 8)) }
        ∧ (∀ k w, k < 8 → k ≠ 1 → words[k]? = some w → t.readWord (base + 4 * k) = w)
        ∧ ∀ x, (∀ i, i < 32 → (i < 4 ∨ 8 ≤ i) →
              x % s.bridge.memSize ≠ (base + i) % s.bridge.memSize) →
            t.readByte x = s.readByte x)
      ∧ (s.events.presented = some (.statusSecond words) → words.length = 8 →
          let t := s.grantEvent
          State.sameBut [.mem, .events] s t
          ∧ t.events = { s.events with presented := none, lastWasRecord := false }
          ∧ (∀ k w, words[k]? = some w → t.readWord (base + 32 + 4 * k) = w)
          ∧ ∀ x, (∀ i, i < 32 → x % s.bridge.memSize ≠ (base + 32 + i) % s.bridge.memSize) →
              t.readByte x = s.readByte x))
  ∧ (∀ s : State, s.events.presented = none →
      (s.events.records ≠ [] → s.events.statusPending = false ∨ s.events.lastWasRecord = false →
        s.grantEvent = State.grantEvent { s with events := { s.events with presented := some .record } })
      ∧ (s.events.statusPending = true → s.events.records = [] ∨ s.events.lastWasRecord = true →
          s.grantEvent = s.presentStatus.grantEvent)
      ∧ (s.events.records = [] → s.events.statusPending = false → s.grantEvent = s))
  ∧ (∀ (s : State) (count : BitVec 16),
      let bytes := (s.status.words count).flatMap wordBytes
      let at' (off size : Nat) : Nat := fieldAt bytes off size
      let bit (b : Bool) : Nat := if b then 1 else 0
      bytes.length = 64
      ∧ at' 0x00 2 = count.toNat ∧ at' 0x08 1 = s.events.p.toNat ∧ at' 0x09 1 = s.events.c.toNat
      ∧ at' 0x0A 1 = bit s.events.overflow + 2 * bit s.events.intakeDrop + 4 * bit s.events.guard
      ∧ at' 0x0C 1 =
          (match s.takeover.state with
            | .normal => 0 | .entering => 1 | .menuOver => 2 | .leaving => 3 | .lockout => 4)
      ∧ at' 0x0D 1 = bit s.takeover.held
      ∧ at' 0x0E 1 =
          (match s.takeover.lockReason with
            | none => 0 | some .revision => 1 | some .base => 2 | some .record => 3)
      ∧ at' 0x0F 1 = bit s.composer.canvas.isSome
      ∧ at' 0x10 1 =
          (match s.seq.state with
            | .stopped => 0 | .loading => 1 | .waiting => 2 | .showing => 3 | .changing => 4
            | .suspended => 5)
      ∧ at' 0x11 1 = bit s.seq.paused ∧ at' 0x12 2 = s.seq.current.getD 0xFFFF % 2 ^ 16
      ∧ at' 0x14 4 = s.composer.frame.toNat
      ∧ at' 0x18 1 = (if s.composer.front = .a then 0 else 1)
      ∧ at' 0x19 1 = 16 - s.intake.queue.length ∧ at' 0x1A 1 = s.intake.code.val
      ∧ at' 0x1C 2 = s.composer.late % 2 ^ 16
      ∧ at' 0x20 4 = (s.nav.page.map (·.addr)).getD 0xFFFFFFFF % 2 ^ 32
      ∧ at' 0x24 1 = s.nav.focus.getD 0xFF % 2 ^ 8 ∧ at' 0x25 1 = s.nav.stack.length % 2 ^ 8
      ∧ at' 0x3C 2 = count.toNat
      ∧ at' 0x02 2 = 0 ∧ at' 0x0B 1 = 0 ∧ at' 0x1B 1 = 0 ∧ at' 0x1E 2 = 0 ∧ at' 0x3E 2 = 0
      ∧ ∀ i, 0x26 ≤ i → i < 0x3C → at' i 1 = 0)
  ∧ ∀ (stamp : BitVec 16) (slot : Option Nat),
      let bit (b : Bool) : Nat := if b then 1 else 0
      let holds (e : Event) (kind reason flags subject a b : Nat) : Prop :=
        let bytes := (EventRecord.words ⟨e, stamp, slot⟩).flatMap wordBytes
        bytes.length = 16
          ∧ fieldAt bytes 0 1 = kind ∧ fieldAt bytes 1 1 = reason % 2 ^ 8 ∧ fieldAt bytes 2 1 = flags
          ∧ fieldAt bytes 3 1 = slot.getD 0xFF % 2 ^ 8 ∧ fieldAt bytes 4 2 = subject % 2 ^ 16
          ∧ fieldAt bytes 6 2 = stamp.toNat ∧ fieldAt bytes 8 4 = a % 2 ^ 32
          ∧ fieldAt bytes 12 4 = b % 2 ^ 32
      let index (n : Option Nat) : Nat := n.getD 0xFFFF
      let value (n : Option Nat) : Nat := n.getD 0xFFFFFFFF
      let cause : Cause → Nat
        | .command => 1 | .enter => 2 | .back => 3
      (∀ kind r h w, holds (.refused kind r h w) 0x01
          (match r with
            | .unknownKind => 1 | .badLength => 2 | .range => 3 | .undefinedSlot => 4 | .slotBusy => 5
            | .channelBusy => 6 | .reserved => 7 | .boundField => 8 | .wrongState => 9 | .noPage => 10
            | .suspended => 11 | .lockout => 12 | .overlap => 13)
          0 kind h.toNat w.toNat)
      ∧ (∀ kind h n, holds (.intakeDrop kind h n) 0x02 0 0 kind h.toNat (value n))
      ∧ (∀ r a n, holds (.strayWrite r a n) 0x03
          (match r with | .alignment => 1 | .enables => 2 | .length => 3) 0 0 a n)
      ∧ (∀ g a n, holds (.guard g a n) 0x04
          (match g with | .ring => 1 | .status => 2 | .scan => 3 | .save => 4) 0 0 a n)
      ∧ (∀ subject tag n, holds (.mark subject tag n) 0x05 0 0 subject tag.toNat n)
      ∧ (∀ n r abrupt k p, holds (.motionDone n r abrupt k p) 0x06
          (match r with | .arrived => 1 | .halted => 2 | .removed => 3) (bit abrupt) n k p)
      ∧ (∀ n entered full page action,
          holds (.activated n entered full page action) 0x07 0 (bit entered + 2 * bit full) n page action)
      ∧ (∀ f page, holds (.backAtTop f page) 0x08 0 0 (index f) page 0)
      ∧ (∀ f c buffer page n,
          holds (.pageOpened f c buffer page n) 0x09 (cause c) (bit buffer) (index f) page n)
      ∧ (∀ c r page n, holds (.pageRejected c r page n) 0x0A
          (match r with
            | .format => 1 | .count => 2 | .profile => 3 | .highlight => 4 | .neighbour => 5
            | .focusSlot => 6 | .address => 7)
          0 (cause c) page n)
      ∧ (∀ i kind first snapped d k,
          holds (.slideShown i kind first snapped d k) 0x0B kind (bit first + 2 * bit snapped) i d k)
      ∧ (∀ i d n, holds (.slideLate i d n) 0x0C 0 0 i d (value n))
      ∧ (∀ i r d n, holds (.slideSkipped i r d n) 0x0D
          (match r with | .size => 1 | .stride => 2 | .source => 3 | .kind => 4 | .profile => 5) 0 i d n)
      ∧ (∀ i ends back b n,
          holds (.showEnd i ends back b n) 0x0E (if ends then 1 else 2) (bit back) (index i) b n)
      ∧ (∀ source recovered changing paused base objects channels,
          holds (.takeoverEntered source recovered changing paused base objects channels) 0x0F 0
            (bit recovered + 2 * bit changing + 4 * bit paused)
            (match source with | .line => 1 | .command => 2 | .held => 3) base (objects + 256 * channels))
      ∧ (∀ state relocated redone finished jumped again base n,
          holds (.takeoverLeft state relocated redone finished jumped again base n) 0x10 0
            (bit relocated + 2 * bit redone + 4 * bit finished + 8 * bit jumped + 16 * bit again)
            (match state with
              | .stopped => 0 | .loading => 1 | .waiting => 2 | .showing => 3 | .changing => 4
              | .suspended => 5)
            base (value n))
      ∧ ∀ r base n, holds (.lockout r base n) 0x11
          (match r with | .revision => 1 | .base => 2 | .record => 3) 0 0 base n

/-- The completion of the composition in flight sets swap-pending; a LOAD PALETTE whose entries wait
installs them, a SET CANVAS in service applies its setup, each completing with code 0; then DRAIN looks
whether it may end (R58, R95, R98, R160). It stands while a composition, a command in service other than
TAKEOVER, or a descriptor read is left, a recovery's while a composition is left; otherwise SAVE begins at
the same event, or for a recovery the stop of the show and COPY (R160, R161, R163, R170; the fields that a
silent end keeps by log entry 16, the order of the slots and channels saved by log entry 24). -/
def Obligations.CompositionCompletesAndFreesWaiters : Prop :=
  (∀ (s u : State), s.Settled → s.bridge.busy = some .composition →
    u = { s with
      bridge := { s.bridge with busy := none },
      composer := { s.composer with swapPending := true, comp := none } } →
    ((∀ l, s.scene.load = some l → l.ended = false) →
      (∀ slot k, s.intake.inService ≠ some ⟨slot, .setCanvas k⟩) →
      exec .compositionComplete s = .next (u.drainStep.endStep s))
    ∧ (∀ slot k, (∀ l, s.scene.load = some l → l.ended = false) →
        s.intake.inService = some ⟨slot, .setCanvas k⟩ →
        exec .compositionComplete s = .next
          ((State.drainStep
            { u with
              intake := { s.intake with inService := none, code := 0, inRun := false },
              composer :=
                { u.composer with canvas := some k, front := .a, swapPending := false, late := 0 },
              bridge :=
                { u.bridge with
                  window :=
                    { s.bridge.window with
                      scan := some ⟨k.scan, k.width * k.height * 4⟩, front := .a } },
              scene := { s.scene with mark := true } }).endStep s))
    ∧ ∀ l, s.scene.load = some l → l.ended = true →
        ∃ t, exec .compositionComplete s = .next (t.drainStep.endStep s)
          ∧ State.sameBut [.bridge, .composer, .scene, .intake] s t
          ∧ t.composer = u.composer ∧ t.bridge = u.bridge
          ∧ t.intake = { s.intake with inService := none, code := 0, inRun := false }
          ∧ t.scene.slots = s.scene.slots ∧ t.scene.order = s.scene.order
          ∧ t.scene.load = none ∧ t.scene.mark = true
          ∧ ∀ (q : Fin 4) (i : Fin 256),
              (t.scene.palettes[q])[i] =
                if q.val = l.palette ∧ l.first ≤ i.val ∧ i.val < l.first + l.entries.length then
                  l.entries.getD (i.val - l.first) 0
                else (s.scene.palettes[q])[i])
  ∧ ∀ s : State,
      (s.takeover.state ≠ .entering ∨ s.takeover.phase ≠ some .drain → s.drainStep = s)
      ∧ (s.composer.comp ≠ none → s.drainStep = s)
      ∧ ∀ f, s.takeover.state = .entering → s.takeover.phase = some .drain → s.takeover.facts = some f →
          (f.recovered = false →
            (s.drainWaits → s.drainStep = s) ∧ (¬ s.drainWaits → State.saveBegun s f s.drainStep))
          ∧ (f.recovered = true → s.composer.comp = none → State.recoveryCopies s f s.drainStep)

/-! ## Laws that every step keeps -/

/-- Every step keeps memory's canonical form, the bound of the event ring and its pending set (R173), the
bound of the command queue (R23), the arbiter's counters within 0..3 (R2), a held write only behind a full
queue (R12, R13, R24), and no request waiting while the controller side is READY (R3). -/
def Obligations.EveryStepKeepsTheBounds : Prop :=
  ∀ s t : State, step s = .next t →
    (s.memoryLaw = true → t.memoryLaw = true) ∧ (s.ringLaw = true → t.ringLaw = true)
      ∧ (s.queueLaw = true → t.queueLaw = true) ∧ (s.arbiterLaw = true → t.arbiterLaw = true)
      ∧ (s.holdLaw = true → t.holdLaw = true) ∧ (s.waitLaw = true → t.waitLaw = true)

/-- Every step keeps the window map in agreement with its owners: the Scan Window and the front designation
copy with the Composer, the save area with the Takeover Unit, the slide list range with the list setup
(R4). -/
def Obligations.EveryStepKeepsTheWindowMap : Prop :=
  ∀ s t : State, step s = .next t → s.windowLaw = true → t.windowLaw = true

/-- Every step keeps the law of the display order, no slot twice, only defined slots, and every SLIDE-group
entry before every MENU-group entry (R45), the law of the banks (R96, R97), and the law of the menu: the
focus names an enabled button of the open page, and the Menu Stack holds at most 8 records (R117, R124; the
record that a BACK in service has popped keeps its place, R126). -/
def Obligations.EveryStepKeepsTheOrderAndTheBanks : Prop :=
  ∀ s t : State, step s = .next t →
    (s.scene.orderLaw = true → t.scene.orderLaw = true) ∧ (s.bankLaw = true → t.bankLaw = true)
      ∧ (s.menuLaw = true → t.menuLaw = true)

/-- What SAVE writes RESTORE reads: the object entry of a valid record reads back as the record, and the
channel entry of a channel within its ranges as the channel (R161, R166, R184). The 96 bytes of the fixed part
are the layout's: format 3 with RELOCATE and REDO, both bases, the resume flags at their defaults, the entry
facts, the counts and the sequencer context, unused bytes 0 (R161, R180, R184); that the bytes of an absent
on-show record or incoming descriptor are 0 is the model's reading (log entry 24), and that the unlisted bits of
the flag bytes are 0 its choice (log entry 44). A record is judged by the
first check of R166 that fails, with value B of R184: the revision, the next base, the resume flags and
counts, the object entries, the channel entries, the bindings and the sequencer context. The model's
readings here: clip corners are tested as held (log entry 14), the ranges of endpoint values (log entry 19),
which entry is at fault for a position, slot or channel number that repeats (log entry 22), that unlisted bits
of the flag bytes and a byte 40 above 1 fail no check (log entries 44 and 38), that with no list every index
present is at fault and the skip count is to be 0 (log entry 47), and that no check looks at a command slot
(log entry 48). -/
def Obligations.SavedEntriesReadBack : Prop :=
  ((∀ (n cmdw : Nat) (pos : Option Nat) (o : Obj), n < 48 → (∀ p, pos = some p → p < 48) →
    (∀ b, o.bound = some b → b < 8) → o.valid cmdw = true → cmdw ≤ 0x10000000 →
    savedObject (objectEntry n pos o) = ⟨n, pos, o⟩)
  ∧ ∀ (n k : Nat) (owner : Owner) (c : Channel), n < 8 → k < 48 → c.slot = some k →
      c.owner = some owner → (∀ m, c.cmdSlot = some m → m < 64) →
      c.prof.inRange = true → c.lead ≤ 7 → c.vtop ≤ 4095 → c.v ≤ 4095 →
      c.s ≤ c.travel → c.travel < 2 ^ 32 →
      (∀ e, e = c.e0 ∨ e = c.e1 →
        -(2 ^ 31) ≤ e.p1 ∧ e.p1 < 2 ^ 31 ∧ -(2 ^ 31) ≤ e.p2 ∧ e.p2 < 2 ^ 31
          ∧ e.w ≤ 2048 ∧ e.h ≤ 2048 ∧ e.alpha ≤ 255) →
      savedChannel (channelEntry n c) =
        { channel := n, owner := some owner, phase := some c.phase, slot := k, hold := some c.hold
          peakCode := if c.prof.auto then 0 else 1, chan := c })
  ∧ (∀ (s : State) (facts : EntryFacts) (objects channels : Nat),
      let q := s.seq
      let bs := s.saveFixed facts objects channels
      let at' (off size : Nat) : Nat := fieldAt bs off size
      let bit (b : Bool) : Nat := if b then 1 else 0
      let mode : Option HoldMode → Nat
        | none => 0 | some .freeze => 1 | some .ease => 2 | some .firm => 3
      bs.length = 96
      ∧ at' 0 4 = 3 + 2 ^ 8 + 2 ^ 9
      ∧ at' 4 4 = s.takeover.saveBase % 2 ^ 32 ∧ at' 8 4 = s.takeover.saveBase % 2 ^ 32
      ∧ at' 12 1 = 0 ∧ at' 13 1 = 0 ∧ at' 14 2 = 0xFFFF
      ∧ at' 16 1 = (match facts.source with | .line => 1 | .command => 2 | .held => 3)
      ∧ at' 17 1 = bit facts.wasChanging + 2 * bit facts.paused ∧ at' 18 1 = mode facts.pauseMode
      ∧ at' 20 1 = objects % 2 ^ 8 ∧ at' 21 1 = channels % 2 ^ 8
      ∧ at' 24 1 =
          (match q.state with
            | .stopped => 0 | .loading => 1 | .waiting => 2 | .showing => 3 | .changing => 4
            | .suspended => 5)
      ∧ at' 25 1 = (match q.shown with | some .a => 0 | some .b => 1 | none => 0xFF)
      ∧ at' 26 1 = bit q.backward
      ∧ at' 27 1 = bit q.late + 2 * bit q.paused + 4 * bit q.panOwed
      ∧ at' 28 1 = mode q.pauseMode ∧ at' 29 1 = bit q.await5 + 2 * bit q.await6
      ∧ at' 30 2 = q.skip % 2 ^ 16 ∧ at' 32 2 = q.current.getD 0xFFFF % 2 ^ 16
      ∧ at' 34 2 = q.incoming.getD 0xFFFF % 2 ^ 16 ∧ at' 36 2 = q.dwell % 2 ^ 16
      ∧ (∀ o, q.onShow = some o →
          at' 38 2 = o.dwell % 2 ^ 16 ∧ at' 40 1 = bit o.panPresent ∧ at' 41 1 = o.panProfile % 2 ^ 8
            ∧ at' 42 2 = o.panX % 2 ^ 16 ∧ at' 44 2 = o.panY % 2 ^ 16)
      ∧ (q.onShow = none → ∀ i, 38 ≤ i → i < 46 → at' i 1 = 0)
      ∧ (∀ d, q.incomingDesc = some d → d.length = 32 → (bs.drop 48).take 32 = d)
      ∧ (q.incomingDesc = none → ∀ i, 48 ≤ i → i < 80 → at' i 1 = 0)
      ∧ ∀ i, i = 19 ∨ i = 22 ∨ i = 23 ∨ i = 46 ∨ i = 47 ∨ 80 ≤ i → i < 96 → at' i 1 = 0)
  ∧ (∀ (s : State) (r : SaveRecord),
      let bs := r.bytes
      let next := fieldAt bs 8 4
      let fits : Prop :=
        next % 0x1000 = 0 ∧ next + 0x1000 ≤ s.cmdw
          ∧ (∀ k, s.composer.canvas = some k → ∀ u ∈ k.regions, u.overlaps ⟨next, 0x1000⟩ = false)
          ∧ ∀ l, s.seq.list = some l → l.range.overlaps ⟨next, 0x1000⟩ = false
      let placed := (r.objects.filter (·.position.isSome)).length
      let objectOk (k : Nat) : Prop :=
        ∀ e, r.objects[k]? = some e → objectEntryOk s.cmdw placed (r.objects.take k) e = true
      let channelOk (k : Nat) : Prop :=
        ∀ e, r.channels[k]? = some e → channelEntryOk r (r.channels.take k) e = true
      let bindingsOk (k : Nat) : Prop := ∀ e, r.channels[k]? = some e → bindingOk s.cmdw r e = true
      let matched (k : Nat) : Prop := ∀ o, r.objects[k]? = some o → boundMatched r o = true
      let gives (reason : LockReason) (detail : Nat) : Prop := s.recordFault r = some (reason, detail)
      (byteAt bs 0 ≠ 3 → gives .revision (fieldAt bs 0 4))
      ∧ (byteAt bs 0 = 3 →
          (¬ fits → gives .base next)
          ∧ (fits →
              (1 < byteAt bs 12 ∨ 1 < byteAt bs 13 → gives .record 12)
              ∧ (byteAt bs 12 ≤ 1 → byteAt bs 13 ≤ 1 →
                  (48 < byteAt bs 20 ∨ 8 < byteAt bs 21 → gives .record 20)
                  ∧ (byteAt bs 20 ≤ 48 → byteAt bs 21 ≤ 8 →
                      (∀ k, (∀ j, j < k → objectOk j) → ¬ objectOk k → gives .record (96 + 48 * k))
                      ∧ ((∀ k, objectOk k) →
                          (∀ k, (∀ j, j < k → channelOk j) → ¬ channelOk k →
                            gives .record (2400 + 64 * k))
                          ∧ ((∀ k, channelOk k) →
                              (∀ k, (∀ j, j < k → bindingsOk j) → ¬ bindingsOk k →
                                gives .record (2400 + 64 * k))
                              ∧ ((∀ k, bindingsOk k) →
                                  (∀ k, (∀ j, j < k → matched j) → ¬ matched k →
                                    gives .record (96 + 48 * k))
                                  ∧ ((∀ k, matched k) →
                                      (sequencerOk s r = false → gives .record 24)
                                      ∧ (sequencerOk s r = true → s.recordFault r = none))))))))))
  ∧ (∀ (cmdw placed : Nat) (before : List SavedObject) (e : SavedObject),
      objectEntryOk cmdw placed before e = true ↔
        e.slot < 48 ∧ (∀ b ∈ before, b.slot ≠ e.slot) ∧ e.obj.group = .slide ∧ e.obj.valid cmdw = true
          ∧ ∀ p, e.position = some p → p < placed ∧ ∀ b ∈ before, b.position ≠ some p)
  ∧ (∀ (r : SaveRecord) (before : List SavedChannel) (e : SavedChannel),
      let c := e.chan
      let q := c.prof
      channelEntryOk r before e = true ↔
        e.channel < 8 ∧ (∀ b ∈ before, b.channel ≠ e.channel)
          ∧ (e.owner = some .command ∨ e.owner = some .sequencer)
          ∧ e.phase ≠ none ∧ e.phase ≠ some .idle
          ∧ 1 ≤ q.vs ∧ q.vs ≤ 4095 ∧ q.vs ≤ q.vp ∧ q.vp ≤ 4095 ∧ 1 ≤ q.a ∧ q.a ≤ 1023 ∧ 1 ≤ q.d
          ∧ q.d ≤ 1023 ∧ q.lead ≤ 7 ∧ e.peakCode ≤ 1
          ∧ c.moved ≠ ⟨false, false, false, false, false⟩
          ∧ (c.view = true → ∃ o, r.object e.slot = some o ∧ o.obj.body.code = 3)
          ∧ c.travel = travelOf c.e0 c.e1 ∧ c.s ≤ c.travel
          ∧ q.vs ≤ c.v ∧ c.v ≤ 4095 ∧ q.vs ≤ c.vtop ∧ c.vtop ≤ 4095 ∧ (c.phase = .lead → c.v = q.vs)
          ∧ c.lead ≤ 7 ∧ e.hold ≠ none
          ∧ (c.release = true → c.hold = some .firm ∧ c.phase = .easing)
          ∧ (∀ z, z = c.e0 ∨ z = c.e1 →
              1 ≤ z.w ∧ z.w ≤ 2048 ∧ 1 ≤ z.h ∧ z.h ≤ 2048
              ∧ (c.view = false →
                  -32768 ≤ z.p1 ∧ z.p1 ≤ 65535 ∧ -32768 ≤ z.p2 ∧ z.p2 ≤ 65535)
              ∧ (c.view = true → ∃ o, r.object e.slot = some o
                  ∧ 0 ≤ z.p1 ∧ z.p1 ≤ ((o.obj.greatest.1 - z.w) * 16 : Nat)
                  ∧ 0 ≤ z.p2 ∧ z.p2 ≤ ((o.obj.greatest.2 - z.h) * 16 : Nat)))
          ∧ (c.moved.p1 = false → c.e0.p1 = c.e1.p1) ∧ (c.moved.p2 = false → c.e0.p2 = c.e1.p2)
          ∧ (c.moved.w = false → c.e0.w = c.e1.w) ∧ (c.moved.h = false → c.e0.h = c.e1.h)
          ∧ (c.moved.alpha = false → c.e0.alpha = c.e1.alpha))
  ∧ (∀ (cmdw : Nat) (r : SaveRecord) (e : SavedChannel),
      let c := e.chan
      let between (z a b : Int) : Prop := min a b ≤ z ∧ z ≤ max a b
      bindingOk cmdw r e = true ↔
        (∃ o, r.object e.slot = some o ∧ o.obj.bound = some e.channel
          ∧ (let z := o.obj.ends c.view
            (c.moved.p1 = true → between z.p1 c.e0.p1 c.e1.p1)
              ∧ (c.moved.p2 = true → between z.p2 c.e0.p2 c.e1.p2)
              ∧ (c.moved.w = true → between z.w c.e0.w c.e1.w)
              ∧ (c.moved.h = true → between z.h c.e0.h c.e1.h)
              ∧ (c.moved.alpha = true → between z.alpha c.e0.alpha c.e1.alpha))
          ∧ (o.obj.setMoved c.moved c.view c.e0).valid cmdw = true
          ∧ (o.obj.setMoved c.moved c.view c.e1).valid cmdw = true)
        ∧ (e.owner = some .command → 5 ≤ e.channel → r.state = some .stopped))
  ∧ (∀ (r : SaveRecord) (o : SavedObject),
      boundMatched r o = true ↔
        ∀ n, o.obj.bound = some n → ∃ c, r.channel n = some c ∧ c.slot = o.slot)
  ∧ ∀ (s : State) (r : SaveRecord),
      let l := s.seq.setup
      let bs := r.bytes
      sequencerOk s r = true ↔
        ∃ state shown, r.state = some state ∧ r.shown = some shown
          ∧ (let spare := l.slot (if shown = some .a then .b else .a)
            let slide (n : Nat) : Prop := ∃ o, r.object n = some o ∧ o.obj.body.code = 3
            let ofShow (n : Nat) : Prop := ∃ c, r.channel n = some c ∧ c.owner = some .sequencer
            (state ≠ .stopped → s.seq.list ≠ none)
              ∧ (∀ i, r.current = some i → i < l.count) ∧ (∀ i, r.incoming = some i → i < l.count)
              ∧ (∀ bank, shown = some bank →
                  s.seq.list ≠ none ∧ slide (l.slot bank)
                    ∧ ∃ o, r.object (l.slot bank) = some o ∧ o.position ≠ none)
              ∧ (state = .showing → shown ≠ none ∧ r.current ≠ none)
              ∧ (state = .loading ∨ state = .waiting ∨ state = .changing → r.incoming ≠ none)
              ∧ (state = .changing →
                  slide spare ∧ (r.awaited.testBit 0 = true ∨ r.awaited.testBit 1 = true)
                    ∧ (r.awaited.testBit 0 = true → ofShow 5) ∧ (r.awaited.testBit 1 = true → ofShow 6))
              ∧ (state = .loading ∨ state = .waiting ∨ state = .showing → r.object spare = none)
              ∧ r.skip ≤ l.count ∧ byteAt bs 26 ≤ 1 ∧ holdOfCode (byteAt bs 28) ≠ none
              ∧ (∀ e ∈ r.channels, e.chan.hold ≠ none →
                  r.seqFlags.testBit 1 = true ∨ e.chan.release = true)
              ∧ ((byteAt bs 17).testBit 0 = true ↔ state = .changing))

/-! ## Pixels -/

/-- A covered pixel is blended by the effective alpha of the source pixel and the object: each colour
channel lies between source and canvas, alpha 0 leaves the canvas pixel, alpha 255 replaces its colours and
makes it opaque; and the dim of the backdrop scales its colours and keeps its alpha (R105, R106). The drawn
area is what lies in the object's rectangle, its clip and the canvas (R102); a source pixel is the word,
byte or colour of R103 and R104 as it was read; a canvas pixel is the base layer under every visible object
that covers it, in order (R101, R106). The bursts of a band are the backdrop reads, the source reads object
by object and the band writes; a read takes memory as it stands, a write stores its 8 pixels and nothing
else in the back bank, and the last write ends with the composition (R98, R101, R107, R108); that a burst has its
whole effect at its grant is the model's choice (log entry 10). -/
def Obligations.BlendAndDimFollowTheirRules : Prop :=
  ((∀ (src dst : Pixel) (o : Nat), src.a ≤ 255 → o ≤ 255 → src.r ≤ 255 → src.g ≤ 255 → src.b ≤ 255 →
    dst.a ≤ 255 → dst.r ≤ 255 → dst.g ≤ 255 → dst.b ≤ 255 →
    let a := (src.a * o + 127) / 255
    let mix (x y : Nat) : Nat := (x * a + y * (255 - a) + 127) / 255
    blend src o dst =
        ⟨min 255 (a + (dst.a * (255 - a) + 127) / 255), mix src.r dst.r, mix src.g dst.g, mix src.b dst.b⟩
      ∧ a ≤ 255
      ∧ (∀ x y, x ≤ 255 → y ≤ 255 → min x y ≤ mix x y ∧ mix x y ≤ max x y)
      ∧ (a = 0 → blend src o dst = dst)
      ∧ (a = 255 → blend src o dst = ⟨255, src.r, src.g, src.b⟩))
  ∧ ∀ (dim : Nat) (p : Pixel), dim ≤ 255 → p.r ≤ 255 → p.g ≤ 255 → p.b ≤ 255 →
      dimPixel dim p =
          ⟨p.a, (p.r * dim + 127) / 255, (p.g * dim + 127) / 255, (p.b * dim + 127) / 255⟩
        ∧ dimPixel 255 p = p ∧ dimPixel 0 p = ⟨p.a, 0, 0, 0⟩)
  ∧ (∀ (o : Obj) (k : CanvasSetup) (c r : Nat),
      let left : Int := (o.x + 8) / 16
      let top : Int := (o.y + 8) / 16
      o.covers k c r = true ↔
        left ≤ c ∧ (c : Int) < left + o.w ∧ top ≤ r ∧ (r : Int) < top + o.h
          ∧ (o.clip = true → o.clipX0 ≤ c ∧ c < o.clipX1 ∧ o.clipY0 ≤ r ∧ r < o.clipY1)
          ∧ c < k.width ∧ r < k.height)
  ∧ (∀ (palettes : Vector (Vector Word 256) 4) (reads : List SourceRead) (place : Nat) (o : Obj)
      (j i : Nat),
      let pixel := sourcePixel palettes reads place o j i
      let word (a : Nat) : Word := lookupWord reads (some place) a
      (∀ colour, o.body = .fill colour → pixel = pixelOf colour)
      ∧ (∀ (q : Fin 4) src st, o.body = .bitmap8 q src st →
          let a := src + i * st + j
          pixel =
            pixelOf
              ((palettes[q])[(((word (a - a % 4)).extractLsb' (8 * (a % 4)) 8).toFin : Fin 256)]))
      ∧ (∀ src st, o.body = .bitmap32 src st → pixel = pixelOf (word (src + i * st + j * 4)))
      ∧ ∀ src st iw ih vx vy, o.body = .slide src st iw ih vx vy →
          pixel = pixelOf (word (src + ((vy + 8) / 16 + i) * st + ((vx + 8) / 16 + j) * 4)))
  ∧ (∀ (before after : List SourceRead) (read : SourceRead) (n : Nat) (w : Word),
      read.words[n]? = some w →
      (∀ b ∈ before, b.source = read.source →
        read.addr + 4 * n < b.addr ∨ b.addr + 4 * b.words.length ≤ read.addr + 4 * n) →
      lookupWord (before ++ read :: after) read.source (read.addr + 4 * n) = w)
  ∧ (∀ (k : Composition) (palettes : Vector (Vector Word 256) 4) (c r : Nat),
      (k.dim = none → k.basePixel c r = ⟨0, 0, 0, 0⟩)
      ∧ (∀ dim, k.dim = some dim →
          k.basePixel c r =
            dimPixel dim (pixelOf (lookupWord k.reads none (k.setup.backdrop + (r * k.setup.width + c) * 4))))
      ∧ k.pixel palettes c r =
          k.copy.zipIdx.foldl
            (fun p e =>
              let o := e.1.2
              if o.visible = true ∧ o.covers k.setup c r = true then
                blend
                  (sourcePixel palettes k.reads e.2 o ((c : Int) - (o.x + 8) / 16).toNat
                    ((r : Int) - (o.y + 8) / 16).toNat)
                  o.alpha p
              else p)
            (k.basePixel c r))
  ∧ (∀ k : Composition,
      let rows : List Nat := (List.range 8).map (8 * k.band + ·)
      let columns : List Nat := (List.range (k.setup.width / 8)).map (8 * ·)
      k.bandBursts =
          (if k.dim = none then []
            else rows.flatMap fun r =>
              columns.map fun c => .read none (k.setup.backdrop + (r * k.setup.width + c) * 4) 8)
            ++ (k.copy.zipIdx.flatMap fun e => k.objectReads e.2 e.1.2)
            ++ rows.flatMap fun r => columns.map fun c => .write c r)
  ∧ (∀ (k : Composition) (place : Nat) (o : Obj),
      let area : List Nat := (List.range k.setup.width).filter fun c => (List.range 8).any fun r =>
        o.covers k.setup c (8 * k.band + r)
      let rows : List Nat := (List.range 8).filter fun r => (List.range k.setup.width).any fun c =>
        o.covers k.setup c (8 * k.band + r)
      (o.visible = false ∨ (∃ colour, o.body = .fill colour) ∨ area = [] → k.objectReads place o = [])
      ∧ ∀ first count : Nat, o.visible = true → area = (List.range count).map (first + ·) → 0 < count →
          ∃ bursts : List (List (Nat × Nat)), bursts.length = rows.length
            ∧ k.objectReads place o =
                (bursts.flatten.map fun b => ComposeBurst.read (some place) b.1 b.2)
            ∧ ∀ (n : Nat) (b : List (Nat × Nat)) (r a : Nat), bursts[n]? = some b → rows[n]? = some r →
                o.sourceAddr ((first : Int) - (o.x + 8) / 16).toNat
                  (((8 * k.band + r : Nat) : Int) - (o.y + 8) / 16).toNat = some a →
                (∀ e ∈ b, 1 ≤ e.2 ∧ e.2 ≤ 8 ∧ (e.1 + 4 * (e.2 - 1)) / 32 = e.1 / 32)
                ∧ (b.flatMap fun e => (List.range e.2).map (e.1 + 4 * ·))
                    = (List.range (((a + count * o.pixelBytes + 3) / 4 * 4 - a / 4 * 4) / 4)).map
                        (a / 4 * 4 + 4 * ·))
  ∧ ∀ (s : State) (k : Composition), s.composer.comp = some k →
      let next (u : State) (k : Composition) : State :=
        if k.granted + 1 < k.bandBursts.length then
          { u with composer := { s.composer with comp := some { k with granted := k.granted + 1 } } }
        else if k.band + 1 < k.setup.height / 8 then
          { u with composer :=
            { s.composer with comp := some { k with band := k.band + 1, granted := 0, reads := [] } } }
        else
          { u with
            composer := { s.composer with comp := some { k with granted := k.granted + 1 } }
            bridge := { s.bridge with busy := some .composition } }
      (∀ source a n, k.bandBursts[k.granted]? = some (.read source a n) →
        s.grantCompose = next s { k with reads := k.reads ++ [⟨source, a, s.readWords a n⟩] })
      ∧ ∀ c r, k.bandBursts[k.granted]? = some (.write c r) → 32 ≤ s.bridge.memSize →
          s.memoryLaw = true →
          let base := (if k.back = .a then k.setup.bankA else k.setup.bankB)
            + (r * k.setup.width + c) * 4
          ∃ u, s.grantCompose = next u k ∧ State.sameBut [.mem] s u
            ∧ (∀ i, i < 8 → pixelOf (u.readWord (base + 4 * i))
                = (let p := k.pixel s.scene.palettes (c + i) r
                   ⟨p.a % 256, p.r % 256, p.g % 256, p.b % 256⟩))
            ∧ ∀ x, (∀ i, i < 32 → x % s.bridge.memSize ≠ (base + i) % s.bridge.memSize) →
                u.readByte x = s.readByte x
end

