-- ==== Sys2Proof/Laws/Bursts.lean ====
section
/-!
SUPPORT. Bursts: what a run of words cut at 32-byte boundaries holds (00_scope, Conventions; R161, R166), and
a pixel read back from its word (R107).
-/

namespace Sys2Proof.Machine

/-- A burst has 1 to 8 words, never more than are left, and ends at the boundary unless it is the last. -/
theorem burstLength_bounds (a n : Nat) (hn : 0 < n) :
    1 ≤ burstLength a n ∧ burstLength a n ≤ 8 ∧ burstLength a n ≤ n
      ∧ burstLength a n ≤ 8 - a / 4 % 8
      ∧ (burstLength a n < n → burstLength a n = 8 - a / 4 % 8) := by
  unfold burstLength; omega

/-- No burst of a run crosses a 32-byte boundary. -/
theorem splitBursts_blocks (fuel a n : Nat) (ha : a % 4 = 0) :
    ∀ e ∈ splitBursts fuel a n, 1 ≤ e.2 ∧ e.2 ≤ 8 ∧ (e.1 + 4 * (e.2 - 1)) / 32 = e.1 / 32 := by
  induction fuel generalizing a n with
  | zero => simp [splitBursts]
  | succ f ih =>
    intro e he
    simp only [splitBursts] at he
    split at he
    · simp at he
    · have := burstLength_bounds a n (by omega)
      rcases List.mem_cons.mp he with rfl | he
      · refine ⟨this.1, this.2.1, ?_⟩; simp only; omega
      · exact ih _ _ (by omega) e he

/-- The bursts of a run hold its words, each once and in order. -/
theorem splitBursts_words (fuel a n : Nat) (h : n ≤ fuel) :
    ((splitBursts fuel a n).flatMap fun e => (List.range e.2).map (e.1 + 4 * ·))
      = (List.range n).map (a + 4 * ·) := by
  induction fuel generalizing a n with
  | zero => obtain rfl : n = 0 := by omega
            rfl
  | succ f ih =>
    simp only [splitBursts]
    split
    · subst_vars; rfl
    · have hb := burstLength_bounds a n (by omega)
      rw [List.flatMap_cons, ih _ _ (by omega)]
      generalize burstLength a n = b at hb
      obtain ⟨m, rfl⟩ : ∃ m, n = b + m := ⟨n - b, by omega⟩
      rw [List.range_add, Nat.add_sub_cancel_left, List.map_append, List.map_map]
      congr 1
      apply List.map_congr_left; intro x _; simp only [Function.comp]; omega

/-- The write bursts of a run of words hold them, each at its place and in order. -/
theorem wordBursts_words (fuel a : Nat) (ws : List Word) (h : ws.length ≤ fuel) :
    ((wordBursts fuel a ws).flatMap fun e => e.2.zipIdx.map fun (w, i) => (e.1 + 4 * i, w))
      = ws.zipIdx.map fun (w, i) => (a + 4 * i, w) := by
  induction fuel generalizing a ws with
  | zero => obtain rfl : ws = [] := List.eq_nil_of_length_eq_zero (by omega)
            rfl
  | succ f ih =>
    cases ws with
    | nil => rfl
    | cons w ws =>
      have hb := burstLength_bounds a (w :: ws).length (by simp)
      rw [show wordBursts (f + 1) a (w :: ws) =
        (a, (w :: ws).take (burstLength a (w :: ws).length))
          :: wordBursts f (a + 4 * burstLength a (w :: ws).length)
            ((w :: ws).drop (burstLength a (w :: ws).length)) from rfl]
      generalize hl : burstLength a (w :: ws).length = b at hb
      dsimp only
      rw [List.flatMap_cons, ih _ _ (by simp at hb h ⊢; omega)]
      conv_rhs => rw [← List.take_append_drop b (w :: ws), List.zipIdx_append, List.map_append]
      congr 1
      rw [List.length_take, Nat.min_eq_left hb.2.2.1, show (0 + b) = b + 0 by omega]
      generalize List.drop b (w :: ws) = l
      have e : l.zipIdx (b + 0) = l.zipIdx.map fun x => (x.1, x.2 + b) := by
        apply List.ext_getElem?
        intro i; simp [List.getElem?_zipIdx]; cases l[i]? <;> simp; omega
      rw [e, List.map_map]
      apply List.map_congr_left
      intro x _
      simp only [Function.comp]
      congr 1; omega

/-- No write burst of a run that starts at a boundary crosses one, and each starts at one. -/
theorem wordBursts_blocks (fuel a : Nat) (ws : List Word) (ha : a % 32 = 0) :
    ∀ e ∈ wordBursts fuel a ws, 1 ≤ e.2.length ∧ e.2.length ≤ 8
      ∧ (e.1 + 4 * (e.2.length - 1)) / 32 = e.1 / 32 ∧ e.1 % 32 = 0 := by
  induction fuel generalizing a ws with
  | zero => simp [wordBursts]
  | succ f ih =>
    intro e he
    cases ws with
    | nil => simp [wordBursts] at he
    | cons w ws =>
      have hb := burstLength_bounds a (w :: ws).length (by simp)
      simp only [wordBursts] at he
      generalize hl : burstLength a (w :: ws).length = b at hb he
      rcases List.mem_cons.mp he with rfl | he
      · simp only [List.length_take]; omega
      · by_cases hb2 : b < (w :: ws).length
        · exact ih _ _ (by omega) e he
        · rw [List.drop_eq_nil_of_le (by omega)] at he
          cases f <;> simp [wordBursts] at he

/-- A pixel read back from its word has its channels as bytes. -/
theorem pixelOf_word (p : Pixel) :
    pixelOf p.word = ⟨p.a % 256, p.r % 256, p.g % 256, p.b % 256⟩ := by
  obtain ⟨a, r, g, b⟩ := p
  simp only [pixelOf, Pixel.word, wordOf, bits]
  have key : ∀ (w : Word) (z : Nat), w.toNat / 2 ^ z % 2 ^ 8 = (w.extractLsb' z 8).toNat := by
    intro w z; simp [Nat.shiftRight_eq_div_pow]
  rw [key, key, key, key]
  have h4 : ∀ b0 b1 b2 b3 : Byte, (b3 ++ b2 ++ b1 ++ b0 : BitVec 32).extractLsb' 24 8 = b3
     ∧ (b3 ++ b2 ++ b1 ++ b0 : BitVec 32).extractLsb' 16 8 = b2
     ∧ (b3 ++ b2 ++ b1 ++ b0 : BitVec 32).extractLsb' 8 8 = b1
     ∧ (b3 ++ b2 ++ b1 ++ b0 : BitVec 32).extractLsb' 0 8 = b0 := by
    intro b0 b1 b2 b3
    refine ⟨?_, ?_, ?_, ?_⟩ <;>
    · apply BitVec.eq_of_getLsbD_eq
      intro i hi
      simp only [BitVec.getLsbD_extractLsb', BitVec.getLsbD_append]
      have : i = 0 ∨ i = 1 ∨ i = 2 ∨ i = 3 ∨ i = 4 ∨ i = 5 ∨ i = 6 ∨ i = 7 := by omega
      rcases this with rfl | rfl | rfl | rfl | rfl | rfl | rfl | rfl <;> simp
  obtain ⟨h1, h2, h3, h4⟩ :=
    h4 (BitVec.ofNat 8 b) (BitVec.ofNat 8 g) (BitVec.ofNat 8 r) (BitVec.ofNat 8 a)
  rw [h1, h2, h3, h4]
  simp

end Sys2Proof.Machine
end

