-- ==== Sys2Proof/Laws/State.lean ====
section
/-!
SUPPORT. The state record: one lemma per field for each lift of a block's operation, and the frame of each
shared operation that is a lift (what it leaves as it was).
-/

namespace Sys2Proof.Machine

variable (s t u : State)

/-! ## onBridge -/

@[simp] theorem State.onBridge_pending (f) : (s.onBridge f).pending = s.pending := rfl
@[simp] theorem State.onBridge_rstnLow (f) : (s.onBridge f).rstnLow = s.rstnLow := rfl
@[simp] theorem State.onBridge_freeCount (f) : (s.onBridge f).freeCount = s.freeCount := rfl
@[simp] theorem State.onBridge_mem (f) : (s.onBridge f).mem = s.mem := rfl
@[simp] theorem State.onBridge_bridge (f) : (s.onBridge f).bridge = f s.bridge := rfl
@[simp] theorem State.onBridge_intake (f) : (s.onBridge f).intake = s.intake := rfl
@[simp] theorem State.onBridge_scene (f) : (s.onBridge f).scene = s.scene := rfl
@[simp] theorem State.onBridge_motion (f) : (s.onBridge f).motion = s.motion := rfl
@[simp] theorem State.onBridge_composer (f) : (s.onBridge f).composer = s.composer := rfl
@[simp] theorem State.onBridge_nav (f) : (s.onBridge f).nav = s.nav := rfl
@[simp] theorem State.onBridge_seq (f) : (s.onBridge f).seq = s.seq := rfl
@[simp] theorem State.onBridge_takeover (f) : (s.onBridge f).takeover = s.takeover := rfl
@[simp] theorem State.onBridge_events (f) : (s.onBridge f).events = s.events := rfl

/-! ## onIntake -/

@[simp] theorem State.onIntake_pending (f) : (s.onIntake f).pending = s.pending := rfl
@[simp] theorem State.onIntake_rstnLow (f) : (s.onIntake f).rstnLow = s.rstnLow := rfl
@[simp] theorem State.onIntake_freeCount (f) : (s.onIntake f).freeCount = s.freeCount := rfl
@[simp] theorem State.onIntake_mem (f) : (s.onIntake f).mem = s.mem := rfl
@[simp] theorem State.onIntake_bridge (f) : (s.onIntake f).bridge = s.bridge := rfl
@[simp] theorem State.onIntake_intake (f) : (s.onIntake f).intake = f s.intake := rfl
@[simp] theorem State.onIntake_scene (f) : (s.onIntake f).scene = s.scene := rfl
@[simp] theorem State.onIntake_motion (f) : (s.onIntake f).motion = s.motion := rfl
@[simp] theorem State.onIntake_composer (f) : (s.onIntake f).composer = s.composer := rfl
@[simp] theorem State.onIntake_nav (f) : (s.onIntake f).nav = s.nav := rfl
@[simp] theorem State.onIntake_seq (f) : (s.onIntake f).seq = s.seq := rfl
@[simp] theorem State.onIntake_takeover (f) : (s.onIntake f).takeover = s.takeover := rfl
@[simp] theorem State.onIntake_events (f) : (s.onIntake f).events = s.events := rfl

/-! ## onScene -/

@[simp] theorem State.onScene_pending (f) : (s.onScene f).pending = s.pending := rfl
@[simp] theorem State.onScene_rstnLow (f) : (s.onScene f).rstnLow = s.rstnLow := rfl
@[simp] theorem State.onScene_freeCount (f) : (s.onScene f).freeCount = s.freeCount := rfl
@[simp] theorem State.onScene_mem (f) : (s.onScene f).mem = s.mem := rfl
@[simp] theorem State.onScene_bridge (f) : (s.onScene f).bridge = s.bridge := rfl
@[simp] theorem State.onScene_intake (f) : (s.onScene f).intake = s.intake := rfl
@[simp] theorem State.onScene_scene (f) : (s.onScene f).scene = f s.scene := rfl
@[simp] theorem State.onScene_motion (f) : (s.onScene f).motion = s.motion := rfl
@[simp] theorem State.onScene_composer (f) : (s.onScene f).composer = s.composer := rfl
@[simp] theorem State.onScene_nav (f) : (s.onScene f).nav = s.nav := rfl
@[simp] theorem State.onScene_seq (f) : (s.onScene f).seq = s.seq := rfl
@[simp] theorem State.onScene_takeover (f) : (s.onScene f).takeover = s.takeover := rfl
@[simp] theorem State.onScene_events (f) : (s.onScene f).events = s.events := rfl

/-! ## onMotion -/

@[simp] theorem State.onMotion_pending (f) : (s.onMotion f).pending = s.pending := rfl
@[simp] theorem State.onMotion_rstnLow (f) : (s.onMotion f).rstnLow = s.rstnLow := rfl
@[simp] theorem State.onMotion_freeCount (f) : (s.onMotion f).freeCount = s.freeCount := rfl
@[simp] theorem State.onMotion_mem (f) : (s.onMotion f).mem = s.mem := rfl
@[simp] theorem State.onMotion_bridge (f) : (s.onMotion f).bridge = s.bridge := rfl
@[simp] theorem State.onMotion_intake (f) : (s.onMotion f).intake = s.intake := rfl
@[simp] theorem State.onMotion_scene (f) : (s.onMotion f).scene = s.scene := rfl
@[simp] theorem State.onMotion_motion (f) : (s.onMotion f).motion = f s.motion := rfl
@[simp] theorem State.onMotion_composer (f) : (s.onMotion f).composer = s.composer := rfl
@[simp] theorem State.onMotion_nav (f) : (s.onMotion f).nav = s.nav := rfl
@[simp] theorem State.onMotion_seq (f) : (s.onMotion f).seq = s.seq := rfl
@[simp] theorem State.onMotion_takeover (f) : (s.onMotion f).takeover = s.takeover := rfl
@[simp] theorem State.onMotion_events (f) : (s.onMotion f).events = s.events := rfl

/-! ## onComposer -/

@[simp] theorem State.onComposer_pending (f) : (s.onComposer f).pending = s.pending := rfl
@[simp] theorem State.onComposer_rstnLow (f) : (s.onComposer f).rstnLow = s.rstnLow := rfl
@[simp] theorem State.onComposer_freeCount (f) : (s.onComposer f).freeCount = s.freeCount := rfl
@[simp] theorem State.onComposer_mem (f) : (s.onComposer f).mem = s.mem := rfl
@[simp] theorem State.onComposer_bridge (f) : (s.onComposer f).bridge = s.bridge := rfl
@[simp] theorem State.onComposer_intake (f) : (s.onComposer f).intake = s.intake := rfl
@[simp] theorem State.onComposer_scene (f) : (s.onComposer f).scene = s.scene := rfl
@[simp] theorem State.onComposer_motion (f) : (s.onComposer f).motion = s.motion := rfl
@[simp] theorem State.onComposer_composer (f) : (s.onComposer f).composer = f s.composer := rfl
@[simp] theorem State.onComposer_nav (f) : (s.onComposer f).nav = s.nav := rfl
@[simp] theorem State.onComposer_seq (f) : (s.onComposer f).seq = s.seq := rfl
@[simp] theorem State.onComposer_takeover (f) : (s.onComposer f).takeover = s.takeover := rfl
@[simp] theorem State.onComposer_events (f) : (s.onComposer f).events = s.events := rfl

/-! ## onNav -/

@[simp] theorem State.onNav_pending (f) : (s.onNav f).pending = s.pending := rfl
@[simp] theorem State.onNav_rstnLow (f) : (s.onNav f).rstnLow = s.rstnLow := rfl
@[simp] theorem State.onNav_freeCount (f) : (s.onNav f).freeCount = s.freeCount := rfl
@[simp] theorem State.onNav_mem (f) : (s.onNav f).mem = s.mem := rfl
@[simp] theorem State.onNav_bridge (f) : (s.onNav f).bridge = s.bridge := rfl
@[simp] theorem State.onNav_intake (f) : (s.onNav f).intake = s.intake := rfl
@[simp] theorem State.onNav_scene (f) : (s.onNav f).scene = s.scene := rfl
@[simp] theorem State.onNav_motion (f) : (s.onNav f).motion = s.motion := rfl
@[simp] theorem State.onNav_composer (f) : (s.onNav f).composer = s.composer := rfl
@[simp] theorem State.onNav_nav (f) : (s.onNav f).nav = f s.nav := rfl
@[simp] theorem State.onNav_seq (f) : (s.onNav f).seq = s.seq := rfl
@[simp] theorem State.onNav_takeover (f) : (s.onNav f).takeover = s.takeover := rfl
@[simp] theorem State.onNav_events (f) : (s.onNav f).events = s.events := rfl

/-! ## onSeq -/

@[simp] theorem State.onSeq_pending (f) : (s.onSeq f).pending = s.pending := rfl
@[simp] theorem State.onSeq_rstnLow (f) : (s.onSeq f).rstnLow = s.rstnLow := rfl
@[simp] theorem State.onSeq_freeCount (f) : (s.onSeq f).freeCount = s.freeCount := rfl
@[simp] theorem State.onSeq_mem (f) : (s.onSeq f).mem = s.mem := rfl
@[simp] theorem State.onSeq_bridge (f) : (s.onSeq f).bridge = s.bridge := rfl
@[simp] theorem State.onSeq_intake (f) : (s.onSeq f).intake = s.intake := rfl
@[simp] theorem State.onSeq_scene (f) : (s.onSeq f).scene = s.scene := rfl
@[simp] theorem State.onSeq_motion (f) : (s.onSeq f).motion = s.motion := rfl
@[simp] theorem State.onSeq_composer (f) : (s.onSeq f).composer = s.composer := rfl
@[simp] theorem State.onSeq_nav (f) : (s.onSeq f).nav = s.nav := rfl
@[simp] theorem State.onSeq_seq (f) : (s.onSeq f).seq = f s.seq := rfl
@[simp] theorem State.onSeq_takeover (f) : (s.onSeq f).takeover = s.takeover := rfl
@[simp] theorem State.onSeq_events (f) : (s.onSeq f).events = s.events := rfl

/-! ## onTakeover -/

@[simp] theorem State.onTakeover_pending (f) : (s.onTakeover f).pending = s.pending := rfl
@[simp] theorem State.onTakeover_rstnLow (f) : (s.onTakeover f).rstnLow = s.rstnLow := rfl
@[simp] theorem State.onTakeover_freeCount (f) : (s.onTakeover f).freeCount = s.freeCount := rfl
@[simp] theorem State.onTakeover_mem (f) : (s.onTakeover f).mem = s.mem := rfl
@[simp] theorem State.onTakeover_bridge (f) : (s.onTakeover f).bridge = s.bridge := rfl
@[simp] theorem State.onTakeover_intake (f) : (s.onTakeover f).intake = s.intake := rfl
@[simp] theorem State.onTakeover_scene (f) : (s.onTakeover f).scene = s.scene := rfl
@[simp] theorem State.onTakeover_motion (f) : (s.onTakeover f).motion = s.motion := rfl
@[simp] theorem State.onTakeover_composer (f) : (s.onTakeover f).composer = s.composer := rfl
@[simp] theorem State.onTakeover_nav (f) : (s.onTakeover f).nav = s.nav := rfl
@[simp] theorem State.onTakeover_seq (f) : (s.onTakeover f).seq = s.seq := rfl
@[simp] theorem State.onTakeover_takeover (f) : (s.onTakeover f).takeover = f s.takeover := rfl
@[simp] theorem State.onTakeover_events (f) : (s.onTakeover f).events = s.events := rfl

/-! ## onEvents -/

@[simp] theorem State.onEvents_pending (f) : (s.onEvents f).pending = s.pending := rfl
@[simp] theorem State.onEvents_rstnLow (f) : (s.onEvents f).rstnLow = s.rstnLow := rfl
@[simp] theorem State.onEvents_freeCount (f) : (s.onEvents f).freeCount = s.freeCount := rfl
@[simp] theorem State.onEvents_mem (f) : (s.onEvents f).mem = s.mem := rfl
@[simp] theorem State.onEvents_bridge (f) : (s.onEvents f).bridge = s.bridge := rfl
@[simp] theorem State.onEvents_intake (f) : (s.onEvents f).intake = s.intake := rfl
@[simp] theorem State.onEvents_scene (f) : (s.onEvents f).scene = s.scene := rfl
@[simp] theorem State.onEvents_motion (f) : (s.onEvents f).motion = s.motion := rfl
@[simp] theorem State.onEvents_composer (f) : (s.onEvents f).composer = s.composer := rfl
@[simp] theorem State.onEvents_nav (f) : (s.onEvents f).nav = s.nav := rfl
@[simp] theorem State.onEvents_seq (f) : (s.onEvents f).seq = s.seq := rfl
@[simp] theorem State.onEvents_takeover (f) : (s.onEvents f).takeover = s.takeover := rfl
@[simp] theorem State.onEvents_events (f) : (s.onEvents f).events = f s.events := rfl

/-! ## Memory writes -/

@[simp] theorem State.writeByte_pending (a b) : (s.writeByte a b).pending = s.pending := rfl
@[simp] theorem State.writeByte_rstnLow (a b) : (s.writeByte a b).rstnLow = s.rstnLow := rfl
@[simp] theorem State.writeByte_freeCount (a b) : (s.writeByte a b).freeCount = s.freeCount := rfl
@[simp] theorem State.writeByte_bridge (a b) : (s.writeByte a b).bridge = s.bridge := rfl
@[simp] theorem State.writeByte_intake (a b) : (s.writeByte a b).intake = s.intake := rfl
@[simp] theorem State.writeByte_scene (a b) : (s.writeByte a b).scene = s.scene := rfl
@[simp] theorem State.writeByte_motion (a b) : (s.writeByte a b).motion = s.motion := rfl
@[simp] theorem State.writeByte_composer (a b) : (s.writeByte a b).composer = s.composer := rfl
@[simp] theorem State.writeByte_nav (a b) : (s.writeByte a b).nav = s.nav := rfl
@[simp] theorem State.writeByte_seq (a b) : (s.writeByte a b).seq = s.seq := rfl
@[simp] theorem State.writeByte_takeover (a b) : (s.writeByte a b).takeover = s.takeover := rfl
@[simp] theorem State.writeByte_events (a b) : (s.writeByte a b).events = s.events := rfl

/-! ## Frames -/

theorem State.sameBut_refl (ps : List Part) : State.sameBut ps s s := by
  intro p _
  cases p <;> rfl

variable {s t u}

theorem State.sameBut.trans {ps qs : List Part} (h : State.sameBut ps s t) (k : State.sameBut qs t u) :
    State.sameBut (ps ++ qs) s u := by
  intro p hp
  simp only [List.mem_append, not_or] at hp
  have h := h p hp.1
  have k := k p hp.2
  cases p <;> simp_all [Part.same]

theorem State.sameBut.mono {ps qs : List Part} (h : State.sameBut ps s t) (k : ∀ p ∈ ps, p ∈ qs) :
    State.sameBut qs s t := fun p hp => h p fun hm => hp (k p hm)

variable (s)

theorem State.onBridge_frame (f) : State.sameBut [.bridge] s (s.onBridge f) := by
  intro p hp
  cases p <;> simp_all [Part.same]

theorem State.onIntake_frame (f) : State.sameBut [.intake] s (s.onIntake f) := by
  intro p hp
  cases p <;> simp_all [Part.same]

theorem State.onScene_frame (f) : State.sameBut [.scene] s (s.onScene f) := by
  intro p hp
  cases p <;> simp_all [Part.same]

theorem State.onMotion_frame (f) : State.sameBut [.motion] s (s.onMotion f) := by
  intro p hp
  cases p <;> simp_all [Part.same]

theorem State.onComposer_frame (f) : State.sameBut [.composer] s (s.onComposer f) := by
  intro p hp
  cases p <;> simp_all [Part.same]

theorem State.onNav_frame (f) : State.sameBut [.nav] s (s.onNav f) := by
  intro p hp
  cases p <;> simp_all [Part.same]

theorem State.onSeq_frame (f) : State.sameBut [.seq] s (s.onSeq f) := by
  intro p hp
  cases p <;> simp_all [Part.same]

theorem State.onTakeover_frame (f) : State.sameBut [.takeover] s (s.onTakeover f) := by
  intro p hp
  cases p <;> simp_all [Part.same]

theorem State.onEvents_frame (f) : State.sameBut [.events] s (s.onEvents f) := by
  intro p hp
  cases p <;> simp_all [Part.same]

/-- The Command Window base over `Nat`. -/
theorem State.cmdw_eq : s.cmdw = s.bridge.memSize - 0x1000 := by
  simp only [State.cmdw, Config.windowBytes]
  omega

end Sys2Proof.Machine
end

