-- ==== Sys2Proof/Laws/Memory.lean ====
section
/-!
SUPPORT. Memory: a read after a write, what a write leaves alone, and the canonical form, which every memory
operation keeps.
-/

namespace Sys2Proof.Machine

/-! ## One byte -/

theorem Memory.read_below (m : Memory) (lo a : Nat) (h : Memory.wfFrom lo m = true) (ha : a < lo) :
    m.read a = Config.unlistedByte := by
  induction m generalizing lo with
  | nil => rfl
  | cons e m ih =>
    obtain ⟨k, v⟩ := e
    simp only [Memory.wfFrom, Bool.and_eq_true, decide_eq_true_eq] at h
    have : a ≠ k := by omega
    simp only [Memory.read, this, if_false]
    exact ih (k + 1) h.2 (by omega)

theorem Memory.wfFrom_mono (m : Memory) (lo lo' : Nat) (h : Memory.wfFrom lo m = true) (hl : lo' ≤ lo) :
    Memory.wfFrom lo' m = true := by
  cases m with
  | nil => rfl
  | cons e m =>
    obtain ⟨k, v⟩ := e
    simp only [Memory.wfFrom, Bool.and_eq_true, decide_eq_true_eq] at h ⊢
    exact ⟨⟨by omega, h.1.2⟩, h.2⟩

theorem Memory.wfFrom_write (m : Memory) (lo a : Nat) (b : Byte) (h : Memory.wfFrom lo m = true)
    (ha : lo ≤ a) : Memory.wfFrom lo (m.write a b) = true := by
  induction m generalizing lo with
  | nil =>
    simp only [Memory.write]
    split <;> simp_all [Memory.wfFrom]
  | cons e m ih =>
    obtain ⟨k, v⟩ := e
    simp only [Memory.wfFrom, Bool.and_eq_true, decide_eq_true_eq] at h
    simp only [Memory.write]
    split
    · split
      · simp_all [Memory.wfFrom]
      · simp only [Memory.wfFrom, Bool.and_eq_true, decide_eq_true_eq]
        exact ⟨⟨ha, by assumption⟩, ⟨by omega, h.1.2⟩, h.2⟩
    · split
      · split
        · exact Memory.wfFrom_mono m (k + 1) lo h.2 (by omega)
        · simp only [Memory.wfFrom, Bool.and_eq_true, decide_eq_true_eq]
          subst_vars
          exact ⟨⟨ha, by assumption⟩, h.2⟩
      · simp only [Memory.wfFrom, Bool.and_eq_true, decide_eq_true_eq]
        exact ⟨h.1, ih (k + 1) h.2 (by omega)⟩

/-- A write keeps the canonical form. -/
theorem Memory.wf_write (m : Memory) (a : Nat) (b : Byte) (h : m.wf = true) : (m.write a b).wf = true :=
  Memory.wfFrom_write m 0 a b h (Nat.zero_le a)

theorem Memory.read_write_from (m : Memory) (lo a : Nat) (b : Byte) (h : Memory.wfFrom lo m = true) :
    ∀ x, (m.write a b).read x = if x = a then b else m.read x := by
  induction m generalizing lo with
  | nil =>
    intro x
    simp only [Memory.write]
    split <;> simp_all [Memory.read]
  | cons e m ih =>
    obtain ⟨k, v⟩ := e
    have hk := h
    simp only [Memory.wfFrom, Bool.and_eq_true, decide_eq_true_eq] at h
    intro x
    simp only [Memory.write]
    split
    · rename_i hlt
      split
      · rename_i hb
        split
        · rename_i hx
          subst hx hb
          have : x ≠ k := by omega
          simp only [Memory.read, this, if_false]
          exact Memory.read_below m (k + 1) x h.2 (by omega)
        · rfl
      · simp only [Memory.read]
    · split
      · rename_i heq
        subst heq
        split
        · rename_i hb
          split
          · rename_i hx
            subst hx hb
            exact Memory.read_below m (x + 1) x h.2 (by omega)
          · rename_i hx
            simp only [Memory.read, hx, if_false]
        · simp only [Memory.read]
          split <;> simp_all
      · simp only [Memory.read, ih (k + 1) h.2 x]
        split <;> split <;> simp_all

/-- A read after a write gives the value at the place written, and what stood there elsewhere. -/
theorem Memory.read_write (m : Memory) (a x : Nat) (b : Byte) (h : m.wf = true) :
    (m.write a b).read x = if x = a then b else m.read x :=
  Memory.read_write_from m 0 a b h x

/-! ## The state's writes -/

theorem State.writeBytes_frame (bs : List Byte) (s : State) (a : Nat) :
    State.sameBut [.mem] s (s.writeBytes a bs) := by
  induction bs generalizing s a with
  | nil => exact State.sameBut_refl s _
  | cons b bs ih =>
    intro p hp
    have := ih (s.writeByte a b) (a + 1) p hp
    cases p <;> simp_all [Part.same, State.writeBytes]

theorem State.writeBytes_wf (bs : List Byte) (s : State) (a : Nat) (h : s.mem.wf = true) :
    (s.writeBytes a bs).mem.wf = true := by
  induction bs generalizing s a with
  | nil => exact h
  | cons b bs ih => exact ih (s.writeByte a b) (a + 1) (Memory.wf_write _ _ _ h)

theorem State.writeWords_frame (s : State) (a : Nat) (ws : List Word) :
    State.sameBut [.mem] s (s.writeWords a ws) := State.writeBytes_frame _ s a

theorem State.writeWords_wf (s : State) (a : Nat) (ws : List Word) (h : s.mem.wf = true) :
    (s.writeWords a ws).mem.wf = true := State.writeBytes_wf _ s a h

theorem State.writeByte_frame (s : State) (a : Nat) (b : Byte) :
    State.sameBut [.mem] s (s.writeByte a b) := by
  intro p hp
  cases p <;> simp_all [Part.same]

theorem State.writeLane_frame (s : State) (a : Nat) (l : Lane) :
    State.sameBut [.mem] s (s.writeLane a l) := by
  have step : ∀ (c : Bool) (t : State) (x : Nat) (b : Byte), State.sameBut [.mem] s t →
      State.sameBut [.mem] s (if c then t.writeByte x b else t) := by
    intro c t x b ht
    split
    · exact (ht.trans (State.writeByte_frame t x b)).mono (by simp)
    · exact ht
  exact step _ _ _ _ (step _ _ _ _ (step _ _ _ _ (step _ _ _ _ (State.sameBut_refl s _))))

theorem State.writeLane_wf (s : State) (a : Nat) (l : Lane) (h : s.mem.wf = true) :
    (s.writeLane a l).mem.wf = true := by
  have step : ∀ (c : Bool) (t : State) (x : Nat) (b : Byte), t.mem.wf = true →
      (if c then t.writeByte x b else t).mem.wf = true := by
    intro c t x b ht
    split
    · exact Memory.wf_write _ _ _ ht
    · exact ht
  exact step _ _ _ _ (step _ _ _ _ (step _ _ _ _ (step _ _ _ _ h)))

theorem State.writeLanes_frame (ls : List Lane) (s : State) (a : Nat) :
    State.sameBut [.mem] s (s.writeLanes a ls) := by
  induction ls generalizing s a with
  | nil => exact State.sameBut_refl s _
  | cons l ls ih =>
    exact ((State.writeLane_frame s a l).trans (ih (s.writeLane a l) (a + 4))).mono (by simp)

theorem State.writeLanes_wf (ls : List Lane) (s : State) (a : Nat) (h : s.mem.wf = true) :
    (s.writeLanes a ls).mem.wf = true := by
  induction ls generalizing s a with
  | nil => exact h
  | cons l ls ih => exact ih (s.writeLane a l) (a + 4) (State.writeLane_wf s a l h)

/-! ## What a store leaves in each byte -/

theorem State.readByte_writeByte (s : State) (h : s.mem.wf = true) (a x : Nat) (b : Byte) :
    (s.writeByte a b).readByte x =
      if x % s.bridge.memSize = a % s.bridge.memSize then b else s.readByte x := by
  unfold State.writeByte State.readByte
  exact Memory.read_write _ _ _ _ h

/-- Two addresses less than the memory size apart are two bytes. -/
theorem mod_ne_of_near {m x y : Nat} (h : x < y) (hd : y - x < m) : x % m ≠ y % m := by
  intro e
  have := Nat.sub_mod_eq_zero_of_mod_eq e.symm
  rw [Nat.mod_eq_of_lt hd] at this
  omega

/-- Stored bytes leave every other byte as it was. -/
theorem State.readByte_writeBytes_other (bs : List Byte) (s : State) (a x : Nat) (h : s.mem.wf = true)
    (hx : ∀ i, i < bs.length → x % s.bridge.memSize ≠ (a + i) % s.bridge.memSize) :
    (s.writeBytes a bs).readByte x = s.readByte x := by
  induction bs generalizing s a with
  | nil => rfl
  | cons b bs ih =>
    have h0 : x % s.bridge.memSize ≠ a % s.bridge.memSize := hx 0 (by simp)
    show ((s.writeByte a b).writeBytes (a + 1) bs).readByte x = _
    rw [ih _ _ (Memory.wf_write _ _ _ h)]
    · rw [State.readByte_writeByte s h, if_neg h0]
    · intro i hi
      have := hx (i + 1) (by simp; omega)
      rwa [show a + 1 + i = a + (i + 1) by omega]

/-- Stored bytes are read back, where they do not reach round the memory. -/
theorem State.readByte_writeBytes_at (bs : List Byte) (s : State) (a : Nat) (h : s.mem.wf = true)
    (hl : bs.length ≤ s.bridge.memSize) (i : Nat) (b : Byte) (hb : bs[i]? = some b) :
    (s.writeBytes a bs).readByte (a + i) = b := by
  induction bs generalizing s a i with
  | nil => simp at hb
  | cons b0 bs ih =>
    simp only [List.length_cons] at hl
    show ((s.writeByte a b0).writeBytes (a + 1) bs).readByte (a + i) = _
    have hw : (s.writeByte a b0).mem.wf = true := Memory.wf_write _ _ _ h
    cases i with
    | zero =>
      have : b0 = b := by simpa using hb
      rw [State.readByte_writeBytes_other bs _ _ _ hw, State.readByte_writeByte s h, this, if_pos (by simp)]
      intro i hi
      exact mod_ne_of_near (m := s.bridge.memSize) (by omega) (by omega)
    | succ i =>
      have := ih (s.writeByte a b0) (a + 1) hw (by show _ ≤ s.bridge.memSize; omega) i (by simpa using hb)
      rwa [show a + 1 + i = a + (i + 1) by omega] at this

/-- What one lane leaves in each byte. -/
theorem State.readByte_writeLane (s : State) (h : s.mem.wf = true) (a x : Nat) (l : Lane) :
    (s.writeLane a l).readByte x =
      if l.enables.getLsbD 3 = true ∧ x % s.bridge.memSize = (a + 3) % s.bridge.memSize then
        l.data.extractLsb' 24 8
      else if l.enables.getLsbD 2 = true ∧ x % s.bridge.memSize = (a + 2) % s.bridge.memSize then
        l.data.extractLsb' 16 8
      else if l.enables.getLsbD 1 = true ∧ x % s.bridge.memSize = (a + 1) % s.bridge.memSize then
        l.data.extractLsb' 8 8
      else if l.enables.getLsbD 0 = true ∧ x % s.bridge.memSize = a % s.bridge.memSize then
        l.data.extractLsb' 0 8
      else s.readByte x := by
  have step : ∀ (c : Bool) (t : State) (y : Nat) (b : Byte), t.mem.wf = true →
      t.bridge.memSize = s.bridge.memSize →
      (if c then t.writeByte y b else t).mem.wf = true
        ∧ (if c then t.writeByte y b else t).bridge.memSize = s.bridge.memSize
        ∧ (if c then t.writeByte y b else t).readByte x =
            if c = true ∧ x % s.bridge.memSize = y % s.bridge.memSize then b else t.readByte x := by
    intro c t y b ht hm
    cases c
    · simp [ht, hm]
    · simp only [if_true]
      refine ⟨Memory.wf_write _ _ _ ht, hm, ?_⟩
      rw [State.readByte_writeByte t ht, hm]
      simp
  unfold State.writeLane
  dsimp only
  obtain ⟨h0, m0, r0⟩ := step (l.enables.getLsbD 0) s (a + 0) (l.data.extractLsb' (8 * 0) 8) h rfl
  obtain ⟨h1, m1, r1⟩ := step (l.enables.getLsbD 1) _ (a + 1) (l.data.extractLsb' (8 * 1) 8) h0 m0
  obtain ⟨h2, m2, r2⟩ := step (l.enables.getLsbD 2) _ (a + 2) (l.data.extractLsb' (8 * 2) 8) h1 m1
  obtain ⟨_, _, r3⟩ := step (l.enables.getLsbD 3) _ (a + 3) (l.data.extractLsb' (8 * 3) 8) h2 m2
  rw [r3, r2, r1, r0]
  simp

/-- A burst leaves every byte outside its words as it was. -/
theorem State.readByte_writeLanes_other (ls : List Lane) (s : State) (a x : Nat) (h : s.mem.wf = true)
    (hx : ∀ k i, k < ls.length → i < 4 →
      x % s.bridge.memSize ≠ (a + 4 * k + i) % s.bridge.memSize) :
    (s.writeLanes a ls).readByte x = s.readByte x := by
  induction ls generalizing s a with
  | nil => rfl
  | cons l ls ih =>
    have hm : (s.writeLane a l).bridge = s.bridge := State.writeLane_frame s a l .bridge (by simp)
    show ((s.writeLane a l).writeLanes (a + 4) ls).readByte x = _
    rw [ih _ _ (State.writeLane_wf s a l h)]
    · rw [State.readByte_writeLane s h]
      have h0 := hx 0 0 (by simp) (by omega)
      have h1 := hx 0 1 (by simp) (by omega)
      have h2 := hx 0 2 (by simp) (by omega)
      have h3 := hx 0 3 (by simp) (by omega)
      simp only [Nat.mul_zero, Nat.add_zero] at h0 h1 h2 h3
      simp [h0, h1, h2, h3]
    · intro k i hk hi
      rw [hm]
      have := hx (k + 1) i (by simp; omega) hi
      rwa [show a + 4 + 4 * k + i = a + 4 * (k + 1) + i by omega]

/-- A burst stores its enabled bytes and no other byte of its words (R14). -/
theorem State.readByte_writeLanes_at (ls : List Lane) (s : State) (a : Nat) (h : s.mem.wf = true)
    (hl : 4 * ls.length ≤ s.bridge.memSize) (k i : Nat) (l : Lane) (hk : ls[k]? = some l) (hi : i < 4) :
    (s.writeLanes a ls).readByte (a + 4 * k + i) =
      if l.enables.getLsbD i then l.data.extractLsb' (8 * i) 8 else s.readByte (a + 4 * k + i) := by
  induction ls generalizing s a k with
  | nil => simp at hk
  | cons l0 ls ih =>
    have hm : (s.writeLane a l0).bridge = s.bridge := State.writeLane_frame s a l0 .bridge (by simp)
    show ((s.writeLane a l0).writeLanes (a + 4) ls).readByte _ = _
    simp only [List.length_cons] at hl
    cases k with
    | zero =>
      have hl0 : l0 = l := by simpa using hk
      subst hl0
      rw [State.readByte_writeLanes_other _ _ _ _ (State.writeLane_wf s a l0 h)]
      · rw [State.readByte_writeLane s h]
        have ne : ∀ x y, x < y → y < 4 → (a + x) % s.bridge.memSize ≠ (a + y) % s.bridge.memSize :=
          fun x y h1 h2 => mod_ne_of_near (by omega) (by omega)
        have n01 := ne 0 1 (by omega) (by omega)
        have n02 := ne 0 2 (by omega) (by omega)
        have n03 := ne 0 3 (by omega) (by omega)
        have n12 := ne 1 2 (by omega) (by omega)
        have n13 := ne 1 3 (by omega) (by omega)
        have n23 := ne 2 3 (by omega) (by omega)
        simp only [Nat.add_zero] at n01 n02 n03
        have : i = 0 ∨ i = 1 ∨ i = 2 ∨ i = 3 := by omega
        rcases this with rfl | rfl | rfl | rfl <;>
          simp [n01, n02, n03, n12, n13, n23, n01.symm, n02.symm, n03.symm, n12.symm, n13.symm, n23.symm]
      · intro k' i' _ _
        rw [hm]
        exact mod_ne_of_near (by omega) (by omega)
    | succ k =>
      have := ih (s.writeLane a l0) (a + 4) (State.writeLane_wf s a l0 h) (by rw [hm]; omega) k
        (by simpa using hk)
      rw [show a + 4 + 4 * k + i = a + 4 * (k + 1) + i by omega] at this
      rw [this, State.readByte_writeLane s h]
      have ne : ∀ x, x < 4 → (a + 4 * (k + 1) + i) % s.bridge.memSize ≠ (a + x) % s.bridge.memSize := by
        intro x hx
        have hk2 : k < ls.length := (List.getElem?_eq_some_iff.mp (by simpa using hk : ls[k]? = some l)).1
        exact (mod_ne_of_near (by omega) (by omega)).symm
      have e0 := ne 0 (by omega)
      have e1 := ne 1 (by omega)
      have e2 := ne 2 (by omega)
      have e3 := ne 3 (by omega)
      simp only [Nat.add_zero] at e0
      simp [e0, e1, e2, e3]

/-- The word of a word's bytes is the word. -/
theorem wordOf_bytes (w : Word) :
    wordOf (w.extractLsb' 0 8) (w.extractLsb' 8 8) (w.extractLsb' 16 8) (w.extractLsb' 24 8) = w := by
  unfold wordOf
  apply BitVec.eq_of_getLsbD_eq
  intro i hi
  simp only [BitVec.getLsbD_append, BitVec.getLsbD_extractLsb']
  split
  · simp_all
  · split
    · simp_all [show 8 + (i - 8) = i by omega]
    · split
      · simp_all [show 16 + (i - 8 - 8) = i by omega]
      · simp_all [show 24 + (i - 8 - 8 - 8) = i by omega, show i - 8 - 8 - 8 < 8 by omega]

theorem length_wordBytes (ws : List Word) : (ws.flatMap wordBytes).length = 4 * ws.length := by
  induction ws with
  | nil => rfl
  | cons x ws ih =>
    rw [List.flatMap_cons, List.length_append, ih, show (wordBytes x).length = 4 from rfl, List.length_cons]
    omega

theorem getElem?_wordBytes (ws : List Word) (k i : Nat) (w : Word) (hw : ws[k]? = some w) (hi : i < 4) :
    (ws.flatMap wordBytes)[4 * k + i]? = (wordBytes w)[i]? := by
  induction ws generalizing k with
  | nil => simp at hw
  | cons x ws ih =>
    have hl : (wordBytes x).length = 4 := rfl
    rw [List.flatMap_cons]
    cases k with
    | zero =>
      have hx : x = w := by simpa using hw
      rw [List.getElem?_append_left (by omega), hx]
      simp
    | succ k =>
      rw [List.getElem?_append_right (by omega), hl, show 4 * (k + 1) + i - 4 = 4 * k + i by omega]
      exact ih k (by simpa using hw)

/-- Stored words are read back, where they do not reach round the memory. -/
theorem State.readWord_writeWords (s : State) (a : Nat) (ws : List Word) (h : s.mem.wf = true)
    (hl : 4 * ws.length ≤ s.bridge.memSize) (k : Nat) (w : Word) (hw : ws[k]? = some w) :
    (s.writeWords a ws).readWord (a + 4 * k) = w := by
  have byte : ∀ i b, i < 4 → (wordBytes w)[i]? = some b →
      (s.writeWords a ws).readByte (a + 4 * k + i) = b := by
    intro i b hi hb
    rw [Nat.add_assoc]
    exact State.readByte_writeBytes_at _ s a h (by rw [length_wordBytes]; exact hl) (4 * k + i) b
      (by rw [getElem?_wordBytes ws k i w hw hi]; exact hb)
  have b0 := byte 0 _ (by omega) rfl
  rw [Nat.add_zero] at b0
  rw [State.readWord, b0, byte 1 _ (by omega) rfl, byte 2 _ (by omega) rfl, byte 3 _ (by omega) rfl]
  exact wordOf_bytes w

/-- Stored words leave every other byte as it was. -/
theorem State.readByte_writeWords_other (s : State) (a x : Nat) (ws : List Word) (h : s.mem.wf = true)
    (hx : ∀ i, i < 4 * ws.length → x % s.bridge.memSize ≠ (a + i) % s.bridge.memSize) :
    (s.writeWords a ws).readByte x = s.readByte x :=
  State.readByte_writeBytes_other _ s a x h fun i hi => hx i (by rwa [length_wordBytes] at hi)

/-- Reset memory has the canonical form. -/
theorem State.reset_wf : State.reset.mem.wf = true := by rfl

end Sys2Proof.Machine
end

