-- ==== Sys2Proof/Laws/Steps.lean ====
section
/-!
SUPPORT. What a step does around its own effect: the quiet step, the end of a step, the departure of the
head, the start of a command, and the event set.
-/

namespace Sys2Proof.Machine

variable {s t : State} {c : Command} {rest : List Command} {k : Kind}

/-! ## The step -/

theorem State.noteStatus_self (s : State) : s.noteStatus s = s := by simp [State.noteStatus]

/-- Nothing is due before a quiet step. -/
theorem State.begin_quiet (h : s.Quiet) : s.begin = s := by
  simp [State.begin, State.takeFirstWrite, State.takeOwedAdvance, h.shown, h.clear, State.noteStatus_self]

/-- A quiet step is its own effect and the Event Unit's view of it. -/
theorem State.live_quiet (h : s.Quiet) (f : State → State) : s.live f = .next ((f s).endStep s) := by
  simp [State.live, h.high, State.begin_quiet h]

/-- The same for an event that is no command, when no head is due. -/
theorem State.event_settled (h : s.Settled) (f : State → State) : s.event f = .next ((f s).endStep s) := by
  simp [State.event, State.afterStart, h.idle, State.live_quiet h.toQuiet]

/-- An event within a run of commands leaves the head waiting (R25). -/
theorem State.event_inRun (h : s.Quiet) (hr : s.intake.inRun = true) (f : State → State) :
    s.event f = .next ((f s).endStep s) := State.event_settled ⟨h, by simp [State.headDue, hr]⟩ f

/-- A bus clock with no head to start. -/
theorem State.clock_quiet (h : s.Quiet) (hr : s.headReady = false) (f : State → State) :
    s.clock f = .next ((f s).endStep s) := by
  simp [State.clock, State.afterStart, hr, State.live_quiet h]

/-- A head that is due starts before an event that is no command (R25, R26). -/
theorem State.event_due (h : s.headDue = true) (f : State → State) (u : State)
    (hu : s.live State.startDue = .next u) : s.event f = u.live f := by
  simp [State.event, State.afterStart, h, hu]

/-- A head that may start does so before a bus clock (R25). -/
theorem State.clock_ready (h : s.headReady = true) (f : State → State) (u : State)
    (hu : s.live State.startDue = .next u) : s.clock f = u.live f := by
  simp [State.clock, State.afterStart, h, hu]

/-- While RSTN is low a step changes nothing (R1). -/
theorem State.live_low (h : s.rstnLow = true) (f : State → State) : s.live f = .next s := by
  simp [State.live, h]

theorem State.touchStatus_of_pending (h : s.events.statusPending = true) : s.touchStatus = s := by
  obtain ⟨p, r, fc, m, b, i, sc, mo, co, n, q, tk, e⟩ := s
  obtain ⟨ep, ec, er, eo, ei, eg, es, en, epr, el⟩ := e
  simp only at h
  subst h
  rfl

/-- A step that sets the status-write pending flag itself ends by presenting a record. -/
theorem State.endStep_of_pending (h : t.events.statusPending = true) : t.endStep s = t.closed := by
  simp [State.endStep, State.closed, State.noteStatus, State.touchStatus_of_pending h]

/-- A step that changes no status field ends by presenting a record. -/
theorem State.endStep_of_status (h : t.status = s.status) : t.endStep s = t.closed := by
  simp [State.endStep, State.closed, State.noteStatus, h]

/-! ## Events -/

@[simp] theorem EventUnit.take_statusPending (u : EventUnit) (r : EventRecord) :
    (u.take r).statusPending = u.statusPending := by
  unfold EventUnit.take
  split <;> rfl

theorem State.raise_frame (s : State) (e : Event) (slot : Option Nat) :
    State.sameBut [.events] s (s.raise e slot) := State.onEvents_frame s _

@[simp] theorem State.raise_statusPending (s : State) (e : Event) (slot : Option Nat) :
    (s.raise e slot).events.statusPending = s.events.statusPending := by simp [State.raise]

/-- With room in the ring and in the pending set, a raised event joins the pending records (R173). -/
theorem State.raise_records (s : State) (e : Event) (slot : Option Nat)
    (h : s.events.unconsumed + s.events.records.length < 63) (k : s.events.records.length < 8) :
    (s.raise e slot).events.records
      = s.events.records ++ [⟨e, s.composer.frame.setWidth 16, slot⟩] := by
  simp [State.raise, EventUnit.take, Config.ringCapacity, Config.recordCapacity, h, k]

theorem EventUnit.present_cases (u : EventUnit) :
    u.present = u ∨ u.present = { u with presented := some .record } := by
  unfold EventUnit.present
  split
  · exact .inr rfl
  · exact .inl rfl

/-! ## The departure of the head (R23, R24) -/

/-- A held command that finds a free entry joins the end of the queue, and its write is forwarded. -/
theorem State.joinHeld_frame (s : State) : State.sameBut [.bridge, .intake, .events] s s.joinHeld := by
  unfold State.joinHeld
  split
  · split
    · intro p hp
      cases p <;> simp_all [Part.same, State.enqueue, State.forward, State.touchStatus]
    · exact State.sameBut_refl s _
  · exact State.sameBut_refl s _

theorem State.departed_frame (s : State) (rest : List Command) :
    State.sameBut [.bridge, .intake, .events] s (s.departed rest) := by
  have h : State.sameBut [.intake, .events] s
      ((s.onIntake fun i => { i with queue := rest, inRun := true }).touchStatus) :=
    ((State.onIntake_frame s _).trans (State.onEvents_frame _ _)).mono (by simp)
  exact (h.trans (State.joinHeld_frame _)).mono (by simp)

section
variable (s) (rest)
@[simp] theorem State.departed_pending : (s.departed rest).pending = s.pending :=
  State.departed_frame s rest .pending (by simp)
@[simp] theorem State.departed_rstnLow : (s.departed rest).rstnLow = s.rstnLow :=
  State.departed_frame s rest .line (by simp)
@[simp] theorem State.departed_mem : (s.departed rest).mem = s.mem :=
  State.departed_frame s rest .mem (by simp)
@[simp] theorem State.departed_scene : (s.departed rest).scene = s.scene :=
  State.departed_frame s rest .scene (by simp)
@[simp] theorem State.departed_motion : (s.departed rest).motion = s.motion :=
  State.departed_frame s rest .motion (by simp)
@[simp] theorem State.departed_composer : (s.departed rest).composer = s.composer :=
  State.departed_frame s rest .composer (by simp)
@[simp] theorem State.departed_nav : (s.departed rest).nav = s.nav :=
  State.departed_frame s rest .nav (by simp)
@[simp] theorem State.departed_seq : (s.departed rest).seq = s.seq :=
  State.departed_frame s rest .seq (by simp)
@[simp] theorem State.departed_takeover : (s.departed rest).takeover = s.takeover :=
  State.departed_frame s rest .takeover (by simp)
end

/-- The departure of the head touches nothing of the Bridge but its controller side. -/
theorem State.departed_bridge (s : State) (rest : List Command) :
    (s.departed rest).bridge = { s.bridge with side := (s.departed rest).bridge.side } := by
  unfold State.departed State.joinHeld
  split
  · split <;> rfl
  · rfl

section
variable (s) (rest)
@[simp] theorem State.departed_memSize : (s.departed rest).bridge.memSize = s.bridge.memSize := by
  rw [State.departed_bridge]
@[simp] theorem State.departed_window : (s.departed rest).bridge.window = s.bridge.window := by
  rw [State.departed_bridge]
@[simp] theorem State.departed_streak : (s.departed rest).bridge.streak = s.bridge.streak := by
  rw [State.departed_bridge]
@[simp] theorem State.departed_composeWait : (s.departed rest).bridge.composeWait = s.bridge.composeWait := by
  rw [State.departed_bridge]
@[simp] theorem State.departed_fetch : (s.departed rest).bridge.fetch = s.bridge.fetch := by
  rw [State.departed_bridge]
@[simp] theorem State.departed_busy : (s.departed rest).bridge.busy = s.bridge.busy := by
  rw [State.departed_bridge]
@[simp] theorem State.departed_readData : (s.departed rest).bridge.readData = s.bridge.readData := by
  rw [State.departed_bridge]
@[simp] theorem State.departed_cmdw : (s.departed rest).cmdw = s.cmdw := by simp [State.cmdw]
end

/-- The departure of the head touches nothing of the Intake but its queue and the run. -/
theorem State.departed_intake (s : State) (rest : List Command) :
    (s.departed rest).intake =
      { s.intake with
        queue := (s.departed rest).intake.queue, inRun := (s.departed rest).intake.inRun } := by
  unfold State.departed State.joinHeld
  split
  · split <;> simp_all [State.enqueue, State.forward, State.touchStatus]
  · simp_all [State.touchStatus]

section
variable (s) (rest)
@[simp] theorem State.departed_inService :
    (s.departed rest).intake.inService = s.intake.inService := by rw [State.departed_intake]
@[simp] theorem State.departed_code : (s.departed rest).intake.code = s.intake.code := by
  rw [State.departed_intake]
end

/-- The departure of the head touches nothing of the Event Unit but the status-write pending flag (R177). -/
theorem State.departed_events (s : State) (rest : List Command) :
    (s.departed rest).events = { s.events with statusPending := true } := by
  unfold State.departed State.joinHeld
  split
  · split <;> simp_all [State.enqueue, State.forward, State.touchStatus]
  · simp_all [State.touchStatus]

@[simp] theorem State.departed_statusPending (s : State) (rest : List Command) :
    (s.departed rest).events.statusPending = true := by rw [State.departed_events]

/-- No write held: the queue loses its head, and nothing else happens to it. -/
theorem State.departed_ready (s : State) (rest : List Command)
    (h : ∀ a ls n k, s.bridge.side ≠ .holding a ls n k) :
    s.departed rest = { s with intake := { s.intake with queue := rest, inRun := true },
                               events := { s.events with statusPending := true } } := by
  unfold State.departed State.joinHeld
  split
  · simp_all [State.touchStatus]
  · rfl

/-! ## The end of a command in service (R30) -/

/-- A completion changes the Intake alone, and the head is in no run (R25). -/
theorem State.complete_eq (s : State) (code : Fin 4) :
    s.complete code =
      { s with intake := { s.intake with inService := none, code := code, inRun := false } } := rfl

theorem State.endRun_eq (s : State) : s.endRun = { s with intake := { s.intake with inRun := false } } := rfl

theorem State.keepRun_ended (h : s.intake.inService = none) :
    s.keepRun = { s with intake := { s.intake with inRun := true } } := by
  simp [State.keepRun, h, State.onIntake]

theorem State.keepRun_serving (h : s.intake.inService ≠ none) : s.keepRun = s := by
  simp [State.keepRun, h]

/-! ## The start of a command (R25 to R29) -/

theorem State.Starts.judged (h : s.Starts c rest k) : c.judgement s.takeover.state = none := by
  have hk := h.kind
  have hl := h.length
  have hu := h.unlocked
  unfold Command.judgement
  simp only [hk, hl]
  by_cases h1 : s.takeover.state = .lockout
  · rcases hu with hu | rfl | rfl <;> simp_all
  · simp_all

/-- A command that starts, of one of the row's, is handed to its owner (R29). -/
theorem State.startHead_run (h : s.Starts c rest k) (row : Command → Bool)
    (run : Command → State → Verdict) (hr : row c = true) :
    s.startHead row run = (s.departed rest).finish c (run c (s.departed rest)) := by
  simp [State.startHead, h.head, h.may, hr, h.mask, h.judged]

theorem State.startHead_completed (h : s.Starts c rest k) (row : Command → Bool)
    (run : Command → State → Verdict) (hr : row c = true) {code : Fin 4} {u : State}
    (hv : run c (s.departed rest) = .completed code u) (hp : u.events.statusPending = true) :
    s.live (fun t => t.startHead row run) = .next (u.setCode code).closed := by
  rw [State.live_quiet h.toQuiet, State.startHead_run h row run hr, hv]
  exact congrArg _ (State.endStep_of_pending (by simpa [State.finish, State.setCode] using hp))

theorem State.startHead_began (h : s.Starts c rest k) (row : Command → Bool)
    (run : Command → State → Verdict) (hr : row c = true) {u : State}
    (hv : run c (s.departed rest) = .began u) (hp : u.events.statusPending = true) :
    s.live (fun t => t.startHead row run) = .next u.closed := by
  rw [State.live_quiet h.toQuiet, State.startHead_run h row run hr, hv]
  exact congrArg _ (State.endStep_of_pending (by simpa [State.finish] using hp))

/-- A skipped command leaves the queue and does nothing else (R27). -/
theorem State.startHead_skipped (h : s.Head c rest) (row : Command → Bool)
    (run : Command → State → Verdict) (hr : row c = true) (hm : c.runsOn s.intake.code = false) :
    s.live (fun t => t.startHead row run) = .next (s.departed rest).closed := by
  rw [State.live_quiet h.toQuiet]
  simp only [State.startHead, h.head, h.may, hr, hm]
  exact congrArg _ (State.endStep_of_pending (by simp))

/-- A command that its owner or the Intake refuses (R28, R29, R31, R32). -/
theorem State.refuse_statusPending (s : State) (c : Command) (r : RefusalReason) :
    (s.refuse c r).events.statusPending = s.events.statusPending := by
  simp [State.refuse, State.setCode]

theorem State.startHead_judged (h : s.Head c rest) (row : Command → Bool)
    (run : Command → State → Verdict) (hr : row c = true) (hm : c.runsOn s.intake.code = true)
    {r : RefusalReason} (hj : c.judgement s.takeover.state = some r) :
    s.live (fun t => t.startHead row run) = .next ((s.departed rest).refuse c r).closed := by
  rw [State.live_quiet h.toQuiet]
  simp only [State.startHead, h.head, h.may, hr, hm, hj]
  exact congrArg _ (State.endStep_of_pending (by simp [State.refuse_statusPending]))

theorem State.startHead_refused (h : s.Starts c rest k) (row : Command → Bool)
    (run : Command → State → Verdict) (hr : row c = true) {r : RefusalReason}
    (hv : run c (s.departed rest) = .refused r) :
    s.live (fun t => t.startHead row run) = .next ((s.departed rest).refuse c r).closed := by
  rw [State.live_quiet h.toQuiet, State.startHead_run h row run hr, hv]
  exact congrArg _ (State.endStep_of_pending (by simp [State.finish, State.refuse_statusPending]))

theorem ofKind_of (h : s.Starts c rest k) : ofKind k c = true := by simp [ofKind, h.kind]

/-! ## Verdicts -/

theorem firstFailure_none {checks : List (Bool × RefusalReason)} :
    firstFailure checks = none ↔ ∀ e ∈ checks, e.1 = true := by
  induction checks with
  | nil => simp [firstFailure]
  | cons e es ih =>
    obtain ⟨b, r⟩ := e
    cases b <;> simp [firstFailure, ih]

/-- A command whose checks all pass gets the verdict of its effect. -/
theorem judged_pass {checks : List (Bool × RefusalReason)} {v : Verdict}
    (h : ∀ e ∈ checks, e.1 = true) : judged checks v = v := by
  simp [judged, firstFailure_none.mpr h]

/-- The first check that fails refuses the command. -/
theorem judged_fail {checks : List (Bool × RefusalReason)} {v : Verdict} {r : RefusalReason}
    (h : firstFailure checks = some r) : judged checks v = .refused r := by simp [judged, h]

end Sys2Proof.Machine
end

