-- ==== Sys2Proof/Laws/Scene.lean ====
section
/-!
SUPPORT. The Scene Store's shared operations: a slot after a put, what an undefinition, a field write and a
binding do, and the display order.
-/

namespace Sys2Proof.Machine

variable {s : State} {sc : Scene} {n : Nat} {o : Obj}

theorem Scene.obj_lt (h : sc.obj n = some o) : n < 48 := by
  by_contra hn
  simp [Scene.obj, Vector.getElem?_eq_none_iff.mpr (by omega : 48 ≤ n)] at h

theorem Scene.obj_put (sc : Scene) (n m : Nat) (o : Option Obj) :
    (sc.put n o).obj m = if m = n ∧ n < 48 then o else sc.obj m := by
  simp only [Scene.obj, Scene.put, Vector.getElem?_setIfInBounds]
  by_cases h : n = m
  · subst h
    by_cases hn : n < 48
    · simp [hn]
    · simp [hn]
  · simp [h, show ¬ m = n from fun e => h e.symm]

/-- A new display order sets the mark when it differs (R45, R59). -/
theorem Scene.reorder_eq (sc : Scene) (order : List Nat) :
    sc.reorder order = { sc with order := order, mark := sc.mark || decide (order ≠ sc.order) } := by
  unfold Scene.reorder
  split
  · rename_i h
    subst h
    simp
  · rename_i h
    simp [h]

theorem filter_ne_of_not_mem {l : List Nat} (h : n ∉ l) : l.filter (· ≠ n) = l :=
  List.filter_eq_self.mpr fun a ha => by
    simp only [decide_eq_true_eq]
    rintro rfl
    exact h ha

/-- Taking a slot out of the order changes it just when the slot was placed. -/
theorem filter_ne_ne_iff (l : List Nat) (n : Nat) : l.filter (· ≠ n) ≠ l ↔ n ∈ l := by
  constructor
  · intro h
    by_contra hn
    exact h (filter_ne_of_not_mem hn)
  · intro h e
    rw [← e] at h
    simp at h

/-- An order without a slot, as `reorder` stores it (R44, R47). -/
theorem Scene.reorder_filter (sc : Scene) (n : Nat) :
    sc.reorder (sc.order.filter (· ≠ n)) =
      { sc with order := sc.order.filter (· ≠ n), mark := sc.mark || sc.placed n } := by
  have h : decide (sc.order.filter (· ≠ n) ≠ sc.order) = sc.placed n := by
    rw [Bool.eq_iff_iff, decide_eq_true_iff, filter_ne_ne_iff]
    simp [Scene.placed]
  rw [Scene.reorder_eq, h]

/-- An undefined slot leaves the order, and the mark is set when it was placed (R44, R48, R59). -/
theorem Scene.undefine_eq (sc : Scene) (n : Nat) :
    sc.undefine n =
      { sc with slots := sc.slots.setIfInBounds n none, order := sc.order.filter (· ≠ n),
                mark := sc.mark || sc.placed n } := by
  exact Scene.reorder_filter (sc.put n none) n

/-- A field write of a defined object, by a command or by another block (R48, R59). -/
theorem Scene.modify_eq (h : sc.obj n = some o) (f : Obj → Obj) :
    sc.modify n f =
      { sc with slots := sc.slots.setIfInBounds n (some (f o)),
                mark := sc.mark || (decide (f o ≠ o) && sc.placed n) } := by
  simp only [Scene.modify, h]
  by_cases h1 : f o = o <;> by_cases h2 : sc.placed n = true <;> simp [h1, h2, Scene.put]

theorem Scene.modify_none (h : sc.obj n = none) (f : Obj → Obj) : sc.modify n f = sc := by
  simp [Scene.modify, h]

theorem Scene.bind_eq (h : sc.obj n = some o) (ch : Option Nat) :
    sc.bind n ch = { sc with slots := sc.slots.setIfInBounds n (some { o with bound := ch }) } := by
  simp [Scene.bind, h, Scene.put]

section
variable (s : State) (rest : List Command)
@[simp] theorem State.departed_obj : (s.departed rest).obj n = s.obj n := by simp [State.obj]
@[simp] theorem State.departed_seqHeld : (s.departed rest).seqHeld n = s.seqHeld n := by
  simp [State.seqHeld]
@[simp] theorem State.departed_pageHeld : (s.departed rest).pageHeld n = s.pageHeld n := by
  simp [State.pageHeld]
@[simp] theorem State.departed_chan : (s.departed rest).chan n = s.chan n := by simp [State.chan]
@[simp] theorem State.departed_channelReserved :
    (s.departed rest).channelReserved n = s.channelReserved n := by simp [State.channelReserved]
@[simp] theorem State.departed_fieldBound (f : Field) :
    (s.departed rest).fieldBound o f = s.fieldBound o f := by simp [State.fieldBound]
@[simp] theorem State.departed_editBarred (f : Field) :
    (s.departed rest).editBarred o f = s.editBarred o f := by simp [State.editBarred]
end

end Sys2Proof.Machine
end

