-- ==== Sys2Proof/Laws/Motion.lean ====
section
/-!
SUPPORT. Silent halts and undefined slots: what each leaves of the slots, the order and the channels, alone
and over a list of them (R48, R77, R90).
-/

namespace Sys2Proof.Machine

variable {s : State} {sc : Scene} {n : Nat}

/-! ## Channels -/

theorem Motion.channel_put (m : Motion) (n k : Nat) (c : Channel) :
    (m.putChannel n c).channel k = if k = n ∧ n < 8 then c else m.channel k := by
  simp only [Motion.channel, Motion.putChannel, Vector.getElem?_setIfInBounds]
  by_cases h : n = k
  · subst h
    by_cases hn : n < 8 <;> simp [hn]
  · simp [h, show ¬ k = n from fun e => h e.symm]

/-- A channel after a put. -/
theorem State.chan_put (s : State) (n k : Nat) (c : Channel) :
    (s.putChan n c).chan k = if k = n ∧ n < 8 then c else s.chan k :=
  Motion.channel_put s.motion n k c

/-- No channel has a number of 8 or more: it reads as IDLE. -/
theorem State.chan_idle (s : State) (h : 8 ≤ n) : s.chan n = Channel.idle := by
  simp [State.chan, Motion.channel, Vector.getElem?_eq_none_iff.mpr h]

/-! ## The binding -/

theorem Scene.obj_bind (sc : Scene) (n m : Nat) (ch : Option Nat) :
    (sc.bind n ch).obj m = if m = n then (sc.obj n).map (fun o => { o with bound := ch }) else sc.obj m := by
  unfold Scene.bind
  cases h : sc.obj n with
  | none => by_cases e : m = n <;> simp_all
  | some o =>
    rw [Scene.obj_put]
    have := Scene.obj_lt h
    by_cases e : m = n <;> simp_all

theorem Scene.bind_unbound (sc : Scene) (n m : Nat) (ch : Option Nat) :
    ((sc.bind n ch).obj m).map Obj.unbound = (sc.obj m).map Obj.unbound := by
  rw [Scene.obj_bind]
  by_cases e : m = n
  · subst e
    cases sc.obj m <;> simp [Obj.unbound]
  · simp [e]

theorem Scene.bind_rest (sc : Scene) (n : Nat) (ch : Option Nat) :
    sc.bind n ch = { sc with slots := (sc.bind n ch).slots } := by
  unfold Scene.bind
  split <;> rfl

theorem Scene.bind_group (sc : Scene) (n m : Nat) (ch : Option Nat) (g : Group) :
    (sc.bind n ch).inGroup g m = sc.inGroup g m := by
  have h := Scene.bind_unbound sc n m ch
  unfold Scene.inGroup
  cases h1 : (sc.bind n ch).obj m <;> cases h2 : sc.obj m <;> simp_all [Obj.unbound]

/-! ## Silent halts -/

/-- Channel n was in motion and has ended, and the object of its slot stands unbound (R77). -/
structure State.Ended (n : Nat) (s t : State) : Prop where
  busy : (s.chan n).phase ≠ .idle
  chan : t.chan n = (s.chan n).ended
  loose : ∀ k o, (s.chan n).slot = some k → t.obj k = some o → o.bound = none

/-- What defines no slot, gives no object a binding, and leaves each channel or ends it: an object loses its binding
only with the end of a channel that has its slot. -/
structure State.Loosed (s t : State) : Prop where
  bindings : ∀ k o, t.obj k = some o → ∃ o', s.obj k = some o'
    ∧ (o.bound = o'.bound ∨ (o.bound = none ∧ ∃ n, State.Ended n s t ∧ (s.chan n).slot = some k))
  channels : ∀ n, t.chan n = s.chan n ∨ State.Ended n s t

theorem State.Loosed.refl (s : State) : State.Loosed s s := ⟨fun _ o h => ⟨o, h, .inl rfl⟩, fun _ => .inl rfl⟩

/-- An ended channel stays ended under what loosens. -/
theorem State.Ended.before {n : Nat} {s t u : State} (h : State.Ended n s t) (k : State.Loosed t u) :
    State.Ended n s u := by
  have e : u.chan n = t.chan n := by
    rcases k.channels n with e | e
    · exact e
    · exact absurd (by rw [h.chan]; rfl) e.busy
  refine ⟨h.busy, e.trans h.chan, fun m o hm ho => ?_⟩
  obtain ⟨o', x, y | y⟩ := k.bindings m o ho
  · exact y.trans (h.loose m o' hm x)
  · exact y.1

/-- What loosens before the end of a channel has left that channel. -/
theorem State.Ended.after {n : Nat} {s t u : State} (h : State.Ended n t u) (k : State.Loosed s t) :
    State.Ended n s u ∧ t.chan n = s.chan n := by
  rcases k.channels n with g | g
  · exact ⟨⟨g ▸ h.busy, by rw [h.chan, g], fun m o hm ho => h.loose m o (g ▸ hm) ho⟩, g⟩
  · exact absurd (by rw [g.chan]; rfl) h.busy

theorem State.Loosed.trans {s t u : State} (h : State.Loosed s t) (k : State.Loosed t u) :
    State.Loosed s u where
  bindings n o e := by
    obtain ⟨o', e', b⟩ := k.bindings n o e
    obtain ⟨o'', e'', c⟩ := h.bindings n o' e'
    refine ⟨o'', e'', ?_⟩
    rcases b with b | ⟨b, m, g, hm⟩
    · rcases c with c | ⟨c, m, g, hm⟩
      · exact .inl (b.trans c)
      · exact .inr ⟨b.trans c, m, g.before k, hm⟩
    · obtain ⟨g', x⟩ := g.after h
      exact .inr ⟨b, m, g', x ▸ hm⟩
  channels n := by
    rcases k.channels n with e | e
    · exact (h.channels n).imp e.trans fun g => g.before k
    · exact .inr (e.after h).1

/-- A write of fields other than the binding loosens nothing. -/
theorem State.Loosed.ofWrite {s t : State} (hm : t.motion = s.motion)
    (h : ∀ n, (t.obj n).map (·.bound) = (s.obj n).map (·.bound)) : State.Loosed s t := by
  refine ⟨fun n o e => ?_, fun n => .inl (congrArg (fun m : Motion => m.channel n) hm)⟩
  have := h n
  rw [e] at this
  cases ho : s.obj n with
  | none => simp [ho] at this
  | some o' => exact ⟨o', rfl, .inl (by simpa [ho] using this)⟩

/-- What leaves the channels and the slots as they are loosens no more. -/
theorem State.Loosed.congr {s t u : State} (h : State.Loosed s t) (hc : ∀ n, u.chan n = t.chan n)
    (ho : ∀ n, u.obj n = t.obj n) : State.Loosed s u := by
  have ended {n : Nat} (e : State.Ended n s t) : State.Ended n s u :=
    ⟨e.busy, (hc n).trans e.chan, fun k o hk hx => e.loose k o hk (ho k ▸ hx)⟩
  refine ⟨fun k o hx => ?_, fun n => (h.channels n).imp (hc n).trans ended⟩
  obtain ⟨o', e, b⟩ := h.bindings k o (ho k ▸ hx)
  exact ⟨o', e, b.imp_right fun ⟨z, n, g, hn⟩ => ⟨z, n, ended g, hn⟩⟩

/-- An object keeps its binding while every channel that has its slot stands. -/
theorem State.Loosed.bound {s t : State} {k : Nat} {o o' : Obj} (h : State.Loosed s t) (e : t.obj k = some o)
    (e' : s.obj k = some o') (hc : ∀ n, (s.chan n).slot = some k → t.chan n = s.chan n) : o.bound = o'.bound := by
  obtain ⟨x, hx, y | ⟨_, n, g, hn⟩⟩ := h.bindings k o e
  · rw [e'] at hx
    cases hx
    exact y
  · exact absurd (by rw [← hc n hn, g.chan]; rfl) g.busy

/-- Channels that a chain of halts has left IDLE have ended silently. -/
theorem State.Loosed.silenced {s t : State} {l : List Nat} (h : State.Loosed s t)
    (hi : ∀ n ∈ l, (t.chan n).phase = .idle) : State.silenced s t l := by
  intro n hn
  refine ⟨hi n hn, fun hb => ?_⟩
  rcases h.channels n with e | e
  · exact absurd (e ▸ hi n hn) hb
  · exact ⟨e.chan, e.loose⟩

/-- What leaves the channels and the slots as they are leaves silent ends as they are. -/
theorem State.silenced.congr {s t u : State} {l : List Nat} (h : State.silenced s t l)
    (hc : ∀ n, u.chan n = t.chan n) (ho : ∀ n, u.obj n = t.obj n) : State.silenced s u l := fun n hn =>
  ⟨(congrArg Channel.phase (hc n)).trans (h n hn).1, fun hb =>
    ⟨(hc n).trans ((h n hn).2 hb).1, fun k o hk hk' => ((h n hn).2 hb).2 k o hk (ho k ▸ hk')⟩⟩

theorem State.Loosed.idle {s t : State} (h : State.Loosed s t) (n : Nat) (k : (s.chan n).phase = .idle) :
    (t.chan n).phase = .idle := by
  rcases h.channels n with e | e
  · rw [e]
    exact k
  · exact absurd k e.busy

/-- What frees channels and bindings and nothing else: the scene differs in bindings alone, profiles stand. -/
structure State.Freed (s t : State) : Prop where
  frame : State.sameBut [.scene, .motion] s t
  profiles : t.motion.profiles = s.motion.profiles
  rest : t.scene = { s.scene with slots := t.scene.slots }
  objects : ∀ n, (t.obj n).map Obj.unbound = (s.obj n).map Obj.unbound
  released : ∀ k o, t.obj k = some o → s.obj k = some o
    ∨ (o.bound = none ∧ ∃ n, State.Ended n s t ∧ (s.chan n).slot = some k)
  channels : ∀ n, t.chan n = s.chan n ∨ State.Ended n s t

theorem State.Freed.refl (s : State) : State.Freed s s :=
  ⟨State.sameBut_refl s _, rfl, rfl, fun _ => rfl, fun _ _ h => .inl h, fun _ => .inl rfl⟩

theorem State.Freed.loosed {s t : State} (h : State.Freed s t) : State.Loosed s t := by
  refine ⟨fun n o e => ?_, h.channels⟩
  rcases h.released n o e with x | x
  · exact ⟨o, x, .inl rfl⟩
  · have := h.objects n
    rw [e] at this
    cases ho : s.obj n with
    | none => simp [ho] at this
    | some o' => exact ⟨o', rfl, .inr x⟩

theorem State.Freed.trans {s t u : State} (h : State.Freed s t) (k : State.Freed t u) :
    State.Freed s u where
  frame := (h.frame.trans k.frame).mono (by simp)
  profiles := k.profiles.trans h.profiles
  rest := by
    rw [k.rest, h.rest]
  objects n := (k.objects n).trans (h.objects n)
  released n o e := by
    rcases k.released n o e with e | ⟨b, m, g, hm⟩
    · exact (h.released n o e).imp_right fun ⟨b, m, g, hm⟩ => ⟨b, m, g.before k.loosed, hm⟩
    · obtain ⟨g', x⟩ := g.after h.loosed
      exact .inr ⟨b, m, g', x ▸ hm⟩
  channels := (h.loosed.trans k.loosed).channels

/-- What a channel that ends leaves of the state; an IDLE one does not end. -/
theorem State.freeChannel_freed (s : State) (n : Nat) (hb : (s.chan n).phase ≠ .idle) :
    State.Freed s (s.freeChannel n) := by
  cases hs : (s.chan n).slot with
  | none =>
    rw [show s.freeChannel n = s.putChan n (s.chan n).ended by simp [State.freeChannel, hs]]
    refine ⟨State.onMotion_frame s _ |>.mono (by simp), rfl, rfl, fun _ => rfl, fun _ _ h => .inl h, ?_⟩
    intro k
    by_cases hk : k = n ∧ n < 8
    · obtain ⟨rfl, h8⟩ := hk
      exact .inr ⟨hb, by simp [State.chan_put, h8], fun m o hm => by simp [hs] at hm⟩
    · exact .inl (by simp [State.chan_put, hk])
  | some m =>
    rw [show s.freeChannel n = (s.onScene fun sc => sc.bind m none).putChan n (s.chan n).ended by
      simp [State.freeChannel, hs]]
    have h8 : n < 8 := by
      by_contra h
      exact hb (by rw [State.chan_idle s (by omega)]; rfl)
    have ended : State.Ended n s ((s.onScene fun sc => sc.bind m none).putChan n (s.chan n).ended) := by
      refine ⟨hb, by simp [State.chan_put, h8], fun m' o hm ho => ?_⟩
      obtain rfl : m = m' := by simpa [hs] using hm
      have ho : (s.scene.bind m none).obj m = some o := ho
      rw [Scene.obj_bind, if_pos rfl] at ho
      cases hm : s.scene.obj m <;> simp [hm] at ho
      rw [← ho]
    refine ⟨((State.onScene_frame s _).trans (State.onMotion_frame _ _)).mono (by simp), rfl,
      Scene.bind_rest _ _ _, fun k => Scene.bind_unbound s.scene m k none, ?_, ?_⟩
    · intro k o h
      have h : (s.scene.bind m none).obj k = some o := h
      rw [Scene.obj_bind] at h
      by_cases e : k = m
      · refine .inr ⟨?_, n, ended, by rw [hs, e]⟩
        cases hm : s.scene.obj m <;> simp [e, hm] at h
        rw [← h]
      · simp only [e, if_false] at h
        exact .inl h
    · intro k
      by_cases hk : k = n
      · exact .inr (hk ▸ ended)
      · exact .inl ((State.chan_put _ _ _ _).trans (by simp [hk]; rfl))

/-- A silent halt frees its channel and its binding (R90). -/
theorem State.silentHalt_freed (s : State) (n : Nat) : State.Freed s (s.silentHalt n) := by
  unfold State.silentHalt
  split
  · exact State.Freed.refl s
  · exact State.freeChannel_freed s n (by assumption)

/-- After a silent halt its channel is IDLE. -/
theorem State.silentHalt_idle (s : State) (n : Nat) : ((s.silentHalt n).chan n).phase = .idle := by
  unfold State.silentHalt
  split
  · assumption
  · rcases Nat.lt_or_ge n 8 with h | h
    · unfold State.freeChannel
      rw [State.chan_put]
      simp [h, Channel.ended]
    · simp [State.chan_idle _ h, Channel.idle]

/-- A silent halt touches no other channel. -/
theorem State.silentHalt_other (s : State) {n k : Nat} (h : k ≠ n) :
    (s.silentHalt n).chan k = s.chan k := by
  unfold State.silentHalt
  split
  · rfl
  · unfold State.freeChannel
    rw [State.chan_put]
    simp only [h, false_and, if_false]
    split <;> rfl

/-- An IDLE channel stays IDLE under what frees channels. -/
theorem State.Freed.idle {s t : State} (h : State.Freed s t) (n : Nat) (k : (s.chan n).phase = .idle) :
    (t.chan n).phase = .idle := h.loosed.idle n k

theorem State.silentHalts_freed (l : List Nat) (s : State) :
    State.Freed s (l.foldl State.silentHalt s) := by
  induction l generalizing s with
  | nil => exact State.Freed.refl s
  | cons n l ih => exact (State.silentHalt_freed s n).trans (ih _)

theorem State.silentHalts_idle (l : List Nat) (s : State) :
    ∀ n ∈ l, ((l.foldl State.silentHalt s).chan n).phase = .idle := by
  induction l generalizing s with
  | nil => simp
  | cons k l ih =>
    intro n hn
    rcases List.mem_cons.mp hn with e | e
    · subst e
      exact (State.silentHalts_freed l _).idle n (State.silentHalt_idle s n)
    · exact ih _ n e

theorem State.silentHalts_other (l : List Nat) (s : State) :
    ∀ n, n ∉ l → (l.foldl State.silentHalt s).chan n = s.chan n := by
  induction l generalizing s with
  | nil => simp
  | cons k l ih =>
    intro n hn
    simp only [List.mem_cons, not_or] at hn
    exact (ih _ n hn.2).trans (State.silentHalt_other s hn.1)

/-! ## Undefined slots -/

theorem Scene.obj_undefine (sc : Scene) (n m : Nat) :
    (sc.undefine n).obj m = if m = n then none else sc.obj m := by
  rw [Scene.undefine_eq]
  have h : ({ sc with slots := sc.slots.setIfInBounds n none, order := sc.order.filter (· ≠ n), mark := sc.mark || sc.placed n } : Scene).obj m = (sc.put n none).obj m := rfl
  rw [h, Scene.obj_put]
  by_cases e : m = n
  · subst e
    by_cases hn : m < 48
    · simp [hn]
    · cases ho : sc.obj m with
      | none => simp
      | some o => exact absurd (Scene.obj_lt ho) hn
  · simp [e]

/-- What an undefined slot leaves (R48, R90): the slot is undefined and out of the order, other slots lose at
most a binding, and only the channel bound to it ends. -/
structure State.Undefined (slots : List Nat) (s t : State) : Prop where
  frame : State.sameBut [.scene, .motion] s t
  profiles : t.motion.profiles = s.motion.profiles
  gone : ∀ n ∈ slots, t.obj n = none
  others : ∀ n, n ∉ slots → (t.obj n).map Obj.unbound = (s.obj n).map Obj.unbound
  order : t.scene.order = s.scene.order.filter fun n => !slots.contains n
  mark : t.scene.mark = (s.scene.mark || decide (t.scene.order ≠ s.scene.order))
  palettes : t.scene.palettes = s.scene.palettes
  load : t.scene.load = s.scene.load
  released : ∀ k o, t.obj k = some o → s.obj k = some o
    ∨ (o.bound = none ∧ ∃ n, State.Ended n s t ∧ (s.chan n).slot = some k)
  channels : ∀ n, t.chan n = s.chan n ∨ State.Ended n s t

theorem State.Undefined.loosed {slots : List Nat} {s t : State} (h : State.Undefined slots s t) :
    State.Loosed s t := by
  refine ⟨fun n o e => ?_, h.channels⟩
  rcases h.released n o e with x | x
  · exact ⟨o, x, .inl rfl⟩
  · have := h.others n fun hn => by simp [h.gone n hn] at e
    rw [e] at this
    cases ho : s.obj n with
    | none => simp [ho] at this
    | some o' => exact ⟨o', rfl, .inr x⟩

/-- A slot that is not undefined keeps its whole record while every channel that has it stands. -/
theorem State.Undefined.whole {slots : List Nat} {s t : State} {k : Nat} (h : State.Undefined slots s t)
    (hk : k ∉ slots) (hc : ∀ n, (s.chan n).slot = some k → t.chan n = s.chan n) : t.obj k = s.obj k := by
  cases ht : t.obj k with
  | none => simpa [ht, eq_comm] using h.others k hk
  | some o =>
    rcases h.released k o ht with e | ⟨_, n, g, hn⟩
    · exact e.symm
    · exact absurd (by rw [← hc n hn, g.chan]; rfl) g.busy

theorem State.undefineSlot_undefined (s : State) (n : Nat) : State.Undefined [n] s (s.undefineSlot n) := by
  obtain ⟨u, hu, he⟩ : ∃ u, State.Freed s u ∧ s.undefineSlot n = u.onScene fun sc => sc.undefine n := by
    unfold State.undefineSlot
    split
    · exact ⟨_, State.silentHalt_freed s _, rfl⟩
    · exact ⟨s, State.Freed.refl s, rfl⟩
  have ho : u.scene.order = s.scene.order := by rw [hu.rest]
  have hm : u.scene.mark = s.scene.mark := by rw [hu.rest]
  have ended {k : Nat} (e : State.Ended k s u) : State.Ended k s (u.onScene fun sc => sc.undefine n) :=
    ⟨e.busy, e.chan, fun m o hm h => by
      have h := (Scene.obj_undefine u.scene n m).symm.trans h
      by_cases e' : m = n
      · simp [e'] at h
      · simp only [e', if_false] at h
        exact e.loose m o hm h⟩
  rw [he]
  refine ⟨(hu.frame.trans (State.onScene_frame u _)).mono (by simp), hu.profiles, ?_, ?_, ?_, ?_, ?_, ?_, ?_,
    fun k => (hu.channels k).imp_right ended⟩
  · intro m hm
    rw [List.mem_singleton.mp hm]
    exact (Scene.obj_undefine u.scene n n).trans (by simp)
  · intro m hm
    rw [← hu.objects m]
    refine congrArg _ ((Scene.obj_undefine u.scene n m).trans ?_)
    simp [show m ≠ n by simpa using hm, State.obj]
  · simp only [State.onScene_scene, Scene.undefine_eq, ho]
    congr 1
    funext k
    by_cases e : k = n <;> simp [e]
  · simp only [State.onScene_scene, Scene.undefine_eq, ho, hm]
    congr 1
    rw [Bool.eq_iff_iff, decide_eq_true_iff, filter_ne_ne_iff]
    simp [Scene.placed, ho]
  · simp only [State.onScene_scene, Scene.undefine_eq]
    rw [hu.rest]
  · simp only [State.onScene_scene, Scene.undefine_eq]
    rw [hu.rest]
  · intro m o h
    have h := (Scene.obj_undefine u.scene n m).symm.trans h
    by_cases e : m = n
    · simp [e] at h
    · simp only [e, if_false] at h
      exact (hu.released m o h).imp_right fun ⟨b, k, e, hk⟩ => ⟨b, k, ended e, hk⟩

theorem State.Undefined.refl (s : State) : State.Undefined [] s s :=
  ⟨State.sameBut_refl s _, rfl, by simp, fun _ _ => rfl, by simp, by simp, rfl, rfl,
    fun _ _ h => .inl h, fun _ => .inl rfl⟩

theorem State.Undefined.trans {s t u : State} {l k : List Nat} (h : State.Undefined l s t)
    (g : State.Undefined k t u) : State.Undefined (l ++ k) s u where
  frame := (h.frame.trans g.frame).mono (by simp)
  profiles := g.profiles.trans h.profiles
  gone n hn := by
    by_cases hk : n ∈ k
    · exact g.gone n hk
    · have := g.others n hk
      rw [h.gone n ((List.mem_append.mp hn).resolve_right hk)] at this
      simpa using this
  others n hn := by
    simp only [List.mem_append, not_or] at hn
    exact (g.others n hn.2).trans (h.others n hn.1)
  order := by
    rw [g.order, h.order, List.filter_filter]
    congr 1
    funext n
    simp [Bool.and_comm]
  mark := by
    rw [g.mark, h.mark, g.order, h.order, Bool.or_assoc]
    congr 1
    rw [Bool.eq_iff_iff]
    simp only [Bool.or_eq_true, decide_eq_true_iff]
    constructor
    · rintro e he
      have hl : s.scene.order = s.scene.order.filter fun n => !l.contains n :=
        (List.filter_eq_self.mpr fun a ha => by
          rw [← he] at ha
          exact (List.mem_filter.mp (List.mem_filter.mp ha).1).2).symm
      rcases e with e | e
      · exact e hl.symm
      · exact e (by rw [he]; exact hl)
    · intro e
      by_contra hc
      simp only [not_or, Classical.not_not] at hc
      exact e (hc.2.trans hc.1)
  palettes := g.palettes.trans h.palettes
  load := g.load.trans h.load
  released n o e := by
    rcases g.released n o e with e | ⟨b, m, x, hm⟩
    · exact (h.released n o e).imp_right fun ⟨b, m, x, hm⟩ => ⟨b, m, x.before g.loosed, hm⟩
    · obtain ⟨x', y⟩ := x.after h.loosed
      exact .inr ⟨b, m, x', y ▸ hm⟩
  channels := (h.loosed.trans g.loosed).channels

/-- Freed channels undefine no slot. -/
theorem State.Freed.undefined {s t : State} (h : State.Freed s t) : State.Undefined [] s t := by
  have e := h.rest
  refine ⟨h.frame, h.profiles, by simp, fun n _ => h.objects n, ?_, ?_, ?_, ?_, h.released, h.channels⟩
  · rw [e]
    simp
  · rw [e]
    simp
  · rw [e]
  · rw [e]

/-- Slots undefined one after another (R162, R165). -/
theorem State.undefineSlots_undefined (l : List Nat) (s : State) :
    State.Undefined l s (l.foldl State.undefineSlot s) := by
  induction l generalizing s with
  | nil => exact State.Undefined.refl s
  | cons n l ih => exact (State.undefineSlot_undefined s n).trans (ih _)

end Sys2Proof.Machine
end

