-- ==== Sys2Proof/Laws/Menu.lean ====
section
/-!
SUPPORT. The Menu Navigator's writes: a field of another block's object, the markers and the highlight, the
jump and the glide in the words of the statements, and the neighbour chain along a path (R48, R112, R118,
R120, R122).
-/

namespace Sys2Proof.Machine

variable {s : State} {p : Page}

/-! ## Another block's write of a field (R48) -/

theorem Scene.obj_modify (sc : Scene) (n m : Nat) (f : Obj → Obj) :
    (sc.modify n f).obj m = if m = n then (sc.obj n).map f else sc.obj m := by
  cases h : sc.obj n with
  | none => rw [Scene.modify_none h]; by_cases e : m = n <;> simp_all
  | some o =>
    rw [Scene.modify_eq h]
    have put : ({ sc with slots := sc.slots.setIfInBounds n (some (f o)),
                          mark := sc.mark || (decide (f o ≠ o) && sc.placed n) } : Scene).obj m
        = (sc.put n (some (f o))).obj m := rfl
    rw [put, Scene.obj_put]
    have := Scene.obj_lt h
    by_cases e : m = n <;> simp_all

/-- A write of an object touches nothing of the scene but its slots and the mark. -/
theorem Scene.modify_rest (sc : Scene) (n : Nat) (f : Obj → Obj) :
    sc.modify n f = { sc with slots := (sc.modify n f).slots, mark := (sc.modify n f).mark } := by
  cases h : sc.obj n with
  | none => rw [Scene.modify_none h]
  | some o => rw [Scene.modify_eq h]

theorem State.setVisible_frame (s : State) (n : Nat) (v : Bool) :
    State.sameBut [.scene] s (s.setVisible n v) := State.onScene_frame s _

theorem State.setVisible_obj (s : State) (n m : Nat) (v : Bool) :
    (s.setVisible n v).obj m = if m = n then (s.obj n).map fun o => { o with visible := v } else s.obj m :=
  Scene.obj_modify _ _ _ _

theorem State.setVisible_rest (s : State) (n : Nat) (v : Bool) :
    (s.setVisible n v).scene =
      { s.scene with slots := (s.setVisible n v).scene.slots, mark := (s.setVisible n v).scene.mark } :=
  Scene.modify_rest _ _ _

theorem State.showFocusSlot_frame (s : State) (slot : Option Nat) (v : Bool) :
    State.sameBut [.scene] s (s.showFocusSlot slot v) := by
  unfold State.showFocusSlot
  split
  · exact State.setVisible_frame _ _ _
  · exact State.sameBut_refl _ _

theorem State.showFocusSlot_obj (s : State) (slot : Option Nat) (v : Bool) (m : Nat) :
    (s.showFocusSlot slot v).obj m =
      if slot = some m then (s.obj m).map fun o => { o with visible := v } else s.obj m := by
  cases slot with
  | none => simp [State.showFocusSlot]
  | some n =>
    simp only [State.showFocusSlot, State.setVisible_obj, Option.some.injEq]
    by_cases e : m = n
    · subst e; simp
    · simp [e, Ne.symm e]

theorem State.showFocusSlot_rest (s : State) (slot : Option Nat) (v : Bool) :
    (s.showFocusSlot slot v).scene =
      { s.scene with slots := (s.showFocusSlot slot v).scene.slots,
                     mark := (s.showFocusSlot slot v).scene.mark } := by
  unfold State.showFocusSlot
  split
  · exact State.setVisible_rest _ _ _
  · rfl

/-! ## Bindings under these writes (R67) -/

/-- A write that keeps the binding of the object it writes loosens nothing. -/
theorem State.modify_loosed (s : State) (n : Nat) (f : Obj → Obj) (hf : ∀ o, (f o).bound = o.bound) :
    State.Loosed s (s.onScene fun sc => sc.modify n f) := by
  refine State.Loosed.ofWrite rfl fun m => ?_
  show ((s.scene.modify n f).obj m).map _ = _
  rw [Scene.obj_modify]
  by_cases e : m = n
  · subst e
    cases h : s.scene.obj m <;> simp [State.obj, h, hf]
  · simp [e, State.obj]

theorem State.setVisible_loosed (s : State) (n : Nat) (v : Bool) : State.Loosed s (s.setVisible n v) :=
  State.modify_loosed s n _ fun _ => rfl

theorem State.showFocusSlot_loosed (s : State) (slot : Option Nat) (v : Bool) :
    State.Loosed s (s.showFocusSlot slot v) := by
  unfold State.showFocusSlot
  split
  · exact State.setVisible_loosed _ _ _
  · exact State.Loosed.refl s

/-- CLOSE MENU ends channel 0 silently and gives no object a binding (R127). -/
theorem State.closeMenu_loosed (s : State) : State.Loosed s s.closeMenu := by
  unfold State.closeMenu
  split
  · exact State.Loosed.refl s
  · rename_i p _
    exact (((State.silentHalt_freed s 0).loosed.trans (State.setVisible_loosed _ p.highlight false)).trans
      (State.showFocusSlot_loosed _ _ false)).trans (State.Loosed.ofWrite rfl fun _ => rfl)

theorem Obj.jump_bound (o : Obj) (cmdw : Nat) (e : Ends) : (o.jump cmdw e).bound = o.bound := by
  obtain ⟨g, vis, x, y, w, h, al, cl, c0, c1, c2, c3, body, bd⟩ := o
  simp only [Obj.jump, Obj.withSizes]
  cases body <;> repeat' split
  all_goals rfl

/-- The scene at an installation has ended channel 0, and the motion of the highlight, silently, and has given no
object a binding (R118). -/
theorem State.dressPage_silenced (s : State) (old : Option Page) (f : Option Nat) (p : Page) (g : Option Nat) :
    State.Loosed s (s.dressPage old f p g) ∧ State.silenced s (s.dressPage old f p g) [0]
      ∧ ∀ o n, s.obj p.highlight = some o → o.bound = some n → (s.chan 0).slot ≠ some p.highlight →
          State.silenced s (s.dressPage old f p g) [n] := by
  have hides : ∀ u : State, State.Loosed u (match old with
      | some q => if q.highlight ≠ p.highlight then u.setVisible q.highlight false else u
      | none => u) := by
    intro u
    split
    · split
      · exact State.setVisible_loosed _ _ _
      · exact State.Loosed.refl u
    · exact State.Loosed.refl u
  have jumps : ∀ u : State, State.Loosed u (match g.bind p.button with
      | some b => u.onScene fun sc => sc.modify p.highlight fun o => o.jump s.cmdw (b.grown p.margin)
      | none => u) := by
    intro u
    split
    · exact State.modify_loosed u _ _ fun o => Obj.jump_bound o _ _
    · exact State.Loosed.refl u
  have h1 := (State.silentHalt_freed s 0).loosed
  have markers : ∀ (l : List Button) (t : State),
      State.Loosed t (l.foldl (fun t b => t.showFocusSlot b.focusSlot false) t) := by
    intro l
    induction l with
    | nil => exact State.Loosed.refl
    | cons b l ih => exact fun t => (State.showFocusSlot_loosed t _ _).trans (ih _)
  have place : ∀ t : State, State.Loosed t
      (if t.scene.placed p.highlight then t else t.onScene fun sc => sc.place p.highlight .top) := by
    intro t
    split
    · exact State.Loosed.refl t
    · refine State.Loosed.ofWrite rfl fun n => ?_
      show ((t.scene.place p.highlight .top).obj n).map _ = _
      unfold Scene.place Scene.reorder
      split
      · rfl
      · split <;> rfl
  have tail : ∀ s2 u : State, State.Loosed s2 u → State.Loosed s2
      ((p.buttons.foldl (fun t b => t.showFocusSlot b.focusSlot false)
        ((let s5 := u.setVisible p.highlight g.isSome
          if s5.scene.placed p.highlight then s5
          else s5.onScene fun sc => sc.place p.highlight .top).showFocusSlot
            (old.bind fun q => f.bind q.focusSlot) false)).showFocusSlot (g.bind p.focusSlot) true) :=
    fun s2 u h => ((((h.trans (State.setVisible_loosed _ _ _)).trans (place _)).trans
      (State.showFocusSlot_loosed _ _ _)).trans (markers _ _)).trans (State.showFocusSlot_loosed _ _ _)
  obtain ⟨s2, h2, i2, rest⟩ : ∃ s2 : State, State.Loosed (s.silentHalt 0) s2
      ∧ (∀ o n, (s.silentHalt 0).obj p.highlight = some o → o.bound = some n → (s2.chan n).phase = .idle)
      ∧ State.Loosed s2 (s.dressPage old f p g) := by
    cases hb : ((s.silentHalt 0).obj p.highlight).bind (·.bound) with
    | none =>
      refine ⟨s.silentHalt 0, State.Loosed.refl _, fun o n ho hn => by simp [ho, hn] at hb, ?_⟩
      unfold State.dressPage
      simp only [hb]
      exact tail _ _ ((jumps _).trans (hides _))
    | some ch =>
      refine ⟨(s.silentHalt 0).silentHalt ch, (State.silentHalt_freed _ _).loosed, fun o n ho hn => ?_, ?_⟩
      · obtain rfl : n = ch := by simpa [ho, hn] using hb
        exact State.silentHalt_idle _ n
      · unfold State.dressPage
        simp only [hb]
        exact tail _ _ ((jumps _).trans (hides _))
  have all := (h1.trans h2).trans rest
  refine ⟨all, all.silenced ?_, fun o n ho hn hs => all.silenced ?_⟩
  · simpa using (h2.trans rest).idle 0 (State.silentHalt_idle s 0)
  · have : (s.silentHalt 0).obj p.highlight = some o := by
      unfold State.silentHalt
      split
      · exact ho
      · cases hc : (s.chan 0).slot with
        | none => simpa [State.freeChannel, hc, State.obj, State.putChan, State.onMotion] using ho
        | some k =>
          have : (s.scene.bind k none).obj p.highlight = some o := by
            rw [Scene.obj_bind, if_neg fun e => hs (by rw [hc, e])]
            exact ho
          simpa [State.freeChannel, hc, State.obj, State.putChan, State.onMotion, State.onScene] using this
    simpa using rest.idle n (i2 o n this hn)

/-! ## The highlight at a button (R112, R118, R122) -/

/-- The size that the clamped targets of a grown rectangle give the highlight. -/
theorem Obj.withSizes_grown (o : Obj) (b : Button) (margin : Nat) :
    o.withSizes glideFields (o.clampTargets glideFields false (b.grown margin)) = o.grownTo b margin := by
  obtain ⟨g, vis, x, y, w, h, al, cl, c0, c1, c2, c3, body, bd⟩ := o
  cases body <;> rfl

theorem Obj.sizeFits_grown (o : Obj) (cmdw : Nat) (b : Button) (margin : Nat) :
    o.sizeFits cmdw (b.grown margin) = (o.grownTo b margin).valid cmdw := by
  rw [Obj.sizeFits, Obj.withSizes_grown]

/-- The jump puts the highlight at the button (R118). -/
theorem Obj.jump_grown (o : Obj) (cmdw : Nat) (b : Button) (margin : Nat) :
    o.jump cmdw (b.grown margin) = o.atButton cmdw b margin := by
  simp only [Obj.jump, Obj.atButton, Obj.sizeFits_grown, Obj.withSizes_grown]
  rfl

/-- The glide is the request of R122. -/
theorem State.glide_request {g : Nat} {b : Button} {o : Obj} (hb : p.button g = some b)
    (ho : s.obj p.highlight = some o) :
    s.glide p g = (s.request (p.glideTo o s.cmdw b) .navigator).getD s := by
  have e : (if o.sizeFits s.cmdw (b.grown p.margin) = true then glideFields
      else (⟨true, true, false, false, false⟩ : Moved))
      = ⟨true, true, (o.grownTo b p.margin).valid s.cmdw, (o.grownTo b p.margin).valid s.cmdw, false⟩ := by
    rw [Obj.sizeFits_grown]
    cases (o.grownTo b p.margin).valid s.cmdw <;> rfl
  simp only [State.glide, hb, ho, e]
  rfl

/-! ## The neighbour chain (R120) -/

/-- Past a disabled button that is not the focus the chain goes on from it, with one hop less. -/
theorem Page.walk_disabled {d : Direction} {focus hops n k : Nat} {first : Bool}
    (h : (p.button n).bind (·.neighbour d) = some k) (hf : k ≠ focus) (he : p.enabled k = false) :
    p.walk d focus (hops + 1) n first = p.walk d focus hops k false := by
  simp [Page.walk, h, hf, he]

/-- An enabled button that is not the focus takes it. -/
theorem Page.walk_enabled {d : Direction} {focus hops n k : Nat} {first : Bool}
    (h : (p.button n).bind (·.neighbour d) = some k) (hf : k ≠ focus) (he : p.enabled k = true) :
    p.walk d focus (hops + 1) n first = .moved k := by
  simp [Page.walk, h, hf, he]

/-- A chain that comes back to the focus stays. -/
theorem Page.walk_round {d : Direction} {focus hops n : Nat} {first : Bool}
    (h : (p.button n).bind (·.neighbour d) = some focus) :
    p.walk d focus (hops + 1) n first = .stays 2 := by
  simp [Page.walk, h]

/-- A chain that has no further link stays. -/
theorem Page.walk_end {d : Direction} {focus hops n : Nat} {first : Bool}
    (h : (p.button n).bind (·.neighbour d) = none) :
    p.walk d focus (hops + 1) n first = .stays (if first then 1 else 2) := by
  simp [Page.walk, h]

/-- What the chain finds it moves to: an enabled button other than the focus. -/
theorem Page.walk_moved {d : Direction} {focus hops n g : Nat} {first : Bool}
    (h : p.walk d focus hops n first = .moved g) : p.enabled g = true ∧ g ≠ focus := by
  induction hops generalizing n first with
  | zero => simp [Page.walk] at h
  | succ hops ih =>
    simp only [Page.walk] at h
    split at h
    · cases h
    · split at h
      · cases h
      · split at h
        · cases h
          exact ⟨by assumption, by assumption⟩
        · exact ih h

/-! ## The buttons of a page (R116) -/

/-- The first button at fault is found with its number. -/
theorem State.buttonsFault_first {bs : List Button} {base : Nat} :
    (s.buttonsFault p base bs = none ↔ ∀ b ∈ bs, s.buttonFault p b = none)
    ∧ ∀ n b, bs[n]? = some b → (∀ k c, k < n → bs[k]? = some c → s.buttonFault p c = none) →
        ∀ r, s.buttonFault p b = some r → s.buttonsFault p base bs = some (r, base + n) := by
  induction bs generalizing base with
  | nil => simp [State.buttonsFault]
  | cons b bs ih =>
    constructor
    · simp only [State.buttonsFault, List.mem_cons, forall_eq_or_imp]
      cases h : s.buttonFault p b with
      | none => simpa using ih.1
      | some r => simp
    · intro n c hc hk r hr
      cases n with
      | zero =>
        obtain rfl : b = c := by simpa using hc
        simp [State.buttonsFault, hr]
      | succ n =>
        have h0 : s.buttonFault p b = none := hk 0 b (by omega) rfl
        simp only [State.buttonsFault, h0]
        rw [ih.2 n c (by simpa using hc) (fun k e hl he => hk (k + 1) e (by omega) (by simpa using he)) r hr]
        congr 2
        omega

end Sys2Proof.Machine
end

