-- ==== Sys2Proof/Laws/Show.lean ====
section
/-!
SUPPORT. The Slide Sequencer's shared operations: what the load of an index and an owed advance can do.
-/

namespace Sys2Proof.Machine

variable {s : State}

/-- The load of an index touches the Sequencer, the FETCH list and the events, and sets the incoming
index (R138). -/
theorem State.loadBegin_eq (s : State) (j : Nat) (slot : Option Nat) :
    s.loadBegin j slot =
      { s with
        seq := { (s.loadBegin j slot).seq with
                 advanceOwed := s.seq.advanceOwed, incoming := some j, backward := s.seq.backward },
        bridge := (s.loadBegin j slot).bridge, events := (s.loadBegin j slot).events } := by
  unfold State.loadBegin
  dsimp only
  repeat' split
  all_goals rfl

theorem State.loadBegin_bridge (s : State) (j : Nat) (slot : Option Nat) :
    (s.loadBegin j slot).bridge =
      { s.bridge with fetch := (s.loadBegin j slot).bridge.fetch } := by
  unfold State.loadBegin
  dsimp only
  repeat' split
  all_goals rfl

theorem State.loadBegin_frame (s : State) (j : Nat) (slot : Option Nat) :
    State.sameBut [.seq, .bridge, .events] s (s.loadBegin j slot) := by
  intro p hp
  rw [State.loadBegin_eq]
  cases p <;> simp_all [Part.same]

@[simp] theorem State.loadBegin_ready (s : State) (j : Nat) (slot : Option Nat) :
    (s.loadBegin j slot).seq.ready = s.seq.ready := by
  unfold State.loadBegin
  dsimp only
  repeat' split
  all_goals rfl

/-- A load whose ready flag is set raises no event (R138). -/
theorem State.loadBegin_events (j : Nat) (slot : Option Nat) (h : s.seq.readyAt j = true) :
    (s.loadBegin j slot).events = s.events := by
  unfold State.loadBegin
  simp only [h, Bool.not_true, Bool.false_eq_true, if_false]
  repeat' split
  all_goals rfl

/-- A ready-byte notice touches the Sequencer, the FETCH list and the events (R136). -/
theorem State.readyNotice_frame (s : State) (i : Nat) (v : Byte) :
    State.sameBut [.seq, .bridge, .events] s (s.readyNotice i v) := by
  unfold State.readyNotice
  dsimp only
  have key := State.onSeq_frame s fun q => { q with ready := q.ready.setIfInBounds i (v != 0) }
  repeat' split
  all_goals first
    | exact key.mono (by simp)
    | exact (key.trans (State.loadBegin_frame _ i none)).mono (by simp)
    | (intro p hp; cases p <;> simp_all [Part.same])

theorem State.readyNotice_bridge (s : State) (i : Nat) (v : Byte) :
    (s.readyNotice i v).bridge = { s.bridge with fetch := (s.readyNotice i v).bridge.fetch } := by
  unfold State.readyNotice
  dsimp only
  repeat' split
  all_goals first
    | rfl
    | (rw [State.loadBegin_bridge]; rfl)

/-- A ready-byte notice sets or clears the flag of its index (R136). -/
theorem State.readyNotice_ready (s : State) (i : Nat) (v : Byte) :
    (s.readyNotice i v).seq.ready = s.seq.ready.setIfInBounds i (v != 0) := by
  unfold State.readyNotice
  dsimp only
  repeat' split
  all_goals first
    | rfl
    | (rw [State.loadBegin_ready]; rfl)

@[simp] theorem State.loadBegin_advanceOwed (s : State) (j : Nat) (slot : Option Nat) :
    (s.loadBegin j slot).seq.advanceOwed = s.seq.advanceOwed := by rw [State.loadBegin_eq]

@[simp] theorem State.loadBegin_incoming (s : State) (j : Nat) (slot : Option Nat) :
    (s.loadBegin j slot).seq.incoming = some j := by rw [State.loadBegin_eq]

@[simp] theorem State.loadBegin_backward (s : State) (j : Nat) (slot : Option Nat) :
    (s.loadBegin j slot).seq.backward = s.seq.backward := by rw [State.loadBegin_eq]

/-- A load whose ready flag is clear waits (R138). -/
theorem State.loadBegin_waiting (j : Nat) (slot : Option Nat) (h : s.seq.readyAt j = false) :
    (s.loadBegin j slot).seq.state = .waiting ∧ (s.loadBegin j slot).seq.late = true
      ∧ (s.loadBegin j slot).bridge.fetch = s.bridge.fetch := by
  unfold State.loadBegin
  simp only [h, Bool.not_false, if_true]
  repeat' split
  all_goals exact ⟨rfl, rfl, rfl⟩

/-- A load whose ready flag is set starts its read in NORMAL, when no read is in flight (R138). -/
theorem State.loadBegin_reads (j : Nat) (slot : Option Nat) (h : s.seq.readyAt j = true)
    (hn : s.takeover.state = .normal) (hr : s.seq.read = none) :
    (s.loadBegin j slot).seq.state = .loading ∧ (s.loadBegin j slot).seq.read = some ⟨j, false⟩
      ∧ (s.loadBegin j slot).bridge.fetch
          = s.bridge.fetch ++ [⟨.descriptor, s.seq.setup.base + 64 * j, 16, 0, []⟩] := by
  simp [State.loadBegin, h, hn, hr, State.startFetch, SlideList.descriptor]

/-- Everything the load of an index can do (R138). -/
theorem State.loadBegin_begun (u : State) (j : Nat) (slot : Option Nat) :
    State.loadBegun u j slot (u.loadBegin j slot) := by
  refine ⟨State.loadBegin_frame u j slot, State.loadBegin_bridge u j slot, fun h => ?_, fun h => ?_⟩
  · by_cases hi : u.seq.incoming = some j
    · cases hl : u.seq.late <;> simp [State.loadBegin, h, hi, hl, State.raise, SlideList.descriptor]
    · simp [State.loadBegin, h, hi, State.raise, SlideList.descriptor]
  · by_cases hn : u.takeover.state = .normal
    · cases hr : u.seq.read <;> by_cases hi : u.seq.incoming = some j <;>
        simp [State.loadBegin, h, hn, hr, hi, State.startFetch, SlideList.descriptor]
    · by_cases hi : u.seq.incoming = some j <;> simp [State.loadBegin, h, hn, hi]

/-- An owed advance that leaves the list raises SHOW END (R145). -/
theorem State.takeOwedAdvance_end {i : Nat} (ho : s.seq.advanceOwed = true)
    (hc : s.seq.current = some i) (hn : s.seq.setup.next i false = none) :
    s.takeOwedAdvance =
      (s.onSeq fun q => { q with advanceOwed := false }).raise
        (.showEnd (some i) true false s.seq.setup.base s.seq.setup.count) none := by
  have hs : (s.onSeq fun q => { q with advanceOwed := false }).seq.setup = s.seq.setup := rfl
  simp only [State.takeOwedAdvance, ho, if_true, State.advance, hs]
  simp [hc, hn]

/-- An owed advance that stays in the list begins the load of the next index (R145). -/
theorem State.takeOwedAdvance_load {i j : Nat} (ho : s.seq.advanceOwed = true)
    (hc : s.seq.current = some i) (hn : s.seq.setup.next i false = some j) :
    s.takeOwedAdvance =
      ((s.onSeq fun q => { q with advanceOwed := false }).onSeq
        fun q => { q with backward := false }).loadBegin j none := by
  have hs : (s.onSeq fun q => { q with advanceOwed := false }).seq.setup = s.seq.setup := rfl
  simp only [State.takeOwedAdvance, ho, if_true, State.advance, hs]
  simp [hc, hn]

end Sys2Proof.Machine
end

