-- ==== Sys2Proof/Laws/Takeover.lean ====
section
/-!
SUPPORT. The Takeover Unit's shared operations: what an accepted request, the stop of a show, a recovery and
the start of COPY do (R151, R159 to R163, R170).
-/

namespace Sys2Proof.Machine

variable {s : State}

/-- Outside DRAIN a step of the drain does nothing (R160). -/
theorem State.drainStep_idle (h : s.takeover.state ≠ .entering ∨ s.takeover.phase ≠ some .drain) :
    s.drainStep = s := by
  rcases h with h | h <;> simp [State.drainStep, h]

/-- While a composition is in flight DRAIN stands (R160). -/
theorem State.drainStep_composing (h : s.composer.comp ≠ none) : s.drainStep = s := by
  simp [State.drainStep, Option.isSome_iff_ne_none.mpr h]

/-- The DRAIN of an entry stands while something it waits for is left (R160). -/
theorem State.drainStep_waits (hr : s.takeover.facts.any (·.recovered) = false) (h : s.drainWaits) :
    s.drainStep = s := by
  by_cases hc : s.composer.comp = none
  · have : ¬ ((s.intake.inService.isNone ∨ s.takeoverServed = true) ∧ s.seq.read.isNone = true) := by
      rcases h with h | ⟨h, k⟩ | h
      · exact absurd hc h
      · simp [h, k]
      · simp [h]
    unfold State.drainStep
    split
    · rfl
    · simp only [hr, Bool.false_eq_true, if_false]
  · exact State.drainStep_composing hc

/-- SAVE begins with the facts of the moment and what it will write (R161). -/
theorem State.startSave_begun (f : EntryFacts) (hf : s.takeover.facts = some f) :
    State.saveBegun s f s.startSave := by
  have hb : (s.seq.state == .changing) = decide (s.seq.state = .changing) := by cases s.seq.state <;> rfl
  refine ⟨s.saveBursts ⟨f.source, f.recovered, decide (s.seq.state = .changing), s.seq.paused, s.seq.pauseMode⟩
    s.scene.slideSlots s.slideChannels, s.scene.slideSlots, s.slideChannels, ?_, ?_, ?_, ?_, ?_, ?_⟩
  · simp only [State.startSave, State.onTakeover, hb, hf]
    rfl
  · intro facts e
    simp only [State.startSave, State.onTakeover_takeover, Option.some.injEq, hb, hf] at e
    rw [← e]
    rfl
  · exact List.pairwise_lt_range.filter _
  · exact List.pairwise_lt_range.filter _
  · intro n
    simp only [Scene.slideSlots, List.mem_filter, List.mem_range, Scene.inGroup, State.obj]
    constructor
    · rintro ⟨_, h⟩
      cases ho : s.scene.obj n <;> simp_all
    · rintro ⟨o, ho, hg⟩
      exact ⟨Scene.obj_lt ho, by simp [ho, hg]⟩
  · intro n
    simp only [State.slideChannels, List.mem_filter, List.mem_range, State.onSlideObject, Scene.inGroup,
      State.obj]
    refine and_congr_right fun _ => ?_
    cases hc : (s.chan n).slot with
    | none => simp
    | some k => cases ho : s.scene.obj k <;> simp [ho]

/-- The DRAIN of an entry ends with SAVE when nothing it waits for is left (R160, R161). -/
theorem State.drainStep_saves (he : s.takeover.state = .entering) (hp : s.takeover.phase = some .drain)
    (f : EntryFacts) (hf : s.takeover.facts = some f) (hr : f.recovered = false) (h : ¬ s.drainWaits) :
    State.saveBegun s f s.drainStep := by
  simp only [State.drainWaits, not_or, not_and, ne_eq, Classical.not_not, Bool.not_eq_false] at h
  obtain ⟨h1, h2, h3⟩ := h
  have h4 : s.intake.inService.isNone ∨ s.takeoverServed = true := by
    by_cases e : s.intake.inService = none
    · exact .inl (by simp [e])
    · exact .inr (h2 e)
  have : s.drainStep = s.startSave := by
    unfold State.drainStep
    rw [if_neg (by simp [he, hp, h1]), if_neg (by simp [hf, hr]), if_pos ⟨h4, by simp [h3]⟩]
  rw [this]
  exact State.startSave_begun f hf

/-- An accepted request drains, or begins SAVE at once (R159 to R161). -/
theorem State.acceptRequest_enters (u : State) (source : Source) :
    State.enters u source (u.acceptRequest source) :=
  ⟨fun h => State.drainStep_waits rfl h, fun h => State.drainStep_saves rfl rfl _ rfl rfl h⟩

/-- A release of the held motions touches the channels alone, and none while nothing is held (R87). -/
theorem State.releaseAll_frame (s : State) : State.sameBut [.motion] s s.releaseAll
    ∧ s.releaseAll.motion.profiles = s.motion.profiles := by
  unfold State.releaseAll
  generalize List.range 8 = l
  induction l generalizing s with
  | nil => exact ⟨State.sameBut_refl s _, rfl⟩
  | cons n l ih =>
    rw [List.foldl_cons]
    dsimp only
    split
    · exact ⟨((State.onMotion_frame s _).trans (ih _).1).mono (by simp), (ih _).2⟩
    · exact ih s

/-- Channels that take a change one after another, each under a test that looks at itself alone. -/
theorem State.foldl_putChan (g : Channel → Channel) (test : State → Nat → Bool)
    (ht : ∀ s n m c, m ≠ n → test (State.putChan s n c) m = test s m) (l : List Nat) (s : State)
    (hd : l.Nodup) (hl : ∀ n ∈ l, n < 8) (m : Nat) :
    (l.foldl (fun s n => if test s n then s.putChan n (g (s.chan n)) else s) s).chan m =
      if m ∈ l ∧ test s m then g (s.chan m) else s.chan m := by
  induction l generalizing s with
  | nil => simp
  | cons a l ih =>
    have ha := (List.nodup_cons.mp hd).1
    have h8 := hl a (by simp)
    simp only [List.foldl_cons]
    rw [ih _ (List.nodup_cons.mp hd).2 fun n hn => hl n (by simp [hn])]
    by_cases hm : m = a
    · subst hm
      have e : ∀ x, (m ∈ l ∧ x) ↔ False := fun x => ⟨fun h => ha h.1, False.elim⟩
      simp only [e, if_false]
      split <;> simp_all [State.chan_put]
    · split
      · rw [ht _ _ _ _ hm, State.chan_put]
        simp [hm]
      · simp [hm]

/-- What a release makes of each channel (R87). -/
theorem State.releaseAll_chan (s : State) (m : Nat) (hm : m < 8) :
    s.releaseAll.chan m = if (s.chan m).hold ≠ none then (s.chan m).released else s.chan m := by
  have := State.foldl_putChan Channel.released (fun s n => decide ((s.chan n).hold ≠ none))
    (fun s n m c h => by simp [State.chan_put, h]) (List.range 8) s List.nodup_range (by simp) m
  simp only [decide_eq_true_eq, List.mem_range, hm, true_and] at this
  exact this

/-- What a hold of the show makes of each channel (R86). -/
theorem State.holdAll_chan (s : State) (mode : HoldMode) (m : Nat) (hm : m < 8) :
    (s.holdAll mode).chan m =
      if (s.chan m).phase ≠ .idle
          ∧ ((s.chan m).owner = some .sequencer ∨ s.onSlideObject (s.chan m)) then
        (s.chan m).holdWith mode
      else s.chan m := by
  have := State.foldl_putChan (fun c => c.holdWith mode)
    (fun s n => decide ((s.chan n).phase ≠ .idle
      ∧ ((s.chan n).owner = some .sequencer ∨ s.onSlideObject (s.chan n))))
    (fun s n m c h => by simp [State.chan_put, h]; rfl) (List.range 8) s List.nodup_range (by simp) m
  simp only [decide_eq_true_eq, List.mem_range, hm, true_and] at this
  exact this

/-- A hold of the show touches the channels alone (R86). -/
theorem State.holdAll_frame (s : State) (mode : HoldMode) : State.sameBut [.motion] s (s.holdAll mode)
    ∧ (s.holdAll mode).motion.profiles = s.motion.profiles := by
  unfold State.holdAll
  generalize List.range 8 = l
  induction l generalizing s with
  | nil => exact ⟨State.sameBut_refl s _, rfl⟩
  | cons n l ih =>
    rw [List.foldl_cons]
    dsimp only
    split
    · exact ⟨((State.onMotion_frame s _).trans (ih _).1).mono (by simp), (ih _).2⟩
    · exact ih s

/-- A released channel that is IDLE stays so. -/
theorem Channel.released_idle {c : Channel} (h : c.phase = .idle) : c.released.phase = .idle := by
  simp [Channel.released, h]

theorem State.releaseAll_idle (s : State) (k : Nat) (h : (s.chan k).phase = .idle) :
    (s.releaseAll.chan k).phase = .idle := by
  unfold State.releaseAll
  generalize List.range 8 = l
  induction l generalizing s with
  | nil => exact h
  | cons n l ih =>
    rw [List.foldl_cons]
    dsimp only
    split
    · apply ih
      rw [State.chan_put]
      split
      · rename_i e
        rw [← e.1]
        exact Channel.released_idle h
      · exact h
    · exact ih s h

/-- A slot undefined when it is defined (R151). -/
def State.undefineIf (s : State) (n : Nat) : State := if (s.obj n).isSome then s.undefineSlot n else s

theorem State.undefineIf_undefined (s : State) (n : Nat) :
    State.Undefined (if (s.obj n).isSome then [n] else []) s (s.undefineIf n) := by
  unfold State.undefineIf
  split
  · exact State.undefineSlot_undefined s n
  · exact State.Undefined.refl s

/-- An undefined slot ends no channel but the one bound to it (R48). -/
theorem State.undefineIf_other {n k : Nat} (h : ∀ o, s.obj n = some o → o.bound ≠ some k) :
    (s.undefineIf n).chan k = s.chan k := by
  unfold State.undefineIf State.undefineSlot
  cases ho : s.obj n with
  | none => simp
  | some o =>
    cases hb : o.bound with
    | none => simp [hb, State.chan]
    | some m =>
      have hm : k ≠ m := fun e => h o ho (by rw [hb, e])
      simp only [Option.isSome_some, if_true, Option.bind_some, hb]
      exact State.silentHalt_other s hm

/-- An undefined slot ends the channel bound to it (R48, R90). -/
theorem State.undefineIf_idle {n k : Nat} {o : Obj} (ho : s.obj n = some o) (hb : o.bound = some k) :
    ((s.undefineIf n).chan k).phase = .idle := by
  unfold State.undefineIf State.undefineSlot
  simp only [ho, Option.isSome_some, if_true, Option.bind_some, hb]
  exact State.silentHalt_idle s k

/-- A stopped show (R151): channels 5, 6 and 7 are IDLE, slot A and slot B are undefined, and the Sequencer
holds the values of a stop. -/
theorem State.stopShow_spec (s : State) (l : SlideList) (hl : s.seq.setup = l) :
    ∃ slots u, State.Undefined slots s u
      ∧ (∀ n, n ∈ slots ↔ (n = l.slotA ∨ n = l.slotB) ∧ (s.obj n).isSome)
      ∧ (∀ n ∈ [5, 6, 7], (u.chan n).phase = .idle)
      ∧ (∀ n k o, k = l.slotA ∨ k = l.slotB → s.obj k = some o → o.bound = some n →
          (∀ m, m ≠ n → (s.chan m).slot ≠ some k) → (u.chan n).phase = .idle)
      ∧ (∀ n, n ∉ [5, 6, 7] →
          (∀ k o, k = l.slotA ∨ k = l.slotB → s.obj k = some o → o.bound ≠ some n) → u.chan n = s.chan n)
      ∧ s.stopShow =
          ((if s.seq.paused then u.releaseAll else u).onSeq fun _ =>
            s.seq.withoutShow).onTakeover
                fun t => { t with jumpPending := false } := by
  subst hl
  have f := State.silentHalts_freed [5, 6, 7] s
  have i := State.silentHalts_idle [5, 6, 7] s
  have o := State.silentHalts_other [5, 6, 7] s
  simp only [List.foldl_cons, List.foldl_nil] at f i o
  have i : ∀ n ∈ [5, 6, 7], ((((s.silentHalt 5).silentHalt 6).silentHalt 7).chan n).phase = .idle := by
    simpa using i
  obtain ⟨s1, e1⟩ : ∃ s1, s1 = ((s.silentHalt 5).silentHalt 6).silentHalt 7 := ⟨_, rfl⟩
  rw [← e1] at f i o
  have hA := State.undefineIf_undefined s1 s.seq.setup.slotA
  obtain ⟨s2, e2⟩ : ∃ s2, s2 = State.undefineIf s1 s.seq.setup.slotA := ⟨_, rfl⟩
  rw [← e2] at hA
  have hB := State.undefineIf_undefined s2 s.seq.setup.slotB
  obtain ⟨s3, e3⟩ : ∃ s3, s3 = State.undefineIf s2 s.seq.setup.slotB := ⟨_, rfl⟩
  rw [← e3] at hB
  have hs : ∀ n, (s1.obj n).isSome = (s.obj n).isSome := fun n => by
    have := congrArg Option.isSome (f.objects n)
    simpa using this
  refine ⟨_, s3, (f.undefined.trans hA).trans hB, ?_, ?_, ?_, ?_, ?_⟩
  · intro n
    have hs2 : n ≠ s.seq.setup.slotA → (s2.obj n).isSome = (s.obj n).isSome := fun hn => by
      have h2 := congrArg Option.isSome (hA.others n (by split <;> simp [hn]))
      rw [← hs n]
      simpa using h2
    by_cases ea : n = s.seq.setup.slotA
    · subst ea
      by_cases hn : (s.obj s.seq.setup.slotA).isSome
      · simp [hn, hs]
      · have h2 : (s2.obj s.seq.setup.slotA).isSome = false := by
          simp [e2, State.undefineIf, hs, hn]
        simp only [hs, hn, Bool.false_eq_true, if_false, List.append_nil, List.nil_append, and_false, iff_false]
        split
        · rename_i hh
          simp only [List.mem_singleton]
          intro e
          rw [← e, h2] at hh
          exact absurd hh (by simp)
        · simp
    · have h1 : n ∉ (if (s1.obj s.seq.setup.slotA).isSome then [s.seq.setup.slotA] else []) := by
        split <;> simp [ea]
      by_cases eb : n = s.seq.setup.slotB
      · subst eb
        simp only [List.nil_append, List.mem_append, h1, false_or, hs2 ea, ea, or_true, true_and]
        split <;> simp_all
      · have h2 : n ∉ (if (s2.obj s.seq.setup.slotB).isSome then [s.seq.setup.slotB] else []) := by
          split <;> simp [eb]
        simp only [List.nil_append, List.mem_append, h1, h2, ea, eb, or_self, false_and]
  · exact fun n hn => hB.loosed.idle n (hA.loosed.idle n (i n hn))
  · intro n k o hk ho hb hm
    by_cases h2 : (s2.chan n).phase = .idle
    · exact hB.loosed.idle n h2
    have h1 : (s1.chan n).phase ≠ .idle := fun h => h2 (hA.loosed.idle n h)
    have keeps (v : State) (hv : State.Loosed s v) (hi : (v.chan n).phase ≠ .idle) (x : Obj)
        (hx : v.obj k = some x) : x.bound = some n := by
      obtain ⟨x', e, y | ⟨_, m, g, hs⟩⟩ := hv.bindings k x hx
      · rw [ho] at e
        cases e
        exact y.trans hb
      · obtain rfl : m = n := by
          by_contra hne
          exact hm m hne hs
        exact absurd (by rw [g.chan]; rfl) hi
    have some1 : (s1.obj k).isSome := by rw [hs, ho]; rfl
    rcases hk with rfl | rfl
    · obtain ⟨x, hx⟩ := Option.isSome_iff_exists.mp some1
      exact absurd (e2 ▸ State.undefineIf_idle hx (keeps s1 f.loosed h1 x hx)) h2
    · cases hx : s2.obj s.seq.setup.slotB with
      | some x => exact e3 ▸ State.undefineIf_idle hx (keeps s2 (f.loosed.trans hA.loosed) h2 x hx)
      | none =>
        have hab : s.seq.setup.slotB = s.seq.setup.slotA := by
          by_contra hne
          have := hA.others _ (show s.seq.setup.slotB ∉ _ by split <;> simp [hne])
          rw [hx] at this
          simp [Option.isSome_iff_exists] at some1 this
          obtain ⟨y, hy⟩ := some1
          simp [hy] at this
        rw [hab] at some1 keeps
        obtain ⟨x, hx⟩ := Option.isSome_iff_exists.mp some1
        exact absurd (e2 ▸ State.undefineIf_idle hx (keeps s1 f.loosed h1 x hx)) h2
  · intro n hn hb
    have r1 : ∀ k o, k = s.seq.setup.slotA ∨ k = s.seq.setup.slotB → s1.obj k = some o → o.bound ≠ some n := by
      intro k o hk ho
      rcases f.released k o ho with e | e
      · exact hb k o hk e
      · simp [e]
    have r2 : ∀ k o, k = s.seq.setup.slotA ∨ k = s.seq.setup.slotB → s2.obj k = some o → o.bound ≠ some n := by
      intro k o hk ho
      rcases hA.released k o ho with e | e
      · exact r1 k o hk e
      · simp [e]
    rw [e3, State.undefineIf_other (fun o ho => r2 _ o (.inr rfl) ho), e2,
      State.undefineIf_other (fun o ho => r1 _ o (.inl rfl) ho)]
    exact o n hn
  · have q3 : s3.seq = s.seq := by
      rw [hB.frame .seq (by simp), hA.frame .seq (by simp), f.frame .seq (by simp)]
    have q4 : s3.releaseAll.seq = s.seq := by
      rw [(State.releaseAll_frame s3).1 .seq (by simp), q3]
    unfold State.stopShow
    simp only [← e1]
    have e2' : (if (s1.obj s.seq.setup.slotA).isSome = true then s1.undefineSlot s.seq.setup.slotA else s1) = s2 := e2.symm
    simp only [e2']
    have e3' : (if (s2.obj s.seq.setup.slotB).isSome = true then s2.undefineSlot s.seq.setup.slotB else s2) = s3 := e3.symm
    simp only [e3']
    cases h : s.seq.paused <;> simp [State.onSeq, q3, q4, h, Sequencer.withoutShow]

/-- The stop of a show touches the scene, the channels, the Sequencer and jump pending (R151). -/
theorem State.stopShow_frame (s : State) :
    State.sameBut [.scene, .motion, .seq, .takeover] s s.stopShow := by
  obtain ⟨slots, u, h, _, _, _, _, e⟩ := State.stopShow_spec s s.seq.setup rfl
  rw [e]
  have h1 : State.sameBut [.scene, .motion] s (if s.seq.paused then u.releaseAll else u) := by
    split
    · exact (h.frame.trans (State.releaseAll_frame u).1).mono (by simp)
    · exact h.frame
  exact ((h1.trans (State.onSeq_frame _ _)).trans (State.onTakeover_frame _ _)).mono (by simp)

theorem State.stopShow_takeover (s : State) :
    s.stopShow.takeover = { s.takeover with jumpPending := false } := by
  obtain ⟨slots, u, h, _, _, _, _, e⟩ := State.stopShow_spec s s.seq.setup rfl
  rw [e]
  have ht : u.takeover = s.takeover := h.frame .takeover (by simp)
  have hr : u.releaseAll.takeover = s.takeover := ((State.releaseAll_frame u).1 .takeover (by simp)).trans ht
  cases s.seq.paused <;> simp [ht, hr]

theorem State.stopShow_seq (s : State) : s.stopShow.seq = s.seq.withoutShow := by
  obtain ⟨slots, u, h, _, _, _, _, e⟩ := State.stopShow_spec s s.seq.setup rfl
  rw [e]
  rfl

/-- A release in the words of the statements, row by row of R87. -/
theorem Channel.released_takes (c : Channel) : c.takesRelease (if c.hold ≠ none then c.released else c) := by
  unfold Channel.takesRelease
  refine ⟨fun h => by simp [h], fun h hp => ?_, fun h hp => ?_, fun h hp => ?_, fun h hp => ?_⟩
  · simp [h, Channel.released, hp, Channel.releaseHeld, Channel.remaining, risePhase]
    rfl
  · simp [Channel.released, hp, h]
  · rcases h with h | h <;> simp [Channel.released, hp, h, Channel.remaining] <;> rfl
  · simp only [List.mem_cons, List.not_mem_nil, or_false] at hp
    rcases hp with hp | hp | hp | hp | hp | hp <;> simp [h, Channel.released, hp]

/-- The slots that a stop undefines. -/
theorem State.mem_slots (s : State) (n : Nat) :
    (n ∈ s.seq.slots ∧ (s.obj n).isSome)
      ↔ (n = s.seq.setup.slotA ∨ n = s.seq.setup.slotB) ∧ (s.obj n).isSome := by
  cases h : s.seq.list with
  | some l => simp [Sequencer.slots, Sequencer.setup, h]
  | none =>
    simp only [Sequencer.slots, Sequencer.setup, h, Option.getD_none, List.not_mem_nil, false_and, false_iff,
      or_self, not_and]
    rintro rfl hs
    obtain ⟨o, ho⟩ := Option.isSome_iff_exists.mp hs
    exact absurd (Scene.obj_lt ho) (by simp)

/-- A stopped show in the words of the statements (R151), and the mark. -/
theorem State.stopShow_stopped (s : State) :
    State.showStopped s s.stopShow
      ∧ s.stopShow.scene.mark = (s.scene.mark || decide (s.stopShow.scene.order ≠ s.scene.order)) := by
  obtain ⟨slots, u, h, hm, i, ib, other, e⟩ := State.stopShow_spec s s.seq.setup rfl
  have hm : ∀ n, n ∈ slots ↔ n ∈ s.seq.slots ∧ (s.obj n).isSome := fun n => (hm n).trans (s.mem_slots n).symm
  obtain ⟨v, ev⟩ : ∃ v, v = if s.seq.paused then u.releaseAll else u := ⟨_, rfl⟩
  have hscene : s.stopShow.scene = u.scene := by
    have : v.scene = u.scene := by
      rw [ev]
      split
      · exact (State.releaseAll_frame u).1 .scene (by simp)
      · rfl
    rw [e, ← ev]
    exact this
  have hprof : s.stopShow.motion.profiles = s.motion.profiles := by
    have : v.motion.profiles = u.motion.profiles := by
      rw [ev]
      split
      · exact (State.releaseAll_frame u).2
      · rfl
    rw [e, ← ev]
    exact this.trans h.profiles
  have ho : ∀ k, s.stopShow.obj k = u.obj k := fun k => congrArg (fun c : Scene => c.obj k) hscene
  have hc : ∀ n < 8, s.stopShow.chan n =
      if s.seq.paused = true ∧ (u.chan n).hold ≠ none then (u.chan n).released else u.chan n := fun n hn => by
    rw [e]
    show (if s.seq.paused then u.releaseAll else u).chan n = _
    cases s.seq.paused
    · simp
    · simp [State.releaseAll_chan u n hn]
  have hsil : ∀ l : List Nat, (∀ n ∈ l, (u.chan n).phase = .idle) → State.silenced s s.stopShow l := by
    intro l hl n hn
    obtain ⟨h1, h2⟩ := h.loosed.silenced hl n hn
    by_cases h8 : n < 8
    · refine ⟨?_, fun hb => ?_⟩
      · rw [hc n h8]
        split
        · exact Channel.released_idle h1
        · exact h1
      · obtain ⟨h3, h4⟩ := h2 hb
        exact ⟨by rw [hc n h8, if_neg (by simp [h3]), h3], fun k o hk hk' => h4 k o hk (ho k ▸ hk')⟩
    · exact ⟨by rw [State.chan_idle _ (by omega)]; rfl,
        fun hb => absurd (by rw [State.chan_idle _ (by omega)]; rfl) hb⟩
  have hidle : ∀ n, (n ∉ [5, 6, 7]) → (¬ ∃ k ∈ s.seq.slots, ∃ o, s.obj k = some o ∧ o.bound = some n) →
      u.chan n = s.chan n := fun n hn hb => other n hn fun k o hk ho hk' =>
    hb ⟨k, ((s.mem_slots k).mpr ⟨hk, by simp [ho]⟩).1, o, ho, hk'⟩
  refine ⟨⟨hsil _ i, fun n k o hk ho' hb hm' => hsil [n] ?_, fun n hn hb => ⟨fun hp => ?_, fun hp => ?_⟩, hprof,
    fun k hk => ?_, fun k hk => ⟨?_, fun hs => ?_⟩, ?_, ?_, ?_⟩, ?_⟩
  · simp only [List.mem_singleton, forall_eq]
    exact ib n k o ((s.mem_slots k).mp ⟨hk, by simp [ho']⟩).1 ho' hb hm'
  · rw [hc n n.isLt, if_neg (by simp [hp]), hidle n hn hb]
  · rw [hc n n.isLt, hidle n hn hb]
    simpa [hp] using (s.chan n).released_takes
  · rw [ho]
    by_cases hsome : (s.obj k).isSome
    · exact h.gone k ((hm k).mpr ⟨hk, hsome⟩)
    · have := h.others k fun hx => hsome ((hm k).mp hx).2
      simpa [Option.not_isSome_iff_eq_none.mp hsome] using this
  · rw [ho]
    exact h.others k fun hx => hk ((hm k).mp hx).1
  · rw [ho]
    refine h.whole (fun hx => hk ((hm k).mp hx).1) fun n hn => ?_
    refine hidle n (fun hx => hs n (.inl hx) hn) fun hx => hs n (.inr hx) hn
  · rw [hscene, h.order]
    congr 1
    funext k
    have := hm k
    by_cases hx : k ∈ slots
    · simp [hx, this.mp hx]
    · have : ¬ (k ∈ s.seq.slots ∧ (s.obj k).isSome) := fun hy => hx (this.mpr hy)
      simp only [hx, List.contains_eq_mem]
      by_cases hk : k ∈ s.seq.slots
      · simp [hk, show (s.obj k).isSome = false by simpa [hk] using this]
      · simp [hk]
  · rw [hscene]
    exact h.palettes
  · rw [hscene]
    exact h.load
  · rw [hscene]
    exact h.mark

/-- What leaves the channels, the slots, the order, the palettes and the load buffer leaves a stopped show. -/
theorem State.showStopped.congr {s t u : State} (h : State.showStopped s t) (hm : u.motion = t.motion)
    (hs : u.scene.slots = t.scene.slots) (ho : u.scene.order = t.scene.order)
    (hp : u.scene.palettes = t.scene.palettes) (hl : u.scene.load = t.scene.load) : State.showStopped s u := by
  have hc : ∀ n, u.chan n = t.chan n := fun n => congrArg (fun m : Motion => m.channel n) hm
  have hb : ∀ n, u.obj n = t.obj n := fun n => by
    show u.scene.obj n = t.scene.obj n
    simp [Scene.obj, hs]
  obtain ⟨h1, h2, h3, h4, h5, h6, h7, h8, h9⟩ := h
  exact ⟨h1.congr hc hb, fun n k o a b c d => (h2 n k o a b c d).congr hc hb, by simpa only [hc] using h3,
    by rw [hm]; exact h4, by simpa only [hb] using h5, by simpa only [hb] using h6, ho.trans h7, hp.trans h8,
    hl.trans h9⟩

/-- COPY starts from the newest complete frame while the canvas is set (R163). -/
theorem State.startCopy_begun (s : State) (k : CanvasSetup) (h : s.composer.canvas = some k) :
    State.copyBegun s s.startCopy k ∧ State.sameBut [.takeover] s s.startCopy
      ∧ s.startCopy.takeover =
          { s.takeover with phase := some .copy, job := s.startCopy.takeover.job } := by
  unfold State.startCopy State.copyBegun
  simp only [h]
  refine ⟨⟨rfl, ?_⟩, ((State.onTakeover_frame s _).trans (State.onTakeover_frame _ _)).mono (by simp), rfl⟩
  cases h1 : s.composer.front <;> cases h2 : s.composer.swapPending <;>
    simp [Bank.other, CanvasSetup.bank]

/-- COPY ends at its start while the Composer is DISABLED (R163). -/
theorem State.startCopy_disabled (s : State) (h : s.composer.canvas = none) :
    s.startCopy.takeover = { s.takeover with state := .menuOver, phase := none, job := .none }
      ∧ s.startCopy.scene = { s.scene with mark := true }
      ∧ State.sameBut [.takeover, .scene, .events, .intake] s s.startCopy
      ∧ s.startCopy.intake =
          (if s.takeoverServed then { s.intake with inService := none, code := 0, inRun := false }
            else { s.intake with inRun := false })
      ∧ ∀ f, s.takeover.facts = some f → f.recovered = true →
          s.startCopy.events =
            (s.raise (.takeoverEntered f.source true f.wasChanging f.paused s.takeover.saveBase 0 0)
              (if s.takeoverServed then s.serviceSlot else none)).events := by
  have e (f) : (s.onTakeover f).takeoverServed = s.takeoverServed := rfl
  unfold State.startCopy
  simp only [h]
  unfold State.copyDone
  dsimp only
  rw [e]
  split
  · refine ⟨rfl, rfl, ?_, rfl, ?_⟩
    · intro p hp
      cases p <;> simp_all [Part.same, State.complete_eq, State.raise]
    · intro f hf hr
      simp [hf, hr, State.complete_eq, State.raise, State.serviceSlot]
  · refine ⟨rfl, rfl, ?_, rfl, ?_⟩
    · intro p hp
      cases p <;> simp_all [Part.same, State.endRun_eq, State.raise]
    · intro f hf hr
      simp [hf, hr, State.endRun_eq, State.raise]

/-- The DRAIN of a recovery ends with the stop of the show and COPY (R170). -/
theorem State.drainStep_recovers (he : s.takeover.state = .entering) (hp : s.takeover.phase = some .drain)
    (f : EntryFacts) (hf : s.takeover.facts = some f) (hr : f.recovered = true) (h : s.composer.comp = none) :
    State.recoveryCopies s f s.drainStep := by
  have hd : s.drainStep = s.recoverShow.startCopy := by
    unfold State.drainStep
    rw [if_neg (by simp [he, hp, h]), if_pos (by simp [hf, hr])]
  have rf : State.sameBut [.scene, .motion, .seq, .takeover] s s.recoverShow :=
    ((State.stopShow_frame s).trans (State.onSeq_frame _ _)).mono (by simp)
  have rt : s.recoverShow.takeover = { s.takeover with jumpPending := false } := State.stopShow_takeover s
  have rq : s.recoverShow.seq = { s.seq.withoutShow with ready := Vector.replicate 256 false } := by
    show { s.stopShow.seq with ready := Vector.replicate 256 false } = _
    rw [State.stopShow_seq]
  have rc : s.recoverShow.composer = s.composer := rf .composer (by simp)
  have rs : State.showStopped s s.recoverShow := (State.stopShow_stopped s).1
  have rm : s.recoverShow.scene.mark = (s.scene.mark || decide (s.recoverShow.scene.order ≠ s.scene.order)) :=
    (State.stopShow_stopped s).2
  rw [hd]
  cases hk : s.composer.canvas with
  | none =>
    obtain ⟨c1, c2, c3, c4, c5⟩ := State.startCopy_disabled s.recoverShow (by rw [rc, hk])
    have ri : s.recoverShow.intake = s.intake := rf .intake (by simp)
    have re : s.recoverShow.events = s.events := rf .events (by simp)
    have rv : s.recoverShow.takeoverServed = s.takeoverServed := by simp [State.takeoverServed, ri]
    refine ⟨(c3 .seq (by simp)).trans rq, rs.congr (c3 .motion (by simp)) (by rw [c2]) (by rw [c2]) (by rw [c2])
      (by rw [c2]), fun k e => by simp_all,
      fun _ => ⟨by rw [c1, rt], by rw [c2], ((rf.trans c3).mono (by simp)), by rw [c4, rv, ri], ?_⟩⟩
    rw [c5 f (by rw [rt]; exact hf) hr, rv]
    simp [State.raise, State.serviceSlot, ri, re, rc, rt]
  | some k =>
    obtain ⟨c1, c2, c3⟩ := State.startCopy_begun s.recoverShow k (by rw [rc, hk])
    have cs : s.recoverShow.startCopy.scene = s.recoverShow.scene := c2 .scene (by simp)
    refine ⟨(c2 .seq (by simp)).trans rq, rs.congr (c2 .motion (by simp)) (by rw [cs]) (by rw [cs]) (by rw [cs])
      (by rw [cs]), ?_, fun e => by simp_all⟩
    intro k' e
    rw [hk] at e
    cases e
    refine ⟨?_, by rw [cs]; exact rm, by rw [c3, rt], (rf.trans c2).mono (by simp)⟩
    have := c1
    unfold State.copyBegun at this ⊢
    rw [rc] at this
    exact this

/-- A recovery drains, or stops the show and begins COPY at once (R170). -/
theorem State.recover_recovers (u : State) (source : Source) :
    State.recovers u source (u.recover source) :=
  ⟨fun h => State.drainStep_composing h, fun h => State.drainStep_recovers rfl rfl _ rfl rfl h⟩

end Sys2Proof.Machine
end

