-- ==== Sys2Proof/Laws/Close.lean ====
section
/-!
SUPPORT. CLOSE (R165): the scene-changed mark, the channels and bindings, the SLIDE-group records, and what CLOSE
MENU, the silent halts and the undefinitions can do to each (R127).
-/

namespace Sys2Proof.Machine

variable {s : State}

/-- A chain of writes that marks only what is placed: from an empty order nothing is marked. -/
structure State.MarksPlaced (s t : State) : Prop where
  load : t.scene.load = s.scene.load
  order : s.scene.order = [] → t.scene.order = [] ∧ t.scene.mark = s.scene.mark

theorem State.MarksPlaced.trans {s t u : State} (h : State.MarksPlaced s t) (k : State.MarksPlaced t u) :
    State.MarksPlaced s u :=
  ⟨k.load.trans h.load, fun e => ⟨(k.order (h.order e).1).1, ((k.order (h.order e).1).2).trans (h.order e).2⟩⟩

theorem State.Undefined.marksPlaced {l : List Nat} {t : State} (h : State.Undefined l s t) :
    State.MarksPlaced s t :=
  ⟨h.load, fun e => ⟨by rw [h.order, e]; rfl, by simp [h.mark, h.order, e]⟩⟩

theorem State.setVisible_marksPlaced (s : State) (n : Nat) (v : Bool) :
    State.MarksPlaced s (s.setVisible n v) := by
  have h := State.setVisible_rest s n v
  refine ⟨by rw [h], fun e => ⟨by rw [h, e], ?_⟩⟩
  show (s.scene.modify n _).mark = _
  cases ho : s.scene.obj n with
  | none => rw [Scene.modify_none ho]
  | some o => simp [Scene.modify_eq ho, Scene.placed, e]

theorem State.showFocusSlot_marksPlaced (s : State) (slot : Option Nat) (v : Bool) :
    State.MarksPlaced s (s.showFocusSlot slot v) := by
  unfold State.showFocusSlot
  split
  · exact State.setVisible_marksPlaced s _ v
  · exact ⟨rfl, fun h => ⟨h, rfl⟩⟩

theorem State.closeMenu_marksPlaced (s : State) : State.MarksPlaced s s.closeMenu := by
  unfold State.closeMenu
  split
  · exact ⟨rfl, fun h => ⟨h, rfl⟩⟩
  · rename_i p _
    have h := (State.silentHalt_freed s 0).undefined.marksPlaced.trans
      (State.setVisible_marksPlaced _ p.highlight false)
    exact (h.trans (State.showFocusSlot_marksPlaced _ (s.nav.focus.bind p.focusSlot) false)).trans
      ⟨rfl, fun h => ⟨h, rfl⟩⟩

theorem State.undefineMenu_marksPlaced (l : List Nat) (s : State) :
    State.MarksPlaced s
      (l.foldl (fun t n => if t.scene.inGroup .menu n then t.undefineSlot n else t) s) := by
  induction l generalizing s with
  | nil => exact ⟨rfl, fun h => ⟨h, rfl⟩⟩
  | cons n l ih =>
    rw [List.foldl_cons]
    split
    · exact (State.undefineSlot_undefined s n).marksPlaced.trans (ih _)
    · exact ih s

/-- CLOSE sets the mark just when the order was not empty (R165). -/
theorem State.closeScene_mark (s : State) :
    s.closeScene.scene.mark = (s.scene.mark || decide (s.scene.order ≠ []))
      ∧ s.closeScene.scene.load = s.scene.load := by
  obtain ⟨u, hu, he⟩ : ∃ u : State, State.MarksPlaced s u ∧ s.closeScene.scene
      = { u.scene with mark := u.scene.mark || !s.scene.order.isEmpty } := by
    refine ⟨_, ?_, rfl⟩
    refine State.MarksPlaced.trans (t := s.onTakeover fun t => { t with state := .leaving, phase := some .close })
      ⟨rfl, fun h => ⟨h, rfl⟩⟩ ((State.closeMenu_marksPlaced _).trans ?_)
    exact (State.silentHalts_freed _ _).undefined.marksPlaced.trans (State.undefineMenu_marksPlaced _ _)
  rw [he]
  refine ⟨?_, hu.load⟩
  cases h : s.scene.order with
  | nil => simp [(hu.order h).2]
  | cons a l => simp

/-! ## Channels and records (R165) -/

/-- The undefinition of every MENU-group slot leaves the others and loosens bindings alone. -/
theorem State.undefineMenu_spec (l : List Nat) (s : State) :
    let t := l.foldl (fun t n => if t.scene.inGroup .menu n then t.undefineSlot n else t) s
    State.Loosed s t ∧ ∀ n o, s.obj n = some o → o.group = .slide →
      ∃ o', t.obj n = some o' ∧ o'.unbound = o.unbound := by
  induction l generalizing s with
  | nil => exact ⟨State.Loosed.refl s, fun n o h _ => ⟨o, h, rfl⟩⟩
  | cons a l ih =>
    rw [List.foldl_cons]
    split
    · rename_i hm
      have hu := State.undefineSlot_undefined s a
      refine ⟨hu.loosed.trans (ih _).1, fun n o ho hg => ?_⟩
      have hn : n ≠ a := by
        rintro rfl
        rw [Scene.inGroup, show s.scene.obj n = some o from ho] at hm
        simp [hg] at hm
      have h := hu.others n (by simpa using hn)
      rw [ho] at h
      cases h1 : (s.undefineSlot a).obj n with
      | none => simp [h1] at h
      | some o1 =>
        rw [h1] at h
        have h : o1.unbound = o.unbound := by simpa using h
        obtain ⟨o2, h2, h3⟩ := (ih _).2 n o1 h1 ((congrArg Obj.group h).trans hg)
        exact ⟨o2, h2, h3.trans h⟩
    · exact ih s

/-- CLOSE ends every motion silently, gives no object a binding, and keeps the record of every SLIDE-group slot but
for what CLOSE MENU hides (R165). -/
theorem State.closeScene_kept (s : State) :
    State.Loosed s s.closeScene ∧ State.silenced s s.closeScene (List.range 8)
      ∧ ∀ n o, s.obj n = some o → o.group = .slide →
          ∃ o1 o', s.closeMenu.obj n = some o1 ∧ s.closeScene.obj n = some o' ∧ o'.unbound = o1.unbound := by
  obtain ⟨v, hv⟩ : ∃ v, v = s.onTakeover fun t => { t with state := .leaving, phase := some .close } := ⟨_, rfl⟩
  obtain ⟨w, hw⟩ : ∃ w, w = (List.range 8).foldl State.silentHalt v.closeMenu := ⟨_, rfl⟩
  have hf : State.Freed v.closeMenu w := hw ▸ State.silentHalts_freed _ _
  have hu := State.undefineMenu_spec (List.range 48) w
  obtain ⟨x, hx⟩ : ∃ x, x
      = (List.range 48).foldl (fun t n => if t.scene.inGroup .menu n then t.undefineSlot n else t) w := ⟨_, rfl⟩
  have he : s.closeScene = (x.onScene fun sc => { sc with mark := sc.mark || !s.scene.order.isEmpty }).onTakeover
      fun t => { t with phase := some .restore, job := .restore 0 [] } := by
    rw [hx, hw, hv]
    rfl
  rw [← hx] at hu
  have hcs : ∀ n, s.closeScene.chan n = x.chan n := fun n => by
    rw [he]
    rfl
  have hos : ∀ n, s.closeScene.obj n = x.obj n := fun n => by
    rw [he]
    rfl
  have hm : ∀ n, v.closeMenu.obj n = s.closeMenu.obj n := by
    intro n
    subst hv
    unfold State.closeMenu
    have hn : (s.onTakeover fun t => { t with state := .leaving, phase := some .close }).nav = s.nav := rfl
    rw [hn]
    cases s.nav.page with
    | none => rfl
    | some p =>
      show (State.showFocusSlot _ _ _).obj n = (State.showFocusSlot _ _ _).obj n
      rw [State.showFocusSlot_obj, State.showFocusSlot_obj]
      simp only [State.setVisible_obj]
      have hh : ∀ m, (State.silentHalt (s.onTakeover fun t => { t with state := .leaving, phase := some .close }) 0).obj m
          = (s.silentHalt 0).obj m := by
        intro m
        unfold State.silentHalt State.freeChannel
        have hc : (s.onTakeover fun t => { t with state := .leaving, phase := some .close }).chan 0 = s.chan 0 := rfl
        simp only [hc]
        split
        · rfl
        · cases (s.chan 0).slot <;> rfl
      simp only [hh]
  have lv : State.Loosed s v := by
    rw [hv]
    exact State.Loosed.ofWrite rfl fun _ => rfl
  have all : State.Loosed s x := ((lv.trans (State.closeMenu_loosed v)).trans hf.loosed).trans hu.1
  refine ⟨all.congr hcs hos, ?_, ?_⟩
  · refine State.silenced.congr (all.silenced ?_) hcs hos
    exact fun n hn => hu.1.idle n (hw ▸ State.silentHalts_idle _ _ n hn)
  · intro n o ho hg
    obtain ⟨o1, h1, g1⟩ : ∃ o1, s.closeMenu.obj n = some o1 ∧ o1.group = .slide := by
      have key : ∀ t : State, (∃ x, t.obj n = some x ∧ x.group = .slide) → ∀ slot v,
          ∃ x, (State.showFocusSlot t slot v).obj n = some x ∧ x.group = .slide := by
        rintro t ⟨x, hx, gx⟩ slot v
        rw [State.showFocusSlot_obj]
        split
        · exact ⟨{ x with visible := v }, by simp [hx], gx⟩
        · exact ⟨x, hx, gx⟩
      unfold State.closeMenu
      split
      · exact ⟨o, ho, hg⟩
      · rename_i p _
        refine key _ ?_ _ _
        have h := (State.silentHalt_freed s 0).objects n
        rw [ho] at h
        cases h1 : (s.silentHalt 0).obj n with
        | none => simp [h1] at h
        | some x =>
          rw [h1] at h
          have h : x.unbound = o.unbound := by simpa using h
          exact key _ ⟨x, h1, (congrArg Obj.group h).trans hg⟩ (some p.highlight) false
    have h := hf.objects n
    rw [hm n, h1] at h
    cases h2 : w.obj n with
    | none => simp [h2] at h
    | some o2 =>
      rw [h2] at h
      have h : o2.unbound = o1.unbound := by simpa using h
      obtain ⟨o3, h3, h4⟩ := hu.2 n o2 h2 ((congrArg Obj.group h).trans g1)
      exact ⟨o1, o3, h1, (hos n).trans h3, h4.trans h⟩

end Sys2Proof.Machine
end

