-- ==== Sys2Proof/Laws/Ends.lean ====
section
/-!
SUPPORT. What the ends of motions and the show's dealings with them can change: a written moved field, a
request, a change's completion, a notice, a snap and a rewind (R74, R89 to R91, R142, R144).
-/

namespace Sys2Proof.Machine

variable {s : State} {n : Nat}

/-! ## Frames -/

theorem State.freeChannel_frame (s : State) (n : Nat) :
    State.sameBut [.scene, .motion] s (s.freeChannel n) := by
  unfold State.freeChannel
  dsimp only
  split
  · exact (State.onScene_frame s _).trans (State.onMotion_frame _ _)
  · exact (State.onMotion_frame s _).mono (by simp)

theorem State.writeMoved_frame (s : State) (c : Channel) (e : Ends) :
    State.sameBut [.scene] s (s.writeMoved c e) := by
  unfold State.writeMoved
  split
  · exact State.onScene_frame s _
  · exact State.sameBut_refl s _

theorem State.putChan_frame (s : State) (n : Nat) (c : Channel) :
    State.sameBut [.motion] s (s.putChan n c) := State.onMotion_frame s _

theorem State.applyRequest_frame (s : State) (r : MotionRequest) (owner : Owner) (slot : Option Nat) :
    State.sameBut [.scene, .motion] s (s.applyRequest r owner slot) := by
  unfold State.applyRequest
  split
  · exact State.sameBut_refl s _
  · dsimp only
    split
    · exact (State.onScene_frame s _).trans (State.putChan_frame _ _ _)
    · exact (State.putChan_frame s _ _).mono (by simp)

/-- A request that the Motion Engine takes touches the scene's bindings and the channels alone (R89). -/
theorem State.request_frame {t : State} {r : MotionRequest} {owner : Owner} (h : s.request r owner = some t) :
    State.sameBut [.scene, .motion] s t := by
  unfold State.request at h
  split at h
  · cases h
  · cases h
    exact State.applyRequest_frame s r owner none

theorem State.panRequest_frame (s : State) : State.sameBut [.scene, .motion] s s.panRequest := by
  unfold State.panRequest
  split
  · cases h : s.request _ _ with
    | none => exact State.sameBut_refl s _
    | some t => exact State.request_frame h
  · exact State.sameBut_refl s _

/-! ## The change and its notices -/

/-- What the end of a motion can change of the Sequencer: the list and the ready map stand, and a change under
way goes on or has completed. -/
structure State.Notified (s t : State) : Prop where
  frame : State.sameBut [.scene, .motion, .seq, .events] s t
  list : t.seq.list = s.seq.list
  ready : t.seq.ready = s.seq.ready
  paused : t.seq.paused = s.seq.paused
  state : t.seq.state = s.seq.state ∨ (s.seq.state = .changing ∧ t.seq.state = .showing)
  flag : t.events.statusPending = s.events.statusPending

theorem State.Notified.of_same {t : State} (h : State.sameBut [.scene, .motion] s t) :
    State.Notified s t := by
  have e : t.seq = s.seq := h .seq (by simp)
  have f : t.events = s.events := h .events (by simp)
  exact ⟨h.mono (by simp), by rw [e], by rw [e], by rw [e], .inl (by rw [e]), by rw [f]⟩

theorem State.Notified.of_raise (s : State) (e : Event) (slot : Option Nat) :
    State.Notified s (s.raise e slot) :=
  ⟨(State.raise_frame s e slot).mono (by simp), rfl, rfl, rfl, .inl rfl, by simp [State.raise]⟩

theorem State.Notified.trans {t u : State} (h : State.Notified s t) (k : State.Notified t u) :
    State.Notified s u where
  frame := (h.frame.trans k.frame).mono (by simp)
  list := k.list.trans h.list
  ready := k.ready.trans h.ready
  paused := k.paused.trans h.paused
  state := by
    rcases h.state with h | h <;> rcases k.state with k | k
    · exact .inl (k.trans h)
    · exact .inr ⟨h ▸ k.1, k.2⟩
    · exact .inr ⟨h.1, k.trans h.2⟩
    · exact .inr ⟨h.1, k.2⟩
  flag := k.flag.trans h.flag

theorem State.undefineShown_frame (s : State) : State.sameBut [.scene, .motion] s s.undefineShown := by
  unfold State.undefineShown
  split
  · exact (State.undefineSlot_undefined s _).frame
  · exact State.sameBut_refl s _

theorem State.changeComplete_frame (s : State) (kind : Nat) (snapped : Bool) (slot : Option Nat) :
    State.sameBut [.scene, .motion, .seq, .events] s (s.changeComplete kind snapped slot)
      ∧ (s.changeComplete kind snapped slot).seq.list = s.seq.list
      ∧ (s.changeComplete kind snapped slot).seq.ready = s.seq.ready
      ∧ (s.changeComplete kind snapped slot).seq.paused = s.seq.paused
      ∧ (s.changeComplete kind snapped slot).seq.state = .showing
      ∧ (s.changeComplete kind snapped slot).events.statusPending = s.events.statusPending := by
  have hu := State.undefineShown_frame s
  unfold State.changeComplete
  dsimp only
  generalize s.undefineShown = u at hu ⊢
  have hq : u.seq = s.seq := hu .seq (by simp)
  have hl : u.seq.list = s.seq.list := by rw [hq]
  have hr : u.seq.ready = s.seq.ready := by rw [hq]
  have hp : u.seq.paused = s.seq.paused := by rw [hq]
  have he : u.events = s.events := hu .events (by simp)
  have base (q : Sequencer → Sequencer) (e : Event) :
      State.sameBut [.scene, .motion, .seq, .events] s ((u.onSeq q).raise e slot) :=
    ((hu.trans (State.onSeq_frame u q)).trans (State.raise_frame _ e slot)).mono (by simp)
  split
  · split
    · exact ⟨((base _ _).trans (State.onSeq_frame _ _)).mono (by simp), hl, hr, hp, rfl,
        by simp [State.raise, he]⟩
    · refine ⟨((base _ _).trans (State.panRequest_frame _)).mono (by simp), ?_, ?_, ?_, ?_, ?_⟩
      · rw [show State.seq (State.panRequest _) = _ from State.panRequest_frame _ .seq (by simp)]
        exact hl
      · rw [show State.seq (State.panRequest _) = _ from State.panRequest_frame _ .seq (by simp)]
        exact hr
      · rw [show State.seq (State.panRequest _) = _ from State.panRequest_frame _ .seq (by simp)]
        exact hp
      · rw [show State.seq (State.panRequest _) = _ from State.panRequest_frame _ .seq (by simp)]
        rfl
      · rw [show State.events (State.panRequest _) = _ from State.panRequest_frame _ .events (by simp)]
        simp [State.raise, he]
  · exact ⟨base _ _, hl, hr, hp, rfl, by simp [State.raise, he]⟩

/-- A notice takes its channel off the awaited ones, and the last completes the change (R144). -/
theorem State.notice_notified (s : State) (n : Nat) (snapped : Bool) (slot : Option Nat) :
    State.Notified s (s.notice n snapped slot) := by
  unfold State.notice
  split
  · exact .of_same (State.sameBut_refl s _)
  · rename_i h
    have hc : s.seq.state = .changing := by
      by_contra hc
      exact h (.inl hc)
    dsimp only
    split
    · exact ⟨(State.onSeq_frame s _).mono (by simp), rfl, rfl, rfl, .inl rfl, rfl⟩
    · obtain ⟨f, l, r, p, e, g⟩ := State.changeComplete_frame
        (s.onSeq fun q => { q with await5 := q.await5 && n != 5, await6 := q.await6 && n != 6 })
        (descriptorOf (s.seq.incomingDesc.getD [])).kind snapped slot
      exact ⟨((State.onSeq_frame s _).trans f).mono (by simp), l, r, p, .inr ⟨hc, e⟩, g⟩

/-- The end of a motion and what its owner makes of it (R77, R78, R144). -/
theorem State.endMotion_notified (s : State) (n : Nat) (reason : EndReason) (abrupt snapped : Bool)
    (done shown : Option Nat) : State.Notified s (s.endMotion n reason abrupt snapped done shown) := by
  have h : State.Notified s ((s.reportEnd n reason abrupt done).freeChannel n) := by
    refine State.Notified.trans ?_ (.of_same (State.freeChannel_frame _ n))
    unfold State.reportEnd
    dsimp only
    split
    · exact .of_raise s _ _
    · exact .of_same (State.sameBut_refl s _)
  unfold State.endMotion
  dsimp only
  split
  · exact h.trans (State.notice_notified _ _ _ _)
  · exact h

/-- A snap (R90). -/
theorem State.snap_notified (s : State) (n : Nat) (slot : Option Nat) :
    State.Notified s (s.snap n slot) := by
  unfold State.snap
  dsimp only
  split
  · exact .of_same (State.sameBut_refl s _)
  · refine State.Notified.trans ?_ (State.endMotion_notified _ _ _ _ _ _ _)
    exact .of_same (((State.writeMoved_frame s _ _).trans (State.putChan_frame _ _ _)).mono (by simp))

/-- The awaited channels snapped (R167). -/
theorem State.snapAwaited_notified (s : State) (slot : Option Nat) :
    State.Notified s (s.snapAwaited slot) := by
  have h : State.Notified s (if s.seq.await5 then s.snap 5 slot else s) := by
    split
    · exact State.snap_notified s 5 slot
    · exact .of_same (State.sameBut_refl s _)
  unfold State.snapAwaited
  dsimp only
  split
  · exact h.trans (State.snap_notified _ 6 slot)
  · exact h

/-- A rewind (R91). -/
theorem State.rewind_frame (s : State) (n : Nat) : State.sameBut [.scene, .motion] s (s.rewind n) := by
  unfold State.rewind
  dsimp only
  split
  · exact State.sameBut_refl s _
  · refine State.sameBut.mono (State.sameBut.trans (qs := [.motion]) (ps := [.scene]) ?_
      (State.putChan_frame _ _ _)) (by simp)
    split
    · exact State.onScene_frame s _
    · exact State.sameBut_refl s _

/-- The awaited channels rewound (R167). -/
theorem State.rewindAwaited_frame (s : State) : State.sameBut [.scene, .motion] s s.rewindAwaited := by
  have h : State.sameBut [.scene, .motion] s (if s.seq.await5 then s.rewind 5 else s) := by
    split
    · exact State.rewind_frame s 5
    · exact State.sameBut_refl s _
  unfold State.rewindAwaited
  dsimp only
  split
  · exact (h.trans (State.rewind_frame _ 6)).mono (by simp)
  · exact h

end Sys2Proof.Machine
end

