-- ==== Sys2Proof/Laws/Refusals.lean ====
section
/-!
SUPPORT. Refusals by owners: a list of checks that says a list of conditions refuses a command with the reason
of the first condition that fails (R29, R31, R32).
-/

namespace Sys2Proof.Machine

variable {s : State} {c : Command} {rest : List Command} {k : Kind}

/-- Each check says its condition, given those before it. -/
def ChecksSay : List (Bool × RefusalReason) → List (Prop × RefusalReason) → Prop
  | _, [] => True
  | [], _ :: _ => False
  | (b, r) :: checks, (ok, q) :: conditions => r = q ∧ (b = true ↔ ok) ∧ (ok → ChecksSay checks conditions)

/-- The row refuses in the order of the conditions that its checks say. -/
theorem State.refusesIn_checks {row : Instr} {checks : List (Bool × RefusalReason)}
    {conditions : List (Prop × RefusalReason)} (h : ChecksSay checks conditions)
    (refused : ∀ r, firstFailure checks = some r →
      exec row s = .next (s.doneRaising rest 3 (.refused c.kind r c.header c.second) c.slot)) :
    s.refusesIn row c rest conditions := by
  induction conditions generalizing checks with
  | nil => trivial
  | cons e conditions ih =>
    obtain ⟨ok, q⟩ := e
    match checks, h with
    | (b, r) :: checks, ⟨hr, hb, hn⟩ =>
      subst hr
      refine ⟨fun no => refused r ?_, fun yes => ih (hn yes) fun q hq => refused q ?_⟩
      · have : b = false := by simpa using mt hb.mp no
        simp [firstFailure, this]
      · simpa [firstFailure, hb.mpr yes] using hq

/-- A command whose owner judges it by checks is refused with the reason of the first that fails. -/
theorem State.judged_refused (h : s.Starts c rest k) {test : Command → Bool}
    {run : Command → State → Verdict} (hr : test c = true) {checks : List (Bool × RefusalReason)}
    {v : Verdict} (hv : run c (s.departed rest) = judged checks v) {r : RefusalReason}
    (hf : firstFailure checks = some r) :
    s.live (fun t => t.startHead test run)
      = .next (s.doneRaising rest 3 (.refused c.kind r c.header c.second) c.slot) :=
  State.startHead_refused h test run hr (by rw [hv, judged_fail hf])

/-- The same with the conditions. -/
theorem State.refusesIn_judged (h : s.Starts c rest k) {row : Instr} {test : Command → Bool}
    {run : Command → State → Verdict} (hx : exec row s = s.live fun t => t.startHead test run)
    (hr : test c = true) {checks : List (Bool × RefusalReason)} {v : Verdict}
    (hv : run c (s.departed rest) = judged checks v) {conditions : List (Prop × RefusalReason)}
    (hc : ChecksSay checks conditions) : s.refusesIn row c rest conditions :=
  State.refusesIn_checks hc fun _ hf => hx.trans (State.judged_refused h hr hv hf)

end Sys2Proof.Machine
end

