-- ==== Sys2Proof/Laws/Restore.lean ====
section
/-!
SUPPORT. The install of a save record that has passed its checks: what the checks say of its entries, and
that the install puts each object, channel and field in its place (R166, R167).
-/

namespace Sys2Proof.Machine

/-! ## The checks -/

/-- A list in which no entry is bad: each passes the test made with the entries before it. -/
theorem firstBad_none {α : Type} {ok : List α → α → Bool} {l before : List α} {k : Nat}
    (h : firstBad ok before l k = none) (a b : List α) (e : α) (hl : l = a ++ e :: b) :
    ok (before ++ a) e = true := by
  induction l generalizing before k a with
  | nil => simp at hl
  | cons x l ih =>
    simp only [firstBad] at h
    split at h
    · rename_i hx
      cases a with
      | nil =>
        simp at hl
        simpa [← hl.1] using hx
      | cons y a =>
        simp at hl
        simpa [hl.1] using ih h a hl.2
    · cases h

/-- Entries that are bad when a test on an earlier one holds hold it of no pair. -/
theorem firstBad_pairwise {α : Type} {ok : List α → α → Bool} {l : List α} {r : α → α → Prop}
    (h : firstBad ok [] l 0 = none) (hr : ∀ before e, ok before e = true → ∀ b ∈ before, r b e) :
    l.Pairwise r := by
  rw [List.pairwise_iff_getElem]
  intro i j hi hj hij
  have := firstBad_none h (l.take j) (l.drop (j + 1)) l[j] (by simp)
  exact hr _ _ this _ (by
    rw [List.nil_append, List.mem_take_iff_getElem]
    exact ⟨i, by omega, rfl⟩)

variable {s : State} {r : SaveRecord}

/-- What a record that passes says of its flags, its entries and its context (R166). -/
theorem SaveRecord.passes (h : s.recordFault r = none) :
    (r.dwellFlag ≤ 1 ∧ r.transitionFlag ≤ 1)
      ∧ firstBad (objectEntryOk s.cmdw (r.objects.filter (·.position.isSome)).length) [] r.objects 0 = none
      ∧ firstBad (channelEntryOk r) [] r.channels 0 = none ∧ sequencerOk s r = true := by
  unfold State.recordFault at h
  dsimp only at h
  repeat' split at h
  all_goals first
    | exact ⟨by omega, by assumption, by assumption, by assumption⟩
    | cases h

/-- The object entries of a record that passes: slots below 48 and none twice, positions below the number
placed and none twice. -/
theorem SaveRecord.objects_ok {cmdw placed : Nat} {l : List SavedObject}
    (h : firstBad (objectEntryOk cmdw placed) [] l 0 = none) :
    (l.map (·.slot)).Nodup ∧ (∀ e ∈ l, e.slot < 48 ∧ ∀ p, e.position = some p → p < placed)
      ∧ l.Pairwise fun b e => ∀ p, e.position = some p → b.position ≠ some p := by
  have hpw : l.Pairwise fun b e => b.slot ≠ e.slot ∧ ∀ p, e.position = some p → b.position ≠ some p := by
    refine firstBad_pairwise h fun before e hok b hb => ?_
    simp only [objectEntryOk, Bool.and_eq_true, Bool.not_eq_true', List.any_eq_false, beq_iff_eq,
      Option.all_eq_true, and_assoc] at hok
    exact ⟨hok.2.1 b hb, fun p hp hq => (hok.2.2.2.2 p hp).2 b hb hq⟩
  refine ⟨?_, fun e he => ?_, hpw.imp fun h => h.2⟩
  · rw [List.Nodup, List.pairwise_map]
    exact hpw.imp fun h => h.1
  · obtain ⟨a, b, rfl⟩ := List.append_of_mem he
    have := firstBad_none h _ _ _ rfl
    simp only [objectEntryOk, Bool.and_eq_true, decide_eq_true_eq, Option.all_eq_true, and_assoc] at this
    exact ⟨this.1, fun p hp => (this.2.2.2.2 p hp).1⟩

/-- The channel entries of a record that passes: channels below 8 and none twice. -/
theorem SaveRecord.channels_ok {l : List SavedChannel} (h : firstBad (channelEntryOk r) [] l 0 = none) :
    (l.map (·.channel)).Nodup ∧ ∀ e ∈ l, e.channel < 8 := by
  refine ⟨?_, fun e he => ?_⟩
  · rw [List.Nodup, List.pairwise_map]
    refine firstBad_pairwise h fun before e hok b hb => ?_
    simp only [channelEntryOk, Bool.and_eq_true, Bool.not_eq_true', List.any_eq_false, beq_iff_eq,
      and_assoc] at hok
    exact hok.2.1 b hb
  · obtain ⟨a, b, rfl⟩ := List.append_of_mem he
    have := firstBad_none h _ _ _ rfl
    simp only [channelEntryOk, Bool.and_eq_true, decide_eq_true_eq, and_assoc] at this
    exact this.1

/-! ## The install -/

/-- Objects put one after another into slots of their own. -/
theorem Scene.puts (l : List SavedObject) (sc : Scene) (hn : (l.map (·.slot)).Nodup)
    (hl : ∀ e ∈ l, e.slot < 48) :
    let t := l.foldl (fun t o => t.put o.slot (some o.obj)) sc
    t.palettes = sc.palettes ∧ t.load = sc.load ∧ (∀ e ∈ l, t.obj e.slot = some e.obj)
      ∧ ∀ n, n ∉ l.map (·.slot) → t.obj n = sc.obj n := by
  induction l generalizing sc with
  | nil => simp
  | cons e l ih =>
    simp only [List.map_cons, List.nodup_cons] at hn
    obtain ⟨p, d, o, r⟩ := ih (sc.put e.slot (some e.obj)) hn.2 fun e he => hl e (List.mem_cons_of_mem _ he)
    refine ⟨p, d, fun x hx => ?_, fun n hx => ?_⟩
    · rcases List.mem_cons.1 hx with rfl | hx
      · rw [List.foldl_cons, r _ hn.1, Scene.obj_put]
        simp [hl x List.mem_cons_self]
      · exact o x hx
    · simp only [List.map_cons, List.mem_cons, not_or] at hx
      rw [List.foldl_cons, r n hx.2, Scene.obj_put]
      simp [hx.1]

/-- Channels put one after another under numbers of their own. -/
theorem State.putChans (l : List SavedChannel) (s : State) (hn : (l.map (·.channel)).Nodup)
    (hl : ∀ e ∈ l, e.channel < 8) :
    let t := l.foldl (fun t c => t.putChan c.channel c.chan) s
    State.sameBut [.motion] s t ∧ t.motion.profiles = s.motion.profiles
      ∧ (∀ e ∈ l, t.chan e.channel = e.chan) ∧ ∀ n, n ∉ l.map (·.channel) → t.chan n = s.chan n := by
  induction l generalizing s with
  | nil => exact ⟨State.sameBut_refl s _, rfl, by simp, by simp⟩
  | cons e l ih =>
    simp only [List.map_cons, List.nodup_cons] at hn
    obtain ⟨f, p, c, r⟩ := ih (s.putChan e.channel e.chan) hn.2 fun e he => hl e (List.mem_cons_of_mem _ he)
    refine ⟨((State.onMotion_frame s _).trans f).mono (by simp), p, fun x hx => ?_, fun n hx => ?_⟩
    · rcases List.mem_cons.1 hx with rfl | hx
      · rw [List.foldl_cons, r _ hn.1, State.chan_put]
        simp [hl x List.mem_cons_self]
      · exact c x hx
    · simp only [List.map_cons, List.mem_cons, not_or] at hx
      rw [List.foldl_cons, r n hx.2, State.chan_put]
      simp [hx.1]

/-- The placed entries in the order of their positions. -/
theorem SaveRecord.front_ok (l : List SavedObject) (hn : (l.map (·.slot)).Nodup)
    (hp : l.Pairwise fun b e => ∀ p, e.position = some p → b.position ≠ some p)
    (hb : ∀ e ∈ l, ∀ p, e.position = some p → p < l.length) :
    let front := (List.range l.length).filterMap fun p => (l.find? (·.position == some p)).map (·.slot)
    front.Nodup ∧ (∀ n, n ∈ front ↔ ∃ e ∈ l, e.slot = n ∧ e.position ≠ none)
      ∧ ∀ e ∈ l, ∀ e' ∈ l, ∀ p p', e.position = some p → e'.position = some p' → p < p' →
          [e.slot, e'.slot].Sublist front := by
  have hpos {p : Nat} {x : SavedObject} (h : l.find? (·.position == some p) = some x) :
      x.position = some p := by simpa using List.find?_some h
  have hf : ∀ e ∈ l, ∀ p, e.position = some p → l.find? (·.position == some p) = some e := by
    intro e he p hpe
    cases hfind : l.find? (·.position == some p) with
    | none => exact absurd hpe (by simpa using List.find?_eq_none.1 hfind e he)
    | some x =>
      congr 1
      by_contra hne
      obtain ⟨i, hi, rfl⟩ := List.getElem_of_mem (List.mem_of_find?_eq_some hfind)
      obtain ⟨j, hj, rfl⟩ := List.getElem_of_mem he
      rw [List.pairwise_iff_getElem] at hp
      rcases Nat.lt_trichotomy i j with h | rfl | h
      · exact hp i j hi hj h p hpe (hpos hfind)
      · exact hne rfl
      · exact hp j i hj hi h p (hpos hfind) hpe
  refine ⟨?_, fun n => ?_, fun e he e' he' p p' h1 h2 hlt => ?_⟩
  · apply List.Nodup.filterMap _ List.nodup_range
    intro p p' n h1 h2
    simp only [Option.mem_def, Option.map_eq_some_iff] at h1 h2
    obtain ⟨x, hx, hxs⟩ := h1
    obtain ⟨y, hy, hys⟩ := h2
    have hxy : x = y := List.inj_on_of_nodup_map hn (List.mem_of_find?_eq_some hx)
      (List.mem_of_find?_eq_some hy) (hxs.trans hys.symm)
    exact Option.some.inj ((hpos hx).symm.trans (hxy ▸ hpos hy))
  · simp only [List.mem_filterMap, List.mem_range, Option.map_eq_some_iff]
    constructor
    · rintro ⟨p, hp, x, hx, rfl⟩
      exact ⟨x, List.mem_of_find?_eq_some hx, rfl, by simp [hpos hx]⟩
    · rintro ⟨e, he, rfl, hpos⟩
      obtain ⟨p, hpe⟩ := Option.ne_none_iff_exists'.1 hpos
      exact ⟨p, hb e he p hpe, e, hf e he p hpe, rfl⟩
  · have hs : [p, p'].Sublist (List.range l.length) := by
      have := hb e' he' p' h2
      have h3 : List.range l.length
          = List.range p' ++ p' :: (List.range (l.length - p' - 1)).map (p' + 1 + ·) := by
        apply List.ext_getElem
        · simp
          omega
        · intro i h1 h2
          simp [List.getElem_append, List.getElem_cons]
          split <;> omega
      rw [h3]
      exact List.Sublist.append (List.singleton_sublist.2 (List.mem_range.2 hlt))
        (List.Sublist.cons_cons _ (List.nil_sublist _))
    simpa [hf e he p h1, hf e' he' p' h2] using
      hs.filterMap fun p => (l.find? (·.position == some p)).map (·.slot)

/-- The sequencer context of a record that passes (item 3 of R167). -/
theorem State.installRecord_seq (u : State) (h : sequencerOk s r = true) :
    ∃ state shown hold, r.state = some state ∧ r.shown = some shown
      ∧ holdOfCode (byteAt r.bytes 28) = some hold
      ∧ (state = .showing → shown ≠ none)
      ∧ u.seq.restore r =
          { list := u.seq.list, ready := u.seq.ready, state := state, shown := shown
            current := r.current, incoming := r.incoming, backward := decide (byteAt r.bytes 26 = 1)
            late := (byteAt r.bytes 27).testBit 0, read := u.seq.read
            incomingDesc := if state = .changing then some ((r.bytes.drop 48).take 32) else none
            onShow :=
              if shown = none then none
              else
                some
                  ⟨fieldAt r.bytes 38 2, decide (byteAt r.bytes 40 ≠ 0), byteAt r.bytes 41,
                    fieldAt r.bytes 42 2, fieldAt r.bytes 44 2⟩
            dwell := fieldAt r.bytes 36 2, paused := (byteAt r.bytes 27).testBit 1, pauseMode := hold
            panOwed := (byteAt r.bytes 27).testBit 2, skip := fieldAt r.bytes 30 2
            await5 := (byteAt r.bytes 29).testBit 0, await6 := (byteAt r.bytes 29).testBit 1
            advanceOwed := u.seq.advanceOwed } := by
  unfold sequencerOk at h
  cases hst : r.state with
  | none => simp [hst] at h
  | some state =>
  cases hsh : r.shown with
  | none => simp [hst, hsh] at h
  | some shown =>
  simp only [hst, hsh, Bool.and_eq_true, and_assoc] at h
  obtain ⟨hold, hhold⟩ := Option.isSome_iff_exists.1 h.2.2.2.2.2.2.2.2.2.2.1
  refine ⟨state, shown, hold, rfl, rfl, hhold, fun e => ?_, ?_⟩
  · have := h.2.2.2.2.1
    subst e
    cases shown <;> simp at this ⊢
  · have h40 : (byteAt r.bytes 40 != 0) = decide (byteAt r.bytes 40 ≠ 0) := by
      by_cases e : byteAt r.bytes 40 = 0 <;> simp [e]
    have h26 : (byteAt r.bytes 26 == 1) = decide (byteAt r.bytes 26 = 1) := by
      by_cases e : byteAt r.bytes 26 = 1 <;> simp [e]
    cases shown <;>
      simp [Sequencer.restore, hst, hsh, hhold, h40, h26, SaveRecord.seqFlags, SaveRecord.awaited, SaveRecord.skip]

/-- A record that passes is installed whole (items 1 to 4 of R167). -/
theorem State.installRecord_installed (u : State) (h : s.recordFault r = none) :
    State.recordInstalled u r (u.installRecord r)
      ∧ ((u.installRecord r).seq.state = .changing ↔ r.state = some .changing) := by
  obtain ⟨-, h1, h2, h3⟩ := SaveRecord.passes h
  obtain ⟨o1, o2, o3⟩ := SaveRecord.objects_ok h1
  obtain ⟨c1, c2⟩ := SaveRecord.channels_ok h2
  obtain ⟨a1, a2, a3, a4⟩ := Scene.puts r.objects u.scene o1 fun e he => (o2 e he).1
  have hf := SaveRecord.front_ok r.objects o1 o3 fun e he p hp =>
    Nat.lt_of_lt_of_le ((o2 e he).2 p hp) (List.length_filter_le _ _)
  obtain ⟨b1, b2, b3, b4⟩ := State.putChans r.channels (u.onScene fun sc => sc.restore r.objects) c1 c2
  generalize hs : r.channels.foldl (fun t c => State.putChan t c.channel c.chan)
    (u.onScene fun sc => sc.restore r.objects) = t at b1 b2 b3 b4
  have hq : t.seq = u.seq := b1 .seq (by simp)
  have es : t.scene = u.scene.restore r.objects := b1 .scene (by simp)
  have key : u.installRecord r = { t with seq := (u.installRecord r).seq } := by
    simp only [State.installRecord, hs]
    split <;> simp [State.onSeq]
  obtain ⟨state, shown, hold, k1, k2, k3, k4, k5⟩ := State.installRecord_seq t h3
  have hseq : (u.installRecord r).seq =
      { t.seq.restore r with
        dwell := if byteAt r.bytes 12 = 1 ∧ state = .showing then fieldAt r.bytes 38 2
          else fieldAt r.bytes 36 2 } := by
    simp only [State.installRecord, hs, SaveRecord.dwellFlag, State.onSeq, k5]
    by_cases hx : byteAt r.bytes 12 = 1 ∧ state = .showing
    · simp [hx, k4 hx.2]
    · simp [hx]
  have hsame : State.sameBut [.seq] t { t with seq := (u.installRecord r).seq } := State.onSeq_frame t fun _ => _
  rw [key]
  refine ⟨⟨?_, fun e he => ?_, fun n hn => ?_, ?_, ?_, ?_, ?_, b3, b4, b2, ?_⟩, ?_⟩
  · exact (((State.onScene_frame u _).trans b1).trans hsame).mono (by simp)
  · show t.scene.obj e.slot = _
    rw [es]
    exact a3 e he
  · show t.scene.obj n = _
    rw [es]
    exact a4 n hn
  · show ∃ front, t.scene.order = _ ∧ _
    rw [es]
    exact ⟨_, rfl, hf⟩
  · show t.scene.mark = _
    rw [es]
    rfl
  · show t.scene.palettes = _
    rw [es]
    exact a1
  · show t.scene.load = _
    rw [es]
    exact a2
  · refine ⟨state, shown, hold, k1, k2, k3, ?_⟩
    show (u.installRecord r).seq = _
    rw [hseq, k5, hq]
  · show (u.installRecord r).seq.state = _ ↔ _
    rw [hseq, k5, k1]
    simp

/-! ## The rewind (R91) -/

/-- A rewind of a motion that moves: its object takes E0 and its channel what R91 gives it. -/
theorem State.rewind_eq {s : State} {n k : Nat}
    (h : (s.chan n).phase ≠ .idle ∧ (s.chan n).phase ≠ .held)
    (hk : (s.chan n).slot = some k) :
    s.rewind n =
      { s with
        scene :=
          s.scene.modify k fun o => o.moveTo (s.chan n).moved (s.chan n).view (s.chan n).e0
        motion := s.motion.putChannel n (s.chan n).rewound } := by
  simp only [State.rewind, h.1, h.2, or_self, if_false, hk]
  rfl

end Sys2Proof.Machine
end

