-- ==== Sys2Proof/Laws/Start.lean ====
section
/-!
SUPPORT. The start of a head that is due: every command has a row of the table, and the row's step is the
start that an event would otherwise find due (R25, R26).
-/

namespace Sys2Proof.Machine

variable {s : State} {c : Command} {rest : List Command}

/-- The head meets the conditions of R25. -/
theorem State.Head.ready (h : s.Head c rest) : s.headReady = true := by
  simp [State.headReady, h.may, h.head]

/-- Outside a run of commands it is due. -/
theorem State.Head.due (h : s.Head c rest) (hr : s.intake.inRun = false) : s.headDue = true := by
  simp [State.headDue, h.ready, hr]

/-- A row that starts the head and gives it what its owner makes of it does what a due start does. -/
theorem State.live_startDue (h : s.Head c rest) {row : Command → Bool}
    {run : Command → State → Verdict} (hr : row c = true) (hv : ∀ u, run c u = c.run u) :
    s.live (fun t => t.startHead row run) = s.live State.startDue := by
  rw [State.live_quiet h.toQuiet, State.live_quiet h.toQuiet]
  simp [State.startDue, State.startHead, h.head, hr, hv]

theorem runKind_of_ofKind {k : Kind} (h : ofKind k c = true) (s : State) : c.run s = runKind k c s := by
  simp only [ofKind, beq_iff_eq] at h
  simp [Command.run, h]

/-- The rows of the queue's commands do what a due start does, each with its own commands. -/
theorem commandRows_due (h : s.Head c rest) :
    ∀ p ∈ commandRows, p.2 c = true → exec p.1 s = s.live State.startDue := by
  intro p hp hc
  simp only [commandRows, List.mem_cons, List.not_mem_nil, or_false] at hp
  rcases hp with rfl | rfl | rfl | rfl | rfl | rfl | rfl | rfl | rfl | rfl | rfl | rfl | rfl | rfl | rfl
    | rfl | rfl | rfl | rfl | rfl | rfl | rfl | rfl | rfl | rfl | rfl | rfl | rfl | rfl | rfl | rfl | rfl
    | rfl | rfl | rfl
  all_goals refine State.live_startDue h hc fun u => ?_
  all_goals first
    | exact (runKind_of_ofKind hc u).symm
    | (simp only [Bool.and_eq_true, Bool.not_eq_true'] at hc
       simp [runKind_of_ofKind hc.1, runKind, hc.2])
    | (simp only [ofKey, Bool.and_eq_true, Bool.or_eq_true, beq_iff_eq, Option.isNone_iff_eq_none] at hc
       rw [runKind_of_ofKind hc.1, runKind, runAnyKey]
       rcases hc.2 with hk | hk <;> rw [hk]
       all_goals simp [runKeyUp, runKeyDown, runKeyLeft, runKeyRight, runKeySelect, runKeyEnter, runKeyBack, runKey,
         judged, firstFailure, hk])
    | (simp only [Option.isNone_iff_eq_none] at hc; simp [Command.run, hc])

/-- Every command has its row. -/
theorem commandRows_cover (c : Command) : ∃ p ∈ commandRows, p.2 c = true := by
  have row (n : Nat) (p : Instr × (Command → Bool)) (hn : commandRows[n]? = some p)
      (hc : p.2 c = true) : ∃ p ∈ commandRows, p.2 c = true := ⟨p, List.mem_of_getElem? hn, hc⟩
  cases hk : c.known with
  | none => exact row 34 _ rfl (by simp [hk])
  | some k =>
    have hr : ofKind k c = true := by simp [ofKind, hk]
    cases k with
    | mark => exact row 0 _ rfl hr
    | restart => exact row 1 _ rfl hr
    | setCanvas => exact row 2 _ rfl hr
    | setTakeover => exact row 3 _ rfl hr
    | setSlides => exact row 4 _ rfl hr
    | define => exact row 5 _ rfl hr
    | drop => exact row 6 _ rfl hr
    | place => exact row 7 _ rfl hr
    | unplace => exact row 8 _ rfl hr
    | patch => exact row 9 _ rfl hr
    | step => exact row 10 _ rfl hr
    | loadPalette => exact row 11 _ rfl hr
    | setProfile => exact row 12 _ rfl hr
    | move => exact row 13 _ rfl hr
    | retune => exact row 14 _ rfl hr
    | openPage => exact row 17 _ rfl hr
    | prefetchPage => exact row 18 _ rfl hr
    | closeMenu => exact row 26 _ rfl hr
    | slideStart => exact row 27 _ rfl hr
    | slideStop => exact row 28 _ rfl hr
    | slideStep => exact row 29 _ rfl hr
    | slidePause => exact row 30 _ rfl hr
    | slideResume => exact row 31 _ rfl hr
    | takeover => exact row 32 _ rfl hr
    | resume => exact row 33 _ rfl hr
    | halt =>
      cases he : c.haltEases with
      | false => exact row 15 _ rfl (by simp [hr, he])
      | true => exact row 16 _ rfl (by simp [hr, he])
    | key =>
      cases hy : c.key with
      | none => exact row 19 _ rfl (by simp [ofKey, hr, hy])
      | some y =>
        cases y with
        | up => exact row 19 _ rfl (by simp [ofKey, hr, hy])
        | down => exact row 20 _ rfl (by simp [ofKey, hr, hy])
        | left => exact row 21 _ rfl (by simp [ofKey, hr, hy])
        | right => exact row 22 _ rfl (by simp [ofKey, hr, hy])
        | select => exact row 23 _ rfl (by simp [ofKey, hr, hy])
        | enter => exact row 24 _ rfl (by simp [ofKey, hr, hy])
        | back => exact row 25 _ rfl (by simp [ofKey, hr, hy])

end Sys2Proof.Machine
end

