-- ==== Sys2Proof/Laws/Ticks.lean ====
section
/-!
SUPPORT. What the step of a channel can change (R71 to R73).
-/

namespace Sys2Proof.Machine

/-- A channel that moves changes its phase, speed and lead count alone before the progress follows (R72,
R73). -/
theorem Channel.tick_same (c r : Channel) (h : c.tick = .move r) :
    r = { c with phase := r.phase, v := r.v, lead := r.lead } := by
  unfold Channel.tick at h
  have dec : ∀ x : Channel, x.decelStep = TickAct.move r → r = { x with phase := r.phase, v := r.v, lead := r.lead } := by
    intro x hx; simp only [Channel.decelStep, TickAct.move.injEq] at hx; rw [← hx]
  split at h
  all_goals first
    | exact dec _ h
    | (simp only [TickAct.move.injEq] at h; rw [← h])
    | cases h
    | skip
  all_goals ((try dsimp only at h); split at h)
  all_goals first
    | exact dec _ h
    | (simp only [TickAct.move.injEq] at h; rw [← h])
    | cases h
    | skip
  all_goals (split at h)
  all_goals cases h

end Sys2Proof.Machine
end

