-- ==== Sys2Proof/Tests/Slice0.lean ====
section
/-!
SUPPORT. Tests: well-formedness refuses what it should, the values that the spec's own examples give, small
steps, and for each statement with conditions a state and operands that meet them all.
-/

open Sys2Proof Sys2Proof.Machine

namespace Sys2Proof.Tests

/-! ## Helpers -/

/-- The header of a command with all four mask flags set (R181). -/
def header (kind length small : Nat) : Nat := kind + 0xF00 + length * 0x1000 + small * 0x10000

/-- A command in slot 5 from its words. -/
def command (ws : List Nat) : Command := ⟨5, ws.map (BitVec.ofNat 32)⟩

/-- A state whose queue holds just one command. -/
def queued (s : State) (c : Command) : State := { s with intake := { s.intake with queue := [c] } }

/-- After reset, with the status write of R172 presented. -/
def base : State := { State.reset with events := { EventUnit.reset with firstWrite := false } }

theorem starts {s : State} {c : Command} {rest : List Command} {k : Kind}
    (h : s.rstnLow = false ∧ s.seq.advanceOwed = false ∧ s.events.firstWrite = false
      ∧ s.intake.queue = c :: rest ∧ s.canStart = true
      ∧ c.known = some k ∧ headerLength c.header = k.words ∧ c.runsOn s.intake.code = true
      ∧ (s.takeover.state ≠ .lockout ∨ k = .restart ∨ k = .takeover)) : s.Starts c rest k :=
  ⟨⟨⟨h.1, h.2.1, h.2.2.1⟩, h.2.2.2.1, h.2.2.2.2.1⟩, h.2.2.2.2.2.1, h.2.2.2.2.2.2.1, h.2.2.2.2.2.2.2.1,
    h.2.2.2.2.2.2.2.2⟩

/-- What a step does to a part of the state, as a test reads it. -/
def after {α : Type} (c : Instr) (s : State) (f : State → α) : Option α :=
  match exec c s with
  | .next t => some (f t)
  | _ => none

def canvas : CanvasSetup := ⟨1280, 720, 0x800000, 0xC00000, 0x1000000, 0x1400000⟩

/-- A FILL of 16 by 16 pixels at (0, 0). -/
def fill (g : Group) : Obj := ⟨g, true, 0, 0, 16, 16, 255, false, 0, 0, 2048, 2048, .fill 0, none⟩

/-- A channel that moves x of slot 3 from 0 to 1600. -/
def moving : Channel :=
  { Channel.idle with
    phase := .cruise, owner := some .command, slot := some 3, moved := ⟨true, false, false, false, false⟩
    prof := ⟨16, 256, 16, 16, 0, true⟩, vtop := 64, v := 64, s := 0, travel := 1600
    e0 := ⟨0, 0, 16, 16, 255⟩, e1 := ⟨1600, 0, 16, 16, 255⟩, cmdSlot := some 9 }

/-- A button 16 pixels wide at y, with neighbours up and down. -/
def button (y : Int) (up down : Option Nat) (enabled submenu : Bool) (focusSlot : Option Nat) : Button :=
  ⟨100, y, 300, 60, up, down, none, none, 7, enabled, submenu, focusSlot, 0x200400⟩

/-- Three buttons in a column; the middle one is disabled and the first has a submenu. -/
def page : Page :=
  ⟨0x200000, 0, 20, 3, 4,
    [button 200 none (some 1) true true none, button 280 (some 0) (some 2) false false none,
      button 360 (some 0) none true false (some 21)]⟩

/-- A scene of a SLIDE-group object in slot 3 and two MENU-group objects in slots 20 and 21, all placed. -/
def scene : State :=
  { base with
    composer := { Composer.reset with canvas := some canvas }
    scene :=
      { Scene.reset with
        slots :=
          ((Scene.reset.slots.setIfInBounds 3 (some (fill .slide))).setIfInBounds 20
            (some (fill .menu))).setIfInBounds 21 (some (fill .menu))
        order := [3, 20, 21] } }

/-- The scene with a motion on channel 2 bound to slot 3. -/
def moved (c : Channel) : State :=
  { scene with
    scene := scene.scene.put 3 (some { fill .slide with bound := some 2 })
    motion := scene.motion.putChannel 2 c }

/-- The scene with the page open and a focus. -/
def menu (focus : Option Nat) : State := { scene with nav := { scene.nav with page := some page, focus := focus } }

/-- A show of two slides in slots 40 and 41 with its list at 1800000h. -/
def show' (state : SeqState) (current incoming : Option Nat) : State :=
  { scene with
    seq :=
      { Sequencer.reset with
        list := some ⟨0x1800000, 2, 40, 41, false⟩, state := state, current := current
        incoming := incoming, ready := Sequencer.reset.ready.setIfInBounds 0 true } }

/-- A composition of an empty scene into bank B. -/
def composing : Composition := ⟨[], none, canvas, .b, 0, 0, []⟩

/-- A burst's end is due. -/
def ending (s : State) (e : BurstEnd) : State := { s with bridge := { s.bridge with busy := some e } }

/-! ## Well-formedness (00_scope) -/

theorem test_wf_block : (Instr.controllerRequest (.write 0x1000 (List.replicate 8 ⟨0, 15⟩))).wf = true := by decide
theorem test_wf_refuses_no_words : (Instr.controllerRequest (.read 0x1000 [])).wf = false := by decide
theorem test_wf_refuses_nine_words :
    (Request.write 0x1000 (List.replicate 9 ⟨0, 15⟩)).lengthOk = false := by decide
theorem test_wf_refuses_misaligned : (Instr.controllerRequest (.read 0x1002 [15])).wf = false := by decide
theorem test_wf_refuses_crossing : (Instr.controllerRequest (.read 0x101C [15, 15])).wf = false := by decide
theorem test_misformed_request_faults :
    exec (.controllerRequest (.read 0x1002 [15])) base = .fault .notABurst := by rfl

/-! ## Values from the spec's examples -/

/-- 04, R69: B(112) = 144 with Vs 16 and D 32. -/
theorem test_braking_distance : brakingDistance ⟨16, 160, 24, 32, 2, true⟩ 112 = 144 := by decide

/-- 11, fade: Vtop 720 from Vs 240 over a travel of 4080. -/
theorem test_fade_peak : peakSearch ⟨240, 960, 240, 240, 0, true⟩ 240 0 4080 = 720 := by decide

/-- 11, fade: alpha 30 at s 480, 210 at s 3360. -/
theorem test_fade_alpha :
    valueAt 0 255 480 4080 = 30 ∧ valueAt 0 255 3360 4080 = 210 ∧ valueAt 0 255 4080 4080 = 255 := by decide

/-- 11, fade tick 6: at 720 with 720 left the channel brakes to 480. -/
theorem test_fade_brakes :
    ({ Channel.idle with
        phase := .cruise, prof := ⟨240, 960, 240, 240, 0, true⟩, vtop := 720, v := 720, s := 3360
        travel := 4080 } : Channel).tick =
      .move
        { Channel.idle with
          phase := .decel, prof := ⟨240, 960, 240, 240, 0, true⟩, vtop := 720, v := 480, s := 3360
          travel := 4080 } := by decide

/-- 04, R64: the profile of the example is clamped. -/
theorem test_profile_clamped :
    Profile.clamped ⟨0, 5000, 2000, 0, 9, true⟩ = ⟨1, 4095, 1023, 1, 7, true⟩ := by decide

/-- 03, R40: the BITMAP32 of the example ends at 11DAF0h. -/
theorem test_source_end :
    Obj.sourceEnd { fill .menu with w := 300, h := 100, body := .bitmap32 0x100000 1216 } = 0x11DAF0 := by decide

/-- 05, R102: the drawn area of the example is 52 by 12 pixels. -/
theorem test_drawn_area :
    let o := { fill .menu with
      x := -200, y := 11000, w := 64, h := 48, clip := true
      clipX0 := 0, clipY0 := 680, clipX1 := 1280, clipY1 := 700 }
    o.columns 1280 = (0, 52) ∧ o.rows 720 = (688, 700) := by decide

/-- 11: the grown rectangle of button 1 with margin 4. -/
theorem test_grown_rectangle :
    (button 280 none none true false none).grown 4 = ⟨1536, 4416, 308, 68, 0⟩ := by decide

/-- 10, R180: bytes are little-endian, and signed fields are two's complement. -/
theorem test_little_endian : wordBytes 0x11223344 = [0x44, 0x33, 0x22, 0x11] ∧ signedOf 20 0xFFFFF = -1 := by decide

/-- 05, R105: half an opaque white pixel over opaque black. -/
theorem test_blend : blend ⟨255, 255, 255, 255⟩ 128 ⟨255, 0, 0, 0⟩ = ⟨255, 128, 128, 128⟩ := by decide

/-! ## Small steps -/

/-- 11, bring-up: the MARK record's event carries its tag, and no command waits behind it. -/
theorem test_mark_event :
    after .mark (queued base (command [header 1 2 0, 1])) (fun t => t.events.records.map (·.event))
      = some [.mark 0 1 0] := by decide

/-- 02, R32: an unknown kind is refused with code 3. -/
theorem test_unknown_kind_code :
    after .unknownKindCommand (queued base (command [header 0x77 1 0])) (·.intake.code) = some 3 := by decide

/-- 05, R97: the tick flips the banks and clears swap-pending. -/
theorem test_tick_flips :
    after (.frameTick []) { base with composer := { Composer.reset with swapPending := true } }
      (fun t => (t.composer.front, t.composer.swapPending, t.composer.frame)) = some (.b, false, 1) := by decide

/-- 05, R99: the settle of a tick starts a composition of the marked scene and clears the mark. -/
theorem test_settle_composes :
    after (.frameTick []) scene (fun t => (t.composer.comp.map (·.copy.map Prod.fst), t.scene.mark))
      = some (some [3, 20, 21], false) := by decide

/-- 04, R71: a tick moves a cruising channel by its speed. -/
theorem test_tick_moves :
    after (.frameTick []) (moved moving) (fun t => ((t.chan 2).s, (t.obj 3).map (·.x)))
      = some (64, some 64) := by decide

/-- 03, R46: PLACE above slot 20 of the MENU-group slot 21 keeps the groups apart. -/
theorem test_place_bottom :
    after .place (queued scene (command [header 0x12 2 21, 1])) (·.scene.order) = some [3, 21, 20] := by decide

/-- 03, R44: DROP undefines the slot and takes it out of the order. -/
theorem test_drop :
    after .drop (queued scene (command [header 0x11 1 20])) (fun t => (t.obj 20, t.scene.order))
      = some (none, [3, 21]) := by decide

/-- A change of two slides: slots 40 and 41 hold them, and channels 5 and 6 move them. -/
def changing : State :=
  let s := show' .changing (some 0) (some 1)
  let slide (channel : Nat) : Obj :=
    { fill .slide with body := .slide 0x100000 400 100 100 0 0, bound := some channel }
  let motion (slot : Nat) : Channel :=
    { moving with owner := some .sequencer, slot := some slot, s := 64, cmdSlot := none }
  { s with
    scene :=
      { s.scene with
        slots := (s.scene.slots.setIfInBounds 40 (some (slide 5))).setIfInBounds 41 (some (slide 6))
        order := [3, 40, 41, 20, 21] }
    motion := (s.motion.putChannel 5 (motion 40)).putChannel 6 (motion 41)
    seq :=
      { s.seq with
        shown := some .a, onShow := some ⟨50, false, 0, 0, 0⟩, incomingDesc := some [], await6 := true } }

/-- 04, R77; 07, R144: the DROP of an awaited slide gives the Sequencer its notice, which ends the change. -/
theorem test_drop_of_an_awaited_slide :
    after .drop (queued { changing with seq := { changing.seq with list := some ⟨0x1800000, 2, 40, 42, false⟩ } }
        (command [header 0x11 1 41]))
      (fun t => (t.seq.state, t.seq.await6)) = some (.showing, false) := by decide

/-- 04, R81: MOVE of x by 1600 subpixels. -/
theorem test_move :
    after .move (queued scene (command [header 0x21 6 0x0002, 3 + 0x100, 1600, 0, 0, 0]))
      (fun t => ((t.chan 2).travel, (t.obj 3).bind (·.bound), t.intake.code))
      = some (1600, some 2, 0) := by decide

/-- 04, R66: a MOVE of channel 5 while a show runs is refused. -/
theorem test_move_reserved :
    after .move (queued (show' .showing (some 0) none) (command [header 0x21 6 0x0005, 3 + 0x100, 1600, 0, 0, 0]))
      (·.intake.code) = some 3 := by decide

/-- 06, R120: KEY DOWN skips the disabled button. -/
theorem test_key_down :
    after .keyDown (queued (menu (some 0)) (command [header 0x32 1 1])) (fun t => (t.nav.focus, t.intake.code))
      = some (some 2, 0) := by decide

/-- 06, R125: ENTER on the button with the submenu pushes a link record. -/
theorem test_key_enter :
    after .keyEnter (queued (menu (some 0)) (command [header 0x32 1 5])) (fun t => (t.nav.stack, t.bridge.fetch.length))
      = some ([⟨0x200000, 0⟩], 1) := by decide

/-- 06, R127: CLOSE MENU hides the highlight. -/
theorem test_close_menu :
    after .closeMenu (queued (menu (some 0)) (command [header 0x33 1 0]))
      (fun t => (t.nav.page, (t.obj 20).map (·.visible))) = some (none, some false) := by decide

/-- 07, R146: SLIDE STEP beyond the end of a list that does not loop gives code 1. -/
theorem test_slide_step_end :
    after .slideStep (queued (show' .showing (some 1) none) (command [header 0x42 1 1])) (·.intake.code) = some 1 := by
  decide

/-- 08, R158: the rising edge in NORMAL enters; with nothing to drain SAVE begins at once. -/
theorem test_line_enters :
    after (.tkrqEdge true) { base with takeover := { base.takeover with edge := .rising } }
      (fun t => (t.takeover.state, t.takeover.phase)) = some (.entering, some .save) := by decide

/-- 01, R10: a write into the event ring is discarded and sets the GUARD flag. -/
theorem test_ring_guard :
    after (.controllerRequest (.write 0x3FFF800 [⟨1, 15⟩])) base (fun t => (t.bridge.side, t.events.guard))
      = some (.ready, true) := by decide

/-- 01, R12, R23: a command write joins the queue and is forwarded. -/
theorem test_command_write :
    after (.controllerRequest (.write 0x3FFF020 [⟨0x00001F02, 15⟩])) base
      (fun t => (t.intake.queue.map (·.slot), t.forwardedWaits)) = some ([1], true) := by decide

/-- 01, R5, R18: a forwarded write is stored at its grant, byte enables respected. -/
theorem test_forwarded_write :
    after .forwardedGrant
      { base with
        bridge := { base.bridge with side := .forwarding (.write 0x100 [⟨0xAABBCCDD, 5⟩]) } }
      (fun t => (t.mem, t.bridge.side)) = some ([(0x100, 0xDD), (0x102, 0xBB)], .ready) := by decide

/-- 09, R175: the consumer word moves C up to P and clears the flags it names. -/
theorem test_consumer_word :
    after .forwardedGrant
      { base with
        bridge := { base.bridge with side := .forwarding (.write 0x3FFFC04 [⟨0x101, 15⟩]) },
        events := { base.events with p := 1, overflow := true } }
      (fun t => (t.events.c, t.events.overflow)) = some (1, false) := by decide

/-- 09, R175, R176: an acknowledged GUARD flag that a waiting ring write sets again in the same grant has
changed, so a status write is pending. -/
theorem test_acknowledged_and_set_again :
    after .forwardedGrant
      { base with
        bridge :=
          { base.bridge with
            side := .forwarding (.write 0x3FFFC04 [⟨0x400, 15⟩]), waiting := [.write 0x3FFF800 [⟨1, 15⟩]] },
        events := { base.events with guard := true, statusPending := false } }
      (fun t => (t.events.guard, t.events.statusPending)) = some (true, true) := by decide

/-- 09, R174, R179: the end of a record write steps P, and IRQN is low. -/
theorem test_record_end :
    after .eventRecordWriteEnd (ending base .eventRecord) (fun t => (t.events.p, t.irqnLow))
      = some (1, true) := by decide

/-- 09, R177: the first status write after RSTN carries count 1. -/
theorem test_status_write :
    after .statusWrite base (fun t => (t.events.count, t.events.statusPending)) = some (1, false) := by decide

/-- 01, R3: a request that finds the side busy waits, and is taken at the grant of the one before it. -/
theorem test_request_waits :
    let s : State := { base with
      bridge := { base.bridge with side := .forwarding (.read 0 [15]), waiting := [.read 0x100 [15]] } }
    after (.controllerRequest (.read 0x200 [15])) s (fun t => t.bridge.waiting.length) = some 2
      ∧ after .forwardedGrant s (fun t => (t.bridge.side, t.bridge.waiting))
          = some (.forwarding (.read 0x100 [15]), []) := by decide

/-- 01, R13: the hold ends with its command dropped when the count reaches 2048, and not before. -/
theorem test_hold_limit :
    let s (k : Nat) : State := { base with
      bridge := { base.bridge with side := .holding 0x3FFF000 [⟨header 1 1 0, 15⟩] 0 k }
      intake := { base.intake with
        queue := List.replicate 16 (command [header 1 2 0, 1]), inService := some ⟨1, .loadPalette⟩ } }
    after .holdLimit (s 2046) (·.events.intakeDrop) = some false
      ∧ after .holdLimit (s 2047) (fun t => (t.events.intakeDrop, t.forwardedWaits)) = some (true, true) := by decide

/-- 02, R25: a head that is due starts before an edge of TKRQ is taken. -/
theorem test_due_head_first :
    after (.tkrqEdge true)
      { queued base (command [header 1 2 0, 7]) with takeover := { base.takeover with edge := .rising } }
      (fun t => (t.intake.queue, t.events.records.map (·.event), t.takeover.state))
      = some ([], [.mark 0 7 0], .entering) := by decide

/-- 09, R172: the first status write shows the reset values, although a tick comes before its grant. -/
theorem test_first_status_write :
    after (.frameTick []) State.reset (fun t => t.events.presented)
      = some (some (.statusFirst (State.reset.status.words 1))) := by decide

/-- 02, R29: each owner refuses with the reason of the first check that fails. -/
theorem test_refusals :
    let refused (row : Instr) (s : State) (ws : List Nat) : Option (List RefusalReason) :=
      after row (queued s (command ws)) fun t => t.events.records.filterMap fun r =>
        match r.event with
        | .refused _ reason _ _ => some reason
        | _ => none
    refused .drop scene [header 0x11 1 48] = some [.range]
      ∧ refused .drop scene [header 0x11 1 4] = some [.undefinedSlot]
      ∧ refused .keyUp scene [header 0x32 1 0] = some [.noPage]
      ∧ refused .keyEnter (menu none) [header 0x32 1 5] = some [.wrongState]
      ∧ refused .slideStep (show' .stopped none none) [header 0x42 1 1] = some [.wrongState]
      ∧ refused .move (moved moving) [header 0x21 6 0x0003, 3 + 0x100, 0, 0, 0, 0] = some [.slotBusy] := by decide

/-- 11, bring-up: the save area of a player with 64 MiB stands at 3FFE000h after RSTN. -/
theorem test_reset_save_base : base.takeover.saveBase = 0x3FFE000 ∧ base.cmdw = 0x3FFF000 := by decide

/-- No row of this table gives bits, so no word spells a command. -/
theorem test_no_word_decodes : decodeTableWord 8 0 = none ∧ decodeTableWord 32 0xFFFFFFFF = none := by decide

/-! ## Witnesses: for each statement with conditions, what meets them -/

theorem quiet {s : State}
    (h : s.rstnLow = false ∧ s.seq.advanceOwed = false ∧ s.events.firstWrite = false) : s.Quiet :=
  ⟨h.1, h.2.1, h.2.2⟩

theorem settled {s : State}
    (h : s.rstnLow = false ∧ s.seq.advanceOwed = false ∧ s.events.firstWrite = false
      ∧ s.headDue = false) : s.Settled :=
  ⟨quiet ⟨h.1, h.2.1, h.2.2.1⟩, h.2.2.2⟩

def low : State := { base with rstnLow := true }

theorem witness_RstnReleaseSetsResetValues : low.rstnLow = true := by decide

theorem witness_RstnAssertEndsEverything :
    base.rstnLow = false ∧ low.rstnLow = true ∧ Instr.mark.wf = true
      ∧ ∀ msz level, Instr.mark ≠ .rstnRelease msz level := by
  exact ⟨rfl, rfl, rfl, nofun⟩

/-- An advance is owed from index `i`; index 0 is ready, index 1 is not. -/
def owing (i : Nat) : State := { show' .showing (some i) none with seq := { (show' .showing (some i) none).seq with advanceOwed := true } }

/-- The same list, looping. -/
def looping (s : State) : State := { s with seq := { s.seq with list := some ⟨0x1800000, 2, 40, 41, true⟩ } }

theorem owing_ready (i : Nat) : (owing i).seq.readyAt 0 = true ∧ (owing i).seq.readyAt 1 = false := by
  simp [owing, show', Sequencer.readyAt, Sequencer.reset]

/-- The three clauses: the next index not ready, ready with no read in flight, and none. -/
theorem witness_OwedAdvanceComesFirst :
    ((owing 0).seq.setup.next 0 false = some 1 ∧ (owing 0).seq.readyAt 1 = false)
      ∧ ((looping (owing 1)).seq.setup.next 1 false = some 0 ∧ (looping (owing 1)).seq.readyAt 0 = true
          ∧ (looping (owing 1)).takeover.state = .normal ∧ (looping (owing 1)).seq.read = none)
      ∧ ((owing 1).seq.setup.next 1 false = none
          ∧ (owing 1).events.unconsumed + (owing 1).events.records.length < 63)
      ∧ ∀ s ∈ [owing 0, owing 1, looping (owing 1)],
          s.rstnLow = false ∧ s.seq.advanceOwed = true ∧ s.events.firstWrite = false ∧ s.headDue = false := by
  exact ⟨⟨rfl, (owing_ready 0).2⟩, ⟨rfl, (owing_ready 1).1, rfl, rfl⟩, ⟨rfl, by decide⟩, by decide⟩

/-- A write held for a number of clocks behind a queue, while a LOAD PALETTE is in service. -/
def holding (queue : List Command) (count : Nat) : State :=
  { base with
    bridge := { base.bridge with side := .holding 0x3FFF000 [⟨header 1 2 0, 15⟩, ⟨1, 15⟩] 0 count }
    intake := { base.intake with queue := queue, inService := some ⟨1, .loadPalette⟩ } }

def markCommand : Command := command [header 1 2 0, 1]

/-- The empty queue: nothing held; a held write at the first clocks and at the last; a head that is due; RSTN
low. -/
theorem witness_StepRunsFrontCommand :
    base.pending = [] ∧ base.Quiet ∧ base.headReady = false ∧ (∀ a ls n k, base.bridge.side ≠ .holding a ls n k)
      ∧ (∀ k ∈ [0, 2046, 2047], (holding [] k).pending = [] ∧ (holding [] k).rstnLow = false
          ∧ (holding [] k).headReady = false)
      ∧ (holding [] 0).Quiet ∧ (queued base markCommand).Head markCommand []
      ∧ (queued base markCommand).pending = [] ∧ low.rstnLow = true ∧ low.pending = [] := by
  exact ⟨rfl, quiet (by decide), by decide, nofun, by decide, quiet (by decide),
    ⟨quiet (by decide), rfl, by decide⟩, rfl, rfl, rfl⟩

/-- Two MARKs wait within a run of commands. -/
def running : State := { base with intake := { base.intake with queue := [markCommand, markCommand], inRun := true } }

/-- 02, R25: two events fall between two commands of a run, and a bus clock starts the next. -/
theorem test_events_in_a_run :
    after (.frameTick []) running (fun t => (t.intake.queue.length, t.composer.frame)) = some (2, 1)
      ∧ ((after (.frameTick []) running id).bind fun s =>
          after (.frameTick []) s fun t => (t.intake.queue.length, t.composer.frame)) = some (2, 2)
      ∧ ((after .mark running id).map fun s => (s.intake.queue.length, s.headDue)) = some (1, false)
      ∧ (match step running with | .next t => some t.intake.queue.length | _ => none) = some 1 := by decide

/-- 02, R25: outside a run the head starts before the event. -/
theorem test_event_starts_due_head :
    after (.frameTick []) { running with intake := { running.intake with inRun := false } }
      (fun t => (t.intake.queue.length, t.composer.frame)) = some (1, 1) := by decide

theorem witness_HeadDepartureFreesEntry :
    (∀ a ls n k, base.bridge.side ≠ .holding a ls n k)
      ∧ (∃ a ls n k, (holding [] 5).bridge.side = .holding a ls n k)
      ∧ base.Settled ∧ (queued base markCommand).Head markCommand []
      ∧ (queued base markCommand).intake.inRun = false
      ∧ running.Head markCommand [markCommand] ∧ running.intake.inRun = true
      ∧ (Instr.tkrqEdge true).wf = true ∧ ∀ p ∈ commandRows, p.1 ≠ .tkrqEdge true := by
  exact ⟨nofun, ⟨_, _, _, _, rfl⟩, settled (by decide), ⟨quiet (by decide), rfl, by decide⟩, rfl,
    ⟨quiet (by decide), rfl, by decide⟩, rfl, rfl, by decide⟩

/-- A mask that fails; an unknown kind; a wrong length; LOCKOUT. -/
theorem witness_IntakeSkipsAndRefuses :
    let unmasked := command [0x2001, 1]
    let unknown := command [header 0x77 1 0]
    let short := command [header 1 1 0]
    let mark := command [header 1 2 0, 1]
    let locked := { base with takeover := { base.takeover with state := .lockout } }
    ((queued base unmasked).Head unmasked [] ∧ ofKind .mark unmasked = true
        ∧ unmasked.header.getLsbD 8 = false)
      ∧ ((queued base unknown).Head unknown [] ∧ unknown.known = none
          ∧ unknown.header.getLsbD 8 = true)
      ∧ ((queued base short).Head short [] ∧ short.known = some .mark
          ∧ headerLength short.header ≠ Kind.words .mark)
      ∧ ((queued locked mark).Head mark [] ∧ headerLength mark.header = Kind.words .mark
          ∧ (queued locked mark).takeover.state = .lockout) := by
  refine ⟨⟨⟨⟨rfl, rfl, rfl⟩, rfl, ?_⟩, ?_⟩, ⟨⟨⟨rfl, rfl, rfl⟩, rfl, ?_⟩, ?_⟩, ⟨⟨⟨rfl, rfl, rfl⟩, rfl, ?_⟩, ?_⟩,
    ⟨⟨rfl, rfl, rfl⟩, rfl, ?_⟩, ?_⟩ <;> decide

theorem witness_MarkRaisesMark :
    (queued base (command [header 1 2 0, 1])).Starts (command [header 1 2 0, 1]) [] .mark :=
  starts (by decide)

theorem witness_RestartTakesRestartValues :
    (queued base (command [header 2 1 0])).Starts (command [header 2 1 0]) [] .restart := starts (by decide)

def setCanvas : Command := command [header 8 6 0, 1280 + 720 * 0x10000, 0x800000, 0xC00000, 0x1000000, 0x1400000]

/-- With no composition in flight, and with one. -/
def composed : State := { base with composer := { Composer.reset with comp := some composing } }

theorem witness_SetCanvasAppliesOrWaits :
    (queued base setCanvas).Starts setCanvas [] .setCanvas
      ∧ (queued composed setCanvas).Starts setCanvas [] .setCanvas
      ∧ canvas = setCanvas.canvasSetup
      ∧ (320 ≤ canvas.width ∧ canvas.width ≤ 1920 ∧ canvas.width % 16 = 0 ∧ 240 ≤ canvas.height
          ∧ canvas.height ≤ 1080 ∧ canvas.height % 8 = 0)
      ∧ (∀ u ∈ canvas.regions, u.base % 0x1000 = 0 ∧ u.base + u.len ≤ base.cmdw
          ∧ u.overlaps ⟨base.takeover.saveBase, 0x1000⟩ = false
          ∧ ∀ l, base.seq.list = some l → l.range.overlaps u = false)
      ∧ canvas.regions.Pairwise (fun u v => u.overlaps v = false) := by
  refine ⟨starts (by decide), starts (by decide), by decide, by decide, fun u hu => ?_, by decide⟩
  have h : ∀ u ∈ canvas.regions, u.base % 0x1000 = 0 ∧ u.base + u.len ≤ base.cmdw
    ∧ u.overlaps ⟨base.takeover.saveBase, 0x1000⟩ = false := by decide
  exact ⟨(h u hu).1, (h u hu).2.1, (h u hu).2.2, nofun⟩

/-- 02 R25, 05 R95: a SET CANVAS that applies at its start is followed in a run, and a tick falls before the MARK. -/
theorem test_tick_after_set_canvas :
    let s : State := { base with intake := { base.intake with queue := [setCanvas, markCommand] } }
    let t := (after .setCanvas s id).getD s
    t.intake.inRun = true ∧ t.intake.inService = none ∧ t.composer.canvas = some canvas
      ∧ after (.frameTick []) t (fun u => (u.intake.queue.length, u.composer.frame)) = some (1, 1) := by
  decide

def setTakeover : Command := command [header 9 3 0, 0x3F00000, 1 + 255 * 0x10000]

theorem witness_SetTakeoverStoresItsValues :
    (queued base setTakeover).Starts setTakeover [] .setTakeover
      ∧ setTakeover.lineEdge = some .rising ∧ (setTakeover.word 2).toNat / 2 ^ 16 ≤ 255
      ∧ (setTakeover.word 1).toNat % 0x1000 = 0
      ∧ (setTakeover.word 1).toNat + 0x1000 ≤ base.cmdw
      ∧ base.composer.canvas = none ∧ base.seq.list = none := by
  exact ⟨starts (by decide), by decide, by decide, by decide, by decide, rfl, rfl⟩

def setSlides : Command := command [header 0xA 3 256, 0x1800000, 40 + 41 * 0x100]

theorem witness_SetSlidesReplacesTheList :
    let l := setSlides.slideList
    (queued base setSlides).Starts setSlides [] .setSlides ∧ base.seq.state = .stopped
      ∧ (1 ≤ l.count ∧ l.count ≤ 256 ∧ l.slotA < 48 ∧ l.slotB < 48 ∧ l.slotA ≠ l.slotB ∧ l.base % 64 = 0
          ∧ l.base + l.count * 64 ≤ base.cmdw) ∧ base.composer.canvas = none := by
  exact ⟨starts (by decide), by decide, by decide, rfl⟩

def define : Command := command [header 0x10 8 47, 0x01000000, 0x01000000, 0xFF0C, 0, 0, 0, 0]

theorem witness_DefineInstallsItsRecord :
    (queued scene define).Starts define [] .define ∧ define.small = 47 ∧ scene.seqHeld 47 = false
      ∧ scene.pageHeld 47 = false ∧ scene.obj 47 = none ∧ define.record.group = .menu
      ∧ define.record.defaultClip.valid scene.cmdw = true := by
  exact ⟨starts (by decide), by decide, by decide, by decide, by decide, by decide, by decide⟩

def drop : Command := command [header 0x11 1 3]

/-- Unbound, bound to a COMMAND-owned channel, and bound to another's. -/
theorem witness_DropUndefinesItsSlot :
    (∀ s ∈ [scene, moved moving, moved { moving with owner := some .navigator }],
        (s.obj 3).isSome = true ∧ s.seqHeld 3 = false ∧ s.pageHeld 3 = false)
      ∧ (queued scene drop).Starts drop [] .drop ∧ (queued (moved moving) drop).Starts drop [] .drop
      ∧ (scene.obj 3).bind (·.bound) = none ∧ ((moved moving).obj 3).bind (·.bound) = some 2
      ∧ ((moved moving).chan 2).slot = some 3 ∧ ((moved moving).chan 2).owner = some .command
      ∧ ((moved { moving with owner := some .navigator }).chan 2).owner ≠ some .command := by
  exact ⟨by decide, starts (by decide), starts (by decide), by decide, by decide, by decide, by decide, by decide⟩

/-- The DROP of an awaited slide, which a record of RESTORE or a list of other slots may give. -/
theorem witness_awaitedDrop :
    let s : State :=
      { changing with seq := { changing.seq with list := some ⟨0x1800000, 2, 40, 42, false⟩ } }
    let c := command [header 0x11 1 41]
    (queued s c).Starts c [] .drop ∧ (s.obj 41).bind (·.bound) = some 6 ∧ s.seqHeld 41 = false
      ∧ s.pageHeld 41 = false ∧ (s.chan 6).slot = some 41 ∧ (s.chan 6).owner = some .sequencer
      ∧ s.seq.state = .changing ∧ s.seq.await6 = true := by
  exact ⟨starts (by decide), by decide, by decide, by decide, by decide, by decide, rfl, rfl⟩

def place (n word : Nat) : Command := command [header 0x12 2 n, word]

/-- TOP and BOTTOM in both groups, and ABOVE. -/
theorem witness_PlacePutsAtThePosition :
    (∀ c ∈ [place 21 0, place 21 1, place 3 0, place 3 1, place 20 (2 + 21 * 0x100)],
        (scene.obj c.small).isSome = true ∧ scene.seqHeld c.small = false ∧ c.position.isSome = true)
      ∧ scene.scene.orderLaw = true
      ∧ (queued scene (place 21 0)).Starts (place 21 0) [] .place
      ∧ (queued scene (place 20 (2 + 21 * 0x100))).Starts (place 20 (2 + 21 * 0x100)) [] .place
      ∧ (place 20 (2 + 21 * 0x100)).position = some (.above 21)
      ∧ 21 ∈ scene.scene.order ∧ (scene.obj 21).map (·.group) = (scene.obj 20).map (·.group) := by
  exact ⟨by decide, by decide, starts (by decide), starts (by decide), by decide, by decide, by decide⟩

theorem witness_UnplaceTakesOutOfTheOrder :
    (queued scene (command [header 0x13 1 3])).Starts (command [header 0x13 1 3]) [] .unplace
      ∧ (scene.obj 3).isSome = true ∧ scene.seqHeld 3 = false := by
  exact ⟨starts (by decide), by decide, by decide⟩

/-- ALPHA of slot 20: 255, with the keep-mask F0h and the value 05h. -/
def patch : Command := command [header 0x14 3 (20 + 4 * 0x100), 0xF0, 0x05]

theorem witness_PatchWritesAField :
    (queued scene patch).Starts patch [] .patch ∧ patch.smallLow = 20 ∧ patch.field = some .alpha
      ∧ Field.get .alpha (fill .menu) = some 255 ∧ scene.obj 20 = some (fill .menu)
      ∧ scene.editBarred (fill .menu) .alpha = false
      ∧ (Field.bringIn .alpha scene.cmdw (fill .menu) 0xF5).isSome = true := by
  exact ⟨starts (by decide), by decide, by decide, by decide, by decide, by decide, by decide⟩

def step' (increment limit : Nat) : Command := command [header 0x15 4 20, increment, limit, 0]

/-- X of slot 20 from 0 by 10: the limits 11, 10 and 9 give codes 0, 1 and 2. -/
theorem witness_StepComparesAndStores :
    (∀ c ∈ [step' 10 11, step' 10 10, step' 10 9],
        c.smallLow = 20 ∧ c.field = some .x ∧ c.stepStops = some true)
      ∧ (queued scene (step' 10 11)).Starts (step' 10 11) [] .step
      ∧ Field.get .x (fill .menu) = some 0 ∧ scene.editBarred (fill .menu) .x = false
      ∧ (Field.bringIn .x scene.cmdw (fill .menu) 10).isSome = true := by
  exact ⟨by decide, starts (by decide), by decide, by decide, by decide⟩

/-- A 100 by 100 SLIDE in 16 by 16, its viewport at the end of its range; and an 8-bit bitmap. -/
def panned : Obj := { fill .slide with body := .slide 0x100000 400 100 100 1344 1344 }
def mapped : Obj := { fill .menu with body := .bitmap8 3 0x100000 16 }

/-- Each class of field, at the ends of its range and beyond. -/
theorem witness_EditKeepsTheRecordValid :
    (∀ o ∈ [fill .menu, panned, mapped], o.valid 0x3FFF000 = true)
      ∧ (∀ z ∈ [-32769, -32768, 65535, 65536], ∀ f ∈ [Field.x, .y, .alpha, .clipX0, .clipY1, .visible, .clip, .colour],
          (f.get (fill .menu)).isSome = true ∧ (f.bringIn 0x3FFF000 (fill .menu) z).isSome = true)
      ∧ (∀ z ∈ [-1, 0, 1344, 1345], ∀ f ∈ [Field.vx, .vy],
          (f.get panned).isSome = true ∧ (f.bringIn 0x3FFF000 panned z).isSome = true)
      ∧ (∀ p ∈ [(Field.w, 1), (.w, 16), (.h, 2048), (.palette, 0), (.palette, 3), (.source, 0x3FFEF00),
            (.stride, 16), (.stride, 16384)],
          (p.1.get mapped).isSome = true ∧ (p.1.bringIn 0x3FFF000 mapped p.2).isSome = true)
      ∧ Field.get .vx (panned.withW 17) = some 1328 := by
  decide

def loadPalette : Command := command [header 0x16 3 (3 + 255 * 0x100), 1, 0x100000]

theorem witness_LoadPaletteStartsItsRead :
    (queued scene loadPalette).Starts loadPalette [] .loadPalette ∧ loadPalette.smallLow ≤ 3
      ∧ loadPalette.smallHigh + 1 ≤ 256 ∧ (loadPalette.word 1).toNat % 2 ^ 16 = 1
      ∧ (loadPalette.word 2).toNat % 4 = 0 ∧ (loadPalette.word 2).toNat + 4 ≤ scene.cmdw := by
  exact ⟨starts (by decide), by decide, by decide, by decide, by decide, by decide⟩

/-- The end of a palette read, with and without a composition in flight. -/
def palette (s : State) : State :=
  ending { s with scene := { s.scene with load := some ⟨3, 255, 1, [7], false⟩ } } (.fetch .palette)

theorem witness_PaletteReadEndInstalls :
    (palette base).Settled ∧ (palette base).bridge.busy = some (.fetch .palette)
      ∧ (palette base).composer.comp = none ∧ (palette composed).Settled
      ∧ (palette composed).composer.comp ≠ none := by
  exact ⟨settled (by decide), rfl, rfl, settled (by decide), nofun⟩

def profile (n : Nat) : Command := command [header 0x20 4 n, 0, 0, 0]

theorem witness_SetProfileStoresClampedValues :
    (queued base (profile 7)).Starts (profile 7) [] .setProfile ∧ (profile 7).small < 8
      ∧ (queued base (profile 8)).Starts (profile 8) [] .setProfile ∧ 8 ≤ (profile 8).small := by
  exact ⟨starts (by decide), by decide, starts (by decide), by decide⟩

def move : Command := command [header 0x21 6 0x0002, 3 + 0x100, 1600, 0, 0, 0]

theorem witness_MoveStartsAMotion :
    (queued scene move).Starts move [] .move ∧ scene.movePasses move.motion (fill .slide)
      ∧ (scene.chan move.motion.channel).phase = .idle ∧ (fill .slide).bound = none := by
  refine ⟨starts (by decide), ⟨by decide, by decide, by decide, by decide, by decide, nofun, by decide, by decide, by decide⟩,
    by decide, rfl⟩

theorem witness_MoveOverridesAMotion :
    (queued (moved moving) move).Starts move [] .move
      ∧ (moved moving).movePasses move.motion { fill .slide with bound := some 2 }
      ∧ ((moved moving).chan 2).phase ≠ .idle ∧ ((moved moving).chan 2).slot = some move.motion.slot
      ∧ ((moved moving).chan 2).view = move.motion.view ∧ move.motion.channel = 2 := by
  refine ⟨starts (by decide), ⟨by decide, by decide, by decide, by decide, by decide, nofun, by decide, by decide, by decide⟩,
    by decide, by decide, by decide, by decide⟩

/-- A request of a block that passes: for a new motion and for an override. -/
theorem witness_requestPasses :
    scene.requestPasses move.motion (fill .slide) ∧ (scene.chan move.motion.channel).phase = .idle
      ∧ (moved moving).requestPasses move.motion { fill .slide with bound := some 2 }
      ∧ ((moved moving).chan move.motion.channel).phase ≠ .idle := by
  refine ⟨⟨by decide, by decide, by decide, by decide, nofun, by decide, by decide, by decide⟩, by decide,
    ⟨by decide, by decide, by decide, by decide, nofun, by decide, by decide, by decide⟩, by decide⟩

theorem witness_RetuneChangesThePeak :
    (queued (moved moving) (command [header 0x22 2 2, 100])).Starts (command [header 0x22 2 2, 100]) [] .retune
      ∧ (moved moving).channelReserved 2 = false ∧ ((moved moving).chan 2).phase ≠ .idle := by
  exact ⟨starts (by decide), by decide, by decide⟩

def halt (ease : Nat) : Command := command [header 0x23 1 (2 + ease * 0x100)]

theorem witness_HaltEasesOrEnds :
    (∀ e ∈ [0, 1], (halt e).smallLow = 2) ∧ (halt 1).haltEases = true ∧ (halt 0).haltEases = false
      ∧ (queued (moved moving) (halt 1)).Starts (halt 1) [] .halt
      ∧ (queued (moved moving) (halt 0)).Starts (halt 0) [] .halt
      ∧ (moved moving).channelReserved 2 = false ∧ ((moved moving).chan 2).slot = some 3
      ∧ ((moved moving).obj 3).isSome = true := by
  exact ⟨by decide, by decide, by decide, starts (by decide), starts (by decide), by decide, by decide, by decide⟩

/-- R69 at v = 112 with n = 3; R70 with AUTO from below Vp, and at Vp. -/
theorem witness_BrakingDistanceAndPeakSearch :
    let p : Profile := ⟨16, 160, 24, 32, 2, true⟩
    1 ≤ p.d ∧ p.vs < 112 ∧ p.vs + p.d * (3 - 1) < 112 ∧ 112 ≤ p.vs + p.d * 3 ∧ 1 ≤ p.a ∧ p.auto = true
      ∧ 159 < p.vp ∧ p.vp ≤ 160 := by
  decide

theorem witness_BrakeableChannelNeverArrivesAbruptly :
    1 ≤ moving.prof.d ∧ moving.prof.vs ≤ moving.v ∧ moving.prof.vs ≤ moving.vtop
      ∧ brakingDistance moving.prof moving.v ≤ moving.travel - moving.s ∧ moving.tick = .move moving := by
  decide

/-- A channel in each phase of the table, the braking test passed and failed. -/
theorem witness_channelRows :
    (∀ p ∈ [Phase.lead, .accel, .cruise, .slow, .decel, .creep, .easing, .stopping],
        { moving with phase := p }.tick ≠ .rest { moving with phase := p })
      ∧ moving.fits 64 = true ∧ { moving with s := 1550 }.fits 64 = false
      ∧ { moving with phase := .stopping, v := 16 }.tick = .halt
      ∧ { moving with phase := .easing, v := 16 }.tick = .rest { moving with phase := .held, v := 16 } := by
  decide

/-- LEAD at the lead counts 0, 1, 2 and 7: at 0 and 1 the channel leaves LEAD at its step. -/
theorem witness_leadCounts :
    ∀ p ∈ [((0 : Nat), Phase.accel, (0 : Nat)), (1, .accel, 0), (2, .lead, 1), (7, .lead, 6)],
      { moving with phase := .lead, v := 16, lead := p.1 }.tick
        = .move { moving with phase := p.2.1, v := 16, lead := p.2.2 } := by decide

theorem witness_MovedValueRunsBetweenEndpoints : (480 : Nat) ≤ 4080 ∧ 0 < (4080 : Nat) := by decide

/-- A channel that steps on, one that arrives, one that halts and a frozen one; an awaited notice; a dwell; and a
settle that starts a composition. -/
theorem witness_FrameTickCountsFlipsAndCountsLate :
    scene.Settled
      ∧ ((moved moving).chan 2).slot = some 3 ∧ ((moved moving).obj 3).map (·.group) = some .slide
      ∧ moving.tick = .move moving ∧ moving.s + min moving.v (moving.travel - moving.s) ≠ moving.travel
      ∧ { moving with s := 1580, v := 16 }.tick = .move { moving with s := 1580, v := 16 }
      ∧ 1580 + min 16 (moving.travel - 1580) ≠ moving.travel ∧ 1590 + min 16 (moving.travel - 1590) = moving.travel
      ∧ (moved moving).takeover.state ≠ .entering
      ∧ ((show' .changing none (some 0)).onSeq fun q =>
            { q with await6 := true, incomingDesc := some [] }).seq.awaits 6 = true
      ∧ scene.composer.canvas = some canvas ∧ scene.takeover.state = .normal ∧ scene.composer.comp = none
      ∧ scene.composer.swapPending = false ∧ scene.scene.mark = true
      ∧ (∀ slot k', scene.intake.inService ≠ some ⟨slot, .setCanvas k'⟩) := by
  exact ⟨settled (by decide), by decide, by decide, by decide, by decide, by decide, by decide, by decide, nofun,
    by decide, rfl, rfl, rfl, rfl, rfl, nofun⟩

def openPage : Command := command [header 0x30 2 0, 0x200000]

/-- The VALID buffer, the in-flight prefetch and neither. -/
theorem witness_OpenPageTakesTheFirstSource :
    (queued scene openPage).Starts openPage [] .openPage ∧ (openPage.word 1).toNat % 4 = 0
      ∧ (openPage.word 1).toNat + 784 ≤ scene.cmdw
      ∧ (∀ b, scene.nav.buffer = some b → b.addr ≠ 0x200000)
      ∧ ({ scene with nav := { scene.nav with inflight := some ⟨0x200000, false⟩ } } : State).nav.inflight
          = some ⟨0x200000, false⟩
      ∧ scene.nav.inflight ≠ some ⟨0x200000, false⟩ := by
  exact ⟨starts (by decide), by decide, by decide, nofun, rfl, nofun⟩

/-- The bytes of a page of one button, of format 1 or of another. -/
def pageBytes (format : Byte) : List Byte :=
  [format, 1, 0, 20, 3, 4] ++ List.replicate 18 0 ++ [0xFF, 0xFF, 0xFF, 0xFF, 7, 0, 1] ++ List.replicate 753 0

/-- A page of one button that passes, the first check that fails for each reason, and an order without the
highlight. -/
theorem witness_PageIsInstalledOrRejected :
    scene.pageFault (pageBytes 1) = none ∧ scene.pageFault (pageBytes 2) = some (.format, 2)
      ∧ scene.pageFault ((pageBytes 1).set 1 33) = some (.count, 33)
      ∧ scene.pageFault ((pageBytes 1).set 4 8) = some (.profile, 8)
      ∧ scene.pageFault ((pageBytes 1).set 3 3) = some (.highlight, 3)
      ∧ scene.pageFault ((pageBytes 1).set 24 1) = some (.neighbour, 0)
      ∧ scene.pageFault (((pageBytes 1).set 30 5).set 31 20) = some (.focusSlot, 0)
      ∧ 20 ∈ scene.scene.order ∧ scene.scene.orderLaw = true ∧ 22 ∉ scene.scene.order := by decide

/-- An open page whose highlight moves on channel 2, to which channel 0 is not bound. -/
theorem witness_boundHighlight :
    let s : State := (menu (some 0)).onScene fun sc => sc.put 20 (some { fill .menu with bound := some 2 })
    s.pageFault (pageBytes 1) = none ∧ (s.obj 20).bind (·.bound) = some 2 ∧ (s.chan 0).slot ≠ some 20
      ∧ (pageAt 0x200000 (pageBytes 1)).highlight = 20 := by decide

/-- A page read, a prefetch or a descriptor read at its end. -/
def read (s : State) (kind : FetchKind) (addr : Nat) (bytes : List Byte) : State :=
  ending { s with bridge := { s.bridge with fetch := [⟨kind, addr, bytes.length / 4, bytes.length / 4, bytes⟩] } }
    (.fetch kind)

/-- An OPEN PAGE in service. -/
def opening (awaits : Bool) (s : State) : State :=
  { s with intake := { s.intake with inService := some ⟨5, .openPage .command 0x200000 0 awaits⟩ } }

theorem witness_PageReadEndSettlesThePage :
    let s := read (opening false scene) .page 0x200000 (pageBytes 1)
    s.Settled ∧ s.bridge.busy = some (.fetch .page) ∧ (s.bridge.fetchOf .page).isSome = true
      ∧ s.intake.inService = some ⟨5, .openPage .command 0x200000 0 false⟩ := by
  exact ⟨settled (by decide), rfl, by decide, rfl⟩

def prefetchPage : Command := command [header 0x31 2 0, 0x200000]

/-- Nothing known of the page; a read of another page in flight; the page in flight. -/
def prefetching (addr : Nat) : State := { scene with nav := { scene.nav with inflight := some ⟨addr, false⟩ } }

theorem witness_PrefetchPageStartsOrWaits :
    (queued scene prefetchPage).Starts prefetchPage [] .prefetchPage
      ∧ (queued (prefetching 0x300000) prefetchPage).Starts prefetchPage [] .prefetchPage
      ∧ (queued (prefetching 0x200000) prefetchPage).Starts prefetchPage [] .prefetchPage
      ∧ (prefetchPage.word 1).toNat % 4 = 0 ∧ (prefetchPage.word 1).toNat + 784 ≤ scene.cmdw
      ∧ scene.nav.buffer = none ∧ scene.nav.waiting = none := by
  exact ⟨starts (by decide), starts (by decide), starts (by decide), by decide, by decide, rfl, rfl⟩

theorem witness_PrefetchReadEndFillsTheBuffer :
    ∀ stale ∈ [true, false], ∀ awaits ∈ [true, false],
      let s := read (opening awaits { scene with nav := { scene.nav with inflight := some ⟨0x200000, stale⟩ } })
        .prefetch 0x200000 (pageBytes 1)
      s.rstnLow = false ∧ s.seq.advanceOwed = false ∧ s.events.firstWrite = false ∧ s.headDue = false ∧ s.bridge.busy = some (.fetch .prefetch)
        ∧ (s.bridge.fetchOf .prefetch).isSome = true ∧ s.nav.inflight = some ⟨0x200000, stale⟩ := by
  decide

def key (k : Nat) : Command := command [header 0x32 1 k]

/-- No focus; no link (code 1); a link to a disabled button whose chain goes on; an enabled neighbour. -/
theorem witness_DirectionKeysFollowNeighbours :
    (key 7).key = none ∧ (queued scene (key 7)).Starts (key 7) [] .key
      ∧ ((page.button 0).bind (·.neighbour .down) = some 1 ∧ page.enabled 1 = false
          ∧ (page.button 1).bind (·.neighbour .down) = some 2)
      ∧ (queued (menu (some 0)) (key 1)).Starts (key 1) [] .key ∧ (key 1).key = some .down
      ∧ (queued (menu none) (key 0)).Starts (key 0) [] .key ∧ (menu none).nav.focus = none
      ∧ (page.button 0).bind (·.neighbour .up) = none
      ∧ page.walk .down 0 32 0 true = .moved 2
      ∧ (page.button 2).bind (·.neighbour .up) = some 0 ∧ page.enabled 0 = true
      ∧ page.walk .up 0 32 0 true = .stays 1 := by
  exact ⟨by decide, starts (by decide), by decide, starts (by decide), by decide, starts (by decide), rfl, by decide, by decide, by decide, by decide, by decide⟩

/-- A page of disabled buttons but for the first and the last; each has the next below it, and the last has `back`. -/
def column (buttons : Nat) (back : Option Nat) : Page :=
  { page with
    buttons := (List.range buttons).map fun n =>
      button 0 none (if n + 1 < buttons then some (n + 1) else back) (n = 0 || n + 1 = 32) false none }

/-- The paths from button 0 downward through these pages, each with its hypotheses: 32 disabled buttons of a loop
that misses the focus; 31 with no link further, and with one to the focus; 30 with an enabled button next. -/
theorem witness_longPaths :
    let link (p : Page) (k : Nat) : Option Nat := (p.button k).bind (·.neighbour .down)
    let leads (p : Page) (path : List Nat) : Bool :=
      (List.range path.length).all (fun i => link p ((0 :: path).getD i 0) == some (path.getD i 0))
        && path.all fun b => b != 0 && !p.enabled b
    let loop : List Nat := (List.range 32).map fun i => i % 3 + 1
    let long : List Nat := (List.range 31).map (· + 1)
    let closed (back : Option Nat) : Page :=
      { column 32 back with buttons := (column 32 back).buttons.map fun b => { b with enabled := false } }
    leads (column 4 (some 1)) loop = true ∧ loop.length = 32
      ∧ leads (closed none) long = true ∧ long.length = 31 ∧ link (closed none) 31 = none
      ∧ leads (closed (some 0)) long = true ∧ link (closed (some 0)) 31 = some 0
      ∧ leads (column 32 none) (long.take 30) = true ∧ link (column 32 none) 30 = some 31
      ∧ (column 32 none).enabled 31 = true := by
  decide +kernel

/-- 06, R120: the 32nd hop that finds a disabled button ends the key with code 2, and one hop less does not. -/
theorem test_long_paths :
    let run (p : Page) : Option (Option Nat × Fin 4) :=
      after .keyDown (queued { menu (some 0) with nav := { (menu (some 0)).nav with page := some p } } (key 1))
        (fun t => (t.nav.focus, t.intake.code))
    run (column 4 (some 1)) = some (some 0, 2) ∧ run (column 32 none) = some (some 31, 0) := by
  decide +kernel

def select (n : Nat) : Command := key (4 + n * 0x100)

theorem witness_SelectMovesTheFocus :
    (∀ n ∈ [0, 1, 2, 3], (select n).key = some .select ∧ (select n).smallHigh = n)
      ∧ (queued (menu (some 0)) (select 2)).Starts (select 2) [] .key
      ∧ (queued (menu none) (select 2)).Starts (select 2) [] .key
      ∧ page.buttons.length ≤ 3 ∧ page.enabled 1 = false ∧ page.enabled 2 = true
      ∧ page.focusSlot 2 = some 21 ∧ scene.obj 21 = some (fill .menu) ∧ scene.obj 20 = some (fill .menu) := by
  exact ⟨by decide, starts (by decide), starts (by decide), by decide, by decide, by decide, by decide, by decide,
    by decide⟩

/-- Without a submenu (button 2), with one and room in the stack, and with a full stack. -/
theorem witness_EnterActivatesAndOpens :
    let full : State := { menu (some 0) with
      nav := { (menu (some 0)).nav with stack := List.replicate 8 ⟨0x200000, 0⟩ } }
    (queued (menu (some 0)) (key 5)).Starts (key 5) [] .key ∧ (key 5).key = some .enter
      ∧ (queued full (key 5)).Starts (key 5) [] .key ∧ 8 ≤ full.nav.stack.length
      ∧ (page.button 0).map (·.submenu) = some true ∧ (page.button 2).map (·.submenu) = some false
      ∧ (page.button 0).map (·.submenuAddr) = some 0x200400 ∧ 0x200400 + 784 ≤ scene.cmdw := by
  exact ⟨starts (by decide), by decide, starts (by decide), by decide, by decide, by decide, by decide, by decide⟩

theorem witness_BackReturnsToTheLink :
    let pushed : State := { menu (some 0) with nav := { (menu (some 0)).nav with stack := [⟨0x200000, 1⟩] } }
    (queued (menu (some 0)) (key 6)).Starts (key 6) [] .key ∧ (key 6).key = some .back
      ∧ (menu (some 0)).nav.stack = [] ∧ (queued pushed (key 6)).Starts (key 6) [] .key
      ∧ pushed.nav.stack = [] ++ [⟨0x200000, 1⟩] := by
  exact ⟨starts (by decide), by decide, rfl, starts (by decide), rfl⟩

theorem witness_CloseMenuClosesThePage :
    (queued (menu (some 2)) (command [header 0x33 1 0])).Starts (command [header 0x33 1 0]) [] .closeMenu
      ∧ (queued scene (command [header 0x33 1 0])).Starts (command [header 0x33 1 0]) [] .closeMenu
      ∧ (menu (some 2)).nav.page = some page ∧ scene.nav.page = none := by
  exact ⟨starts (by decide), starts (by decide), rfl, rfl⟩

def slideStart (i : Nat) : Command := command [header 0x40 1 i]

/-- Index 0, which is ready, and index 1, the last, which is not. -/
theorem witness_SlideStartBeginsTheLoad :
    let s := show' .stopped none none
    (∀ i ∈ [0, 1], (slideStart i).small < 2) ∧ (queued s (slideStart 0)).Starts (slideStart 0) [] .slideStart
      ∧ (queued s (slideStart 1)).Starts (slideStart 1) [] .slideStart ∧ s.takeover.state = .normal
      ∧ s.seq.state = .stopped ∧ s.seq.list = some ⟨0x1800000, 2, 40, 41, false⟩
      ∧ s.composer.canvas ≠ none ∧ s.obj 40 = none ∧ s.obj 41 = none := by
  exact ⟨by decide, starts (by decide), starts (by decide), rfl, rfl, rfl, nofun, by decide, by decide⟩

def slideStop : Command := command [header 0x41 1 0]

theorem witness_SlideStopStopsTheShow :
    (queued base slideStop).Starts slideStop [] .slideStop ∧ base.seq.list = none ∧
    (queued (show' .stopped none none) slideStop).Starts slideStop [] .slideStop
      ∧ (queued (show' .showing (some 0) none) slideStop).Starts slideStop [] .slideStop
      ∧ (show' .showing (some 0) none).seq.state ≠ .stopped
      ∧ (show' .showing (some 0) none).seq.paused = false := by
  exact ⟨starts (by decide), rfl, starts (by decide), starts (by decide), nofun, rfl⟩

def slideStep (small : Nat) : Command := command [header 0x42 1 small]

/-- A step that stays in the list and one that leaves it, from SHOWING, CHANGING and LOADING. -/
theorem witness_SlideStepLoadsTheNext :
    (slideStep 1).direction = some false ∧ (slideStep 0xFFFF).direction = some true
      ∧ (∀ s ∈ [show' .showing (some 0) none, show' .changing (some 0) (some 1), show' .loading none (some 0)],
          s.takeover.state = .normal ∧ s.canStart = true ∧ s.seq.setup.next 0 false = some 1
            ∧ s.seq.setup.next 0 true = none)
      ∧ (queued (show' .showing (some 0) none) (slideStep 1)).Starts (slideStep 1) [] .slideStep
      ∧ (queued (show' .showing (some 0) none) (slideStep 0xFFFF)).Starts (slideStep 0xFFFF) [] .slideStep
      ∧ (queued (show' .showing none none) (slideStep 1)).Starts (slideStep 1) [] .slideStep
      ∧ (show' .showing none none).seq.current = none ∧ 0 < (show' .showing none none).seq.setup.count := by
  exact ⟨by decide, by decide, by decide, starts (by decide), starts (by decide), starts (by decide), rfl, by decide⟩

theorem witness_SteppingFollowsTheList :
    let l : SlideList := ⟨0x1800000, 2, 40, 41, true⟩
    0 < l.count ∧ 1 < l.count ∧ l.loop = true ∧ l.next 1 false = some 0 ∧ l.next 0 true = some 1 := by decide

def pause (mode : Nat) : Command := command [header 0x43 1 mode]

def slideResume : Command := command [header 0x44 1 0]

/-- A paused show with a channel of the show in a phase and a hold. -/
def paused (phase : Phase) (hold : Option HoldMode) : State :=
  let s := show' .showing (some 0) none
  { s with
    seq := { s.seq with paused := true, panOwed := true, shown := some .a, onShow := some ⟨50, true, 0, 0, 0⟩ }
    motion := s.motion.putChannel 2 { moving with owner := some .sequencer, phase := phase, hold := hold } }

theorem witness_PauseHoldsAndResumeReleases :
    (∀ m ∈ [0, 1, 2], (pause m).holdMode.isSome = true)
      ∧ (queued (paused .cruise none) (pause 0)).Starts (pause 0) [] .slidePause
      ∧ (paused .cruise none).seq.state ≠ .stopped
      ∧ ((paused .held (some .firm)).chan 2).phase = .held ∧ ((paused .stopping none).chan 2).phase = .stopping
      ∧ ((paused .easing (some .ease)).chan 2).hold = some .ease
      ∧ (queued (show' .showing (some 0) none) slideResume).Starts slideResume [] .slideResume
      ∧ (queued (paused .held (some .firm)) slideResume).Starts slideResume [] .slideResume
      ∧ (paused .held (some .firm)).seq.panOwed = true ∧ (paused .held (some .firm)).seq.shown = some .a := by
  exact ⟨by decide, starts (by decide), nofun, by decide, by decide, by decide, starts (by decide),
    starts (by decide), rfl, rfl⟩

/-- A release at SLIDE STOP and at SLIDE RESUME: HELD, EASING under each mode, and moving with a hold mode. -/
theorem witness_takesRelease :
    (∀ p ∈ [(Phase.held, HoldMode.firm), (.easing, .firm), (.easing, .ease), (.easing, .freeze),
            (.cruise, .ease)],
        let s := paused p.1 (some p.2)
        s.canStart = true ∧ s.seq.paused = true ∧ s.seq.state ≠ .stopped ∧ (s.chan 2).hold = some p.2
          ∧ (s.chan 2).phase = p.1
          ∧ ∀ k ∈ [40, 41], s.obj k = none)
      ∧ (queued (paused .held (some .firm)) slideStop).Starts slideStop [] .slideStop := by
  exact ⟨by decide, starts (by decide)⟩

/-- A stop over slots A and B, slot A bound to channel 2, which alone has it, and slot 3 of no channel. -/
def stopping (flag : Bool) : State :=
  let s := show' .showing (some 0) none
  { s with
    scene := s.scene.put 40 (some { fill .slide with bound := some 2 })
    motion := s.motion.putChannel 2 { moving with slot := some 40 }
    seq := { s.seq with paused := flag } }

theorem witness_showStopped :
    (∀ flag ∈ [true, false],
        (stopping flag).seq.slots = [40, 41] ∧ (stopping flag).seq.paused = flag
          ∧ ((stopping flag).obj 40).map (·.bound) = some (some 2)
          ∧ (∀ m : Fin 8, m.val ≠ 2 → ((stopping flag).chan m.val).slot ≠ some 40)
          ∧ (∀ n : Fin 8, ((stopping flag).chan n.val).slot ≠ some 3) ∧ ((stopping flag).obj 3).isSome = true)
      ∧ base.seq.slots = [] ∧ 3 ∉ (stopping true).seq.slots := by decide

/-- 07, R151: the stop undefines the bound slot and frees its channel; with no list it undefines nothing. -/
theorem test_stop_show :
    let s := stopping false
    s.stopShow.obj 40 = none ∧ (s.stopShow.chan 2).phase = .idle
      ∧ ((s.onSeq fun q => { q with list := none }).stopShow.obj 40).isSome = true :=
  ⟨rfl, rfl, rfl⟩

/-- 07, R151: the pause mode goes with a pause; with the paused flag clear SLIDE STOP does not touch it. -/
theorem test_stop_clears_the_pause_mode :
    let stopped (flag : Bool) : Sequencer :=
      (base.onSeq fun q => { q with state := .showing, paused := flag, pauseMode := some .firm }).stopShow.seq
    (stopped true).state = .stopped ∧ (stopped true).pauseMode = none ∧ (stopped false).pauseMode = some .firm :=
  ⟨rfl, rfl, rfl⟩

/-- A descriptor of a CUT of an image of 1600 by 1000 pixels (11). -/
def descriptor (kind : Byte) : List Byte :=
  [0, kind, 4, 2, 1, 0, 0, 0, 50, 0, 0, 0, 0, 0, 0x90, 1, 0x40, 6, 0xE8, 3, 0, 0x19, 0, 0, 0, 0, 0, 0, 0x40, 1, 0x18, 1]
    ++ List.replicate 32 0

/-- A descriptor read at its end: for the incoming index, overtaken, or after the show has stopped. -/
def described (state : SeqState) (overtaken : Bool) (kind : Byte) : State :=
  let s := show' state none (some 0)
  read { s with seq := { s.seq with read := some ⟨0, overtaken⟩ } } .descriptor 0x1800000 (descriptor kind)

theorem witness_DescriptorReadEndStartsTheSlide :
    (∀ s ∈ [described .loading false 1, described .loading true 1, described .stopped true 1],
        s.rstnLow = false ∧ s.seq.advanceOwed = false ∧ s.events.firstWrite = false ∧ s.headDue = false ∧ s.bridge.busy = some (.fetch .descriptor)
          ∧ (s.bridge.fetchOf .descriptor).isSome = true ∧ s.seq.read.isSome = true)
      ∧ (∀ k ∈ [1, 2, 3, 4], (descriptorOf (descriptor k)).fault (described .loading false 1).cmdw = none)
      ∧ (descriptorOf (descriptor 1)).kind = 1
      ∧ (described .loading false 1).seq.incoming = some 0 ∧ (described .loading false 1).takeover.state = .normal
      ∧ (described .loading false 1).composer.canvas = some canvas
      ∧ (descriptorOf (descriptor 5)).fault (described .loading false 5).cmdw = some .kind
      ∧ (described .loading false 5).seq.setup.next 0 false = some 1
      ∧ ((described .changing false 1).onSeq fun q => { q with incomingDesc := some [] }).seq.incoming = some 0 := by
  decide

/-- A descriptor of each kind at its end, over a shown slide in slot 40: in NORMAL and in ENTERING. -/
def succeeding (kind : Byte) : State :=
  let s := described .loading false kind
  { s with
    scene :=
      { s.scene with slots := s.scene.slots.setIfInBounds 40 (some (fill .slide)), order := [40, 20, 21] }
    seq := { s.seq with shown := some .a } }

theorem witness_slideRequests :
    (∀ k ∈ [1, 2, 3, 4], ∀ e ∈ [TakeoverState.normal, .entering],
        let s : State := { succeeding k with takeover := { base.takeover with state := e } }
        s.rstnLow = false ∧ s.seq.advanceOwed = false ∧ s.events.firstWrite = false ∧ s.headDue = false
          ∧ s.bridge.busy = some (.fetch .descriptor) ∧ s.seq.state = .loading
          ∧ s.seq.read = some ⟨0, false⟩ ∧ s.seq.incoming = some 0
          ∧ ((s.bridge.fetchOf .descriptor).map fun op => (descriptorOf op.data).fault s.cmdw) = some none
          ∧ ((s.bridge.fetchOf .descriptor).map fun op => (descriptorOf op.data).kind) = some k.toNat)
      ∧ (succeeding 3).obj 41 = none ∧ (succeeding 3).scene.orderLaw = true
      ∧ 40 ∈ (succeeding 3).scene.order ∧ (succeeding 3).scene.inGroup .slide 40 = true := by
  decide

/-- A slide that starts over a spare slot still defined, placed or not, and bound to a channel, 2 or 7. -/
def overBound (channel : Nat) (order : List Nat) : State :=
  let s := succeeding 1
  { s with
    scene := { s.scene.put 41 (some { fill .slide with bound := some channel }) with order := order }
    motion := s.motion.putChannel channel { moving with slot := some 41 } }

theorem witness_spareSlotDefined :
    (∀ c ∈ [2, 7], ∀ order ∈ [[40, 20, 21], [40, 41, 20, 21]],
        let s := overBound c order
        s.rstnLow = false ∧ s.headDue = false ∧ s.bridge.busy = some (.fetch .descriptor) ∧ s.seq.state = .loading
          ∧ s.scene.orderLaw = true ∧ 40 ∈ s.scene.order ∧ s.scene.inGroup .slide 40 = true
          ∧ (s.obj 41).map (·.bound) = some (some c) ∧ (s.chan c).phase ≠ .idle ∧ (s.chan c).slot = some 41) := by
  decide

/-- 04, R67; 07, R141: the binding of the spare slot stands, and its channel goes on. -/
theorem test_slide_over_a_bound_spare_slot :
    after .descriptorReadEnd (overBound 2 [40, 41, 20, 21])
      (fun t => ((t.obj 41).map (·.bound), (t.chan 2).slot, t.scene.order))
      = some (some (some 2), some 41, [41, 20, 21]) := by decide

/-- A change that completes over a shown slide in slot 40, with and without a motion bound to it. -/
theorem witness_changeComplete :
    (∀ b ∈ [none, some 6],
        let s : State :=
          ((succeeding 1).onSeq fun q => { q with incomingDesc := some (descriptor 1) }).onScene fun sc =>
            sc.put 40 (some { fill .slide with bound := b })
        s.seq.list = some ⟨0x1800000, 2, 40, 41, false⟩ ∧ s.seq.incoming = some 0
          ∧ s.seq.incomingDesc = some (descriptor 1) ∧ s.seq.shown = some .a ∧ (s.obj 40).map (·.bound) = some b)
      ∧ (descriptorOf (descriptor 1)).panPresent = true
      ∧ (descriptorOf ((descriptor 1).set 4 0)).panPresent = false := by decide

/-- 07, R143: FADE and the PUSHes start channel 6, and channel 5 moves the old slide of a PUSH. -/
theorem test_slide_requests :
    (∀ p ∈ [((2 : Byte), (0 : Int), false), (3, 20480, true), (4, -20480, true)],
        after .descriptorReadEnd (succeeding p.1)
          (fun t => (t.seq.state, (t.obj 41).map (·.x), t.seq.await6, t.seq.await5, t.scene.order))
          = some (.changing, some p.2.1, true, p.2.2, [40, 41, 20, 21])) := by decide

def takeover : Command := command [header 0x50 1 0]

def inState (t : TakeoverState) : State :=
  { base with takeover := { base.takeover with state := t, edge := .rising } }

/-- An edge that is named and one that is not, and TAKEOVER in NORMAL, MENU-OVER and LOCKOUT. -/
theorem witness_RequestsEnterHoldOrRecover :
    (∀ t ∈ [TakeoverState.normal, .entering, .menuOver, .leaving, .lockout],
        (inState t).rstnLow = false ∧ (inState t).seq.advanceOwed = false
          ∧ (inState t).events.firstWrite = false ∧ (inState t).headDue = false ∧ true ≠ (inState t).takeover.level
          ∧ (inState t).takeover.edge = .rising)
      ∧ (queued (inState .normal) takeover).Starts takeover [] .takeover
      ∧ (queued (inState .menuOver) takeover).Starts takeover [] .takeover
      ∧ (queued (inState .lockout) takeover).Starts takeover [] .takeover
      ∧ (inState .lockout).composer.comp = none ∧ (inState .lockout).composer.canvas = none
      ∧ (queued { inState .lockout with composer := scene.composer } takeover).Starts takeover [] .takeover
      ∧ scene.composer.canvas ≠ none
      ∧ (queued { inState .lockout with composer := composed.composer } takeover).Starts takeover [] .takeover
      ∧ composed.composer.comp ≠ none := by
  exact ⟨by decide, starts (by decide), starts (by decide), starts (by decide), rfl, rfl, starts (by decide),
    nofun, starts (by decide), nofun⟩

/-- 02 R25, 08 R170: a recovery of TAKEOVER that ends at its start is followed in a run; one that goes on is not. -/
theorem test_takeover_recovers_at_its_start :
    let run (s : State) := after .takeover (queued s takeover) fun t =>
      (t.takeover.state, t.intake.inService.isSome, t.intake.inRun && t.intake.inService.isNone)
    run (inState .lockout) = some (.menuOver, false, true)
      ∧ run { inState .lockout with composer := scene.composer } = some (.entering, true, false) := by
  decide

theorem witness_ResumeClosesTheScene :
    (queued (inState .menuOver) (command [header 0x51 1 0])).Starts (command [header 0x51 1 0]) [] .resume
      ∧ (inState .menuOver).takeover.state = .menuOver := by
  exact ⟨starts (by decide), rfl⟩

/-- RESUME over an open page, a SLIDE-group object and a motion that ends. -/
theorem witness_closeWithPage :
    let m := menu (some 2)
    let s : State :=
      { m with
        scene := m.scene.put 3 (some { fill .slide with bound := some 2 })
        motion := m.motion.putChannel 2 moving
        takeover := { m.takeover with state := .menuOver } }
    s.takeover.state = .menuOver ∧ s.nav.page = some page ∧ (s.obj 3).map (·.group) = some .slide
      ∧ 2 ∈ List.range 8 ∧ (s.chan 2).phase ≠ .idle ∧ (s.chan 2).slot = some 3 ∧ s.canStart = true := by decide

/-- Slots that the ended channels do not have: slot 20 with channel 2 at slot 3, and slot 3 with none moving. -/
theorem witness_keptBinding :
    (∀ n : Fin 8, ((moved moving).chan n.val).slot ≠ some 20) ∧ ((moved moving).obj 20).isSome = true
      ∧ (∀ n : Fin 8, (scene.chan n.val).slot ≠ some 3) ∧ (scene.obj 3).isSome = true := by decide

/-- An IDLE channel, and busy ones: of slot 3, of no slot, and of a slot that is undefined. -/
theorem witness_silentHalt :
    (scene.chan 2).phase = .idle ∧ ((moved moving).chan 2).phase ≠ .idle ∧ ((moved moving).chan 2).slot = some 3
      ∧ ((moved moving).obj 3).isSome = true ∧ ((moved { moving with slot := none }).chan 2).slot = none
      ∧ ((moved { moving with slot := some 9 }).chan 2).slot = some 9
      ∧ (moved { moving with slot := some 9 }).obj 9 = none := by decide

/-- 04, R77 and R90: a silent end leaves the channel IDLE with no owner and no slot, its object unbound, and no event. -/
theorem test_silent_halt :
    let t := (moved moving).silentHalt 2
    (t.chan 2).phase = .idle ∧ (t.chan 2).owner = none ∧ (t.chan 2).slot = none
      ∧ (t.obj 3).map (·.bound) = some none ∧ t.events = (moved moving).events := by decide

/-- A DRAIN, of a recovery or not. -/
def draining (recovered : Bool) : State :=
  { scene with
    takeover :=
      { scene.takeover with
        state := .entering, phase := some .drain, facts := some ⟨.command, recovered, false, false, none⟩ } }

/-- What an entry's DRAIN waits for, each alone; nothing of it but the TAKEOVER itself; and a recovery's DRAIN. -/
theorem witness_drainStep :
    scene.takeover.state ≠ .entering ∧ (draining false).takeover.facts = some ⟨.command, false, false, false, none⟩
      ∧ State.drainWaits { draining false with composer := composed.composer }
      ∧ State.drainWaits { draining false with intake := { base.intake with inService := some ⟨5, .setCanvas canvas⟩ } }
      ∧ State.drainWaits ((draining false).onSeq fun q => { q with read := some ⟨0, false⟩ })
      ∧ ¬ State.drainWaits { draining false with intake := { base.intake with inService := some ⟨5, .takeover⟩ } }
      ∧ ¬ State.drainWaits (draining false)
      ∧ (draining true).takeover.facts = some ⟨.command, true, false, false, none⟩
      ∧ (draining true).composer.comp = none := by
  unfold State.drainWaits
  decide

/-- 08, R160, R161 and R170: an entry's DRAIN ends in SAVE, a recovery's in COPY, and a descriptor read holds it. -/
theorem test_drain_ends :
    (draining false).drainStep.takeover.phase = some .save ∧ (draining true).drainStep.takeover.phase = some .copy
      ∧ ((draining false).onSeq fun q => { q with read := some ⟨0, false⟩ }).drainStep.takeover.phase = some .drain := by
  decide

/-- The Takeover Unit with a job, at the end of one of its bursts. -/
def working (t : TakeoverState) (j : TakeoverJob) (e : BurstEnd) : State :=
  ending
    { scene with
      takeover :=
        { scene.takeover with state := t, job := j, facts := some ⟨.command, false, false, false, none⟩ } } e

theorem witness_SaveAndCopyEndInMenuOver :
    let s := working .entering (.save [] [3] []) .save
    let k := working .entering (.copy 0 0 0 0 none) .copy
    s.Settled ∧ s.bridge.busy = some .save ∧ s.takeover.job = .save [] [3] [] ∧ s.composer.canvas = some canvas
      ∧ k.Settled ∧ k.bridge.busy = some .copy
      ∧ k.takeover.facts = some ⟨.command, false, false, false, none⟩
      ∧ ({ k with intake := { k.intake with inService := some ⟨5, .takeover⟩ } } : State).intake.inService
          = some ⟨5, .takeover⟩
      ∧ ∀ slot, k.intake.inService ≠ some ⟨slot, .takeover⟩ := by
  exact ⟨settled (by decide), rfl, rfl, rfl, settled (by decide), rfl, rfl, rfl, nofun⟩

/-- The end of SAVE of slot 3 and of channel 2, bound to it, beside a MENU-group motion on channel 1. -/
theorem witness_unsavedChannel :
    let s : State :=
      { working .entering (.save [] [3] [2]) .save with
        scene := (moved moving).scene.put 21 (some { fill .menu with bound := some 1 })
        motion := (moved moving).motion.putChannel 1 { moving with slot := some 21 } }
    s.takeover.job = .save [] [3] [2] ∧ (s.chan 1).phase ≠ .idle ∧ 1 ∉ [2]
      ∧ (∀ k ∈ [3], (s.obj k).map (·.bound) ≠ some (some 1)) ∧ (s.chan 2).phase ≠ .idle := by decide

/-- The end of SAVE while the Composer is DISABLED. -/
theorem witness_saveEndDisabled :
    let w := working .entering (.save [] [3] []) .save
    let s : State := { w with composer := { w.composer with canvas := none } }
    s.Settled ∧ s.bridge.busy = some .save ∧ s.composer.canvas = none
      ∧ s.takeover.facts = some ⟨.command, false, false, false, none⟩
      ∧ ∀ slot, s.intake.inService ≠ some ⟨slot, .takeover⟩ := by
  exact ⟨settled (by decide), rfl, rfl, rfl, nofun⟩

/-- The record of an empty stopped show with its next base, of revision 3 or of another. -/
def record (revision jump : Byte) : List Byte :=
  [revision, 3, 0, 0, 0, 0, 0xF0, 3, 0, 0, 0xF0, 3, 0, 0, jump, if jump = 0xFF then 0xFF else 0, 2, 0, 0, 0, 0, 0,
    0, 0, 0, 0xFF, 0, 0, 0, 0, 0, 0, 0xFF, 0xFF, 0xFF, 0xFF] ++ List.replicate 60 0

/-- A burst of each phase at its grant. -/
theorem witness_takeoverBursts :
    let s (j : TakeoverJob) := working .entering j .save
    (s (.save [(0x3FFE000, [1, 2])] [] [])).memoryLaw = true ∧ ([1, 2] : List Word).length ≤ 8
      ∧ 32 ≤ base.bridge.memSize ∧ base.takeover.saveBase % 32 = 0
      ∧ (restorePlan base.takeover.saveBase [])[2]? = some (0x3FFE040, 8)
      ∧ (restorePlan base.takeover.saveBase (record 3 0xFF))[3]? = none := by
  decide

theorem witness_RestoreInstallsOrLocksOut :
    let s (bs : List Byte) := working .leaving (.restore 3 bs) .restore
    (∀ bs ∈ [record 3 0xFF, record 2 0xFF],
        (s bs).rstnLow = false ∧ (s bs).seq.advanceOwed = false ∧ (s bs).events.firstWrite = false
          ∧ (s bs).headDue = false ∧ (s bs).bridge.busy = some .restore
          ∧ (s bs).takeover.state = .leaving)
      ∧ (s (record 3 0xFF)).recordFault (saveRecordOf (record 3 0xFF)) = none
      ∧ ((s (record 2 0xFF)).recordFault (saveRecordOf (record 2 0xFF))).map Prod.fst = some .revision
      ∧ (saveRecordOf (record 3 0xFF)).jump = none ∧ (saveRecordOf (record 3 0)).jump = some 0
      ∧ (saveRecordOf (record 3 0xFF)).state = some .stopped := by
  decide

/-- The record that SAVE writes of a change, with a transition flag and a jump index. -/
def changingRecord (transition jump : Byte) : List Byte :=
  let q := changing
  let slides := [(40, 1), (41, 2)]
  (((q.saveFixed ⟨.command, false, true, false, none⟩ 3 2).set 13 transition).set 14 jump).set 15
      (if jump = 0xFF then 0xFF else 0)
    ++ objectEntry 3 (some 0) (fill .slide)
    ++ slides.flatMap (fun p => ((q.obj p.1).map (objectEntry p.1 (some p.2))).getD [])
    ++ channelEntry 5 (q.chan 5) ++ channelEntry 6 (q.chan 6)

/-- A RESTORE at the end of its last burst, of a player whose list is the record's. -/
def restoring (bs : List Byte) (held : Bool) : State :=
  let s := working .leaving (.restore 9 bs) .restore
  { s with
    takeover := { s.takeover with held := held }
    seq := { Sequencer.reset with list := changing.seq.list, ready := changing.seq.ready } }

/-- A record with object and channel entries passes with REDO and with FINISH, a jump that acts, and a held
request. -/
theorem witness_restoreOfAChange :
    (∀ transition ∈ [0, 1], ∀ jump ∈ [0, 0xFF],
        let s := restoring (changingRecord transition jump) false
        let r := saveRecordOf (changingRecord transition jump)
        s.recordFault r = none ∧ r.state = some .changing ∧ r.jump = (if jump = 0 then some 0 else none)
          ∧ r.objects.length = 3 ∧ r.channels.length = 2)
      ∧ (∀ held ∈ [false, true],
          (restoring (changingRecord 0 0) held).takeover.held = held
            ∧ (restoring (changingRecord 0 0) held).rstnLow = false
            ∧ (restoring (changingRecord 0 0) held).headDue = false)
      ∧ 0 < changing.seq.setup.count := by
  decide +kernel

/-- 08, R167, R168: REDO puts the awaited channel at its start again, FINISH completes the change, and a jump
loads its index. -/
theorem test_restore_of_a_change :
    (∀ p ∈ [((1 : Byte), (0xFF : Byte), SeqState.changing, some 0, false, Phase.accel),
            (0, 0xFF, .showing, some 1, false, .idle), (0, 0, .loading, some 1, true, .idle)],
        after .restoreReadEnd (restoring (changingRecord p.1 p.2.1) false)
          (fun t => (t.takeover.state, t.seq.state, t.seq.current, t.takeover.jumpPending, (t.chan 6).phase))
          = some (.normal, p.2.2)) := by decide +kernel

/-- The channel of a rewind: moving, and EASING with a release recorded and without. -/
theorem witness_rewind :
    ∀ c ∈ [{ moving with phase := .decel }, { moving with phase := .easing, hold := some .firm },
        { moving with phase := .easing, hold := some .firm, release := true }],
      ((moved c).chan 2).slot = some 3 ∧ ((moved c).obj 3).isSome = true ∧ (moved c).chan 2 = c := by
  decide

/-- A burst at a boundary of each clause: below the Command Window, at its ends, in the command area, in the
ring and in the status block; READY, and FORWARDING. -/
theorem witness_ControllerRequestIsClassified :
    [0x3FFEFFC, 0x3FFF000, 0x3FFF7FC, 0x3FFF800, 0x3FFFBFC, 0x3FFFC00, 0x3FFFC3C, 0x3FFFC40].all
        (fun a => (Request.write a [⟨0, 15⟩]).wf && (Request.read a [15]).wf) = true
      ∧ base.Settled ∧ base.bridge.side = .ready
      ∧ headerLength (header 1 2 0) = [(⟨header 1 2 0, 15⟩ : Lane), ⟨1, 15⟩].length
      ∧ (holding [] 5).bridge.side ≠ .ready ∧ (Request.read 0x1002 [15]).wf = false
      ∧ (holding [] 5).Settled ∧ (holding (List.replicate 16 takeover) 2046).Settled
      ∧ (holding (List.replicate 16 takeover) 2047).Settled
      ∧ 16 ≤ (holding (List.replicate 16 takeover) 2047).intake.queue.length := by
  exact ⟨by rfl, settled (by decide), rfl, by decide, nofun, by decide, settled (by decide), settled (by decide),
    settled (by decide), by decide⟩

/-- A forwarded request, its turn come; the Scan Window and the slide list as the setups leave them. -/
def forwarding (f : Forwarded) : State :=
  { show' .showing (some 0) none with
    bridge :=
      { base.bridge with
        side := .forwarding f
        window :=
          { scan := some ⟨0x1000000, 3686400⟩, front := .a, saveBase := 0x3FFE000
            slides := some ⟨0x1800000, 128⟩ } } }

theorem witness_ForwardedGrantReadsWritesOrDiscards :
    (∀ a ∈ [0x1000000, 0x1383FFC, 0x1384000, 0x3FFE000, 0x3FFEFFC, 0x1800000, 0x180007C, 0x3FFFC04],
        let s := forwarding (.write a [⟨1, 15⟩])
        s.rstnLow = false ∧ s.seq.advanceOwed = false ∧ s.events.firstWrite = false ∧ s.headDue = false ∧ s.bridge.busy = none ∧ s.bridge.streak ≠ 3
          ∧ s.bridge.passed = false ∧ 32 ≤ s.bridge.memSize ∧ s.memoryLaw = true)
      ∧ (∀ a ∈ [0x1000000, 0x1383FFC],
          (forwarding (.read a [15])).classify a = .scan 0x1000000)
      ∧ (forwarding (.read 0 [15])).classify 0x1384000 = .elsewhere
      ∧ (∀ a ∈ [0x3FFE000, 0x3FFEFFC], (forwarding (.read 0 [15])).classify a = .save)
      ∧ (∀ a ∈ [0x1800000, 0x180007C], (forwarding (.read 0 [15])).classify a = .slides ⟨0x1800000, 128⟩) := by
  decide

/-- A save-area write in MENU-OVER, and a ready-byte notice in LOADING with its read in flight and in WAITING. -/
theorem witness_forwardedNotices :
    let s (state : SeqState) (r : Option DescriptorRead) (a : Nat) : State :=
      { forwarding (.write a [⟨1, 15⟩]) with
        seq := { (show' state none (some 0)).seq with read := r }
        takeover := { base.takeover with state := if state = .suspended then .menuOver else .normal } }
    (∀ p ∈ [(SeqState.loading, some ⟨0, false⟩, 0x1800000), (.waiting, none, 0x1800000),
            (.suspended, none, 0x3FFE000), (.suspended, none, 0x3FFEFFC)],
        let s := s p.1 p.2.1 p.2.2
        s.rstnLow = false ∧ s.seq.advanceOwed = false ∧ s.events.firstWrite = false ∧ s.headDue = false
          ∧ s.bridge.busy = none ∧ s.bridge.streak ≠ 3 ∧ s.bridge.passed = false ∧ s.seq.incoming = some 0)
      ∧ (forwarding (.read 0 [15])).classify 0x1800000 = .slides ⟨0x1800000, 128⟩
      ∧ (s .suspended none 0x3FFE000).takeover.state = .menuOver
      ∧ after .forwardedGrant (s .loading (some ⟨0, false⟩) 0x1800000) (·.seq.read) = some (some ⟨0, true⟩)
      ∧ after .forwardedGrant (s .waiting none 0x1800000) (·.seq.state) = some .loading
      ∧ after .forwardedGrant (s .suspended none 0x3FFE000) (·.readByte 0x3FFE000) = some 1 := by
  decide +kernel

/-- 01, R5: after a discard the next choice is among the internal classes still waiting, although a request taken
since is in FORWARDING; after it the request has its turn. -/
theorem test_choice_after_a_discard :
    let s : State := forwarding (.write 0x1000000 [⟨1, 15⟩])
    let s : State :=
      { s with bridge := { s.bridge with waiting := [.read 0 [15]], fetch := [⟨.page, 0x200000, 196, 0, []⟩] } }
    let discarded := (after .forwardedGrant s id).getD s
    let granted := (after .internalGrant discarded id).getD s
    discarded.bridge.passed = true ∧ discarded.bridge.side = .forwarding (.read 0 [15])
      ∧ discarded.forwardedTurn = false ∧ discarded.internalTurn = true
      ∧ granted.bridge.passed = false ∧ granted.bridge.streak = 0 := by
  decide

/-- Each class in turn is the one that waits, and COMPOSE after three waits. -/
theorem witness_InternalGrantFollowsPriority :
    let still : State := { base with events := { base.events with statusPending := false } }
    let raised : State := { still with
      events := { still.events with records := [⟨.mark 0 1 0, 0, some 5⟩], presented := some .record } }
    let fetching : State := { still with bridge := { still.bridge with fetch := [⟨.page, 0x200000, 196, 0, []⟩] } }
    let saving : State := { still with
      takeover := { still.takeover with job := .save [(0x3FFE000, [1])] [] [] } }
    let left : State := { raised with bridge := { raised.bridge with passed := true, side := .forwarding (.read 0 [15]) } }
    (∀ s ∈ [still, raised, fetching, saving, left],
        s.rstnLow = false ∧ s.seq.advanceOwed = false ∧ s.events.firstWrite = false ∧ s.headDue = false
          ∧ s.bridge.busy = none ∧ (s.forwardedWaits = false ∨ s.bridge.passed = true)
          ∧ s.memoryLaw = true)
      ∧ left.internalChoice = some .event
      ∧ still.internalChoice = none ∧ raised.internalChoice = some .event
      ∧ fetching.internalChoice = some .fetch ∧ saving.internalChoice = some .takeover
      ∧ ({ still with composer := { Composer.reset with canvas := some canvas, comp := some composing } } :
          State).internalChoice = some .compose
      ∧ ({ raised with
            bridge := { raised.bridge with composeWait := 3 },
            composer := { Composer.reset with canvas := some canvas, comp := some composing } } :
          State).internalChoice = some .compose := by
  decide

theorem witness_RecordEndStepsPAndStatusIsPresented :
    (ending base .eventRecord).Settled ∧ (ending base .eventRecord).bridge.busy = some .eventRecord
      ∧ base.Settled ∧ base.events.presented = none ∧ base.events.statusPending = true
      ∧ base.events.records = [] := by
  exact ⟨settled (by decide), rfl, settled (by decide), rfl, rfl, rfl⟩

/-- 10, R185: SHOW END, END OF LIST, BACKWARD and no index, as its 16 bytes stand in the ring. -/
theorem test_event_record_words :
    (EventRecord.words ⟨.showEnd none true true 0x1800000 2, 0x0102, none⟩).flatMap wordBytes
      = [0x0E, 1, 1, 0xFF, 0xFF, 0xFF, 0x02, 0x01, 0, 0, 0x80, 1, 2, 0, 0, 0] := by decide

/-- 10, R186: the unused bytes of the status block are 0. -/
theorem test_status_unused_bytes :
    ∀ i ∈ [2, 3, 0x0B, 0x1B, 0x1E, 0x1F] ++ (List.range 22).map (0x26 + ·) ++ [0x3E, 0x3F],
      ((scene.status.words 0xFFFF).flatMap wordBytes)[i]? = some 0 := by decide

/-- The status write that RSTN calls for; its two bursts; and each kind's turn. -/
theorem witness_statusBursts :
    State.reset.rstnLow = false ∧ State.reset.events.firstWrite = true ∧ Instr.mark ≠ .rstnAssert
      ∧ base.memoryLaw = true ∧ 64 ≤ base.bridge.memSize ∧ (base.status.words 1).length = 16
      ∧ ((base.status.words 1).drop 8).length = 8 ∧ base.events.presented = none
      ∧ base.events.records = [] ∧ base.events.lastWasRecord = true := by
  exact ⟨rfl, rfl, nofun, by decide, by decide, rfl, rfl, rfl, rfl, rfl⟩

theorem witness_CompositionCompletesAndFreesWaiters :
    let s := ending composed .composition
    let w : State := { s with intake := { s.intake with inService := some ⟨5, .setCanvas canvas⟩ } }
    let l : State := { s with scene := { s.scene with load := some ⟨0, 0, 1, [7], true⟩ } }
    s.Settled ∧ s.bridge.busy = some .composition ∧ s.scene.load = none
      ∧ (∀ slot k, s.intake.inService ≠ some ⟨slot, .setCanvas k⟩)
      ∧ w.Settled ∧ w.intake.inService = some ⟨5, .setCanvas canvas⟩
      ∧ l.Settled ∧ l.scene.load = some ⟨0, 0, 1, [7], true⟩ := by
  exact ⟨settled (by decide), rfl, rfl, nofun, settled (by decide), rfl, settled (by decide), rfl⟩

/-- A step that answers a next state, from states that meet every law. -/
theorem witness_EveryStepKeepsTheBounds :
    (∃ t, step base = .next t) ∧ base.memoryLaw = true ∧ base.ringLaw = true
      ∧ base.queueLaw = true ∧ base.arbiterLaw = true ∧ base.holdLaw = true ∧ base.waitLaw = true := by
  exact ⟨⟨_, rfl⟩, by decide, by decide, by decide, by decide, by decide, by decide⟩

theorem witness_EveryStepKeepsTheWindowMap : (∃ t, step base = .next t) ∧ base.windowLaw = true := by
  exact ⟨⟨_, rfl⟩, by decide⟩

theorem witness_EveryStepKeepsTheOrderAndTheBanks :
    (∃ t, step scene = .next t) ∧ scene.scene.orderLaw = true ∧ composed.bankLaw = true
      ∧ (menu (some 0)).menuLaw = true := by
  exact ⟨⟨_, rfl⟩, by decide, by decide, by decide⟩

theorem witness_SavedEntriesReadBack :
    (fill .slide).valid 0x10000000 = true ∧ moving.prof.inRange = true ∧ moving.vtop ≤ 4095 ∧ moving.v ≤ 4095
      ∧ moving.lead ≤ 7 ∧ moving.s ≤ moving.travel ∧ moving.slot = some 3 ∧ moving.owner = some .command := by
  decide

/-- The fixed part of a state with a slide on show and an incoming descriptor, and of one with neither. -/
theorem witness_saveFixed :
    (paused .cruise none).seq.onShow = some ⟨50, true, 0, 0, 0⟩ ∧ base.seq.onShow = none
      ∧ base.seq.incomingDesc = none ∧ ((descriptor 1).take 32).length = 32 := by decide

/-- 10, R184: the revision word 0x0303, the flags at their defaults, the facts, the counts and SHOWING at its place. -/
theorem test_save_fixed :
    let bytes := (paused .cruise none).saveFixed ⟨.held, false, true, true, some .ease⟩ 7 2
    bytes.length = 96 ∧ (bytes.take 4).map (·.toNat) = [3, 3, 0, 0]
      ∧ ((bytes.drop 12).take 16).map (·.toNat) = [0, 0, 0xFF, 0xFF, 3, 3, 2, 0, 7, 2, 0, 0, 3, 0, 0, 6] := by decide

/-- A drawing composition: a read of a block, a covered pixel, a first source read and a band write. -/
theorem witness_drawing :
    let o : Obj := { fill .menu with body := .bitmap32 0x100000 64 }
    let k : Composition := { composing with copy := [(20, o)] }
    o.covers canvas 15 15 = true ∧ o.covers canvas 16 15 = false
      ∧ lookupWord [⟨some 0, 0x100000, [7, 8]⟩] (some 0) 0x100004 = 8
      ∧ (k.objectReads 0 o).head? = some (.read (some 0) 0x100000 8) ∧ (k.objectReads 0 o).length = 16
      ∧ ({ k with copy := [] } : Composition).bandBursts[0]? = some (.write 0 0) := by
  decide

theorem witness_BlendAndDimFollowTheirRules :
    let src : Pixel := ⟨255, 1, 2, 3⟩
    (src.a ≤ 255 ∧ src.r ≤ 255 ∧ src.g ≤ 255 ∧ src.b ≤ 255)
      ∧ ((0 : Nat) ≤ 255 ∧ (src.a * 0 + 127) / 255 = 0) ∧ ((255 : Nat) ≤ 255 ∧ (src.a * 255 + 127) / 255 = 255) := by
  decide

end Sys2Proof.Tests
end

/-!
PROOF. The outline of a state: what the laws of the bounds and of the window map speak of, with what says that a
step has its own effect at once, and the operations that leave it as it is.
-/

namespace Sys2Proof.Machine

/-- The pending records and the ring stay within R173. -/
def EventUnit.bounded (e : EventUnit) : Bool :=
  decide (e.unconsumed + e.records.length ≤ Config.ringCapacity)
    && decide (e.records.length ≤ Config.recordCapacity)

theorem EventUnit.bounded_iff (e : EventUnit) :
    e.bounded = true ↔ e.unconsumed + e.records.length ≤ 63 ∧ e.records.length ≤ 8 := by
  simp only [EventUnit.bounded, Bool.and_eq_true, decide_eq_true_eq]
  rfl

/-- What the laws of the bounds and of the window map and `State.Quiet` speak of. -/
structure Outline where
  low : Bool
  owed : Bool
  first : Bool
  mem : Memory
  side : ControllerSide
  waiting : List Request
  window : WindowMap
  streak : Nat
  composeWait : Nat
  queue : List Command
  canvas : Option CanvasSetup
  front : Bank
  saveBase : Nat
  list : Option SlideList
  bounded : Bool

def State.outline (s : State) : Outline :=
  { low := s.rstnLow, owed := s.seq.advanceOwed, first := s.events.firstWrite, mem := s.mem
    side := s.bridge.side, waiting := s.bridge.waiting, window := s.bridge.window
    streak := s.bridge.streak, composeWait := s.bridge.composeWait, queue := s.intake.queue
    canvas := s.composer.canvas, front := s.composer.front, saveBase := s.takeover.saveBase
    list := s.seq.list, bounded := s.events.bounded }

/-! ## The lifts -/

section
variable (s t : State)

@[simp] theorem State.onScene_outline (f) : (s.onScene f).outline = s.outline := rfl
@[simp] theorem State.onMotion_outline (f) : (s.onMotion f).outline = s.outline := rfl
@[simp] theorem State.onNav_outline (f) : (s.onNav f).outline = s.outline := rfl

@[simp] theorem State.onSeq_outline (f) (h : ∀ q, (f q).list = q.list)
    (g : ∀ q, (f q).advanceOwed = q.advanceOwed) : (s.onSeq f).outline = s.outline := by
  simp [State.outline, h, g]

@[simp] theorem State.onTakeover_outline (f) (h : ∀ t, (f t).saveBase = t.saveBase) :
    (s.onTakeover f).outline = s.outline := by simp [State.outline, h]

@[simp] theorem State.onIntake_outline (f) (h : ∀ i, (f i).queue = i.queue) :
    (s.onIntake f).outline = s.outline := by simp [State.outline, h]

@[simp] theorem State.onComposer_outline (f) (h : ∀ k, (f k).canvas = k.canvas) (g : ∀ k, (f k).front = k.front) :
    (s.onComposer f).outline = s.outline := by simp [State.outline, h, g]

@[simp] theorem State.onBridge_outline (f) (hs : ∀ b, (f b).side = b.side) (hw : ∀ b, (f b).waiting = b.waiting)
    (hm : ∀ b, (f b).window = b.window) (hk : ∀ b, (f b).streak = b.streak)
    (hc : ∀ b, (f b).composeWait = b.composeWait) : (s.onBridge f).outline = s.outline := by
  simp [State.outline, hs, hw, hm, hk, hc]

/-- The bounds of R173 are about P, C and the pending records. -/
theorem EventUnit.bounded_congr {e u : EventUnit} (hp : u.p = e.p) (hc : u.c = e.c) (hr : u.records = e.records) :
    u.bounded = e.bounded := by
  unfold EventUnit.bounded EventUnit.unconsumed
  rw [hp, hc, hr]

@[simp] theorem State.onEvents_outline (f) (hp : ∀ u, (f u).p = u.p) (hc : ∀ u, (f u).c = u.c)
    (hr : ∀ u, (f u).records = u.records) (hf : ∀ u, (f u).firstWrite = u.firstWrite) :
    (s.onEvents f).outline = s.outline := by
  simp [State.outline, hf, EventUnit.bounded_congr (hp s.events) (hc s.events) (hr s.events)]

variable {s t} in
/-- An operation of the scene, the channels and the open page leaves the outline. -/
theorem State.outline_of_frame (h : State.sameBut [.scene, .motion, .nav] s t) : t.outline = s.outline := by
  have e (p : Part) (hp : p ∉ [Part.scene, .motion, .nav]) := h p hp
  simp [State.outline, show t.rstnLow = s.rstnLow from e .line (by simp),
    show t.mem = s.mem from e .mem (by simp), show t.bridge = s.bridge from e .bridge (by simp),
    show t.intake = s.intake from e .intake (by simp), show t.composer = s.composer from e .composer (by simp),
    show t.takeover = s.takeover from e .takeover (by simp), show t.seq = s.seq from e .seq (by simp),
    show t.events = s.events from e .events (by simp)]

/-- A choice between two states of one outline has it. -/
@[simp] theorem State.ite_outline (c : Prop) [Decidable c] (t u : State) :
    (if c then t else u).outline = if c then t.outline else u.outline := apply_ite State.outline c t u

/-! ## Events -/

/-- A raised record joins the pending ones only where there is room (R173). -/
theorem EventUnit.take_bounded (u : EventUnit) (r : EventRecord) : (u.take r).bounded = u.bounded := by
  unfold EventUnit.take
  split
  · rename_i room
    simp only [Config.ringCapacity, Config.recordCapacity] at room
    rw [u.bounded_iff.mpr (by omega), EventUnit.bounded_iff]
    simp only [EventUnit.unconsumed, List.length_append, List.length_singleton] at room ⊢
    omega
  · rfl

@[simp] theorem EventUnit.take_firstWrite (u : EventUnit) (r : EventRecord) :
    (u.take r).firstWrite = u.firstWrite := by
  unfold EventUnit.take
  split <;> rfl

@[simp] theorem State.raise_outline (e : Event) (slot : Option Nat) : (s.raise e slot).outline = s.outline := by
  simp [State.raise, State.outline, EventUnit.take_bounded]

@[simp] theorem EventUnit.present_p (u : EventUnit) : u.present.p = u.p := by
  rcases u.present_cases with h | h <;> rw [h]
@[simp] theorem EventUnit.present_c (u : EventUnit) : u.present.c = u.c := by
  rcases u.present_cases with h | h <;> rw [h]
@[simp] theorem EventUnit.present_records (u : EventUnit) : u.present.records = u.records := by
  rcases u.present_cases with h | h <;> rw [h]

@[simp] theorem EventUnit.present_firstWrite (u : EventUnit) : u.present.firstWrite = u.firstWrite := by
  rcases u.present_cases with h | h <;> rw [h]

@[simp] theorem State.touchStatus_outline : s.touchStatus.outline = s.outline := by simp [State.touchStatus]

@[simp] theorem State.noteStatus_outline : (s.noteStatus t).outline = s.outline := by
  unfold State.noteStatus
  split <;> simp

@[simp] theorem State.endStep_outline : (s.endStep t).outline = s.outline := by simp [State.endStep]

@[simp] theorem State.judgeGuard_outline (area : GuardArea) (addr length : Nat) :
    (s.judgeGuard area addr length).outline = s.outline := by
  unfold State.judgeGuard
  split <;> simp

/-! ## The Intake's code and service, fetch operations -/

@[simp] theorem State.setCode_outline (code : Fin 4) : (s.setCode code).outline = s.outline := by
  simp [State.setCode]
@[simp] theorem State.endRun_outline : s.endRun.outline = s.outline := by simp [State.endRun]
@[simp] theorem State.complete_outline (code : Fin 4) : (s.complete code).outline = s.outline := by
  simp [State.complete]
@[simp] theorem State.serve_outline (slot : Nat) (op : ServiceOp) : (s.serve slot op).outline = s.outline := by
  simp [State.serve]
@[simp] theorem State.keepRun_outline : s.keepRun.outline = s.outline := by
  unfold State.keepRun
  split <;> simp
@[simp] theorem State.startFetch_outline (kind : FetchKind) (addr words : Nat) :
    (s.startFetch kind addr words).outline = s.outline := by simp [State.startFetch]
@[simp] theorem State.endFetch_outline (kind : FetchKind) : (s.endFetch kind).outline = s.outline := by
  simp [State.endFetch]
@[simp] theorem State.free_outline : s.free.outline = s.outline := by simp [State.free]
@[simp] theorem State.lastBurst_outline (e : BurstEnd) : (s.lastBurst e).outline = s.outline := by
  simp [State.lastBurst]

/-! ## Motions (04) -/

@[simp] theorem State.putChan_outline (n : Nat) (c : Channel) : (s.putChan n c).outline = s.outline := rfl
@[simp] theorem State.freeChannel_outline (n : Nat) : (s.freeChannel n).outline = s.outline :=
  State.outline_of_frame ((State.freeChannel_frame s n).mono (by simp))
@[simp] theorem State.silentHalt_outline (n : Nat) : (s.silentHalt n).outline = s.outline :=
  State.outline_of_frame ((State.silentHalt_freed s n).frame.mono (by simp))
@[simp] theorem State.silentHalts_outline (l : List Nat) : (l.foldl State.silentHalt s).outline = s.outline :=
  State.outline_of_frame ((State.silentHalts_freed l s).frame.mono (by simp))
@[simp] theorem State.undefineSlot_outline (n : Nat) : (s.undefineSlot n).outline = s.outline :=
  State.outline_of_frame ((State.undefineSlot_undefined s n).frame.mono (by simp))
@[simp] theorem State.undefineSlots_outline (l : List Nat) : (l.foldl State.undefineSlot s).outline = s.outline :=
  State.outline_of_frame ((State.undefineSlots_undefined l s).frame.mono (by simp))
@[simp] theorem State.writeMoved_outline (c : Channel) (e : Ends) : (s.writeMoved c e).outline = s.outline :=
  State.outline_of_frame ((State.writeMoved_frame s c e).mono (by simp))
@[simp] theorem State.applyRequest_outline (r : MotionRequest) (owner : Owner) (slot : Option Nat) :
    (s.applyRequest r owner slot).outline = s.outline :=
  State.outline_of_frame ((State.applyRequest_frame s r owner slot).mono (by simp))
@[simp] theorem State.panRequest_outline : s.panRequest.outline = s.outline :=
  State.outline_of_frame ((State.panRequest_frame s).mono (by simp))
@[simp] theorem State.undefineShown_outline : s.undefineShown.outline = s.outline :=
  State.outline_of_frame ((State.undefineShown_frame s).mono (by simp))
@[simp] theorem State.releaseAll_outline : s.releaseAll.outline = s.outline :=
  State.outline_of_frame ((State.releaseAll_frame s).1.mono (by simp))
@[simp] theorem State.holdAll_outline (mode : HoldMode) : (s.holdAll mode).outline = s.outline :=
  State.outline_of_frame ((State.holdAll_frame s mode).1.mono (by simp))
@[simp] theorem State.rewindAwaited_outline : s.rewindAwaited.outline = s.outline :=
  State.outline_of_frame ((State.rewindAwaited_frame s).mono (by simp))

theorem State.request_outline {r : MotionRequest} {owner : Owner} (h : s.request r owner = some t) :
    t.outline = s.outline := State.outline_of_frame ((State.request_frame h).mono (by simp))

@[simp] theorem State.request_getD_outline (r : MotionRequest) (owner : Owner) :
    ((s.request r owner).getD s).outline = s.outline := by
  cases h : s.request r owner with
  | none => rfl
  | some t => exact State.request_outline s t h

@[simp] theorem State.reportEnd_outline (n : Nat) (reason : EndReason) (abrupt : Bool) (slot : Option Nat) :
    (s.reportEnd n reason abrupt slot).outline = s.outline := by
  unfold State.reportEnd
  dsimp only
  split <;> simp

/-! ## The show (07) -/

@[simp] theorem State.loadBegin_outline (j : Nat) (slot : Option Nat) :
    (s.loadBegin j slot).outline = s.outline := by
  unfold State.loadBegin
  dsimp only
  repeat' split
  all_goals simp

@[simp] theorem State.readyNotice_outline (i : Nat) (v : Byte) : (s.readyNotice i v).outline = s.outline := by
  unfold State.readyNotice
  dsimp only
  repeat' split
  all_goals simp

@[simp] theorem State.stopShow_outline : s.stopShow.outline = s.outline := by
  unfold State.stopShow
  dsimp only
  repeat' split
  all_goals simp

@[simp] theorem State.changeComplete_outline (kind : Nat) (snapped : Bool) (slot : Option Nat) :
    (s.changeComplete kind snapped slot).outline = s.outline := by
  unfold State.changeComplete
  dsimp only
  repeat' split
  all_goals simp

@[simp] theorem State.notice_outline (n : Nat) (snapped : Bool) (slot : Option Nat) :
    (s.notice n snapped slot).outline = s.outline := by
  unfold State.notice
  dsimp only
  repeat' split
  all_goals simp

@[simp] theorem State.endMotion_outline (n : Nat) (reason : EndReason) (abrupt snapped : Bool)
    (done shown : Option Nat) : (s.endMotion n reason abrupt snapped done shown).outline = s.outline := by
  unfold State.endMotion
  dsimp only
  split <;> simp

@[simp] theorem State.skipSlide_outline (i : Nat) (reason : SkipReason) :
    (s.skipSlide i reason).outline = s.outline := by
  unfold State.skipSlide
  dsimp only
  repeat' split
  all_goals simp

@[simp] theorem State.countFree_outline : s.countFree.outline = s.outline := by
  unfold State.countFree
  split <;> rfl

@[simp] theorem State.transitionRequests_outline (d : Descriptor) (t : Transition) (width : Nat) (x : Int) :
    (s.transitionRequests d t width x).1.outline = s.outline := by
  unfold State.transitionRequests
  dsimp only
  split
  · rfl
  · rename_i s1 h1
    have e1 := State.request_outline s s1 h1
    split
    · exact e1
    · exact e1
    · split
      · rename_i s2 h2
        exact (State.request_outline s1 s2 h2).trans e1
      · simp [e1]

@[simp] theorem State.transition_outline (d : Descriptor) (t : Transition) (width : Nat) (x : Int) :
    (s.transition d t width x).outline = s.outline := by
  unfold State.transition
  dsimp only
  repeat' split
  all_goals simp

@[simp] theorem State.startSlide_outline (bytes : List Byte) : (s.startSlide bytes).outline = s.outline := by
  unfold State.startSlide
  simp

@[simp] theorem State.descriptorRead_outline (r : DescriptorRead) (bytes : List Byte) :
    (s.descriptorRead r bytes).outline = s.outline := by
  unfold State.descriptorRead
  dsimp only
  repeat' split
  all_goals simp

@[simp] theorem State.advance_outline : s.advance.outline = s.outline := by
  unfold State.advance
  dsimp only
  repeat' split
  all_goals simp

/-! ## The menu (06) -/

@[simp] theorem State.setVisible_outline (n : Nat) (v : Bool) : (s.setVisible n v).outline = s.outline := rfl

@[simp] theorem State.showFocusSlot_outline (slot : Option Nat) (v : Bool) :
    (s.showFocusSlot slot v).outline = s.outline :=
  State.outline_of_frame ((State.showFocusSlot_frame s slot v).mono (by simp))

variable {s t} in
/-- A frame kept through a further operation of its parts. -/
theorem State.sameBut.and_then {u : State} {ps qs : List Part} (h : State.sameBut ps s t)
    (k : State.sameBut qs t u) (hq : ∀ p ∈ qs, p ∈ ps) : State.sameBut ps s u :=
  (h.trans k).mono fun p hp => (List.mem_append.mp hp).elim id (hq p)

theorem State.showFocusSlots_frame (bs : List Button) (v : Bool) :
    State.sameBut [.scene] s (bs.foldl (fun t b => t.showFocusSlot b.focusSlot v) s) := by
  induction bs generalizing s with
  | nil => exact State.sameBut_refl s _
  | cons b bs ih => exact (State.showFocusSlot_frame s b.focusSlot v).and_then (ih _) (by simp)

/-- The scene at an installation: objects and channels alone (R118). -/
theorem State.dressPage_frame (old : Option Page) (f : Option Nat) (p : Page) (g : Option Nat) :
    State.sameBut [.scene, .motion] s (s.dressPage old f p g) := by
  unfold State.dressPage
  extract_lets s1 s2 s3 s4 s5 s6 s7 s8
  have h1 : State.sameBut [.scene, .motion] s s1 := (State.silentHalt_freed s 0).frame
  have h2 : State.sameBut [.scene, .motion] s s2 := by
    unfold s2
    split
    · exact h1.and_then (State.silentHalt_freed s1 _).frame (by simp)
    · exact h1
  have h3 : State.sameBut [.scene, .motion] s s3 := by
    unfold s3
    split
    · exact h2.and_then (State.onScene_frame s2 _) (by simp)
    · exact h2
  have h4 : State.sameBut [.scene, .motion] s s4 := by
    unfold s4
    split
    · split
      · exact h3.and_then (State.setVisible_frame s3 _ _) (by simp)
      · exact h3
    · exact h3
  have h5 : State.sameBut [.scene, .motion] s s5 := h4.and_then (State.setVisible_frame s4 _ _) (by simp)
  have h6 : State.sameBut [.scene, .motion] s s6 := by
    unfold s6
    split
    · exact h5
    · exact h5.and_then (State.onScene_frame s5 _) (by simp)
  have h7 : State.sameBut [.scene, .motion] s s7 := h6.and_then (State.showFocusSlot_frame s6 _ _) (by simp)
  have h8 : State.sameBut [.scene, .motion] s s8 := h7.and_then (State.showFocusSlots_frame s7 _ _) (by simp)
  exact h8.and_then (State.showFocusSlot_frame s8 _ _) (by simp)

@[simp] theorem State.dressPage_outline (old : Option Page) (f : Option Nat) (p : Page) (g : Option Nat) :
    (s.dressPage old f p g).outline = s.outline :=
  State.outline_of_frame ((State.dressPage_frame s old f p g).mono (by simp))

@[simp] theorem State.installPage_outline (p : Page) (cause : Cause) (saved : Nat) (fromBuffer : Bool)
    (slot : Nat) : (s.installPage p cause saved fromBuffer slot).outline = s.outline := by
  simp [State.installPage]

@[simp] theorem State.rejectPage_outline (cause : Cause) (addr saved : Nat) (reason : PageReason)
    (detail slot : Nat) : (s.rejectPage cause addr saved reason detail slot).outline = s.outline := by
  cases cause <;> simp [State.rejectPage]

@[simp] theorem State.settlePage_outline (cause : Cause) (addr saved : Nat) (bytes : List Byte)
    (fromBuffer : Bool) (slot : Nat) :
    (s.settlePage cause addr saved bytes fromBuffer slot).1.outline = s.outline := by
  unfold State.settlePage
  split <;> simp

@[simp] theorem State.pageRead_outline (bytes : List Byte) : (s.pageRead bytes).outline = s.outline := by
  unfold State.pageRead
  split <;> simp

@[simp] theorem State.startPrefetch_outline (addr : Nat) : (s.startPrefetch addr).outline = s.outline := by
  simp [State.startPrefetch]

@[simp] theorem State.prefetchPage_outline (addr : Nat) : (s.prefetchPage addr).outline = s.outline := by
  unfold State.prefetchPage
  dsimp only
  repeat' split
  all_goals simp

@[simp] theorem State.nextPrefetch_outline : s.nextPrefetch.outline = s.outline := by
  unfold State.nextPrefetch
  split <;> simp

@[simp] theorem State.ownPageRead_outline : s.ownPageRead.outline = s.outline := by
  unfold State.ownPageRead
  split <;> simp

@[simp] theorem State.takeBuffer_outline (bytes : List Byte) : (s.takeBuffer bytes).outline = s.outline := by
  unfold State.takeBuffer
  split <;> simp

@[simp] theorem State.prefetchRead_outline (f : Prefetch) (bytes : List Byte) (pageFirst : Bool) :
    (s.prefetchRead f bytes pageFirst).outline = s.outline := by
  unfold State.prefetchRead
  dsimp only
  repeat' split
  all_goals simp

@[simp] theorem State.glide_outline (p : Page) (g : Nat) : (s.glide p g).outline = s.outline := by
  unfold State.glide
  split <;> simp

@[simp] theorem State.moveFocus_outline (p : Page) (f g : Nat) : (s.moveFocus p f g).outline = s.outline := by
  simp [State.moveFocus]

@[simp] theorem State.firstFocus_outline (p : Page) (g : Nat) : (s.firstFocus p g).outline = s.outline := by
  unfold State.firstFocus
  dsimp only
  split <;> simp

@[simp] theorem State.closeMenu_outline : s.closeMenu.outline = s.outline := by
  unfold State.closeMenu
  split <;> simp

/-! ## The tick (04, 05, 07) -/

@[simp] theorem State.arrive_outline (n : Nat) (abrupt snapped : Bool) (slot : Option Nat) :
    (s.arrive n abrupt snapped slot).outline = s.outline := by simp [State.arrive]

@[simp] theorem State.snap_outline (n : Nat) (slot : Option Nat) : (s.snap n slot).outline = s.outline := by
  unfold State.snap
  dsimp only
  split <;> simp

@[simp] theorem State.stepMotion_outline (n : Nat) (c : Channel) : (s.stepMotion n c).outline = s.outline := by
  unfold State.stepMotion
  dsimp only
  split <;> simp

@[simp] theorem State.tickChannel_outline (n : Nat) : (s.tickChannel n).outline = s.outline := by
  unfold State.tickChannel
  dsimp only
  repeat' split
  all_goals simp

@[simp] theorem State.settle_outline : s.settle.outline = s.outline := by
  unfold State.settle
  split <;> simp

/-! ## Takeover and resume (08) -/

@[simp] theorem State.copyDone_outline : s.copyDone.outline = s.outline := by
  unfold State.copyDone
  dsimp only
  split <;> simp

@[simp] theorem State.startCopy_outline : s.startCopy.outline = s.outline := by
  unfold State.startCopy
  dsimp only
  split <;> simp

@[simp] theorem State.startSave_outline : s.startSave.outline = s.outline := by simp [State.startSave]

@[simp] theorem State.saveDone_outline (slots channels : List Nat) :
    (s.saveDone slots channels).outline = s.outline := by simp [State.saveDone]

@[simp] theorem State.recoverShow_outline : s.recoverShow.outline = s.outline := by simp [State.recoverShow]

@[simp] theorem State.drainStep_outline : s.drainStep.outline = s.outline := by
  unfold State.drainStep
  repeat' split
  all_goals simp

@[simp] theorem State.acceptRequest_outline (source : Source) : (s.acceptRequest source).outline = s.outline := by
  simp [State.acceptRequest]

@[simp] theorem State.recover_outline (source : Source) : (s.recover source).outline = s.outline := by
  simp [State.recover]

@[simp] theorem State.holdRequest_outline : s.holdRequest.outline = s.outline := by simp [State.holdRequest]

@[simp] theorem State.lineRequest_outline : s.lineRequest.outline = s.outline := by
  unfold State.lineRequest
  split <;> simp

@[simp] theorem State.lineLevel_outline (level : Bool) : (s.lineLevel level).outline = s.outline := by
  unfold State.lineLevel
  dsimp only
  repeat' split
  all_goals simp

@[simp] theorem State.undefineMenu_outline (l : List Nat) :
    (l.foldl (fun t n => if t.scene.inGroup .menu n then t.undefineSlot n else t) s).outline = s.outline := by
  induction l generalizing s with
  | nil => rfl
  | cons n l ih => simp [ih]

@[simp] theorem State.closeScene_outline : s.closeScene.outline = s.outline := by simp [State.closeScene]

@[simp] theorem Sequencer.restore_list (q : Sequencer) (r : SaveRecord) : (q.restore r).list = q.list := rfl

@[simp] theorem State.putSaved_outline (l : List SavedChannel) :
    (l.foldl (fun t c => t.putChan c.channel c.chan) s).outline = s.outline := by
  induction l generalizing s with
  | nil => rfl
  | cons c l ih => simp [ih]

@[simp] theorem State.installRecord_outline (r : SaveRecord) : (s.installRecord r).outline = s.outline := by
  have saved : (r.channels.foldl (fun t c => t.putChan c.channel c.chan)
      (s.onScene fun sc => sc.restore r.objects)).outline = s.outline := by
    rw [State.putSaved_outline, State.onScene_outline]
  unfold State.installRecord
  dsimp only
  split
  · rw [State.onSeq_outline _ _ (by intro q; rfl) (by intro q; rfl),
      State.onSeq_outline _ _ (by intro q; rfl) (by intro q; rfl), saved]
  · rw [State.onSeq_outline _ _ (by intro q; rfl) (by intro q; rfl), saved]

@[simp] theorem State.snapAwaited_outline (slot : Option Nat) : (s.snapAwaited slot).outline = s.outline := by
  simp [State.snapAwaited]

@[simp] theorem State.applyTransitionFlag_outline (r : SaveRecord) (slot : Option Nat) :
    (s.applyTransitionFlag r slot).outline = s.outline := by simp [State.applyTransitionFlag]

@[simp] theorem State.applyJump_outline (j : Option Nat) (slot : Option Nat) :
    (s.applyJump j slot).outline = s.outline := by
  cases j <;> simp [State.applyJump]

@[simp] theorem State.takeUpLoad_outline : s.takeUpLoad.outline = s.outline := by
  unfold State.takeUpLoad
  split <;> simp

@[simp] theorem State.enterLockout_outline (reason : LockReason) (detail : Nat) (slot : Option Nat) :
    (s.enterLockout reason detail slot).outline = s.outline := by simp [State.enterLockout]

/-! ## Fetches and palettes -/

@[simp] theorem State.grantFetch_outline : s.grantFetch.outline = s.outline := by
  unfold State.grantFetch
  dsimp only
  repeat' split
  all_goals simp

@[simp] theorem State.installEntries_outline : s.installEntries.outline = s.outline := by
  simp [State.installEntries]

@[simp] theorem State.paletteRead_outline : s.paletteRead.outline = s.outline := by
  simp [State.paletteRead]

end

end Sys2Proof.Machine

/-!
PROOF. O56 and O57: every step keeps the bounds and the window map. An operation that leaves the outline keeps
every law; the operations of the Bridge, the arbiter, the Intake and the setup commands are taken one by one.
-/

namespace Sys2Proof.Machine

/-! ## Keeping the laws -/

/-- From `s` to `t` the laws of O56 and O57 are kept, but for the law of the waiting requests, which does not hold
while the Bridge takes them one by one (R3). -/
structure State.Keeps (s t : State) : Prop where
  memory : s.memoryLaw = true → t.memoryLaw = true
  ring : s.ringLaw = true → t.ringLaw = true
  queue : s.queueLaw = true → t.queueLaw = true
  arbiter : s.arbiterLaw = true → t.arbiterLaw = true
  hold : s.holdLaw = true → t.holdLaw = true
  window : s.windowLaw = true → t.windowLaw = true

/-- All of these laws are kept. -/
structure State.KeepsAll (s t : State) : Prop extends State.Keeps s t where
  wait : s.waitLaw = true → t.waitLaw = true

/-- And nothing becomes due before the next step that was not due before. -/
structure State.KeepsQuiet (s t : State) : Prop extends State.KeepsAll s t where
  quiet : s.Quiet → t.Quiet

section
variable {s t u : State}

theorem State.Keeps.trans (h : State.Keeps s t) (k : State.Keeps t u) : State.Keeps s u :=
  ⟨k.memory ∘ h.memory, k.ring ∘ h.ring, k.queue ∘ h.queue, k.arbiter ∘ h.arbiter, k.hold ∘ h.hold,
    k.window ∘ h.window⟩

theorem State.KeepsAll.trans (h : State.KeepsAll s t) (k : State.KeepsAll t u) : State.KeepsAll s u :=
  ⟨h.toKeeps.trans k.toKeeps, k.wait ∘ h.wait⟩

theorem State.KeepsQuiet.trans (h : State.KeepsQuiet s t) (k : State.KeepsQuiet t u) : State.KeepsQuiet s u :=
  ⟨h.toKeepsAll.trans k.toKeepsAll, k.quiet ∘ h.quiet⟩

/-- Every law is a law of the outline, and so is the quiet. -/
theorem State.KeepsQuiet.of_outline (h : t.outline = s.outline) : State.KeepsQuiet s t := by
  have low : t.rstnLow = s.rstnLow := congrArg Outline.low h
  have owed : t.seq.advanceOwed = s.seq.advanceOwed := congrArg Outline.owed h
  have first : t.events.firstWrite = s.events.firstWrite := congrArg Outline.first h
  have mem : t.mem = s.mem := congrArg Outline.mem h
  have ring : t.ringLaw = s.ringLaw := congrArg Outline.bounded h
  have queue : t.intake.queue = s.intake.queue := congrArg Outline.queue h
  have streak : t.bridge.streak = s.bridge.streak := congrArg Outline.streak h
  have compose : t.bridge.composeWait = s.bridge.composeWait := congrArg Outline.composeWait h
  have side : t.bridge.side = s.bridge.side := congrArg Outline.side h
  have waiting : t.bridge.waiting = s.bridge.waiting := congrArg Outline.waiting h
  have window : t.bridge.window = s.bridge.window := congrArg Outline.window h
  have canvas : t.composer.canvas = s.composer.canvas := congrArg Outline.canvas h
  have front : t.composer.front = s.composer.front := congrArg Outline.front h
  have save : t.takeover.saveBase = s.takeover.saveBase := congrArg Outline.saveBase h
  have list : t.seq.list = s.seq.list := congrArg Outline.list h
  refine ⟨⟨⟨?_, ?_, ?_, ?_, ?_, ?_⟩, ?_⟩, fun q => ⟨low.trans q.high, owed.trans q.clear, first.trans q.shown⟩⟩
  · simp [State.memoryLaw, mem]
  · simp [ring]
  · simp [State.queueLaw, queue]
  · simp [State.arbiterLaw, streak, compose]
  · simp [State.holdLaw, side, queue]
  · simp [State.windowLaw, window, canvas, front, save, list]
  · simp [State.waitLaw, side, waiting]

theorem State.KeepsAll.of_outline (h : t.outline = s.outline) : State.KeepsAll s t :=
  (State.KeepsQuiet.of_outline h).toKeepsAll

theorem State.KeepsAll.refl (s : State) : State.KeepsAll s s := .of_outline rfl

theorem State.KeepsQuiet.refl (s : State) : State.KeepsQuiet s s := .of_outline rfl

/-- An operation that leaves the outline may follow. -/
theorem State.KeepsAll.then_outline (h : State.KeepsAll s t) (k : u.outline = t.outline) : State.KeepsAll s u :=
  h.trans (.of_outline k)

theorem State.KeepsQuiet.then_outline (h : State.KeepsQuiet s t) (k : u.outline = t.outline) :
    State.KeepsQuiet s u := h.trans (.of_outline k)

/-- An operation that changes memory alone keeps every law when it keeps memory's form. -/
theorem State.KeepsAll.of_store (h : State.sameBut [.mem] s t) (hm : s.mem.wf = true → t.mem.wf = true) :
    State.KeepsAll s t := by
  have key : ({ t with mem := s.mem } : State).outline = s.outline := by
    have e (p : Part) (hp : p ∉ [Part.mem]) := h p hp
    simp [State.outline, show t.rstnLow = s.rstnLow from e .line (by simp),
      show t.bridge = s.bridge from e .bridge (by simp),
      show t.intake = s.intake from e .intake (by simp), show t.composer = s.composer from e .composer (by simp),
      show t.takeover = s.takeover from e .takeover (by simp), show t.seq = s.seq from e .seq (by simp),
      show t.events = s.events from e .events (by simp)]
  have rest := State.KeepsAll.of_outline key
  exact ⟨⟨hm, rest.ring, rest.queue, rest.arbiter, rest.hold, rest.window⟩, rest.wait⟩

end

/-- A verdict on a command in `s` keeps the laws and the quiet when the state it leaves does. -/
def Verdict.Kept (s : State) : Verdict → Prop
  | .refused _ => True
  | .completed _ t => State.KeepsQuiet s t
  | .began t => State.KeepsQuiet s t

theorem judged_kept {s : State} {v : Verdict} (checks : List (Bool × RefusalReason)) (h : v.Kept s) :
    (judged checks v).Kept s := by
  unfold judged
  split
  · trivial
  · exact h

/-! ## Memory and the internal bursts (R17 to R20) -/

section
variable (s : State)

theorem State.writeWords_keeps (a : Nat) (ws : List Word) : State.KeepsAll s (s.writeWords a ws) :=
  .of_store (State.writeWords_frame s a ws) (State.writeWords_wf s a ws)

theorem State.writeLanes_keeps (a : Nat) (ls : List Lane) : State.KeepsAll s (s.writeLanes a ls) :=
  .of_store (State.writeLanes_frame ls s a) (State.writeLanes_wf ls s a)

/-- To present a status write leaves P, C and the pending records (R177). -/
theorem State.presentStatus_keeps : State.KeepsAll s s.presentStatus := ⟨⟨id, id, id, id, id, id⟩, id⟩

theorem State.choosePresented_keeps : State.KeepsAll s s.choosePresented := by
  have h : State.KeepsAll s (s.onEvents EventUnit.present) := .of_outline (by simp)
  unfold State.choosePresented
  dsimp only
  split
  · exact h.trans (State.presentStatus_keeps _)
  · exact h

theorem State.grantEvent_keeps : State.KeepsAll s s.grantEvent := by
  have h := State.choosePresented_keeps s
  unfold State.grantEvent
  dsimp only
  generalize s.choosePresented = u at h ⊢
  split
  · exact h
  · split
    · exact h
    · rename_i r _ _
      exact (h.trans (u.writeWords_keeps u.ringSlot r.words)).then_outline (by simp)
  · rename_i words _
    exact ((h.trans (u.writeWords_keeps (u.cmdw + 0xC00) (words.take 1))).trans
      (State.writeWords_keeps _ (u.cmdw + 0xC00 + 8) ((words.drop 2).take 6))).then_outline (by simp)
  · rename_i words _
    exact (h.trans (u.writeWords_keeps (u.cmdw + 0xC20) words)).then_outline (by simp)

theorem State.grantTakeover_keeps : State.KeepsAll s s.grantTakeover := by
  unfold State.grantTakeover
  dsimp only
  split
  · exact .refl s
  · exact .refl s
  · rename_i addr words _ _ _ _
    exact (s.writeWords_keeps addr words).then_outline (by simp)
  · exact .of_outline (by simp)
  · rename_i src dst total next words _
    exact (s.writeWords_keeps (dst + 32 * next) words).then_outline (by simp)
  · split
    · exact .refl s
    · exact .of_outline (by simp)

theorem State.nextBurst_outline (k : Composition) (bursts : Nat) : (s.nextBurst k bursts).outline = s.outline := by
  unfold State.nextBurst
  repeat' split
  all_goals simp

theorem State.grantCompose_keeps : State.KeepsAll s s.grantCompose := by
  unfold State.grantCompose
  split
  · exact .refl s
  · dsimp only
    split
    · exact .refl s
    · exact .of_outline (State.nextBurst_outline _ _ _)
    · exact (State.writeWords_keeps s _ _).then_outline (State.nextBurst_outline _ _ _)

theorem State.grantClass_keeps (c : BurstClass) : State.KeepsAll s (s.grantClass c) := by
  cases c with
  | event => exact State.grantEvent_keeps s
  | takeover => exact State.grantTakeover_keeps s
  | fetch => exact .of_outline (State.grantFetch_outline s)
  | compose => exact State.grantCompose_keeps s

theorem State.arbiterLaw_iff : s.arbiterLaw = true ↔ s.bridge.streak ≤ 3 ∧ s.bridge.composeWait ≤ 3 := by
  simp [State.arbiterLaw]

/-- COMPOSE has its turn before its wait count passes 3 (R19). -/
theorem State.composeCount_le {c : BurstClass} (hc : s.internalChoice = some c) (h : s.bridge.composeWait ≤ 3) :
    composeCount c (s.waits .compose) s.bridge.composeWait ≤ 3 := by
  unfold composeCount
  split
  · omega
  · rename_i hne
    split
    · rename_i hw
      have : s.bridge.composeWait ≠ 3 := by
        intro h3
        simp only [State.internalChoice, hw, h3] at hc
        exact hne (Option.some.inj hc).symm
      omega
    · omega

theorem State.grantInternal_keeps : State.KeepsAll s s.grantInternal := by
  unfold State.grantInternal
  split
  · exact .refl s
  · split
    · exact .refl s
    · rename_i c hc
      have h := State.grantClass_keeps s c
      refine ⟨⟨h.memory, h.ring, h.queue, fun ha => ?_, h.hold, h.window⟩, h.wait⟩
      rw [State.arbiterLaw_iff] at ha ⊢
      exact ⟨Nat.zero_le 3, State.composeCount_le s hc ha.2⟩

/-! ## Taking requests (R3, R8 to R13, R23, R24) -/

theorem State.forward_keeps (f : Forwarded) : State.KeepsAll s (s.forward f) :=
  ⟨⟨id, id, id, id, fun _ => rfl, id⟩, fun _ => rfl⟩

theorem State.queueLaw_iff : s.queueLaw = true ↔ s.intake.queue.length ≤ 16 := by
  simp only [State.queueLaw, decide_eq_true_eq]
  rfl

theorem State.holdLaw_iff : s.holdLaw = true ↔
    ∀ a ls n k, s.bridge.side = .holding a ls n k → 16 ≤ s.intake.queue.length := by
  unfold State.holdLaw
  split
  · rename_i h
    simp only [h, decide_eq_true_eq, ControllerSide.holding.injEq]
    exact ⟨fun full _ _ _ _ _ => full, fun all => all _ _ _ _ ⟨rfl, rfl, rfl, rfl⟩⟩
  · rename_i h
    simpa using fun a ls n k hk => absurd hk (h a ls n k)

/-- A command joins a queue that has a free entry (R23). -/
theorem State.enqueue_keeps (c : Command) (h : s.intake.queue.length < 16) : State.KeepsAll s (s.enqueue c) := by
  have grown : (s.enqueue c).intake.queue.length = s.intake.queue.length + 1 := by
    simp [State.enqueue, State.touchStatus]
  refine ⟨⟨id, id, fun _ => ?_, id, fun hh => ?_, id⟩, id⟩
  · rw [State.queueLaw_iff]
    omega
  · rw [State.holdLaw_iff] at hh ⊢
    intro a ls n k hk
    have := hh a ls n k hk
    omega

/-- A write is held behind a full queue alone (R12). -/
theorem State.hold_keeps (a : Nat) (ls : List Lane) (n : Nat) (h : 16 ≤ s.intake.queue.length) :
    State.KeepsAll s (s.onBridge fun b => { b with side := .holding a ls n 0 }) :=
  ⟨⟨id, id, id, id, fun _ => (State.holdLaw_iff _).mpr fun _ _ _ _ _ => h, id⟩, fun _ => rfl⟩

theorem State.commandAt_keeps (addr off : Nat) (lanes : List Lane) :
    State.KeepsAll s (s.commandAt addr off lanes) := by
  unfold State.commandAt
  dsimp only
  split
  · exact (State.KeepsAll.of_outline (by simp)).trans (State.forward_keeps _ _)
  · split
    · rename_i room
      exact (State.enqueue_keeps s _ room).trans (State.forward_keeps _ _)
    · rename_i full
      exact State.hold_keeps s addr lanes _ (Nat.le_of_not_lt full)

theorem State.statusAt_keeps (addr off : Nat) (lanes : List Lane) :
    State.KeepsAll s (s.statusAt addr off lanes) := by
  unfold State.statusAt
  dsimp only
  split
  · exact (State.KeepsAll.of_outline (by simp)).trans (State.forward_keeps _ _)
  · exact .of_outline (by simp)

theorem State.accept_keeps (r : Request) : State.KeepsAll s (s.accept r) := by
  unfold State.accept
  dsimp only
  split
  · exact State.forward_keeps s _
  · split
    · exact State.forward_keeps s _
    split
    · exact State.commandAt_keeps s _ _ _
    split
    · exact .of_outline (by simp)
    split
    · exact State.statusAt_keeps s _ _ _
    · exact State.forward_keeps s _

/-- To take a request leaves those that wait. -/
theorem State.accept_waiting (r : Request) : (s.accept r).bridge.waiting = s.bridge.waiting := by
  have guarded (area : GuardArea) (a n : Nat) : (s.judgeGuard area a n).bridge = s.bridge := by
    unfold State.judgeGuard
    split <;> rfl
  unfold State.accept State.commandWrite State.commandAt State.statusSplit State.statusAt
  dsimp only
  repeat' split
  all_goals simp [State.forward, State.enqueue, State.touchStatus, State.raise, guarded]

theorem State.takeRequest_keeps (r : Request) : State.KeepsAll s (s.takeRequest r) := by
  unfold State.takeRequest
  dsimp only
  split
  · exact State.accept_keeps s r
  all_goals
    rename_i h
    exact ⟨⟨id, id, id, id, id, id⟩, fun _ => by simp [State.waitLaw, h]⟩

theorem State.acceptWaiting_keeps (l : List Request) : State.Keeps s (s.acceptWaiting l) := by
  induction l generalizing s with
  | nil => exact (State.KeepsAll.refl s).toKeeps
  | cons r rest ih =>
    unfold State.acceptWaiting
    split
    · have taken : State.Keeps s (s.onBridge fun b => { b with waiting := rest }) := ⟨id, id, id, id, id, id⟩
      exact (taken.trans (State.accept_keeps _ r).toKeeps).trans (ih _)
    · exact (State.KeepsAll.refl s).toKeeps
    · exact (State.KeepsAll.refl s).toKeeps

/-- Once the Bridge has taken what it can of the requests that wait, none waits while it is READY (R3). -/
theorem State.acceptWaiting_waitLaw (l : List Request) (h : s.bridge.waiting = l) :
    (s.acceptWaiting l).waitLaw = true := by
  induction l generalizing s with
  | nil =>
    simp only [State.acceptWaiting, State.waitLaw, h]
    split <;> rfl
  | cons r rest ih =>
    unfold State.acceptWaiting
    split
    · exact ih _ (State.accept_waiting _ r)
    · rename_i hs
      simp [State.waitLaw, hs]
    · rename_i hs
      simp [State.waitLaw, hs]

/-- The return to READY keeps the laws, the law of the waiting requests whatever stood before. -/
theorem State.release_keeps : State.KeepsAll s s.release := by
  have ready : State.Keeps s (s.onBridge fun b => { b with side := .ready }) :=
    ⟨id, id, id, id, fun _ => rfl, id⟩
  exact ⟨ready.trans (State.acceptWaiting_keeps _ _), fun _ => State.acceptWaiting_waitLaw _ _ rfl⟩

theorem State.dropHeld_keeps : State.KeepsAll s s.dropHeld := by
  unfold State.dropHeld
  split
  · dsimp only
    split
    · exact .refl s
    · exact (State.KeepsAll.of_outline (by simp)).trans (State.forward_keeps _ _)
  · exact .refl s

theorem State.busClock_keeps : State.KeepsAll s s.busClock := by
  unfold State.busClock
  split
  · rename_i a ls n k hs
    split
    · refine ⟨⟨id, id, id, id, fun hh => ?_, id⟩, fun _ => rfl⟩
      rw [State.holdLaw_iff] at hh ⊢
      exact fun _ _ _ _ _ => hh a ls n k hs
    · exact State.dropHeld_keeps s
  · exact .refl s

/-! ## The grant of the forwarded request (R5 to R9, R14 to R16) -/

/-- The consumer word never lengthens the span from C to P (R175). -/
theorem EventUnit.clampIndex_span (e : EventUnit) (i : Nat) : (e.p - e.clampIndex i).toNat ≤ (e.p - e.c).toNat := by
  unfold EventUnit.clampIndex
  dsimp only
  split
  · rename_i h
    bv_omega
  · simp

theorem EventUnit.consume_bounded (e : EventUnit) (w : Word) (h : e.bounded = true) :
    (e.consume w).bounded = true := by
  rw [EventUnit.bounded_iff] at h ⊢
  have span : (e.consume w).unconsumed ≤ e.unconsumed := e.clampIndex_span (bits w 0 8)
  have records : (e.consume w).records = e.records := rfl
  rw [records]
  omega

theorem State.giveNotices_keeps (a : Nat) (lanes : List Lane) : State.KeepsAll s (s.giveNotices a lanes) := by
  have noted (u : State) (w : Word) : State.KeepsAll u (u.onEvents fun e => e.consume w) :=
    ⟨⟨id, u.events.consume_bounded w, id, id, id, id⟩, id⟩
  have ready (u : State) : State.KeepsAll s u →
      State.KeepsAll s (if a = s.cmdw + consumerOffset then
        u.onEvents fun e => e.consume (lanes.headD ⟨0, 0⟩).data else u) := by
    intro h
    split
    · exact h.trans (noted u _)
    · exact h
  unfold State.giveNotices
  refine ready _ (.of_outline ?_)
  split
  · split <;> simp
  · simp

/-- The streak rises only while it is not 3 (R18). -/
theorem State.forwardedTurn_streak (h : s.forwardedTurn = true) (hw : s.internalWaits = true) :
    s.bridge.streak ≠ 3 := by
  intro h3
  simp [State.forwardedTurn, State.internalFirst, hw, h3] at h

/-- A grant counts in the streak (R18). -/
theorem State.countGrant_keeps (h : s.forwardedTurn = true) (t : State) (k : State.KeepsAll s t)
    (hs : t.bridge.streak = s.bridge.streak) :
    State.KeepsAll s (t.onBridge fun b =>
      { b with streak := if s.internalWaits then b.streak + 1 else 0, passed := false }) := by
  refine ⟨⟨k.memory, k.ring, k.queue, fun ha => ?_, k.hold, k.window⟩, k.wait⟩
  have kept := k.arbiter ha
  rw [State.arbiterLaw_iff] at ha kept ⊢
  refine ⟨?_, kept.2⟩
  show (if s.internalWaits then t.bridge.streak + 1 else 0) ≤ 3
  split
  · rename_i hw
    have := State.forwardedTurn_streak s h hw
    omega
  · omega

theorem State.giveNotices_streak (a : Nat) (lanes : List Lane) :
    (s.giveNotices a lanes).bridge.streak = s.bridge.streak := by
  have noted (u : State) (i : Nat) (v : Byte) : (u.readyNotice i v).bridge.streak = u.bridge.streak :=
    congrArg Outline.streak (State.readyNotice_outline u i v)
  unfold State.giveNotices
  dsimp only
  repeat' split
  all_goals simp [noted]

theorem State.grantForwarded_keeps (f : Forwarded) (h : s.forwardedTurn = true) :
    State.KeepsAll s (s.grantForwarded f s.internalWaits) := by
  unfold State.grantForwarded
  dsimp only
  split
  · rename_i a enables
    exact (State.countGrant_keeps s h
      (s.onBridge fun b => { b with readData := s.readWords (s.translate a) enables.length })
      (.of_outline (by simp)) rfl).trans (State.release_keeps _)
  · split
    · exact (State.KeepsAll.of_outline (by simp)).trans (State.release_keeps _)
    · refine (State.countGrant_keeps s h _ ((State.writeLanes_keeps s _ _).trans (State.giveNotices_keeps _ _ _))
        ?_).trans (State.release_keeps _)
      rw [State.giveNotices_streak, show (s.writeLanes _ _).bridge = s.bridge from
        State.writeLanes_frame _ s _ .bridge (by simp)]

theorem State.forwardedGrant_keeps : State.KeepsAll s s.forwardedGrant := by
  unfold State.forwardedGrant
  split
  · split
    · rename_i turn
      exact State.grantForwarded_keeps s _ turn
    · exact .refl s
  · exact .refl s

/-! ## The ring (R173, R174) -/

theorem EventUnit.recordWritten_bounded (e : EventUnit) (h : e.bounded = true) : e.recordWritten.bounded = true := by
  rw [EventUnit.bounded_iff] at h ⊢
  have tail : e.recordWritten.records.length = e.records.length - 1 := by simp [EventUnit.recordWritten]
  have span : e.recordWritten.unconsumed ≤ e.unconsumed + 1 ∧ e.recordWritten.unconsumed ≤ 63 := by
    simp only [EventUnit.unconsumed, EventUnit.recordWritten]
    bv_omega
  omega

theorem State.recordWritten_keeps : State.KeepsAll s (s.onEvents EventUnit.recordWritten) :=
  ⟨⟨id, s.events.recordWritten_bounded, id, id, id, id⟩, id⟩

/-! ## What is due before a step, and the dwell (R145, R172) -/

theorem State.takeFirstWrite_keeps : State.KeepsAll s s.takeFirstWrite := by
  unfold State.takeFirstWrite
  split
  · exact State.presentStatus_keeps s
  · exact .refl s

theorem State.takeOwedAdvance_keeps : State.KeepsAll s s.takeOwedAdvance := by
  unfold State.takeOwedAdvance
  split
  · have cleared : State.KeepsAll s (s.onSeq fun q => { q with advanceOwed := false }) :=
      ⟨⟨id, id, id, id, id, id⟩, id⟩
    exact cleared.then_outline (State.advance_outline _)
  · exact .refl s

theorem State.begin_keeps : State.KeepsAll s s.begin :=
  ((State.takeFirstWrite_keeps s).trans (State.takeOwedAdvance_keeps _)).then_outline (State.noteStatus_outline _ _)

theorem State.tickSequencer_keeps : State.KeepsAll s s.tickSequencer := by
  unfold State.tickSequencer
  dsimp only
  split
  · exact ⟨⟨id, id, id, id, id, id⟩, id⟩
  · exact .refl s

/-! ## The window map and its owners (R4) -/

theorem State.windowLaw_iff : s.windowLaw = true ↔
    s.bridge.window.scan = s.composer.canvas.map (fun c => ⟨c.scan, c.width * c.height * 4⟩)
      ∧ s.bridge.window.front = s.composer.front ∧ s.bridge.window.saveBase = s.takeover.saveBase
      ∧ s.bridge.window.slides = s.seq.list.map SlideList.range := by
  simp [State.windowLaw, and_assoc]

/-- The flip and its copy at the Bridge (R97). -/
theorem State.tickComposer_keeps : State.KeepsAll s s.tickComposer := by
  refine ⟨⟨id, id, id, id, id, fun hw => ?_⟩, id⟩
  obtain ⟨scan, -, save, slides⟩ := (State.windowLaw_iff s).mp hw
  exact (State.windowLaw_iff _).mpr ⟨scan, rfl, save, slides⟩

/-- A new setup and its Scan Window (R95). -/
theorem State.applyCanvas_keeps (c : CanvasSetup) : State.KeepsQuiet s (s.applyCanvas c) := by
  refine ⟨⟨⟨id, id, id, id, id, fun hw => ?_⟩, id⟩, fun q => ⟨q.high, q.clear, q.shown⟩⟩
  obtain ⟨-, -, save, slides⟩ := (State.windowLaw_iff s).mp hw
  exact (State.windowLaw_iff _).mpr ⟨rfl, rfl, save, slides⟩

/-- A new save base at the Takeover Unit and at the Bridge (R156, R168). -/
theorem State.saveBase_keeps (base : Nat) (f : Takeover → Takeover) (hf : (f s.takeover).saveBase = base) :
    State.KeepsQuiet s
      ((s.onTakeover f).onBridge fun b => { b with window := { b.window with saveBase := base } }) := by
  refine ⟨⟨⟨id, id, id, id, id, fun hw => ?_⟩, id⟩, fun q => ⟨q.high, q.clear, q.shown⟩⟩
  obtain ⟨scan, front, -, slides⟩ := (State.windowLaw_iff s).mp hw
  exact (State.windowLaw_iff _).mpr ⟨scan, front, hf.symm, slides⟩

/-- A new list and its range (R135). -/
theorem State.setList_keeps (l : SlideList) (f : Sequencer → Sequencer) (hf : (f s.seq).list = some l)
    (ho : (f s.seq).advanceOwed = s.seq.advanceOwed) : State.KeepsQuiet s
      ((s.onSeq f).onBridge fun b => { b with window := { b.window with slides := some l.range } }) := by
  refine ⟨⟨⟨id, id, id, id, id, fun hw => ?_⟩, id⟩, fun q => ⟨q.high, ho.trans q.clear, q.shown⟩⟩
  obtain ⟨scan, front, save, -⟩ := (State.windowLaw_iff s).mp hw
  exact (State.windowLaw_iff _).mpr ⟨scan, front, save, by simp [hf]⟩

theorem State.restoreDone_keeps (r : SaveRecord) (redone finished jumped : Bool) (slot : Option Nat) :
    State.KeepsAll s (s.restoreDone r redone finished jumped slot) := by
  unfold State.restoreDone
  dsimp only
  have moved := State.saveBase_keeps s r.nextBase
    (fun t => { t with saveBase := r.nextBase, phase := none, job := .none }) rfl
  refine State.KeepsQuiet.toKeepsAll ?_
  split
  · exact moved.then_outline (by simp)
  · exact moved.then_outline (by simp)

theorem State.restoreRead_keeps (bytes : List Byte) : State.KeepsAll s (s.restoreRead bytes) := by
  unfold State.restoreRead
  dsimp only
  split
  · exact .of_outline (by simp)
  · exact (State.KeepsAll.of_outline (by simp)).trans (State.restoreDone_keeps _ _ _ _ _ _)

theorem State.tickPart_keeps (p : TickPart) : State.KeepsAll s (s.tickPart p) := by
  cases p with
  | channel n => exact .of_outline (State.tickChannel_outline s n.val)
  | composer => exact State.tickComposer_keeps s
  | sequencer => exact State.tickSequencer_keeps s

theorem State.tickParts_keeps (l : List TickPart) : State.KeepsAll s (l.foldl State.tickPart s) := by
  induction l generalizing s with
  | nil => exact .refl s
  | cons p l ih => exact (State.tickPart_keeps s p).trans (ih _)

theorem State.frameTick_keeps (order : List TickPart) : State.KeepsAll s (s.frameTick order) :=
  (State.tickParts_keeps s _).then_outline (State.settle_outline _)

theorem State.compositionDone_keeps : State.KeepsAll s s.compositionDone := by
  unfold State.compositionDone
  dsimp only
  generalize hu : s.onComposer _ = u
  have freed : (if u.scene.load.any (·.ended) then u.installEntries else u).outline = s.outline := by
    rw [← hu]
    split <;> simp
  generalize (if u.scene.load.any (·.ended) then u.installEntries else u) = v at freed ⊢
  refine State.KeepsAll.then_outline ?_ (State.drainStep_outline _)
  split
  · exact ((State.KeepsAll.of_outline freed).trans (State.applyCanvas_keeps v _).toKeepsAll).then_outline
      (State.complete_outline _ 0)
  · exact .of_outline freed

end

end Sys2Proof.Machine

/-!
PROOF. O56 and O57, the steps: what an owner makes of each command, the start of the head, and the rows of the
table.
-/

namespace Sys2Proof.Machine

/-! ## What an owner makes of a command (R29) -/

section
variable (c : Command) (s : State)

theorem Verdict.kept_completed {s t : State} (code : Fin 4) (h : t.outline = s.outline) :
    (Verdict.completed code t).Kept s := State.KeepsQuiet.of_outline h

theorem Verdict.kept_began {s t : State} (h : t.outline = s.outline) : (Verdict.began t).Kept s :=
  State.KeepsQuiet.of_outline h

theorem runSetCanvas_kept : (runSetCanvas c s).Kept s := by
  refine judged_kept _ ?_
  split
  · exact State.applyCanvas_keeps s _
  · exact Verdict.kept_began (by simp)

theorem runSetTakeover_kept : (runSetTakeover c s).Kept s :=
  judged_kept _ (State.saveBase_keeps s _ _ rfl)

theorem runSetSlides_kept : (runSetSlides c s).Kept s :=
  judged_kept _ (State.setList_keeps s c.slideList _ rfl rfl)

theorem State.edit_kept (n : Nat) (field : Option Field) (modeOk : Bool) (value : Field → Int → Int)
    (code : Field → Int → Int → Fin 4) : (s.edit n field modeOk value code).Kept s := by
  refine judged_kept _ ?_
  split
  · exact Verdict.kept_completed _ rfl
  · trivial

theorem State.openPage_kept (cause : Cause) (addr saved slot : Nat) :
    (s.openPage cause addr saved slot).Kept s := by
  unfold State.openPage
  split
  · exact Verdict.kept_completed _ (State.settlePage_outline ..)
  · split
    · exact Verdict.kept_began (by simp)
    · exact Verdict.kept_began (by simp)

/-- A verdict judged from a state of the same outline. -/
theorem Verdict.Kept.of_outline {s t : State} {v : Verdict} (h : v.Kept t) (k : t.outline = s.outline) :
    v.Kept s := by
  cases v with
  | refused r => trivial
  | completed code u => exact (State.KeepsQuiet.of_outline k).trans h
  | began u => exact (State.KeepsQuiet.of_outline k).trans h

theorem State.directionKey_kept (p : Page) (d : Direction) : (s.directionKey p d).Kept s := by
  unfold State.directionKey
  split
  · exact Verdict.kept_completed _ rfl
  · split
    · exact Verdict.kept_completed _ (by simp)
    · exact Verdict.kept_completed _ rfl

theorem State.selectKey_kept (p : Page) (n : Nat) : (s.selectKey p n).Kept s := by
  unfold State.selectKey
  split
  · exact Verdict.kept_completed _ rfl
  split
  · exact Verdict.kept_completed _ rfl
  split
  · exact Verdict.kept_completed _ (by simp)
  · split
    · exact Verdict.kept_completed _ rfl
    · exact Verdict.kept_completed _ (by simp)

theorem State.enterKey_kept (p : Page) (f slot : Nat) : (s.enterKey p f slot).Kept s := by
  unfold State.enterKey
  split
  · exact Verdict.kept_completed _ rfl
  dsimp only
  split
  · exact Verdict.kept_completed _ (by simp)
  split
  · exact Verdict.kept_completed _ (by simp)
  split
  · exact Verdict.kept_completed _ (by simp)
  · exact (State.openPage_kept _ _ _ _ _).of_outline (by simp)

theorem State.backKey_kept (p : Page) (slot : Nat) : (s.backKey p slot).Kept s := by
  unfold State.backKey
  split
  · exact Verdict.kept_completed _ (by simp)
  · exact (State.openPage_kept _ _ _ _ _).of_outline (by simp)

theorem runKey_kept (needsFocus : Bool) (act : Page → Verdict) (h : ∀ p, (act p).Kept s) :
    (runKey c s needsFocus act).Kept s := by
  refine judged_kept _ ?_
  split
  · exact h _
  · trivial

theorem runKeyUp_kept : (runKeyUp c s).Kept s := runKey_kept c s _ _ fun p => s.directionKey_kept p .up
theorem runKeyDown_kept : (runKeyDown c s).Kept s := runKey_kept c s _ _ fun p => s.directionKey_kept p .down
theorem runKeyLeft_kept : (runKeyLeft c s).Kept s := runKey_kept c s _ _ fun p => s.directionKey_kept p .left
theorem runKeyRight_kept : (runKeyRight c s).Kept s := runKey_kept c s _ _ fun p => s.directionKey_kept p .right
theorem runKeySelect_kept : (runKeySelect c s).Kept s := runKey_kept c s _ _ fun p => s.selectKey_kept p _
theorem runKeyEnter_kept : (runKeyEnter c s).Kept s := runKey_kept c s _ _ fun p => s.enterKey_kept p _ _
theorem runKeyBack_kept : (runKeyBack c s).Kept s := runKey_kept c s _ _ fun p => s.backKey_kept p _

theorem runAnyKey_kept : (runAnyKey c s).Kept s := by
  unfold runAnyKey
  split
  · exact runKeyUp_kept c s
  · exact runKeyDown_kept c s
  · exact runKeyLeft_kept c s
  · exact runKeyRight_kept c s
  · exact runKeySelect_kept c s
  · exact runKeyEnter_kept c s
  · exact runKeyBack_kept c s
  · exact runKeyUp_kept c s

theorem State.stepFrom_kept (i : Nat) (backward : Bool) (slot : Nat) (prepare : Sequencer → Sequencer)
    (h : ∀ q, (prepare q).list = q.list) (g : ∀ q, (prepare q).advanceOwed = q.advanceOwed) :
    (s.stepFrom i backward slot prepare).Kept s := by
  unfold State.stepFrom
  dsimp only
  split
  · exact Verdict.kept_completed _ (by simp [h, g])
  · exact Verdict.kept_completed _ (by simp)

theorem State.stepShown_kept (backward : Bool) (slot : Nat) : (s.stepShown backward slot).Kept s := by
  unfold State.stepShown
  dsimp only
  split
  · exact State.stepFrom_kept s _ _ _ _ (fun _ => rfl) fun _ => rfl
  · refine Verdict.Kept.of_outline (t := { s with freeCount := s.freeCount + 1 })
      (State.stepFrom_kept _ _ _ _ _ ?_ ?_) rfl
    · exact fun _ => rfl
    · exact fun _ => rfl

theorem State.stepShow_kept (backward : Bool) (slot : Nat) : (s.stepShow backward slot).Kept s := by
  unfold State.stepShow
  split
  · exact State.stepShown_kept s _ _
  · exact (State.stepShown_kept _ _ _).of_outline (by simp)
  · exact State.stepFrom_kept s _ _ _ _ (fun _ => rfl) fun _ => rfl
  · exact State.stepFrom_kept s _ _ _ _ (fun _ => rfl) fun _ => rfl
  · exact Verdict.kept_completed _ rfl
  · exact Verdict.kept_completed _ rfl

theorem runTakeover_kept : (runTakeover c s).Kept s := by
  unfold runTakeover
  split
  · exact Verdict.kept_began (by simp)
  · exact Verdict.kept_began (by simp)
  all_goals exact Verdict.kept_completed _ (by simp)

theorem State.resumeShow_outline : s.resumeShow.outline = s.outline := by
  unfold State.resumeShow
  dsimp only
  split <;> simp

theorem State.removeMotion_outline (n slot : Nat) : (s.removeMotion n slot).outline = s.outline := by
  unfold State.removeMotion
  split <;> simp

/-- RESTART leaves what the laws speak of, and no advance is owed after it (R133). -/
theorem State.restart_keeps : State.KeepsQuiet s s.restart :=
  ⟨⟨⟨id, id, id, id, id, id⟩, id⟩, fun q => ⟨q.high, rfl, q.shown⟩⟩

theorem runHaltImmediate_kept : (runHaltImmediate c s).Kept s :=
  judged_kept _ (Verdict.kept_completed _ (by simp))

theorem runHaltEase_kept : (runHaltEase c s).Kept s := judged_kept _ (Verdict.kept_completed _ rfl)

theorem runPatch_kept : (runPatch c s).Kept s := by
  unfold runPatch
  exact State.edit_kept s _ _ _ _ _

theorem runStep_kept : (runStep c s).Kept s := by
  unfold runStep
  exact State.edit_kept s _ _ _ _ _

theorem runLoadPalette_kept : (runLoadPalette c s).Kept s := by
  unfold runLoadPalette
  exact judged_kept _ (Verdict.kept_began (by simp))

/-- What an owner makes of a command of any kind. -/
theorem runKind_kept (k : Kind) : (runKind k c s).Kept s := by
  cases k with
  | mark => exact Verdict.kept_completed _ (by simp)
  | restart => exact State.restart_keeps s
  | setCanvas => exact runSetCanvas_kept c s
  | setTakeover => exact runSetTakeover_kept c s
  | setSlides => exact runSetSlides_kept c s
  | define => exact judged_kept _ (Verdict.kept_completed _ rfl)
  | drop =>
    exact judged_kept _ (Verdict.kept_completed _
      ((State.onScene_outline _ _).trans (State.removeMotion_outline s _ _)))
  | place => exact judged_kept _ (Verdict.kept_completed _ rfl)
  | unplace => exact judged_kept _ (Verdict.kept_completed _ rfl)
  | patch => exact runPatch_kept c s
  | step => exact runStep_kept c s
  | loadPalette => exact runLoadPalette_kept c s
  | setProfile => exact judged_kept _ (Verdict.kept_completed _ rfl)
  | move => exact judged_kept _ (Verdict.kept_completed _ (by simp))
  | retune => exact judged_kept _ (Verdict.kept_completed _ rfl)
  | halt =>
    show (if c.haltEases then runHaltEase c s else runHaltImmediate c s).Kept s
    split
    · exact runHaltEase_kept c s
    · exact runHaltImmediate_kept c s
  | openPage => exact judged_kept _ (State.openPage_kept s _ _ _ _)
  | prefetchPage => exact judged_kept _ (Verdict.kept_completed _ (by simp))
  | key => exact runAnyKey_kept c s
  | closeMenu => exact Verdict.kept_completed _ (by simp)
  | slideStart => exact judged_kept _ (Verdict.kept_completed _ (by simp))
  | slideStop =>
    refine judged_kept _ (Verdict.kept_completed _ ?_)
    split <;> simp
  | slideStep => exact judged_kept _ (State.stepShow_kept s _ _)
  | slidePause => exact judged_kept _ (Verdict.kept_completed _ (by simp))
  | slideResume =>
    refine judged_kept _ (Verdict.kept_completed _ ?_)
    split
    · exact State.resumeShow_outline s
    · rfl
  | takeover => exact runTakeover_kept c s
  | resume => exact judged_kept _ (Verdict.kept_began (by simp))

theorem Command.run_kept : (c.run s).Kept s := by
  unfold Command.run
  split
  · exact runKind_kept c s _
  · trivial

end

/-! ## The start of the head (R25 to R29) -/

/-- The head that leaves frees an entry, which a held command takes at once (R23, R24). -/
theorem State.departed_keeps {s : State} {c : Command} {rest : List Command} (h : s.intake.queue = c :: rest) :
    State.KeepsQuiet s (s.departed rest) := by
  have quiet (q : s.Quiet) : (s.departed rest).Quiet := by
    refine ⟨?_, ?_, ?_⟩
    · rw [State.departed_rstnLow, q.high]
    · rw [State.departed_seq, q.clear]
    · rw [State.departed_events]
      exact q.shown
  refine ⟨?_, quiet⟩
  have shorter (hq : s.queueLaw = true) : rest.length ≤ 16 := by
    rw [State.queueLaw_iff, h, List.length_cons] at hq
    omega
  unfold State.departed State.joinHeld
  split
  · rename_i addr lanes slot count hs
    split
    · rename_i room
      refine ⟨⟨id, id, fun _ => (State.queueLaw_iff _).mpr ?_, id, fun _ => rfl, id⟩, fun _ => rfl⟩
      show (rest ++ [commandOf slot lanes]).length ≤ 16
      rw [List.length_append]
      exact room
    · rename_i full
      exact ⟨⟨id, id, fun hq => (State.queueLaw_iff _).mpr (shorter hq), id,
        fun _ => (State.holdLaw_iff _).mpr fun _ _ _ _ _ => Nat.le_of_not_lt full, id⟩, id⟩
  · rename_i hs
    exact ⟨⟨id, id, fun hq => (State.queueLaw_iff _).mpr (shorter hq), id,
      fun _ => (State.holdLaw_iff _).mpr fun a ls n k hk => absurd hk (hs a ls n k), id⟩, id⟩

theorem State.refuse_outline (s : State) (c : Command) (r : RefusalReason) :
    (s.refuse c r).outline = s.outline := by simp [State.refuse]

theorem State.finish_keeps {s : State} {c : Command} {v : Verdict} (h : v.Kept s) :
    State.KeepsQuiet s (s.finish c v) := by
  cases v with
  | refused r => exact .of_outline (State.refuse_outline s c r)
  | completed code t => exact State.KeepsQuiet.then_outline h (State.setCode_outline t code)
  | began t => exact h

theorem State.startHead_keeps (s : State) (row : Command → Bool) (run : Command → State → Verdict)
    (h : ∀ c t, (run c t).Kept t) : State.KeepsQuiet s (s.startHead row run) := by
  unfold State.startHead
  split
  · exact .refl s
  · rename_i c rest hq
    have left := State.departed_keeps hq
    dsimp only
    split
    · exact .refl s
    split
    · exact left
    split
    · exact left.then_outline (State.refuse_outline _ _ _)
    · exact left.trans (State.finish_keeps (h c _))

/-! ## The steps -/

/-- Every outcome of a step keeps the laws. -/
def State.StepKeeps (s : State) (r : Result) : Prop := ∀ t, r = .next t → State.KeepsAll s t

theorem State.live_keeps (s : State) {f : State → State} (h : ∀ u, State.KeepsAll u (f u)) :
    s.StepKeeps (s.live f) := by
  intro t ht
  unfold State.live at ht
  split at ht
  · cases ht
    exact .refl s
  · cases ht
    exact ((State.begin_keeps s).trans (h _)).then_outline
      (State.endStep_outline _ _)

theorem State.row_keeps (s : State) (row : Command → Bool) (run : Command → State → Verdict)
    (h : ∀ c t, (run c t).Kept t) : s.StepKeeps (s.live fun t => t.startHead row run) :=
  State.live_keeps s fun u => (State.startHead_keeps u row run h).toKeepsAll

theorem State.afterStart_keeps (s : State) (first : Bool) {f : State → State} (h : ∀ u, State.KeepsAll u (f u)) :
    s.StepKeeps (s.afterStart first f) := by
  intro t ht
  unfold State.afterStart at ht
  split at ht
  · split at ht
    · rename_i u hu
      exact (State.row_keeps s _ _ Command.run_kept u hu).trans (State.live_keeps u h t ht)
    · exact State.row_keeps s _ _ Command.run_kept t ht
  · exact State.live_keeps s h t ht

theorem State.event_keeps (s : State) {f : State → State} (h : ∀ u, State.KeepsAll u (f u)) :
    s.StepKeeps (s.event f) := State.afterStart_keeps s _ h

/-- The end of a burst that frees the memory side (R17). -/
theorem State.atEnd_keeps (s : State) (e : BurstEnd) {f : State → State} (h : ∀ u, State.KeepsAll u (f u)) :
    State.KeepsAll s (s.atEnd e f) := by
  unfold State.atEnd
  split
  · exact (State.KeepsAll.of_outline (State.free_outline s)).trans (h _)
  · exact .refl s

/-- The ring is empty after RSTN (R172). -/
theorem EventUnit.reset_bounded : EventUnit.reset.bounded = true := by decide

/-- A block's reset values meet the laws, whatever stood before (R2, R172). -/
theorem State.rstn_keeps (s : State) (memSize : Nat) (level low : Bool) :
    State.KeepsAll s { s.rstn memSize level with rstnLow := low } :=
  ⟨⟨id, fun _ => EventUnit.reset_bounded, fun _ => rfl, fun _ => rfl, fun _ => rfl,
    fun _ => (State.windowLaw_iff _).mpr ⟨rfl, rfl, rfl, rfl⟩⟩, fun _ => rfl⟩

theorem execRstnAssert_keeps (s : State) : s.StepKeeps (execRstnAssert s) := by
  intro t ht
  unfold execRstnAssert at ht
  split at ht
  · cases ht
    exact .refl s
  · cases ht
    exact State.rstn_keeps s _ _ true

theorem execRstnRelease_keeps (msz : BitVec 2) (level : Bool) (s : State) :
    s.StepKeeps (execRstnRelease msz level s) := by
  intro t ht
  unfold execRstnRelease at ht
  split at ht
  · cases ht
    exact State.rstn_keeps s _ _ false
  · cases ht
    exact .refl s

theorem execControllerRequest_keeps (r : Request) (s : State) : s.StepKeeps (execControllerRequest r s) := by
  unfold execControllerRequest
  split
  · exact State.event_keeps s fun u => State.takeRequest_keeps u r
  · intro t ht
    cases ht

theorem execStatusWrite_keeps (s : State) : s.StepKeeps (execStatusWrite s) := by
  refine State.event_keeps s fun u => ?_
  split
  · exact State.presentStatus_keeps u
  · exact .refl u

theorem execPrefetchReadEnd_keeps (pageFirst : Bool) (s : State) :
    s.StepKeeps (execPrefetchReadEnd pageFirst s) := by
  refine State.event_keeps s fun u => State.atEnd_keeps u _ fun v => .of_outline ?_
  split <;> simp

theorem execDescriptorReadEnd_keeps (s : State) : s.StepKeeps (execDescriptorReadEnd s) := by
  refine State.event_keeps s fun u => State.atEnd_keeps u _ fun v => .of_outline ?_
  split <;> simp

theorem execSaveEnd_keeps (s : State) : s.StepKeeps (execSaveEnd s) := by
  refine State.event_keeps s fun u => State.atEnd_keeps u _ fun v => .of_outline ?_
  split <;> simp

theorem execRestoreReadEnd_keeps (s : State) : s.StepKeeps (execRestoreReadEnd s) := by
  refine State.event_keeps s fun u => State.atEnd_keeps u _ fun v => ?_
  split
  · exact State.restoreRead_keeps v _
  · exact .refl v

/-- A row of the table keeps the laws. -/
theorem exec_keeps (i : Instr) (s : State) : s.StepKeeps (exec i s) := by
  cases i with
  | rstnAssert => exact execRstnAssert_keeps s
  | rstnRelease msz level => exact execRstnRelease_keeps msz level s
  | frameTick order => exact State.event_keeps s fun u => State.frameTick_keeps u order
  | dwellExpiry => exact State.event_keeps s .refl
  | tkrqEdge level => exact State.event_keeps s fun u => .of_outline (State.lineLevel_outline u level)
  | controllerRequest r => exact execControllerRequest_keeps r s
  | holdLimit => exact State.event_keeps s State.dropHeld_keeps
  | forwardedGrant => exact State.event_keeps s State.forwardedGrant_keeps
  | internalGrant => exact State.event_keeps s State.grantInternal_keeps
  | compositionComplete =>
    exact State.event_keeps s fun u => State.atEnd_keeps u _ State.compositionDone_keeps
  | paletteReadEnd => exact State.event_keeps s fun u => State.atEnd_keeps u _ fun v => .of_outline (by simp)
  | pageReadEnd => exact State.event_keeps s fun u => State.atEnd_keeps u _ fun v => .of_outline (by simp)
  | prefetchReadEnd pageFirst => exact execPrefetchReadEnd_keeps pageFirst s
  | descriptorReadEnd => exact execDescriptorReadEnd_keeps s
  | saveEnd => exact execSaveEnd_keeps s
  | copyEnd => exact State.event_keeps s fun u => State.atEnd_keeps u _ fun v => .of_outline (by simp)
  | restoreReadEnd => exact execRestoreReadEnd_keeps s
  | eventRecordWriteEnd =>
    exact State.event_keeps s fun u => State.atEnd_keeps u _ State.recordWritten_keeps
  | statusWrite => exact execStatusWrite_keeps s
  | mark => exact State.row_keeps s _ _ fun c t => runKind_kept c t .mark
  | restart => exact State.row_keeps s _ _ fun c t => runKind_kept c t .restart
  | setCanvas => exact State.row_keeps s _ _ runSetCanvas_kept
  | setTakeover => exact State.row_keeps s _ _ runSetTakeover_kept
  | setSlides => exact State.row_keeps s _ _ runSetSlides_kept
  | define => exact State.row_keeps s _ _ fun c t => runKind_kept c t .define
  | drop => exact State.row_keeps s _ _ fun c t => runKind_kept c t .drop
  | place => exact State.row_keeps s _ _ fun c t => runKind_kept c t .place
  | unplace => exact State.row_keeps s _ _ fun c t => runKind_kept c t .unplace
  | patch => exact State.row_keeps s _ _ runPatch_kept
  | step => exact State.row_keeps s _ _ runStep_kept
  | loadPalette => exact State.row_keeps s _ _ runLoadPalette_kept
  | setProfile => exact State.row_keeps s _ _ fun c t => runKind_kept c t .setProfile
  | move => exact State.row_keeps s _ _ fun c t => runKind_kept c t .move
  | retune => exact State.row_keeps s _ _ fun c t => runKind_kept c t .retune
  | haltImmediate => exact State.row_keeps s _ _ runHaltImmediate_kept
  | haltEase => exact State.row_keeps s _ _ runHaltEase_kept
  | openPage => exact State.row_keeps s _ _ fun c t => runKind_kept c t .openPage
  | prefetchPage => exact State.row_keeps s _ _ fun c t => runKind_kept c t .prefetchPage
  | keyUp => exact State.row_keeps s _ _ runKeyUp_kept
  | keyDown => exact State.row_keeps s _ _ runKeyDown_kept
  | keyLeft => exact State.row_keeps s _ _ runKeyLeft_kept
  | keyRight => exact State.row_keeps s _ _ runKeyRight_kept
  | keySelect => exact State.row_keeps s _ _ runKeySelect_kept
  | keyEnter => exact State.row_keeps s _ _ runKeyEnter_kept
  | keyBack => exact State.row_keeps s _ _ runKeyBack_kept
  | closeMenu => exact State.row_keeps s _ _ fun c t => runKind_kept c t .closeMenu
  | slideStart => exact State.row_keeps s _ _ fun c t => runKind_kept c t .slideStart
  | slideStop => exact State.row_keeps s _ _ fun c t => runKind_kept c t .slideStop
  | slideStep => exact State.row_keeps s _ _ fun c t => runKind_kept c t .slideStep
  | slidePause => exact State.row_keeps s _ _ fun c t => runKind_kept c t .slidePause
  | slideResume => exact State.row_keeps s _ _ fun c t => runKind_kept c t .slideResume
  | takeover => exact State.row_keeps s _ _ runTakeover_kept
  | resume => exact State.row_keeps s _ _ fun c t => runKind_kept c t .resume
  | unknownKindCommand => exact State.row_keeps s _ _ fun _ _ => trivial

/-- A step of the machine keeps the laws of the bounds and of the window map. -/
theorem step_keeps {s t : State} (h : step s = .next t) : State.KeepsAll s t := by
  unfold step at h
  split at h
  · exact State.afterStart_keeps s _ State.busClock_keeps t h
  · rename_i c rest _
    have taken : State.KeepsAll s { s with pending := rest } := .of_outline rfl
    exact taken.trans (exec_keeps c _ t h)

/-- Settles O56: each step keeps the laws of memory, the ring, the queue, the arbiter, the held write and the
waiting requests, by the lemma on what each row keeps. -/
theorem everyStepKeepsTheBounds : Obligations.EveryStepKeepsTheBounds := by
  intro s t h
  obtain ⟨⟨memory, ring, queue, arbiter, hold, -⟩, wait⟩ := step_keeps h
  exact ⟨memory, ring, queue, arbiter, hold, wait⟩

/-- Settles O57: each step keeps the window map with its owners, by the same lemma. -/
theorem everyStepKeepsTheWindowMap : Obligations.EveryStepKeepsTheWindowMap :=
  fun _ _ h => (step_keeps h).window

end Sys2Proof.Machine

/-!
PROOF. O1 to O3 and O5: the step, RSTN and reset.
-/

namespace Sys2Proof.Machine

variable {s : State}

/-! ## The step (O1) -/

theorem step_clock (h : s.pending = []) : step s = s.clock State.busClock := by
  unfold step
  rw [h]
  rfl

/-- While RSTN is low an event or a clock changes nothing (R1). -/
theorem State.afterStart_low (h : s.rstnLow = true) (first : Bool) (f : State → State) :
    s.afterStart first f = .next s := by
  cases first <;> simp [State.afterStart, State.live_low h]

theorem State.busClock_free (h : ∀ a ls n k, s.bridge.side ≠ .holding a ls n k) : s.busClock = s := by
  unfold State.busClock
  split
  · rename_i hs
    exact absurd hs (h _ _ _ _)
  · rfl

theorem State.busClock_counts {a n k : Nat} {ls : List Lane} (h : s.bridge.side = .holding a ls n k) (hk : k < 2047) :
    s.busClock = { s with bridge := { s.bridge with side := .holding a ls n (k + 1) } } := by
  have below : k + 1 < Config.holdLimit := Nat.succ_lt_succ hk
  simp only [State.busClock, h]
  rw [if_pos below]
  rfl

theorem State.busClock_limit {a n : Nat} {ls : List Lane} (h : s.bridge.side = .holding a ls n 2047) :
    s.busClock = s.dropHeld := by
  simp [State.busClock, h, Config.holdLimit]

/-- The start of a head leaves nothing due. -/
theorem State.startDue_quiet (h : s.Quiet) : (s.startDue.endStep s).Quiet :=
  ((State.startHead_keeps s _ _ Command.run_kept).then_outline (State.endStep_outline _ _)).quiet h

/-- Settles O1: each clause on a bus clock is the model's clock in that state; a head that may start leaves a quiet
state, so the clock's own effect follows at once. -/
theorem stepRunsFrontCommand : Obligations.StepRunsFrontCommand := by
  refine ⟨fun _ _ _ => rfl, fun s hp => ?_⟩
  rw [step_clock hp]
  refine ⟨fun low => State.afterStart_low low _ _, fun quiet idle free => ?_, fun a ls n k quiet idle held => ?_,
    fun c rest head => ?_⟩
  · rw [State.clock_quiet quiet idle, State.busClock_free free, State.endStep_of_status rfl]
  · refine ⟨fun hk => ?_, fun hk => ?_⟩
    · rw [State.clock_quiet quiet idle, State.busClock_counts held hk]
      exact congrArg _ (State.endStep_of_status rfl)
    · subst hk
      have settled : s.Settled := ⟨quiet, by simp [State.headDue, idle]⟩
      rw [State.clock_quiet quiet idle, State.busClock_limit held]
      exact (State.event_settled settled State.dropHeld).symm
  · obtain ⟨row, hrow, starts⟩ := commandRows_cover c
    have started : s.live State.startDue = .next (s.startDue.endStep s) := State.live_quiet head.toQuiet _
    refine ⟨row, hrow, starts, s.startDue.endStep s, ?_, ?_⟩
    · rw [commandRows_due head row hrow starts, started]
    · rw [State.clock_ready head.ready _ _ started, State.live_quiet (State.startDue_quiet head.toQuiet)]

/-! ## RSTN and reset (O2, O3, O5) -/

theorem Motion.reset_channel (n : Fin 8) : Motion.reset.channel n = Channel.idle := by
  simp [Motion.channel, Motion.reset]

theorem Motion.reset_profile (n : Fin 8) : Motion.reset.profile n = Profile.reset := by
  simp [Motion.profile, Motion.reset]

/-- Settles O2: the release gives every block its reset value. -/
theorem rstnReleaseSetsResetValues : Obligations.RstnReleaseSetsResetValues := by
  intro msz level s low
  have released : exec (.rstnRelease msz level) s =
      .next { s.rstn (Config.memorySize msz) level with rstnLow := false } := by
    show execRstnRelease msz level s = _
    simp [execRstnRelease, low]
  exact ⟨_, released, rfl, rfl, rfl, rfl, rfl, rfl, rfl, Motion.reset_profile, Motion.reset_channel, rfl, rfl, rfl,
    rfl, rfl⟩

/-- While RSTN is low every well-formed command but the release leaves the state (R1). -/
theorem exec_low (c : Instr) (low : s.rstnLow = true) (wf : c.wf = true)
    (other : ∀ msz level, c ≠ .rstnRelease msz level) : exec c s = .next s := by
  have row (test : Command → Bool) (run : Command → State → Verdict) :
      s.live (fun t => t.startHead test run) = .next s := State.live_low low _
  have event (f : State → State) : s.event f = .next s := State.afterStart_low low _ f
  cases c with
  | rstnAssert =>
    show execRstnAssert s = _
    simp [execRstnAssert, low]
  | rstnRelease msz level => exact absurd rfl (other msz level)
  | controllerRequest r =>
    show execControllerRequest r s = _
    rw [execControllerRequest, if_pos (show r.wf = true from wf)]
    exact event _
  | frameTick _ | dwellExpiry | tkrqEdge _ | holdLimit | forwardedGrant | internalGrant | compositionComplete
  | paletteReadEnd | pageReadEnd | prefetchReadEnd _ | descriptorReadEnd | saveEnd | copyEnd | restoreReadEnd
  | eventRecordWriteEnd | statusWrite => exact event _
  | mark | restart | setCanvas | setTakeover | setSlides | define | drop | place | unplace | patch | step
  | loadPalette | setProfile | move | retune | haltImmediate | haltEase | openPage | prefetchPage | keyUp | keyDown
  | keyLeft | keyRight | keySelect | keyEnter | keyBack | closeMenu | slideStart | slideStop | slideStep
  | slidePause | slideResume | takeover | resume | unknownKindCommand => exact row _ _

/-- Settles O3: the assertion gives every block its reset value, and while RSTN is low no other command acts. -/
theorem rstnAssertEndsEverything : Obligations.RstnAssertEndsEverything := by
  refine ⟨fun s high => ?_, fun c s low wf other => exec_low c low wf other⟩
  have asserted : exec .rstnAssert s =
      .next { s.rstn s.bridge.memSize s.takeover.level with rstnLow := true } := by
    show execRstnAssert s = _
    simp [execRstnAssert, high]
  exact ⟨_, asserted, rfl, rfl, rfl, rfl, rfl, rfl, rfl, rfl, rfl, rfl, rfl, rfl, Motion.reset_channel, rfl, rfl, rfl,
    rfl, rfl, rfl⟩

/-- Settles O5: the reset values meet each law. -/
theorem resetMeetsEveryLaw : Obligations.ResetMeetsEveryLaw :=
  ⟨State.reset_wf, EventUnit.reset_bounded, rfl, rfl, rfl, rfl, (State.windowLaw_iff _).mpr ⟨rfl, rfl, rfl, rfl⟩,
    by decide, rfl, rfl⟩

end Sys2Proof.Machine

/-!
PROOF. O9 to O12, O20 and O31: the commands RESTART, SET CANVAS, SET TAKEOVER, SET SLIDES, LOAD PALETTE and OPEN
PAGE.
-/

namespace Sys2Proof.Machine

variable {s : State} {c : Command} {rest : List Command}

/-! ## RESTART (O9) -/

/-- Settles O9: the restart values of every block beside what the departure of the head leaves. -/
theorem restartTakesRestartValues : Obligations.RestartTakesRestartValues := by
  intro s c rest h
  have ran : exec .restart s = .next ((s.departed rest).restart.setCode 0).closed :=
    State.startHead_completed h _ _ (ofKind_of h) rfl (State.departed_statusPending s rest)
  refine ⟨_, ran, fun p hp => ?_, ?_, ?_, fun n => ?_, ?_, ?_, ?_⟩
  · cases p
    case scene | motion | nav | seq | takeover => simp at hp
    all_goals rfl
  · show (s.departed rest).scene.restart = _
    rw [State.departed_scene]
    rfl
  · show (s.departed rest).motion.profiles = _
    rw [State.departed_motion]
  · show Motion.channel (s.departed rest).motion.restart n = _
    simp [Motion.channel, Motion.restart, Channel.idle]
  · show (s.departed rest).nav.restart = _
    rw [State.departed_nav]
    rfl
  · show (s.departed rest).seq.restart = _
    rw [State.departed_seq]
    rfl
  · show (s.departed rest).takeover.restart = _
    rw [State.departed_takeover]
    rfl

/-! ## Conditions on windows -/

theorem disjointWindows_iff (l : List Window) :
    disjointWindows l = true ↔ l.Pairwise (fun u v => u.overlaps v = false) := by
  induction l with
  | nil => simp [disjointWindows]
  | cons u us ih => simp [disjointWindows, ih]

theorem State.clearOfList_iff (s : State) (u : Window) :
    s.clearOfList u = true ↔ ∀ l, s.seq.list = some l → l.range.overlaps u = false := by
  simp [State.clearOfList, Option.all_eq_true]

theorem State.clearOfCanvas_iff (s : State) (u : Window) :
    s.clearOfCanvas u = true ↔ ∀ k, s.composer.canvas = some k → ∀ r ∈ k.regions, r.overlaps u = false := by
  simp [State.clearOfCanvas, Option.all_eq_true]

@[simp] theorem State.departed_clearOfList (s : State) (rest : List Command) (u : Window) :
    (s.departed rest).clearOfList u = s.clearOfList u := by simp [State.clearOfList]

@[simp] theorem State.departed_clearOfCanvas (s : State) (rest : List Command) (u : Window) :
    (s.departed rest).clearOfCanvas u = s.clearOfCanvas u := by simp [State.clearOfCanvas]

/-- Checks that say conditions all pass when the conditions hold. -/
theorem ChecksSay.pass {checks : List (Bool × RefusalReason)} {conditions : List (Prop × RefusalReason)}
    (h : ChecksSay checks conditions) (hl : checks.length = conditions.length) (hc : ∀ e ∈ conditions, e.1) :
    ∀ e ∈ checks, e.1 = true := by
  induction conditions generalizing checks with
  | nil => simp [List.eq_nil_of_length_eq_zero hl]
  | cons d conditions ih =>
    obtain ⟨ok, q⟩ := d
    match checks, h with
    | (b, r) :: checks, ⟨_, hb, hn⟩ =>
      have holds : ok := hc (ok, q) (List.mem_cons_self ..)
      have later := ih (hn holds) (by simpa using hl) fun e he => hc e (List.mem_cons_of_mem _ he)
      intro e he
      rcases List.mem_cons.mp he with rfl | he
      · exact hb.mpr holds
      · exact later e he

/-! ## SET CANVAS (O10) -/

/-- The checks of R94 say its conditions. -/
theorem State.canvasChecks_say (s : State) (k : CanvasSetup) :
    ChecksSay (s.canvasChecks k)
      [ (s.takeover.state = .normal, .wrongState),
        (320 ≤ k.width ∧ k.width ≤ 1920 ∧ k.width % 16 = 0
          ∧ 240 ≤ k.height ∧ k.height ≤ 1080 ∧ k.height % 8 = 0, .range),
        ((∀ u ∈ k.regions, u.base % 0x1000 = 0), .range),
        ((∀ u ∈ k.regions, u.base + u.len ≤ s.cmdw), .range),
        (k.regions.Pairwise (fun u v => u.overlaps v = false), .overlap),
        ((∀ u ∈ k.regions, u.overlaps ⟨s.takeover.saveBase, 0x1000⟩ = false), .overlap),
        ((∀ l, s.seq.list = some l → ∀ u ∈ k.regions, l.range.overlaps u = false), .overlap) ] := by
  refine ⟨rfl, by simp, fun _ => ⟨rfl, by simp [and_assoc], fun _ => ⟨rfl, by simp, fun _ => ⟨rfl, by simp, fun _ =>
    ⟨rfl, disjointWindows_iff _, fun _ => ⟨rfl, by simp, fun _ => ⟨rfl, ?_, fun _ => trivial⟩⟩⟩⟩⟩⟩⟩
  simp only [List.all_eq_true, State.clearOfList_iff]
  exact ⟨fun h l hl u hu => h u hu l hl, fun h u hu l hl => h l hl u hu⟩

theorem State.departed_canvasChecks (s : State) (rest : List Command) (k : CanvasSetup) :
    (s.departed rest).canvasChecks k = s.canvasChecks k := by
  simp [State.canvasChecks]

/-- Settles O10: the checks of R94 say its conditions, and the setup applies or waits. -/
theorem setCanvasAppliesOrWaits : Obligations.SetCanvasAppliesOrWaits := by
  refine ⟨?_, ?_⟩
  · intro s c rest k h hk normal w1 w2 w3 h1 h2 h3 regions apart
    subst hk
    have pass := (s.canvasChecks_say c.canvasSetup).pass rfl (by
      simp only [List.forall_mem_cons, List.not_mem_nil, false_implies, implies_true, and_true]
      exact ⟨normal, ⟨w1, w2, w3, h1, h2, h3⟩, fun u hu => (regions u hu).1, fun u hu => (regions u hu).2.1, apart,
        fun u hu => (regions u hu).2.2.1, fun l hl u hu => (regions u hu).2.2.2 l hl⟩)
    have verdict : runSetCanvas c (s.departed rest) =
        if s.composer.comp.isNone then .completed 0 ((s.departed rest).applyCanvas c.canvasSetup)
        else .began ((s.departed rest).serve c.slot (.setCanvas c.canvasSetup)) := by
      rw [runSetCanvas, State.departed_canvasChecks, judged_pass pass, State.departed_composer]
    refine ⟨fun none => ?_, fun some => ?_⟩
    · rw [none] at verdict
      refine (State.startHead_completed h _ _ (ofKind_of h) verdict (State.departed_statusPending s rest)).trans ?_
      simp [State.doneWith, State.closed, State.setCode, State.applyCanvas, State.onEvents, State.onIntake,
        State.onScene, State.onBridge, State.onComposer]
    · rw [if_neg (by simpa using some)] at verdict
      exact State.startHead_began h _ _ (ofKind_of h) verdict (State.departed_statusPending s rest)
  · intro s c rest k h hk
    subst hk
    exact State.refusesIn_judged h rfl (ofKind_of h)
      (by rw [runSetCanvas, State.departed_canvasChecks]) (s.canvasChecks_say c.canvasSetup)

/-! ## SET TAKEOVER (O11) -/

/-- The upper half of a word. -/
theorem bits_high (w : Word) : bits w 16 16 = w.toNat / 2 ^ 16 :=
  Nat.mod_eq_of_lt (by have := w.isLt; omega)

/-- The checks of R156. -/
def Command.takeoverChecks (c : Command) (s : State) : List (Bool × RefusalReason) :=
  [ (s.takeover.state == .normal, .wrongState),
    (c.lineEdge.isSome && decide (bits (c.word 2) 16 16 ≤ 255), .range),
    (s.saveBaseOk (c.word 1).toNat, .range),
    (s.clearOfCanvas ⟨(c.word 1).toNat, 0x1000⟩, .overlap),
    (s.clearOfList ⟨(c.word 1).toNat, 0x1000⟩, .overlap) ]

theorem Command.takeoverChecks_say (c : Command) (s : State) :
    ChecksSay (c.takeoverChecks s)
      [ (s.takeover.state = .normal, .wrongState),
        (c.lineEdge ≠ none ∧ (c.word 2).toNat / 2 ^ 16 ≤ 255, .range),
        ((c.word 1).toNat % 0x1000 = 0 ∧ (c.word 1).toNat + 0x1000 ≤ s.cmdw, .range),
        ((∀ k, s.composer.canvas = some k →
            ∀ u ∈ k.regions, u.overlaps ⟨(c.word 1).toNat, 0x1000⟩ = false), .overlap),
        ((∀ l, s.seq.list = some l →
            l.range.overlaps ⟨(c.word 1).toNat, 0x1000⟩ = false), .overlap) ] :=
  ⟨rfl, by simp, fun _ => ⟨rfl, by simp [bits_high, Option.isSome_iff_ne_none], fun _ =>
    ⟨rfl, by simp [State.saveBaseOk], fun _ => ⟨rfl, s.clearOfCanvas_iff _, fun _ =>
      ⟨rfl, s.clearOfList_iff _, fun _ => trivial⟩⟩⟩⟩⟩

theorem runSetTakeover_departed (s : State) (rest : List Command) (c : Command) :
    runSetTakeover c (s.departed rest) = judged (c.takeoverChecks s)
      (.completed 0
        (((s.departed rest).onTakeover fun t =>
            { t with saveBase := (c.word 1).toNat, edge := c.lineEdge.getD .off
                     dim := (c.word 2).toNat / 2 ^ 16 }).onBridge
          fun b => { b with window := { b.window with saveBase := (c.word 1).toNat } })) := by
  simp [runSetTakeover, Command.takeoverChecks, State.saveBaseOk, bits_high]

/-- Settles O11: the checks of R156 say its conditions, and the values are stored. -/
theorem setTakeoverStoresItsValues : Obligations.SetTakeoverStoresItsValues := by
  refine ⟨?_, fun s c rest h => State.refusesIn_judged h rfl (ofKind_of h) (runSetTakeover_departed s rest c)
    (c.takeoverChecks_say s)⟩
  intro s c rest e base dim h normal edge hb hd small aligned below canvas list
  subst hb hd
  have pass := (c.takeoverChecks_say s).pass rfl (by
    simp only [List.forall_mem_cons, List.not_mem_nil, false_implies, implies_true, and_true]
    exact ⟨normal, ⟨by simp [edge], small⟩, ⟨aligned, below⟩, canvas, list⟩)
  have verdict := (runSetTakeover_departed s rest c).trans (judged_pass pass)
  refine (State.startHead_completed h _ _ (ofKind_of h) verdict (State.departed_statusPending s rest)).trans ?_
  simp [State.doneWith, State.closed, State.setCode, State.onEvents, State.onIntake, State.onTakeover,
    State.onBridge, edge]

/-! ## SET SLIDES (O12) -/

/-- The checks of R135. -/
def SlideList.checks (l : SlideList) (s : State) : List (Bool × RefusalReason) :=
  [ (s.takeover.state != .menuOver, .suspended),
    (s.seq.state == .stopped, .wrongState),
    (decide (1 ≤ l.count) && decide (l.count ≤ 256) && decide (l.slotA < 48) && decide (l.slotB < 48)
      && l.slotA != l.slotB, .range),
    (l.base % 64 == 0 && decide (l.base + l.count * 64 ≤ s.cmdw), .range),
    (s.listClear l, .overlap) ]

theorem SlideList.checks_say (l : SlideList) (s : State) :
    ChecksSay (l.checks s)
      [ (s.takeover.state ≠ .menuOver, .suspended),
        (s.seq.state = .stopped, .wrongState),
        (1 ≤ l.count ∧ l.count ≤ 256 ∧ l.slotA < 48 ∧ l.slotB < 48 ∧ l.slotA ≠ l.slotB, .range),
        (l.base % 64 = 0 ∧ l.base + l.count * 64 ≤ s.cmdw, .range),
        ((∀ k, s.composer.canvas = some k →
            ∀ u ∈ k.regions, u.overlaps ⟨l.base, l.count * 64⟩ = false), .overlap) ] :=
  ⟨rfl, by simp, fun _ => ⟨rfl, by simp, fun _ => ⟨rfl, by simp [and_assoc], fun _ => ⟨rfl, by simp, fun _ =>
    ⟨rfl, s.clearOfCanvas_iff l.range, fun _ => trivial⟩⟩⟩⟩⟩

theorem runSetSlides_departed (s : State) (rest : List Command) (c : Command) :
    runSetSlides c (s.departed rest) = judged (c.slideList.checks s)
      (.completed 0
        (((s.departed rest).onSeq fun q =>
            { q with list := some c.slideList, ready := Vector.replicate 256 false }).onBridge
          fun b => { b with window := { b.window with slides := some c.slideList.range } })) := by
  simp [runSetSlides, SlideList.checks, State.listClear]

/-- Settles O12: the checks of R135 say its conditions, and the list is replaced. -/
theorem setSlidesReplacesTheList : Obligations.SetSlidesReplacesTheList := by
  refine ⟨?_, ?_⟩
  · intro s c rest l h hl notOver stopped n1 n2 a b ab aligned below canvas
    subst hl
    have pass := (c.slideList.checks_say s).pass rfl (by
      simp only [List.forall_mem_cons, List.not_mem_nil, false_implies, implies_true, and_true]
      exact ⟨notOver, stopped, ⟨n1, n2, a, b, ab⟩, ⟨aligned, below⟩, canvas⟩)
    have verdict := (runSetSlides_departed s rest c).trans (judged_pass pass)
    refine (State.startHead_completed h _ _ (ofKind_of h) verdict (State.departed_statusPending s rest)).trans ?_
    simp [State.doneWith, State.closed, State.setCode, State.onEvents, State.onIntake, State.onSeq, State.onBridge,
      SlideList.range]
  · intro s c rest l h hl
    subst hl
    exact State.refusesIn_judged h rfl (ofKind_of h) (runSetSlides_departed s rest c) (c.slideList.checks_say s)

/-! ## LOAD PALETTE (O20) -/

/-- The checks of R57. -/
def Command.paletteChecks (c : Command) (s : State) : List (Bool × RefusalReason) :=
  [ (decide (c.smallLow ≤ 3), .range),
    (decide (1 ≤ bits (c.word 1) 0 16) && decide (bits (c.word 1) 0 16 ≤ 256)
      && decide (c.smallHigh + bits (c.word 1) 0 16 ≤ 256), .range),
    ((c.word 2).toNat % 4 == 0, .range),
    (decide ((c.word 2).toNat + bits (c.word 1) 0 16 * 4 ≤ s.cmdw), .range) ]

/-- The lower half of a word. -/
theorem bits_low (w : Word) : bits w 0 16 = w.toNat % 2 ^ 16 := by simp [bits]

theorem Command.paletteChecks_say (c : Command) (s : State) :
    ChecksSay (c.paletteChecks s)
      [ (c.smallLow ≤ 3, .range),
        (1 ≤ (c.word 1).toNat % 2 ^ 16 ∧ (c.word 1).toNat % 2 ^ 16 ≤ 256
          ∧ c.smallHigh + (c.word 1).toNat % 2 ^ 16 ≤ 256, .range),
        ((c.word 2).toNat % 4 = 0, .range),
        ((c.word 2).toNat + (c.word 1).toNat % 2 ^ 16 * 4 ≤ s.cmdw, .range) ] := by
  rw [← bits_low]
  exact ⟨rfl, by simp, fun _ => ⟨rfl, by simp [and_assoc], fun _ => ⟨rfl, by simp, fun _ =>
    ⟨rfl, by simp, fun _ => trivial⟩⟩⟩⟩

theorem runLoadPalette_departed (s : State) (rest : List Command) (c : Command) :
    runLoadPalette c (s.departed rest) = judged (c.paletteChecks s)
      (.began
        ((((s.departed rest).serve c.slot .loadPalette).onScene fun sc =>
          { sc with load := some ⟨c.smallLow, c.smallHigh, (c.word 1).toNat % 2 ^ 16, [], false⟩ }).startFetch
            .palette (c.word 2).toNat ((c.word 1).toNat % 2 ^ 16))) := by
  rw [← bits_low]
  simp only [runLoadPalette, Command.paletteChecks, State.departed_cmdw]

/-- Settles O20: the checks of R57 say its conditions, and the palette read starts. -/
theorem loadPaletteStartsItsRead : Obligations.LoadPaletteStartsItsRead := by
  refine ⟨?_, ?_⟩
  · intro s c rest count source h small hcount hsource n1 n2 fits aligned below
    subst hcount hsource
    have pass := (c.paletteChecks_say s).pass rfl (by
      simp only [List.forall_mem_cons, List.not_mem_nil, false_implies, implies_true, and_true]
      exact ⟨small, ⟨n1, n2, fits⟩, aligned, below⟩)
    have verdict := (runLoadPalette_departed s rest c).trans (judged_pass pass)
    refine (State.startHead_began h _ _ (ofKind_of h) verdict (State.departed_statusPending s rest)).trans ?_
    simp [State.servedWith, State.closed, State.serve, State.startFetch, State.onEvents, State.onIntake,
      State.onScene, State.onBridge]
  · intro s c rest count h hcount
    subst hcount
    exact State.refusesIn_judged h rfl (ofKind_of h) (runLoadPalette_departed s rest c) (c.paletteChecks_say s)

/-! ## OPEN PAGE (O31) -/

/-- The condition of R114 on a page address. -/
theorem pageAddrOk_iff (cmdw addr : Nat) : pageAddrOk cmdw addr = true ↔ addr % 4 = 0 ∧ addr + 784 ≤ cmdw := by
  simp only [pageAddrOk, Bool.and_eq_true, beq_iff_eq, decide_eq_true_eq]
  rfl

theorem State.settlePage_statusPending (s : State) (cause : Cause) (addr saved : Nat) (bytes : List Byte)
    (fromBuffer : Bool) (slot : Nat) :
    (s.settlePage cause addr saved bytes fromBuffer slot).1.events.statusPending = s.events.statusPending := by
  unfold State.settlePage
  split
  · unfold State.rejectPage
    cases cause <;> simp
  · unfold State.installPage
    dsimp only
    rw [State.raise_statusPending, show State.events (State.dressPage ..) = _ from
      State.dressPage_frame _ _ _ _ _ .events (by simp)]
    rfl

/-- An opening ends with a code or goes into service; it is never refused (R114). -/
theorem State.openPage_cases (s : State) (cause : Cause) (addr saved slot : Nat) :
    (∃ code t, s.openPage cause addr saved slot = .completed code t
        ∧ t.events.statusPending = s.events.statusPending)
      ∨ ∃ t, s.openPage cause addr saved slot = .began t ∧ t.events = s.events := by
  unfold State.openPage
  split
  · exact .inl ⟨_, _, rfl, State.settlePage_statusPending ..⟩
  · split
    · exact .inr ⟨_, rfl, rfl⟩
    · exact .inr ⟨_, rfl, rfl⟩

/-- OPEN PAGE whose address passes opens its page. -/
theorem execOpenPage_opens (h : s.Starts c rest .openPage) (ok : pageAddrOk s.cmdw (c.word 1).toNat = true) :
    exec .openPage s = .next ((s.departed rest).opening .command (c.word 1).toNat 0 c.slot).closed := by
  have verdict : runOpenPage c (s.departed rest) =
      (s.departed rest).openPage .command (c.word 1).toNat 0 c.slot :=
    judged_pass (by simp [ok])
  have pending := State.departed_statusPending s rest
  unfold State.opening
  rcases State.openPage_cases (s.departed rest) .command (c.word 1).toNat 0 c.slot with
    ⟨code, t, ht, hp⟩ | ⟨t, ht, he⟩
  · rw [ht]
    exact State.startHead_completed h _ _ (ofKind_of h) (verdict.trans ht) (hp.trans pending)
  · rw [ht]
    exact State.startHead_began h _ _ (ofKind_of h) (verdict.trans ht) (by rw [he, pending])

theorem State.opening_buffered {cause : Cause} {addr saved slot : Nat} {b : PrefetchBuffer}
    (hb : s.nav.buffer = some b) (ha : b.addr = addr) :
    s.opening cause addr saved slot = ((s.settlePage cause addr saved b.bytes true slot).1).setCode
      (s.settlePage cause addr saved b.bytes true slot).2 := by
  have found : s.nav.buffer.filter (·.addr == addr) = some b := by simp [hb, ha, Option.filter]
  simp only [State.opening, State.openPage, found]

/-- No buffer of the address. -/
theorem State.buffer_filter_none {addr : Nat} (h : ∀ b, s.nav.buffer = some b → b.addr ≠ addr) :
    s.nav.buffer.filter (·.addr == addr) = none := by
  simpa [Option.filter_eq_none_iff] using h

theorem State.opening_inflight {cause : Cause} {addr saved slot : Nat}
    (hb : ∀ b, s.nav.buffer = some b → b.addr ≠ addr) (hf : s.nav.inflight = some ⟨addr, false⟩) :
    s.opening cause addr saved slot =
      { s with intake := { s.intake with inService := some ⟨slot, .openPage cause addr saved true⟩ } } := by
  have found : s.nav.inflight.filter (fun f => f.addr == addr && !f.stale) = some ⟨addr, false⟩ := by
    simp [hf, Option.filter]
  simp only [State.opening, State.openPage, State.buffer_filter_none hb, found]
  rfl

theorem State.opening_reads {cause : Cause} {addr saved slot : Nat}
    (hb : ∀ b, s.nav.buffer = some b → b.addr ≠ addr) (hf : s.nav.inflight ≠ some ⟨addr, false⟩) :
    s.opening cause addr saved slot =
      { s with
        intake := { s.intake with inService := some ⟨slot, .openPage cause addr saved false⟩ }
        bridge := { s.bridge with fetch := s.bridge.fetch ++ [⟨.page, addr, 196, 0, []⟩] } } := by
  have stale : s.nav.inflight.filter (fun f => f.addr == addr && !f.stale) = none := by
    rw [Option.filter_eq_none_iff]
    rintro ⟨a, old⟩ hg
    rw [hg] at hf
    cases old <;> simp_all
  simp only [State.opening, State.openPage, State.buffer_filter_none hb, stale]
  rfl

/-- Settles O31: the three sources of R115 in order, and the check of R114. -/
theorem openPageTakesTheFirstSource : Obligations.OpenPageTakesTheFirstSource := by
  refine ⟨⟨?_, fun s cause addr saved slot => ?_⟩, ?_⟩
  · intro s c rest addr h ha aligned below
    subst ha
    exact execOpenPage_opens h ((pageAddrOk_iff _ _).mpr ⟨aligned, below⟩)
  · exact ⟨fun b hb ha => State.opening_buffered hb ha,
      fun hb => ⟨fun hf => State.opening_inflight hb hf, fun hf => State.opening_reads hb hf⟩⟩
  · intro s c rest h
    have verdict : runOpenPage c (s.departed rest) = judged [(pageAddrOk s.cmdw (c.word 1).toNat, .range)]
        ((s.departed rest).openPage .command (c.word 1).toNat 0 c.slot) := by
      simp only [runOpenPage, State.departed_cmdw]
    exact State.refusesIn_judged h rfl (ofKind_of h) verdict ⟨rfl, pageAddrOk_iff _ _, fun _ => trivial⟩

end Sys2Proof.Machine

/-!
PROOF. O33 and O35: the ends of a page read and of a prefetch read.
-/

namespace Sys2Proof.Machine

variable {s : State}

/-! ## The end of a fetch operation (R20) -/

theorem State.atEnd_busy {e : BurstEnd} (h : s.bridge.busy = some e) (f : State → State) :
    s.atEnd e f = f s.free := by simp [State.atEnd, h]

theorem State.free_endFetch (s : State) (kind : FetchKind) : s.free.endFetch kind =
    { s with bridge := { s.bridge with fetch := s.bridge.fetch.filter (·.kind != kind), busy := none } } := rfl

theorem State.free_fetched {kind : FetchKind} {op : FetchOp} (h : s.bridge.fetchOf kind = some op) :
    s.free.fetched kind = op.data := by
  have found : s.free.bridge.fetchOf kind = some op := h
  simp [State.fetched, found]

/-- The step of the end of a fetch operation's last burst. -/
theorem State.event_fetchEnd (h : s.Settled) {kind : FetchKind} (hb : s.bridge.busy = some (.fetch kind))
    (f : State → State) : s.event (fun t => t.atEnd (.fetch kind) f) = .next ((f s.free).endStep s) := by
  rw [State.event_settled h, State.atEnd_busy hb]

/-! ## The page read (O33) -/

theorem State.pageRead_serving {slot addr saved : Nat} {cause : Cause} {awaits : Bool}
    (h : s.intake.inService = some ⟨slot, .openPage cause addr saved awaits⟩) (bytes : List Byte) :
    s.pageRead bytes = (s.settlePage cause addr saved bytes false slot).1.complete
      (s.settlePage cause addr saved bytes false slot).2 := by
  simp only [State.pageRead, h]

/-- Settles O33: the command in service takes the 784 bytes that the ended read has fetched. -/
theorem pageReadEndSettlesThePage : Obligations.PageReadEndSettlesThePage := by
  intro s u slot addr saved cause awaits op settled busy fetched serving hu
  have serving' : u.intake.inService = some ⟨slot, .openPage cause addr saved awaits⟩ := by rw [hu]; exact serving
  refine (State.event_fetchEnd settled busy _).trans ?_
  rw [State.free_endFetch, State.free_fetched fetched, ← hu, State.pageRead_serving serving']

/-! ## The prefetch read (O35) -/

theorem State.nextPrefetch_eq (s : State) (h : s.nav.inflight = none) : s.nextPrefetch =
    { s with
      nav := { s.nav with inflight := s.nav.waiting.map (⟨·, false⟩), waiting := none }
      bridge :=
        { s.bridge with
          fetch := s.bridge.fetch ++
            match s.nav.waiting with
            | some a => [⟨.prefetch, a, 196, 0, []⟩]
            | none => [] } } := by
  unfold State.nextPrefetch
  cases hw : s.nav.waiting with
  | none =>
    obtain ⟨_, _, _, _, _, _, _, _, _, ⟨_, _, _, _, _, _⟩, _, _, _⟩ := s
    simp only at h hw
    subst h hw
    simp
  | some a => rfl

/-- No command waits on the prefetch that has ended. -/
def State.noneAwaits (s : State) : Prop :=
  ∀ slot cause addr saved, s.intake.inService ≠ some ⟨slot, .openPage cause addr saved true⟩

theorem State.ownPageRead_idle (h : s.noneAwaits) : s.ownPageRead = s := by
  unfold State.ownPageRead
  split
  · rename_i hs
    exact absurd hs (h _ _ _ _)
  · rfl

theorem State.takeBuffer_idle (h : s.noneAwaits) (bytes : List Byte) : s.takeBuffer bytes = s := by
  unfold State.takeBuffer
  split
  · rename_i hs
    exact absurd hs (h _ _ _ _)
  · rfl

section
variable {slot addr saved : Nat} {cause : Cause}

theorem State.ownPageRead_awaiting (h : s.intake.inService = some ⟨slot, .openPage cause addr saved true⟩) :
    s.ownPageRead =
      { s with
        intake := { s.intake with inService := some ⟨slot, .openPage cause addr saved false⟩ }
        bridge := { s.bridge with fetch := s.bridge.fetch ++ [⟨.page, addr, 196, 0, []⟩] } } := by
  simp only [State.ownPageRead, h]
  rfl

theorem State.takeBuffer_awaiting (h : s.intake.inService = some ⟨slot, .openPage cause addr saved true⟩)
    (bytes : List Byte) :
    s.takeBuffer bytes = (s.settlePage cause addr saved bytes true slot).1.complete
      (s.settlePage cause addr saved bytes true slot).2 := by
  simp only [State.takeBuffer, h]

end

/-- The prefetch read has left the list, and the buffer is filled by a fresh one; what follows from it is still to
come (R130). -/
def State.prefetched (s : State) (f : Prefetch) (bytes : List Byte) : State :=
  { s with
    nav := { s.nav with buffer := if f.stale then s.nav.buffer else some ⟨f.addr, bytes⟩, inflight := none }
    bridge := { s.bridge with fetch := s.bridge.fetch.filter (·.kind != .prefetch), busy := none } }

theorem State.prefetchRead_eq (s : State) (f : Prefetch) (bytes : List Byte) (pageFirst : Bool) :
    (s.free.endFetch .prefetch).prefetchRead f bytes pageFirst =
      if f.stale then
        if pageFirst then (s.prefetched f bytes).ownPageRead.nextPrefetch
        else (s.prefetched f bytes).nextPrefetch.ownPageRead
      else (s.prefetched f bytes).nextPrefetch.takeBuffer bytes := by
  unfold State.prefetchRead
  cases old : f.stale with
  | true =>
    have left : (s.free.endFetch .prefetch).onNav (fun v => { v with inflight := none }) = s.prefetched f bytes := by
      simp only [State.prefetched, old]
      rfl
    simp only [left, if_true]
  | false =>
    have filled : ((s.free.endFetch .prefetch).onNav (fun v => { v with inflight := none })).onNav
        (fun v => { v with buffer := some ⟨f.addr, bytes⟩ }) = s.prefetched f bytes := by
      simp only [State.prefetched, old]
      rfl
    simp only [filled, Bool.false_eq_true, if_false]

/-- The step of the end of a prefetch read. -/
theorem execPrefetchReadEnd_eq {f : Prefetch} {op : FetchOp} {pageFirst : Bool} (settled : s.Settled)
    (busy : s.bridge.busy = some (.fetch .prefetch)) (fetched : s.bridge.fetchOf .prefetch = some op)
    (inflight : s.nav.inflight = some f) :
    exec (.prefetchReadEnd pageFirst) s =
      .next ((((s.free.endFetch .prefetch).prefetchRead f op.data pageFirst).drainStep).endStep s) := by
  have inflight' : s.free.nav.inflight = some f := inflight
  refine (State.event_fetchEnd settled busy _).trans ?_
  rw [inflight', State.free_fetched fetched]

/-- Settles O35: the buffer is filled or the read discarded, the pending prefetch starts, and a waiting command takes
the buffer or starts its own read. -/
theorem prefetchReadEndFillsTheBuffer : Obligations.PrefetchReadEndFillsTheBuffer := by
  intro s u f op pageFirst settled busy fetched inflight fetch next hu
  have after : (s.prefetched f op.data).nextPrefetch = u := by
    rw [State.nextPrefetch_eq _ rfl, hu]
    rfl
  rw [execPrefetchReadEnd_eq settled busy fetched inflight, State.prefetchRead_eq, after]
  refine ⟨fun idle => ?_, fun slot cause addr saved awaiting => ⟨fun fresh => ?_, fun stale => ?_⟩⟩
  · have own : (s.prefetched f op.data).ownPageRead = s.prefetched f op.data := State.ownPageRead_idle idle
    have idle' : u.noneAwaits := by rw [hu]; exact idle
    rw [own, after, State.ownPageRead_idle idle', State.takeBuffer_idle idle', ite_self, ite_self]
  · have awaiting' : u.intake.inService = some ⟨slot, .openPage cause addr saved true⟩ := by rw [hu]; exact awaiting
    rw [fresh, State.takeBuffer_awaiting awaiting']
    rfl
  · have awaiting' : u.intake.inService = some ⟨slot, .openPage cause addr saved true⟩ := by rw [hu]; exact awaiting
    have own := State.ownPageRead_awaiting (s := s.prefetched f op.data) awaiting
    rw [own, State.ownPageRead_awaiting awaiting', stale, State.nextPrefetch_eq _ rfl, hu]
    cases pageFirst <;> rfl

end Sys2Proof.Machine

/-!
PROOF. O51: the controller side of the Bridge takes a request and classifies it.
-/

namespace Sys2Proof.Machine

variable {s : State}

/-! ## Taking a request (R3) -/

theorem execControllerRequest_settled {r : Request} (wf : r.wf = true) (h : s.Settled) :
    exec (.controllerRequest r) s = .next ((s.takeRequest r).endStep s) := by
  show execControllerRequest r s = _
  rw [execControllerRequest, if_pos wf, State.event_settled h]

theorem State.takeRequest_ready (h : s.bridge.side = .ready) (r : Request) : s.takeRequest r = s.accept r := by
  simp only [State.takeRequest, h]

theorem State.takeRequest_busy (h : s.bridge.side ≠ .ready) (r : Request) :
    s.takeRequest r = { s with bridge := { s.bridge with waiting := s.bridge.waiting ++ [r] } } := by
  unfold State.takeRequest
  split
  · rename_i ready
    exact absurd ready h
  · rfl
  · rfl

theorem State.acceptWaiting_ready (h : s.bridge.side = .ready) (r : Request) (rest : List Request) :
    s.acceptWaiting (r :: rest) =
      (State.accept { s with bridge := { s.bridge with waiting := rest } } r).acceptWaiting rest := by
  conv_lhs => unfold State.acceptWaiting
  split
  · rfl
  · rename_i forwarding
    simp [forwarding] at h
  · rename_i holding
    simp [holding] at h

theorem State.acceptWaiting_busy (h : s.bridge.side ≠ .ready) (r : Request) (rest : List Request) :
    s.acceptWaiting (r :: rest) = s := by
  unfold State.acceptWaiting
  split
  · rename_i ready
    exact absurd ready h
  · rfl
  · rfl

/-! ## A write by its address (R8, R10, R11) -/

section
variable {a : Word} {ls : List Lane} {addr : Nat}

theorem State.accept_write (h : addr = a.toNat % s.bridge.memSize) : s.accept (.write a ls) =
    if addr < s.cmdw then s.forward (.write addr ls)
    else if addr < s.cmdw + 0x800 then s.commandAt addr (addr - s.cmdw) ls
    else if addr < s.cmdw + 0xC00 then s.judgeGuard .ring addr ls.length
    else if addr < s.cmdw + 0xC40 then s.statusAt addr (addr - s.cmdw) ls
    else s.forward (.write addr ls) := by
  subst h
  rfl

theorem State.accept_outside (h : addr = a.toNat % s.bridge.memSize)
    (out : addr < s.cmdw ∨ s.cmdw + 0xC40 ≤ addr) : s.accept (.write a ls) = s.forward (.write addr ls) := by
  rw [State.accept_write h]
  rcases out with below | above
  · rw [if_pos below]
  · rw [if_neg (by omega), if_neg (by omega), if_neg (by omega), if_neg (by omega)]

theorem State.accept_command (h : addr = a.toNat % s.bridge.memSize) (lo : s.cmdw ≤ addr)
    (hi : addr < s.cmdw + 0x800) : s.accept (.write a ls) = s.commandAt addr (addr - s.cmdw) ls := by
  rw [State.accept_write h, if_neg (by omega), if_pos hi]

theorem State.accept_ring (h : addr = a.toNat % s.bridge.memSize) (lo : s.cmdw + 0x800 ≤ addr)
    (hi : addr < s.cmdw + 0xC00) : s.accept (.write a ls) = s.judgeGuard .ring addr ls.length := by
  rw [State.accept_write h, if_neg (by omega), if_neg (by omega), if_pos hi]

theorem State.accept_status (h : addr = a.toNat % s.bridge.memSize) (lo : s.cmdw + 0xC00 ≤ addr)
    (hi : addr < s.cmdw + 0xC40) : s.accept (.write a ls) = s.statusAt addr (addr - s.cmdw) ls := by
  rw [State.accept_write h, if_neg (by omega), if_neg (by omega), if_neg (by omega), if_pos hi]

end

/-! ## The command area (R11, R12, R23) -/

section
variable {addr off : Nat} {first : Lane} {more : List Lane}

theorem State.commandAt_stray {reason : StrayReason} {lanes : List Lane} (h : strayTest off lanes = some reason) :
    s.commandAt addr off lanes =
      (s.raise (.strayWrite reason addr lanes.length) (some (off / 32))).forward (.write addr lanes) := by
  simp only [State.commandAt, h]

theorem strayTest_alignment (h : off % 32 ≠ 0) : strayTest off (first :: more) = some .alignment := by
  simp [strayTest, h]

theorem strayTest_enables (h : off % 32 = 0) (he : first.enables ≠ 15) :
    strayTest off (first :: more) = some .enables := by
  simp only [strayTest, h, List.headD_cons, ne_eq, not_true_eq_false, if_false]
  exact if_pos he

theorem strayTest_length (h : off % 32 = 0) (he : first.enables = 15)
    (hl : headerLength first.data ≠ (first :: more).length) : strayTest off (first :: more) = some .length := by
  simp only [strayTest, h, List.headD_cons, he, ne_eq, not_true_eq_false, if_false]
  exact if_pos hl

theorem strayTest_none (h : off % 32 = 0) (he : first.enables = 15)
    (hl : headerLength first.data = (first :: more).length) : strayTest off (first :: more) = none := by
  simp only [strayTest, h, List.headD_cons, he, hl, ne_eq, not_true_eq_false, if_false]

theorem State.commandAt_queued {lanes : List Lane} (h : strayTest off lanes = none)
    (room : s.intake.queue.length < 16) : s.commandAt addr off lanes =
      { s with
        intake :=
          { s.intake with
            queue := s.intake.queue ++ [⟨off / 32, lanes.map (·.data)⟩]
            inRun := s.intake.inRun && decide (s.intake.queue ≠ []) }
        events := { s.events with statusPending := true }
        bridge := { s.bridge with side := .forwarding (.write addr lanes) } } := by
  have nonempty : (!s.intake.queue.isEmpty) = decide (s.intake.queue ≠ []) := by
    cases s.intake.queue <;> simp
  simp only [State.commandAt, h]
  rw [if_pos (show s.intake.queue.length < Config.queueCapacity from room), ← nonempty]
  rfl

theorem State.commandAt_held {lanes : List Lane} (h : strayTest off lanes = none)
    (full : 16 ≤ s.intake.queue.length) : s.commandAt addr off lanes =
      { s with bridge := { s.bridge with side := .holding addr lanes (off / 32) 0 } } := by
  simp only [State.commandAt, h]
  rw [if_neg (show ¬ s.intake.queue.length < Config.queueCapacity from Nat.not_lt.mpr full)]
  rfl

end

/-! ## Guards (R10) and the status block (R8) -/

theorem State.judgeGuard_set (h : s.events.guard = true) (area : GuardArea) (addr n : Nat) :
    s.judgeGuard area addr n = s := by simp [State.judgeGuard, h]

theorem State.judgeGuard_clear (h : s.events.guard = false) (area : GuardArea) (addr n : Nat) :
    s.judgeGuard area addr n =
      (s.raise (.guard area addr n) none).onEvents fun e => { e with guard := true } := by
  simp [State.judgeGuard, h]

/-- The lanes of a burst stand four bytes apart. -/
theorem mem_laneOffsets {off o : Nat} {ls : List Lane} {l : Lane} :
    (o, l) ∈ laneOffsets off ls ↔ ∃ i : Nat, ls[i]? = some l ∧ o = off + 4 * i := by
  induction ls generalizing off with
  | nil => simp [laneOffsets]
  | cons x xs ih =>
    simp only [laneOffsets, List.mem_cons, Prod.mk.injEq, ih]
    constructor
    · rintro (⟨rfl, rfl⟩ | ⟨i, hi, rfl⟩)
      · exact ⟨0, rfl, rfl⟩
      · exact ⟨i + 1, by simpa using hi, by omega⟩
    · rintro ⟨_ | i, hi, rfl⟩
      · exact .inl ⟨rfl, by simpa using hi.symm⟩
      · exact .inr ⟨i, by simpa using hi, by omega⟩

theorem isConsumerLane_iff (o : Nat) (l : Lane) : isConsumerLane o l = true ↔ o = 0xC04 ∧ l.enables = 15 := by
  simp [isConsumerLane, consumerOffset]

/-- A lane is the consumer part of a burst at an offset. -/
def ConsumerAt (off : Nat) (ls : List Lane) (i : Nat) (x : Lane) : Prop :=
  ls[i]? = some x ∧ off + 4 * i = 0xC04 ∧ x.enables = 15

/-- A burst has at most one consumer part, and the split finds it. -/
theorem find_consumer {off i : Nat} {ls : List Lane} {x : Lane} (h : ConsumerAt off ls i x) :
    (laneOffsets off ls).find? (fun (o, l) => isConsumerLane o l) = some (0xC04, x) := by
  obtain ⟨hi, ho, he⟩ := h
  cases hf : (laneOffsets off ls).find? (fun (o, l) => isConsumerLane o l) with
  | none =>
    have := List.find?_eq_none.mp hf (0xC04, x) (mem_laneOffsets.mpr ⟨i, hi, ho.symm⟩)
    exact absurd ((isConsumerLane_iff _ _).mpr ⟨rfl, he⟩) this
  | some p =>
    obtain ⟨o, l⟩ := p
    have found := List.find?_some hf
    obtain ⟨rfl, -⟩ := (isConsumerLane_iff o l).mp found
    obtain ⟨j, hj, hoj⟩ := mem_laneOffsets.mp (List.mem_of_find?_eq_some hf)
    obtain rfl : j = i := by omega
    rw [hi] at hj
    rw [Option.some.inj hj]

theorem find_no_consumer {off : Nat} {ls : List Lane} (h : ∀ i x, ¬ ConsumerAt off ls i x) :
    (laneOffsets off ls).find? (fun (o, l) => isConsumerLane o l) = none := by
  rw [List.find?_eq_none]
  rintro ⟨o, l⟩ hm hc
  obtain ⟨i, hi, rfl⟩ := mem_laneOffsets.mp hm
  obtain ⟨ho, he⟩ := (isConsumerLane_iff _ _).mp hc
  exact h i l ⟨hi, ho, he⟩

/-- Some enabled lane of a burst is not the consumer part. -/
def OtherLanes (off : Nat) (ls : List Lane) : Prop :=
  ∃ i x, ls[i]? = some x ∧ x.enables ≠ 0 ∧ ¬ (off + 4 * i = 0xC04 ∧ x.enables = 15)

theorem discarded_iff (off : Nat) (ls : List Lane) :
    ((laneOffsets off ls).any fun (o, l) => !isConsumerLane o l && l.enables != 0) = true ↔ OtherLanes off ls := by
  simp only [List.any_eq_true, Bool.and_eq_true, Bool.not_eq_true', bne_iff_ne]
  constructor
  · rintro ⟨⟨o, l⟩, hm, hc, he⟩
    obtain ⟨i, hi, rfl⟩ := mem_laneOffsets.mp hm
    exact ⟨i, l, hi, he, fun both => by simp [(isConsumerLane_iff _ _).mpr both] at hc⟩
  · rintro ⟨i, x, hi, he, hc⟩
    refine ⟨(off + 4 * i, x), mem_laneOffsets.mpr ⟨i, hi, rfl⟩, ?_, he⟩
    rw [← Bool.not_eq_true]
    exact fun both => hc ((isConsumerLane_iff _ _).mp both)

/-- What the discarded part of a status write leaves (R8, R10). -/
def State.statusGuarded (s : State) (addr off : Nat) (lanes : List Lane) : State :=
  if (laneOffsets off lanes).any fun (o, l) => !isConsumerLane o l && l.enables != 0 then
    s.judgeGuard .status addr lanes.length
  else s

theorem State.statusGuarded_others {addr off : Nat} {ls : List Lane} (h : OtherLanes off ls) :
    s.statusGuarded addr off ls = s.judgeGuard .status addr ls.length := if_pos ((discarded_iff off ls).mpr h)

theorem State.statusGuarded_none {addr off : Nat} {ls : List Lane} (h : ¬ OtherLanes off ls) :
    s.statusGuarded addr off ls = s := if_neg fun d => h ((discarded_iff off ls).mp d)

theorem State.statusAt_consumer {addr off i : Nat} {ls : List Lane} {x : Lane} (h : ConsumerAt off ls i x) :
    s.statusAt addr off ls = (s.statusGuarded addr off ls).forward (.write (s.cmdw + 0xC04) [x]) := by
  simp only [State.statusAt, find_consumer h]
  rfl

theorem State.statusAt_discarded {addr off : Nat} {ls : List Lane} (h : ∀ i x, ¬ ConsumerAt off ls i x) :
    s.statusAt addr off ls = s.statusGuarded addr off ls := by
  simp only [State.statusAt, find_no_consumer h]
  rfl

/-! ## The hold limit (R13, R24) -/

section
variable {a n k : Nat} {ls : List Lane}

theorem State.dropHeld_early (h : s.bridge.side = .holding a ls n k) (hk : k < 2047) : s.dropHeld = s := by
  have below : k + 1 < Config.holdLimit := Nat.succ_lt_succ hk
  simp [State.dropHeld, h, below]

theorem State.dropHeld_limit (h : s.bridge.side = .holding a ls n k) (hk : 2047 ≤ k)
    (full : 16 ≤ s.intake.queue.length) :
    s.dropHeld =
      ((s.raise (.intakeDrop (commandOf n ls).kind (commandOf n ls).header s.serviceSlot) (some n)).onEvents
        fun e => { e with intakeDrop := true }).forward (.write a ls) := by
  have reached : ¬ k + 1 < Config.holdLimit := by
    rw [Config.holdLimit]
    omega
  have noRoom : ¬ s.intake.queue.length < Config.queueCapacity := Nat.not_lt.mpr full
  simp [State.dropHeld, h, reached, noRoom]

end

/-! ## O51 -/

/-- Settles O51: each clause is the equation of the Bridge's operation in that case. -/
theorem controllerRequestIsClassified : Obligations.ControllerRequestIsClassified := by
  refine ⟨fun r s wf => ?_, fun r s wf settled busy => ?_, fun r s wf settled ready => ?_, fun s r rest => ?_,
    fun a es s wf settled ready => ?_, fun a first more s addr off wf settled ready haddr hoff => ?_,
    fun s a ls n k settled held full => ?_⟩
  · show execControllerRequest r s = _
    simp [execControllerRequest, wf]
  · rw [execControllerRequest_settled wf settled, State.takeRequest_busy busy]
    exact congrArg _ (State.endStep_of_status rfl)
  · rw [execControllerRequest_settled wf settled, State.takeRequest_ready ready]
  · exact ⟨rfl, fun ready => State.acceptWaiting_ready ready r rest, fun busy => State.acceptWaiting_busy busy r rest⟩
  · rw [execControllerRequest_settled wf settled, State.takeRequest_ready ready]
    exact congrArg _ (State.endStep_of_status rfl)
  · intro ls forwarded gives guarded stray
    have taken (t : State) (h : s.accept (.write a ls) = t) : gives t := by
      show exec _ s = _
      rw [execControllerRequest_settled wf settled, State.takeRequest_ready ready, h]
    have guards (area : GuardArea) : guarded area (s.judgeGuard area addr ls.length) :=
      ⟨fun set => State.judgeGuard_set set _ _ _, fun clear => State.judgeGuard_clear clear _ _ _⟩
    refine ⟨fun out => taken _ (State.accept_outside haddr out), fun lo hi => ?_, fun lo hi => ?_, fun lo hi => ?_⟩
    · have command : s.accept (.write a ls) = s.commandAt addr off ls := hoff ▸ State.accept_command haddr lo hi
      have strays (reason : StrayReason) (h : strayTest off ls = some reason) : stray reason :=
        taken _ (command.trans (State.commandAt_stray h))
      refine ⟨fun h => strays _ (strayTest_alignment h), fun h he => strays _ (strayTest_enables h he),
        fun h he hl => strays _ (strayTest_length h he hl), fun h he hl => ⟨fun room => ?_, fun full => ?_⟩⟩
      · exact taken _ (command.trans (State.commandAt_queued (strayTest_none h he hl) room))
      · exact taken _ (command.trans (State.commandAt_held (strayTest_none h he hl) full))
    · exact ⟨_, taken _ (State.accept_ring haddr lo hi), guards .ring⟩
    · intro consumer others
      have status : s.accept (.write a ls) = s.statusAt addr off ls := hoff ▸ State.accept_status haddr lo hi
      refine ⟨s.statusGuarded addr off ls, fun h => ?_, State.statusGuarded_none,
        fun i x h => taken _ (status.trans (State.statusAt_consumer h)),
        fun h => taken _ (status.trans (State.statusAt_discarded h))⟩
      rw [State.statusGuarded_others h]
      exact guards .status
  · refine ⟨fun hk => ?_, fun hk => ?_⟩
    · refine (State.event_settled settled State.dropHeld).trans ?_
      rw [State.dropHeld_early held hk, State.endStep_of_status rfl]
    · refine (State.event_settled settled State.dropHeld).trans ?_
      rw [State.dropHeld_limit held hk full]
      rfl

end Sys2Proof.Machine

/-!
PROOF. O53: the arbiter's internal grant follows the priority of the classes and the COMPOSE count.
-/

namespace Sys2Proof.Machine

variable {s : State}

/-! ## The choice of the arbiter (R17 to R19) -/

theorem State.forwardedWaits_iff (s : State) : s.forwardedWaits = true ↔ ∃ f, s.bridge.side = .forwarding f := by
  unfold State.forwardedWaits
  split
  · rename_i f forwarding
    exact ⟨fun _ => ⟨f, forwarding⟩, fun _ => rfl⟩
  · rename_i other
    exact ⟨fun h => (Bool.false_ne_true h).elim, fun ⟨f, h⟩ => (other f h).elim⟩

theorem State.internalTurn_iff (s : State) : s.internalTurn = true ↔
    s.bridge.busy = none
      ∧ ((∀ f, s.bridge.side ≠ .forwarding f) ∨ s.bridge.streak = 3 ∨ s.bridge.passed = true) := by
  have waits : s.forwardedWaits = false ↔ ∀ f, s.bridge.side ≠ .forwarding f := by
    rw [← Bool.not_eq_true, State.forwardedWaits_iff, not_exists]
  simp [State.internalTurn, State.internalFirst, waits]

/-- COMPOSE has waited for three internal grants (R19). -/
def State.composeOverdue (s : State) : Prop := s.waits .compose = true ∧ s.bridge.composeWait = 3

theorem State.internalChoice_overdue (h : s.composeOverdue) : s.internalChoice = some .compose := by
  obtain ⟨waits, three⟩ := h
  simp [State.internalChoice, waits, three]

theorem State.internalChoice_event (h : ¬ s.composeOverdue) (he : s.waits .event = true) :
    s.internalChoice = some .event := by
  have late : (s.waits .compose && s.bridge.composeWait == 3) = false := by simpa [State.composeOverdue] using h
  simp only [State.internalChoice, late, he, if_true, Bool.false_eq_true, if_false]

theorem State.internalChoice_takeover (h : ¬ s.composeOverdue) (he : s.waits .event = false)
    (ht : s.waits .takeover = true) : s.internalChoice = some .takeover := by
  have late : (s.waits .compose && s.bridge.composeWait == 3) = false := by simpa [State.composeOverdue] using h
  simp only [State.internalChoice, late, he, ht, if_true, Bool.false_eq_true, if_false]

theorem State.internalChoice_fetch (h : ¬ s.composeOverdue) (he : s.waits .event = false)
    (ht : s.waits .takeover = false) (hf : s.waits .fetch = true) : s.internalChoice = some .fetch := by
  have late : (s.waits .compose && s.bridge.composeWait == 3) = false := by simpa [State.composeOverdue] using h
  simp only [State.internalChoice, late, he, ht, hf, if_true, Bool.false_eq_true, if_false]

theorem State.internalChoice_compose (he : s.waits .event = false) (ht : s.waits .takeover = false)
    (hf : s.waits .fetch = false) (hc : s.waits .compose = true) : s.internalChoice = some .compose := by
  simp [State.internalChoice, he, ht, hf, hc]

theorem State.internalChoice_none (he : s.waits .event = false) (ht : s.waits .takeover = false)
    (hf : s.waits .fetch = false) (hc : s.waits .compose = false) : s.internalChoice = none := by
  simp [State.internalChoice, he, ht, hf, hc]

/-- The grant of the class chosen: its burst and the counters (R18, R19). -/
theorem execInternalGrant_chosen {c : BurstClass} {u : State} {n : Nat} (settled : s.Settled)
    (turn : s.internalTurn = true) (chosen : s.internalChoice = some c) (burst : s.grantClass c = u)
    (count : composeCount c (s.waits .compose) s.bridge.composeWait = n) :
    exec .internalGrant s = .next
      (State.endStep
        { u with bridge := { u.bridge with streak := 0, passed := false, composeWait := n } } s) := by
  refine (State.event_settled settled State.grantInternal).trans ?_
  simp only [State.grantInternal, turn, chosen, burst, count]
  rfl

theorem execInternalGrant_idle (settled : s.Settled) (chosen : s.internalChoice = none) :
    exec .internalGrant s = .next s.closed := by
  have same : s.grantInternal = s := by simp [State.grantInternal, chosen]
  refine (State.event_settled settled State.grantInternal).trans ?_
  rw [same, State.endStep_of_status rfl]

/-! ## The record write (R174) -/

section
variable {r : EventRecord} {more : List EventRecord}

theorem State.choosePresented_of_presented {b : Presented} (h : s.events.presented = some b) :
    s.choosePresented = s := by
  have same : s.onEvents EventUnit.present = s := by
    simp [State.onEvents, EventUnit.present, h]
  simp [State.choosePresented, same, h]

theorem State.grantEvent_record (presented : s.events.presented = some .record)
    (records : s.events.records = r :: more) :
    s.grantEvent = (s.writeWords s.ringSlot r.words).lastBurst .eventRecord := by
  simp only [State.grantEvent, State.choosePresented_of_presented presented, presented, records]
  rfl

theorem State.lastBurst_frame (s : State) (e : BurstEnd) : State.sameBut [.bridge] s (s.lastBurst e) :=
  State.onBridge_frame s _

theorem State.lastBurst_readByte (s : State) (e : BurstEnd) (a : Nat) : (s.lastBurst e).readByte a = s.readByte a := rfl

theorem State.lastBurst_readWord (s : State) (e : BurstEnd) (a : Nat) : (s.lastBurst e).readWord a = s.readWord a := by
  simp only [State.readWord, State.lastBurst_readByte]

end

/-! ## The FETCH burst (R20) -/

/-- The bytes a fetch operation has read after one more burst of it; a palette read keeps none (R57). -/
def FetchOp.dataWith (op : FetchOp) (words : List Word) : List Byte :=
  if op.kind = .palette then op.data else op.data ++ words.flatMap wordBytes

theorem State.grantFetch_eq {op : FetchOp} {more : List FetchOp} (h : s.bridge.fetch = op :: more) :
    let a := op.addr + 4 * op.done
    let n := min (op.words - op.done) (8 - a / 4 % 8)
    let words := s.readWords a n
    s.grantFetch =
      { s with
        bridge :=
          { s.bridge with
            fetch := { op with done := op.done + n, data := op.dataWith words } :: more
            busy := if op.words ≤ op.done + n then some (.fetch op.kind) else none },
        scene :=
          { s.scene with
            load :=
              if op.kind = .palette then s.scene.load.map fun l => { l with entries := l.entries ++ words }
              else s.scene.load } } := by
  by_cases palette : op.kind = .palette
  · simp [State.grantFetch, h, palette, FetchOp.dataWith, State.onBridge, State.onScene, burstLength]
  · simp [State.grantFetch, h, palette, FetchOp.dataWith, State.onBridge, burstLength]
    rfl

/-! ## O53 -/

/-- Settles O53: the choice of the arbiter in each case, and the burst of the class chosen. -/
theorem internalGrantFollowsPriority : Obligations.InternalGrantFollowsPriority := by
  intro s settled free first ev tk fe co count granted
  have turn : s.internalTurn = true := (State.internalTurn_iff s).mpr ⟨free, first⟩
  have chosen {c : BurstClass} {u : State} {n : Nat} (h : s.internalChoice = some c) (hu : s.grantClass c = u)
      (hn : composeCount c co s.bridge.composeWait = n) : granted u n :=
    execInternalGrant_chosen settled turn h hu hn
  refine ⟨fun he ht hf hc => execInternalGrant_idle settled (State.internalChoice_none he ht hf hc), ?_,
    fun he late => ⟨chosen (State.internalChoice_event late he) rfl rfl, fun r more presented records size memory => ?_⟩,
    fun he ht late => chosen (State.internalChoice_takeover late he ht) rfl rfl, fun he ht hf late => ?_⟩
  · rintro (overdue | ⟨hc, he, ht, hf⟩)
    · exact chosen (State.internalChoice_overdue overdue) rfl rfl
    · exact chosen (State.internalChoice_compose he ht hf hc) rfl rfl
  · have stored := State.writeWords_frame s s.ringSlot r.words
    have bridge : (s.writeWords s.ringSlot r.words).bridge = s.bridge := stored .bridge (by simp)
    rw [State.grantEvent_record presented records]
    refine ⟨?_, (stored.trans (State.lastBurst_frame _ _)).mono (by simp), fun k w hw => ?_, fun x hx => ?_⟩
    · simp only [State.lastBurst, State.onBridge, bridge]
    · rw [State.lastBurst_readWord]
      exact State.readWord_writeWords s s.ringSlot r.words memory size k w hw
    · rw [State.lastBurst_readByte]
      exact State.readByte_writeWords_other s s.ringSlot x r.words memory hx
  · obtain ⟨op, more, ops⟩ : ∃ op more, s.bridge.fetch = op :: more :=
      List.exists_cons_of_ne_nil (by simpa [fe, State.waits] using hf)
    exact ⟨op, more, ops, _, fun other => if_neg other, fun palette => if_pos palette,
      chosen (State.internalChoice_fetch late he ht hf) (State.grantFetch_eq ops) rfl⟩

end Sys2Proof.Machine

/-!
PROOF. What the grant of the forwarded request turns on: the windows of the map, the notices to the Navigator
and the Sequencer, and the consumer word.
-/

namespace Sys2Proof.Machine

variable {s : State}

/-! ## The windows of the map (R4, R5) -/

/-- An address of the Scan Window. -/
def State.InScan (s : State) (a : Nat) (w : Window) : Prop :=
  s.bridge.window.scan = some w ∧ a < s.cmdw ∧ w.base ≤ a ∧ a < w.base + w.len

/-- An address of the save area. -/
def State.InSave (s : State) (a : Nat) : Prop :=
  a < s.cmdw ∧ s.bridge.window.saveBase ≤ a ∧ a < s.bridge.window.saveBase + 0x1000

/-- An address of the slide list range. -/
def State.InSlides (s : State) (a : Nat) (w : Window) : Prop :=
  s.bridge.window.slides = some w ∧ a < s.cmdw ∧ w.base ≤ a ∧ a < w.base + w.len

theorem Window.holds_iff (w : Window) (a : Nat) : w.holds a = true ↔ w.base ≤ a ∧ a < w.base + w.len := by
  simp [Window.holds]

/-- The window of an address, where the map has one that holds it. -/
theorem Window.filter_holds {o : Option Window} {w : Window} {a : Nat} :
    o.filter (·.holds a) = some w ↔ o = some w ∧ w.base ≤ a ∧ a < w.base + w.len := by
  rw [Option.filter_eq_some_iff, Window.holds_iff]

section
variable {a : Nat} {w : Window}

theorem State.classify_scan (h : s.InScan a w) : s.classify a = .scan w.base := by
  obtain ⟨scan, below, inside⟩ := h
  have found := Window.filter_holds.mpr ⟨scan, inside⟩
  simp only [State.classify, if_neg (Nat.not_le.mpr below), found]

theorem State.scan_filter_none (below : a < s.cmdw) (h : ∀ w, ¬ s.InScan a w) :
    s.bridge.window.scan.filter (·.holds a) = none := by
  rw [Option.eq_none_iff_forall_ne_some]
  intro w found
  obtain ⟨scan, inside⟩ := Window.filter_holds.mp found
  exact h w ⟨scan, below, inside⟩

theorem State.classify_save (scan : ∀ w, ¬ s.InScan a w) (h : s.InSave a) : s.classify a = .save := by
  obtain ⟨below, inside⟩ := h
  have holds : (Window.mk s.bridge.window.saveBase 0x1000).holds a = true := (Window.holds_iff _ _).mpr inside
  simp only [State.classify, if_neg (Nat.not_le.mpr below), State.scan_filter_none below scan, if_pos holds]

section
variable (scan : ∀ w, ¬ s.InScan a w) (save : ¬ s.InSave a) (below : a < s.cmdw)
include scan save below

/-- Past the Scan Window and the save area the slide list range is the last row of R5. -/
theorem State.classify_past_save (slides : s.bridge.window.slides.filter (·.holds a) = some w) :
    s.classify a = .slides w := by
  have holds : ¬ (Window.mk s.bridge.window.saveBase 0x1000).holds a = true :=
    fun h => save ⟨below, (Window.holds_iff _ _).mp h⟩
  simp only [State.classify, if_neg (Nat.not_le.mpr below), State.scan_filter_none below scan, if_neg holds, slides]

theorem State.classify_past_slides (slides : s.bridge.window.slides.filter (·.holds a) = none) :
    s.classify a = .elsewhere := by
  have holds : ¬ (Window.mk s.bridge.window.saveBase 0x1000).holds a = true :=
    fun h => save ⟨below, (Window.holds_iff _ _).mp h⟩
  simp only [State.classify, if_neg (Nat.not_le.mpr below), State.scan_filter_none below scan, if_neg holds, slides]

/-- The class of an address past the Scan Window and the save area. -/
theorem State.classify_past_cases :
    (∃ w, s.bridge.window.slides.filter (·.holds a) = some w ∧ s.classify a = .slides w)
      ∨ s.classify a = .elsewhere := by
  cases slides : s.bridge.window.slides.filter (·.holds a) with
  | none => exact .inr (State.classify_past_slides scan save below slides)
  | some w => exact .inl ⟨w, rfl, State.classify_past_save scan save below slides⟩

end

theorem State.classify_slides (scan : ∀ w, ¬ s.InScan a w) (save : ¬ s.InSave a) (h : s.InSlides a w) :
    s.classify a = .slides w := by
  obtain ⟨slides, below, inside⟩ := h
  exact State.classify_past_save scan save below (Window.filter_holds.mpr ⟨slides, inside⟩)

theorem State.classify_command (h : s.cmdw ≤ a) : s.classify a = .elsewhere := if_pos h

/-- An address is classed as the slide list range only inside it, outside the save area and below the Command
Window. -/
theorem State.of_classify_slides (h : s.classify a = .slides w) : s.InSlides a w ∧ ¬ s.InSave a := by
  have below : a < s.cmdw := by
    by_contra above
    rw [State.classify_command (Nat.not_lt.mp above)] at h
    exact WindowClass.noConfusion h
  have scan : ∀ v, ¬ s.InScan a v := by
    intro v inside
    rw [State.classify_scan inside] at h
    exact WindowClass.noConfusion h
  have save : ¬ s.InSave a := by
    intro inside
    rw [State.classify_save scan inside] at h
    exact WindowClass.noConfusion h
  rcases State.classify_past_cases scan save below with ⟨v, found, class_eq⟩ | class_eq <;> rw [class_eq] at h
  · obtain ⟨slides, inside⟩ := Window.filter_holds.mp found
    obtain rfl : v = w := WindowClass.slides.inj h
    exact ⟨⟨slides, below, inside⟩, save⟩
  · exact WindowClass.noConfusion h

theorem State.classify_ne_scan (h : ∀ w, ¬ s.InScan a w) (b : Nat) : s.classify a ≠ .scan b := by
  by_cases below : a < s.cmdw
  · by_cases save : s.InSave a
    · rw [State.classify_save h save]
      exact WindowClass.noConfusion
    · rcases State.classify_past_cases h save below with ⟨_, -, class_eq⟩ | class_eq <;> rw [class_eq] <;>
        exact WindowClass.noConfusion
  · rw [State.classify_command (Nat.not_lt.mp below)]
    exact WindowClass.noConfusion

theorem State.classify_eq_save (h : s.classify a = .save) : s.InSave a := by
  by_cases below : a < s.cmdw
  · by_contra save
    by_cases scan : ∃ w, s.InScan a w
    · obtain ⟨w, inside⟩ := scan
      rw [State.classify_scan inside] at h
      exact WindowClass.noConfusion h
    · rcases State.classify_past_cases (not_exists.mp scan) save below with ⟨_, -, class_eq⟩ | class_eq <;>
        rw [class_eq] at h <;> exact WindowClass.noConfusion h
  · rw [State.classify_command (Nat.not_lt.mp below)] at h
    exact WindowClass.noConfusion h

/-! ## What the class of an address makes of a request (R6, R7, R9) -/

theorem State.translate_scan {k : CanvasSetup} (h : s.InScan a w) (canvas : s.composer.canvas = some k) :
    s.translate a = (if s.bridge.window.front = .a then k.bankA else k.bankB) + (a - w.base) := by
  simp only [State.translate, State.classify_scan h, canvas]
  cases s.bridge.window.front <;> rfl

theorem State.translate_outside (h : ∀ w, ¬ s.InScan a w) : s.translate a = a := by
  unfold State.translate
  split
  · rename_i class_eq canvas
    exact absurd class_eq (State.classify_ne_scan h _)
  · rfl

theorem State.grantGuard_scan (h : s.InScan a w) : s.grantGuard a = some .scan := by
  simp only [State.grantGuard, State.classify_scan h]

theorem State.grantGuard_save (scan : ∀ w, ¬ s.InScan a w) (save : s.InSave a)
    (menu : s.takeover.state ≠ .menuOver) : s.grantGuard a = some .save := by
  simp only [State.grantGuard, State.classify_save scan save, if_neg menu]

theorem State.grantGuard_none (scan : ∀ w, ¬ s.InScan a w) (save : s.InSave a → s.takeover.state = .menuOver) :
    s.grantGuard a = none := by
  unfold State.grantGuard
  split
  · rename_i class_eq
    exact absurd class_eq (State.classify_ne_scan scan _)
  · rename_i class_eq
    exact if_pos (save (State.classify_eq_save class_eq))
  · rfl

end

/-! ## The notice to the Navigator (R16, R129) -/

section
variable {a page : Nat} {ls : List Lane} {v : Navigator}

/-- Some enabled byte of a burst lies in a page. -/
def Touched (a : Nat) (ls : List Lane) (page : Nat) : Prop :=
  ∃ k i l, ls[k]? = some l ∧ i < 4 ∧ l.enables.getLsbD i = true
    ∧ page ≤ a + 4 * k + i ∧ a + 4 * k + i < page + 784

theorem touchesPage_iff : touchesPage page a ls = true ↔ Touched a ls page := by
  induction ls generalizing a with
  | nil => simp [touchesPage, Touched]
  | cons x xs ih =>
    have here : ((List.range 4).any fun i =>
        x.enables.getLsbD i && decide (page ≤ a + i) && decide (a + i < page + Config.pageBytes)) = true ↔
        ∃ i, i < 4 ∧ x.enables.getLsbD i = true ∧ page ≤ a + i ∧ a + i < page + 784 := by
      simp only [List.any_eq_true, List.mem_range, Bool.and_eq_true, decide_eq_true_iff, and_assoc]
      rfl
    rw [touchesPage, Bool.or_eq_true, here, ih]
    constructor
    · rintro (⟨i, hi, he, lo, hi'⟩ | ⟨k, i, l, hl, hi, he, lo, hi'⟩)
      · exact ⟨0, i, x, rfl, hi, he, by omega, by omega⟩
      · exact ⟨k + 1, i, l, by simpa using hl, hi, he, by omega, by omega⟩
    · rintro ⟨_ | k, i, l, hl, hi, he, lo, hi'⟩
      · obtain rfl : x = l := by simpa using hl
        exact .inl ⟨i, hi, he, by omega, by omega⟩
      · exact .inr ⟨k, i, l, by simpa using hl, hi, he, by omega, by omega⟩

theorem Navigator.notice_buffer {b : PrefetchBuffer} (h : v.buffer = some b) :
    (Touched a ls b.addr → (v.notice a ls).buffer = none)
      ∧ (¬ Touched a ls b.addr → (v.notice a ls).buffer = some b) := by
  constructor <;> intro touched <;> rw [← touchesPage_iff] at touched <;>
    simp [Navigator.notice, h, Option.filter, touched]

theorem Navigator.notice_inflight {g : Prefetch} (h : v.inflight = some g) :
    (Touched a ls g.addr → (v.notice a ls).inflight = some { g with stale := true })
      ∧ (¬ Touched a ls g.addr → (v.notice a ls).inflight = some g) := by
  constructor <;> intro touched <;> rw [← touchesPage_iff] at touched <;>
    simp [Navigator.notice, h, touched]

theorem Navigator.notice_no_buffer (h : v.buffer = none) : (v.notice a ls).buffer = none := by
  simp [Navigator.notice, h]

theorem Navigator.notice_no_inflight (h : v.inflight = none) : (v.notice a ls).inflight = none := by
  simp [Navigator.notice, h]

end

/-! ## The ready-byte notice (R15, R136) -/

section
variable {i : Nat} {v : Byte}

/-- The Sequencer with the ready flag of an index noted. -/
def Sequencer.noted (q : Sequencer) (i : Nat) (v : Byte) : Sequencer :=
  { q with ready := q.ready.setIfInBounds i (decide (v ≠ 0)) }

theorem byte_bne_zero (v : Byte) : (v != 0) = decide (v ≠ 0) := by
  rw [Bool.eq_iff_iff, bne_iff_ne, decide_eq_true_iff]

theorem Sequencer.readyAt_noted (q : Sequencer) (h : i < 256) : (q.noted i v).readyAt i = decide (v ≠ 0) := by
  simp [Sequencer.readyAt, Sequencer.noted, h]

/-- The read in flight is that of the incoming index, which the notice overtakes. -/
def State.Overtakes (s : State) (i : Nat) (g : DescriptorRead) : Prop :=
  s.seq.incoming = some i ∧ s.seq.state = .loading ∧ s.seq.read = some g ∧ g.index = i

/-- The notice begins the load of the index that was waited for. -/
def State.Begins (s : State) (i : Nat) (v : Byte) : Prop :=
  s.seq.incoming = some i ∧ s.seq.state = .waiting ∧ v ≠ 0 ∧ s.takeover.state = .normal

theorem State.readyNotice_overtakes {g : DescriptorRead} (h : s.Overtakes i g) :
    s.readyNotice i v = { s with seq := { s.seq.noted i v with read := some { g with overtaken := true } } } := by
  obtain ⟨incoming, loading, read, index⟩ := h
  simp only [State.readyNotice, byte_bne_zero, incoming, loading, read, ne_eq, not_true_eq_false, if_false, if_pos index]
  rfl

theorem State.readyNotice_begins (h : s.Begins i v) :
    s.readyNotice i v = State.loadBegin { s with seq := s.seq.noted i v } i none := by
  obtain ⟨incoming, waiting, value, normal⟩ := h
  simp only [State.readyNotice, byte_bne_zero, incoming, waiting, ne_eq, not_true_eq_false, if_false,
    if_pos (And.intro value normal)]
  rfl

theorem State.readyNotice_only (overtakes : ∀ g, ¬ s.Overtakes i g) (begins : ¬ s.Begins i v) :
    s.readyNotice i v = { s with seq := s.seq.noted i v } := by
  simp only [State.readyNotice, byte_bne_zero]
  split
  · rfl
  · rename_i incoming
    have incoming := not_not.mp incoming
    split
    · rename_i r loading read
      exact if_neg fun index => overtakes r ⟨incoming, loading, read, index⟩
    · rename_i waiting
      exact if_neg fun ⟨value, normal⟩ => begins ⟨incoming, waiting, value, normal⟩
    · rfl

/-- A notice of an index within the ready map raises no event: a load it begins finds its flag set. -/
theorem State.readyNotice_events (h : i < 256) : (s.readyNotice i v).events = s.events := by
  by_cases overtakes : ∃ g, s.Overtakes i g
  · obtain ⟨g, overtakes⟩ := overtakes
    rw [State.readyNotice_overtakes overtakes]
  · by_cases begins : s.Begins i v
    · have value : v ≠ 0 := begins.2.2.1
      rw [State.readyNotice_begins begins]
      exact State.loadBegin_events i none ((s.seq.readyAt_noted h).trans (decide_eq_true value))
    · rw [State.readyNotice_only (not_exists.mp overtakes) begins]

end

/-! ## The consumer word (R175 to R177) -/

section
variable (e : EventUnit) (w : Word)

theorem bits_byte : bits w 0 8 = w.toNat % 256 := by simp [bits]

theorem byte_index_iff : bits w 0 8 < 64 ↔ w.getLsbD 6 = false ∧ w.getLsbD 7 = false := by
  rw [bits_byte]
  simp only [BitVec.getLsbD, Nat.testBit_eq_decide_div_mod_eq, decide_eq_false_iff_not]
  omega

theorem EventUnit.clampIndex_byte : e.clampIndex (bits w 0 8) =
    (let i : BitVec 6 := w.setWidth 6
     if w.getLsbD 6 = false ∧ w.getLsbD 7 = false ∧ i - e.c ≤ e.p - e.c then i else e.p) := by
  have index : BitVec.ofNat 6 (bits w 0 8) = w.setWidth 6 := by
    apply BitVec.eq_of_toNat_eq
    rw [bits_byte, BitVec.toNat_ofNat, BitVec.toNat_setWidth]
    omega
  simp only [EventUnit.clampIndex, index, byte_index_iff, and_assoc, BitVec.le_def]

/-- The status-write pending flag is set when C or a flag has changed. -/
theorem EventUnit.consume_statusPending : (e.consume w).statusPending = true ↔
    e.statusPending = true ∨ (e.consume w).c ≠ e.c ∨ (e.consume w).overflow ≠ e.overflow
      ∨ (e.consume w).intakeDrop ≠ e.intakeDrop ∨ (e.consume w).guard ≠ e.guard := by
  have cleared (b f : Bool) : (b && f) = true ↔ (b && !f) ≠ b := by cases b <;> cases f <;> decide
  simp only [EventUnit.consume, Bool.or_eq_true, bne_iff_ne, cleared, or_assoc]

end

end Sys2Proof.Machine

/-!
PROOF. O52: the grant of the forwarded request reads, stores its enabled bytes, or is discarded.
-/

namespace Sys2Proof.Machine

variable {s : State}

/-! ## The turn and the streak (R5, R17, R18) -/

theorem State.forwardedTurn_iff (s : State) : s.forwardedTurn = true ↔
    s.bridge.busy = none ∧ (s.internalWaits = false ∨ (s.bridge.streak ≠ 3 ∧ s.bridge.passed = false)) := by
  simp [State.forwardedTurn, State.internalFirst]

theorem execForwardedGrant_granted {f : Forwarded} (settled : s.Settled) (side : s.bridge.side = .forwarding f)
    (turn : s.forwardedTurn = true) :
    exec .forwardedGrant s = .next ((s.grantForwarded f s.internalWaits).endStep s) := by
  refine (State.event_settled settled State.forwardedGrant).trans ?_
  simp only [State.forwardedGrant, side, turn, if_true]

/-- The streak after a grant of the forwarded request (R18). -/
def State.nextStreak (s : State) : Nat := if s.internalWaits then s.bridge.streak + 1 else 0

theorem State.grantForwarded_read (a : Nat) (es : List (BitVec 4)) :
    s.grantForwarded (.read a es) s.internalWaits =
      State.acceptWaiting
        { s with bridge :=
          { s.bridge with
            side := .ready, streak := s.nextStreak, passed := false,
            readData := s.readWords (s.translate a) es.length } }
        s.bridge.waiting := rfl

/-! ## A write under a guard (R7, R9, R10) -/

/-- What a discarded write leaves before the waiting requests are taken: the guard, and the next choice left to the
internal classes that wait (log entry 46). -/
def State.discardedWrite (s : State) (area : GuardArea) (a n : Nat) : State :=
  { s.judgeGuard area a n with bridge := { s.bridge with side := .ready, passed := s.internalWaits } }

theorem State.judgeGuard_frame (s : State) (area : GuardArea) (a n : Nat) :
    State.sameBut [.events] s (s.judgeGuard area a n) := by
  unfold State.judgeGuard
  split
  · exact State.sameBut_refl s _
  · exact ((State.raise_frame s _ _).trans (State.onEvents_frame _ _)).mono (by simp)

theorem State.grantForwarded_discards {a : Nat} {ls : List Lane} {area : GuardArea} (h : s.grantGuard a = some area) :
    s.grantForwarded (.write a ls) s.internalWaits =
      (s.discardedWrite area a ls.length).acceptWaiting s.bridge.waiting := by
  have bridge := State.judgeGuard_frame s area a ls.length .bridge (by simp)
  simp only [State.grantForwarded, h, State.release, State.onBridge, State.discardedWrite]
  rw [show (s.judgeGuard area a ls.length).bridge = s.bridge from bridge]

theorem State.discardedWrite_frame (s : State) (area : GuardArea) (a n : Nat) :
    State.sameBut [.bridge, .events] s (s.discardedWrite area a n) := by
  have guarded := State.judgeGuard_frame s area a n
  intro p hp
  have kept := guarded p (by simp_all)
  cases p <;> simp_all [Part.same, State.discardedWrite]

/-! ## A write that is stored (R14 to R16) -/

/-- A state that differs in memory alone. -/
theorem State.sameBut.mem_eq {t : State} (h : State.sameBut [.mem] s t) : t = { s with mem := t.mem } := by
  cases s
  cases t
  simp only [State.mk.injEq]
  exact ⟨h .pending (by simp), h .line (by simp), h .free (by simp), trivial, h .bridge (by simp), h .intake (by simp),
    h .scene (by simp), h .motion (by simp), h .composer (by simp), h .nav (by simp), h .seq (by simp),
    h .takeover (by simp), h .events (by simp)⟩

/-- A stored write with its notice to the Navigator, the controller side READY, and the grant counted. -/
def State.stored (s : State) (a : Nat) (ls : List Lane) : State :=
  { s with
    mem := (s.writeLanes a ls).mem, nav := s.nav.notice a ls,
    bridge := { s.bridge with side := .ready, streak := s.nextStreak, passed := false } }

/-- The ready-byte notice of a write, when its address is classed as the slide list range (R15). -/
def State.slidesNoticed (s : State) (a : Nat) (ls : List Lane) : State :=
  match s.classify a with
  | .slides range =>
    match readyByte range a ls with
    | some (i, v) => s.readyNotice i v
    | none => s
  | _ => s

/-- The notice of the consumer word (R8, R175). -/
def State.consumed (s : State) (a : Nat) (ls : List Lane) : State :=
  if a = s.cmdw + consumerOffset then s.onEvents fun u => u.consume ((ls.headD ⟨0, 0⟩).data) else s

/-- What a stored write leaves before the waiting requests are taken. -/
def State.storedWrite (s : State) (a : Nat) (ls : List Lane) : State :=
  ((s.stored a ls).slidesNoticed a ls).consumed a ls

/-- The controller side READY with a streak, and nothing left to the internal classes by a discard. -/
def Bridge.counted (n : Nat) (b : Bridge) : Bridge := { b with side := .ready, streak := n, passed := false }

section
variable (u : State) (n : Nat) (a : Nat) (ls : List Lane)

/-- The load of an index looks neither at the controller side nor at the streak. -/
theorem State.loadBegin_counted (j : Nat) (slot : Option Nat) :
    (u.onBridge (Bridge.counted n)).loadBegin j slot = (u.loadBegin j slot).onBridge (Bridge.counted n) := by
  show State.loadBegin { u with bridge := u.bridge.counted n } j slot = _
  unfold State.loadBegin
  dsimp only
  repeat' split
  all_goals rfl

/-- Nor does a ready-byte notice. -/
theorem State.readyNotice_counted (i : Nat) (v : Byte) :
    (u.onBridge (Bridge.counted n)).readyNotice i v = (u.readyNotice i v).onBridge (Bridge.counted n) := by
  have counted : (u.onBridge (Bridge.counted n)).Begins i v = u.Begins i v := rfl
  by_cases overtakes : ∃ g, u.Overtakes i g
  · obtain ⟨g, overtakes⟩ := overtakes
    rw [State.readyNotice_overtakes overtakes, State.readyNotice_overtakes (s := u.onBridge _) overtakes]
    rfl
  · by_cases begins : u.Begins i v
    · rw [State.readyNotice_begins begins, State.readyNotice_begins (s := u.onBridge _) begins,
        ← State.loadBegin_counted]
      rfl
    · have none_overtakes := not_exists.mp overtakes
      rw [State.readyNotice_only none_overtakes begins,
        State.readyNotice_only (s := u.onBridge _) none_overtakes begins]
      rfl

theorem State.slidesNoticed_counted :
    (u.onBridge (Bridge.counted n)).slidesNoticed a ls =
      (u.slidesNoticed a ls).onBridge (Bridge.counted n) := by
  have same : (u.onBridge (Bridge.counted n)).classify a = u.classify a := rfl
  unfold State.slidesNoticed
  rw [same]
  split
  · split
    · exact State.readyNotice_counted u n _ _
    · rfl
  · rfl

theorem State.consumed_counted :
    (u.onBridge (Bridge.counted n)).consumed a ls = (u.consumed a ls).onBridge (Bridge.counted n) := by
  have same : (u.onBridge (Bridge.counted n)).cmdw = u.cmdw := rfl
  unfold State.consumed
  rw [same]
  split <;> rfl

/-- A ready-byte notice touches the FETCH list alone at the Bridge. -/
theorem State.slidesNoticed_bridge :
    (u.slidesNoticed a ls).bridge = { u.bridge with fetch := (u.slidesNoticed a ls).bridge.fetch } := by
  unfold State.slidesNoticed
  split
  · split
    · exact State.readyNotice_bridge u _ _
    · rfl
  · rfl

theorem State.slidesNoticed_frame : State.sameBut [.seq, .bridge, .events] u (u.slidesNoticed a ls) := by
  unfold State.slidesNoticed
  split
  · split
    · exact State.readyNotice_frame u _ _
    · exact State.sameBut_refl u _
  · exact State.sameBut_refl u _

theorem State.consumed_frame : State.sameBut [.events] u (u.consumed a ls) := by
  unfold State.consumed
  split
  · exact State.onEvents_frame u _
  · exact State.sameBut_refl u _

/-- The notices of a granted write: to the Navigator, to the Sequencer, and the consumer word. -/
theorem State.giveNotices_eq :
    u.giveNotices a ls = ((u.onNav fun v => v.notice a ls).slidesNoticed a ls).consumed a ls := by
  have cmdw : ((u.onNav fun v => v.notice a ls).slidesNoticed a ls).cmdw = u.cmdw := by
    unfold State.cmdw
    rw [State.slidesNoticed_bridge]
    rfl
  unfold State.consumed
  rw [cmdw]
  rfl

theorem State.giveNotices_bridge :
    (u.giveNotices a ls).bridge = { u.bridge with fetch := (u.giveNotices a ls).bridge.fetch } := by
  have key : (u.giveNotices a ls).bridge = ((u.onNav fun v => v.notice a ls).slidesNoticed a ls).bridge := by
    rw [State.giveNotices_eq]
    exact State.consumed_frame _ a ls .bridge (by simp)
  rw [key]
  exact State.slidesNoticed_bridge _ a ls

end

/-- The grant of a write under no guard. -/
theorem State.grantForwarded_stores {a : Nat} {ls : List Lane} (h : s.grantGuard a = none) :
    s.grantForwarded (.write a ls) s.internalWaits =
      (s.storedWrite a ls).acceptWaiting s.bridge.waiting := by
  have store := (State.writeLanes_frame ls s a).mem_eq
  have counted : ((s.writeLanes a ls).giveNotices a ls).onBridge (Bridge.counted s.nextStreak) =
      s.storedWrite a ls := by
    rw [State.giveNotices_eq, ← State.consumed_counted, ← State.slidesNoticed_counted, store]
    rfl
  have bridge := State.giveNotices_bridge (s.writeLanes a ls) a ls
  rw [show (s.writeLanes a ls).bridge = s.bridge from State.writeLanes_frame ls s a .bridge (by simp)] at bridge
  rw [← counted]
  simp only [State.grantForwarded, h]
  generalize (s.writeLanes a ls).giveNotices a ls = noticed at bridge
  have streak : noticed.bridge.streak = s.bridge.streak := by rw [bridge]
  have waiting : noticed.bridge.waiting = s.bridge.waiting := by rw [bridge]
  simp only [State.release, State.onBridge, Bridge.counted, State.nextStreak, streak, waiting]

/-! ## What a stored write leaves -/

section
variable (s : State) (a : Nat) (ls : List Lane)

theorem State.storedWrite_frame :
    State.sameBut [.bridge, .mem, .nav, .seq, .events] s (s.storedWrite a ls) := by
  have stored : State.sameBut [.mem, .nav, .bridge] s (s.stored a ls) := by
    intro p hp
    cases p <;> simp_all [Part.same, State.stored]
  exact ((stored.trans (State.slidesNoticed_frame _ a ls)).trans (State.consumed_frame _ a ls)).mono (by simp)

theorem State.storedWrite_mem : (s.storedWrite a ls).mem = (s.writeLanes a ls).mem :=
  (State.consumed_frame _ a ls .mem (by simp)).trans (State.slidesNoticed_frame (s.stored a ls) a ls .mem (by simp))

theorem State.storedWrite_nav : (s.storedWrite a ls).nav = s.nav.notice a ls :=
  (State.consumed_frame _ a ls .nav (by simp)).trans (State.slidesNoticed_frame (s.stored a ls) a ls .nav (by simp))

theorem State.storedWrite_seq : (s.storedWrite a ls).seq = ((s.stored a ls).slidesNoticed a ls).seq :=
  State.consumed_frame _ a ls .seq (by simp)

theorem State.storedWrite_bridge_noticed :
    (s.storedWrite a ls).bridge = ((s.stored a ls).slidesNoticed a ls).bridge :=
  State.consumed_frame _ a ls .bridge (by simp)

theorem State.storedWrite_bridge : (s.storedWrite a ls).bridge =
    { s.bridge with
      side := .ready, streak := s.nextStreak, passed := false, fetch := (s.storedWrite a ls).bridge.fetch } := by
  rw [State.storedWrite_bridge_noticed]
  exact State.slidesNoticed_bridge (s.stored a ls) a ls

theorem State.storedWrite_readByte (x : Nat) : (s.storedWrite a ls).readByte x = (s.writeLanes a ls).readByte x := by
  have size : (s.writeLanes a ls).bridge = s.bridge := State.writeLanes_frame ls s a .bridge (by simp)
  rw [State.readByte, State.readByte, State.storedWrite_mem, State.storedWrite_bridge, size]

theorem State.slidesNoticed_cmdw (u : State) : (u.slidesNoticed a ls).cmdw = u.cmdw := by
  unfold State.cmdw
  rw [State.slidesNoticed_bridge]

end

section
variable {a : Nat} {ls : List Lane} {w : Window}

/-- A write outside the slide list range, or inside the save area, gives the Sequencer no notice. -/
theorem State.slidesNoticed_outside (h : ∀ w, s.InSlides a w → s.InSave a) (ls : List Lane) :
    s.slidesNoticed a ls = s := by
  unfold State.slidesNoticed
  split
  · rename_i range class_eq
    obtain ⟨slides, save⟩ := State.of_classify_slides class_eq
    exact absurd (h range slides) save
  · rfl

/-- A write covers the ready byte of a descriptor (R15). -/
def Covers (a : Nat) (w : Window) (l : Lane) : Prop := (a - w.base) % 64 = 0 ∧ l.enables.getLsbD 0 = true

theorem State.slidesNoticed_covers {l : Lane} {more : List Lane} (scan : ∀ w, ¬ s.InScan a w) (save : ¬ s.InSave a)
    (inside : s.InSlides a w) (h : Covers a w l) :
    s.slidesNoticed a (l :: more) = s.readyNotice ((a - w.base) / 64) (l.data.extractLsb' 0 8) := by
  have covered : readyByte w a (l :: more) = some ((a - w.base) / 64, l.data.extractLsb' 0 8) := if_pos h
  simp only [State.slidesNoticed, State.classify_slides scan save inside, covered]

theorem State.slidesNoticed_misses {l : Lane} {more : List Lane} (scan : ∀ w, ¬ s.InScan a w) (save : ¬ s.InSave a)
    (inside : s.InSlides a w) (h : ¬ Covers a w l) : s.slidesNoticed a (l :: more) = s := by
  have missed : readyByte w a (l :: more) = none := if_neg h
  simp only [State.slidesNoticed, State.classify_slides scan save inside, missed]

theorem readyByte_index {i : Nat} {v : Byte} (h : readyByte w a ls = some (i, v)) : i = (a - w.base) / 64 := by
  unfold readyByte at h
  split at h
  · split at h
    · simp_all
    · simp at h
  · simp at h

/-- Notices of indices within the ready map raise no event. -/
theorem State.slidesNoticed_events (h : ∀ w, s.InSlides a w → (a - w.base) / 64 < 256) :
    (s.slidesNoticed a ls).events = s.events := by
  unfold State.slidesNoticed
  split
  · rename_i range class_eq
    split
    · rename_i i v covered
      obtain ⟨slides, -⟩ := State.of_classify_slides class_eq
      exact State.readyNotice_events (readyByte_index covered ▸ h range slides)
    · rfl
  · rfl

theorem State.consumed_elsewhere (h : a ≠ s.cmdw + 0xC04) : s.consumed a ls = s := if_neg h

theorem State.consumed_word {l : Lane} {more : List Lane} (h : a = s.cmdw + 0xC04) :
    (s.consumed a (l :: more)).events = s.events.consume l.data := by
  rw [State.consumed, if_pos (show a = s.cmdw + consumerOffset from h)]
  rfl

theorem State.storedWrite_events_elsewhere (h : a ≠ s.cmdw + 0xC04)
    (map : ∀ w, s.InSlides a w → (a - w.base) / 64 < 256) : (s.storedWrite a ls).events = s.events := by
  have noticed : ((s.stored a ls).slidesNoticed a ls).events = s.events :=
    State.slidesNoticed_events (s := s.stored a ls) map
  have cmdw : ((s.stored a ls).slidesNoticed a ls).cmdw = s.cmdw := State.slidesNoticed_cmdw a ls (s.stored a ls)
  rw [State.storedWrite, State.consumed_elsewhere (by rwa [cmdw]), noticed]

theorem State.storedWrite_events_consumer {l : Lane} {more : List Lane} (h : a = s.cmdw + 0xC04) :
    (s.storedWrite a (l :: more)).events = s.events.consume l.data := by
  have quiet : (s.stored a (l :: more)).slidesNoticed a (l :: more) = s.stored a (l :: more) := by
    refine State.slidesNoticed_outside (fun w inside => ?_) _
    have below : a < s.cmdw := inside.2.1
    omega
  rw [State.storedWrite, quiet]
  exact State.consumed_word (s := s.stored a (l :: more)) h

end

/-- A load that begins, told from what it leaves (R138). -/
theorem State.loadBegun_of_left (u : State) (j : Nat) (slot : Option Nat) :
    State.loadBegun
      { u.loadBegin j slot with
        seq := u.seq, events := u.events
        bridge := { (u.loadBegin j slot).bridge with fetch := u.bridge.fetch } }
      j slot (u.loadBegin j slot) := by
  have before : u =
      { u.loadBegin j slot with
        seq := u.seq, events := u.events
        bridge := { (u.loadBegin j slot).bridge with fetch := u.bridge.fetch } } := by
    rw [State.loadBegin_bridge, State.loadBegin_eq]
  rw [← before]
  exact State.loadBegin_begun u j slot

section
variable {a : Nat} {ls : List Lane} {w : Window}

/-- Below the Command Window a stored write gives no notice of the consumer word. -/
theorem State.storedWrite_below (h : a < s.cmdw) : s.storedWrite a ls = (s.stored a ls).slidesNoticed a ls := by
  have cmdw : ((s.stored a ls).slidesNoticed a ls).cmdw = s.cmdw := State.slidesNoticed_cmdw a ls (s.stored a ls)
  exact State.consumed_elsewhere (by rw [cmdw]; omega)

/-- The Sequencer and the FETCH list as they were. -/
def State.ShowKept (s t : State) : Prop := t.seq = s.seq ∧ t.bridge.fetch = s.bridge.fetch

theorem State.storedWrite_outside (h : ∀ w, s.InSlides a w → s.InSave a) (ls : List Lane) :
    s.ShowKept (s.storedWrite a ls) := by
  have quiet : (s.stored a ls).slidesNoticed a ls = s.stored a ls :=
    State.slidesNoticed_outside (s := s.stored a ls) h ls
  constructor
  · rw [State.storedWrite_seq, quiet]
    rfl
  · rw [State.storedWrite_bridge_noticed, quiet]
    rfl

variable {l : Lane} {more : List Lane} (scan : ∀ w, ¬ s.InScan a w) (save : ¬ s.InSave a) (inside : s.InSlides a w)
include scan save inside

theorem State.storedWrite_misses (h : ¬ Covers a w l) : s.ShowKept (s.storedWrite a (l :: more)) := by
  have quiet : s.storedWrite a (l :: more) = s.stored a (l :: more) :=
    (State.storedWrite_below inside.2.1).trans
      (State.slidesNoticed_misses (s := s.stored a (l :: more)) scan save inside h)
  rw [quiet]
  exact ⟨rfl, rfl⟩

theorem State.storedWrite_covers (h : Covers a w l) : s.storedWrite a (l :: more) =
    (s.stored a (l :: more)).readyNotice ((a - w.base) / 64) (l.data.extractLsb' 0 8) :=
  (State.storedWrite_below inside.2.1).trans
    (State.slidesNoticed_covers (s := s.stored a (l :: more)) scan save inside h)

theorem State.storedWrite_readyAt (h : Covers a w l) (map : (a - w.base) / 64 < 256) :
    (s.storedWrite a (l :: more)).seq.readyAt ((a - w.base) / 64) = decide (l.data.extractLsb' 0 8 ≠ 0) := by
  rw [State.storedWrite_covers scan save inside h, Sequencer.readyAt, State.readyNotice_ready, byte_bne_zero]
  exact Sequencer.readyAt_noted s.seq map

theorem State.storedWrite_overtakes (h : Covers a w l) {g : DescriptorRead}
    (overtakes : s.Overtakes ((a - w.base) / 64) g) :
    (s.storedWrite a (l :: more)).seq =
        { s.seq.noted ((a - w.base) / 64) (l.data.extractLsb' 0 8) with read := some { g with overtaken := true } }
      ∧ (s.storedWrite a (l :: more)).bridge.fetch = s.bridge.fetch := by
  rw [State.storedWrite_covers scan save inside h,
    State.readyNotice_overtakes (s := s.stored a (l :: more)) overtakes]
  exact ⟨rfl, rfl⟩

theorem State.storedWrite_only (h : Covers a w l) (overtakes : ∀ g, ¬ s.Overtakes ((a - w.base) / 64) g)
    (begins : ¬ s.Begins ((a - w.base) / 64) (l.data.extractLsb' 0 8)) :
    (s.storedWrite a (l :: more)).seq = s.seq.noted ((a - w.base) / 64) (l.data.extractLsb' 0 8)
      ∧ (s.storedWrite a (l :: more)).bridge.fetch = s.bridge.fetch := by
  rw [State.storedWrite_covers scan save inside h,
    State.readyNotice_only (s := s.stored a (l :: more)) overtakes begins]
  exact ⟨rfl, rfl⟩

theorem State.storedWrite_begins (h : Covers a w l)
    (begins : s.Begins ((a - w.base) / 64) (l.data.extractLsb' 0 8)) :
    State.loadBegun
      { s.storedWrite a (l :: more) with
        seq := s.seq.noted ((a - w.base) / 64) (l.data.extractLsb' 0 8), events := s.events
        bridge := { (s.storedWrite a (l :: more)).bridge with fetch := s.bridge.fetch } }
      ((a - w.base) / 64) none (s.storedWrite a (l :: more)) := by
  rw [State.storedWrite_covers scan save inside h,
    State.readyNotice_begins (s := s.stored a (l :: more)) begins]
  exact State.loadBegun_of_left _ _ _

end

/-! ## O52 -/

/-- Settles O52: the grant reads through the Scan Window, discards under a guard, or stores and gives the notices. -/
theorem forwardedGrantReadsWritesOrDiscards : Obligations.ForwardedGrantReadsWritesOrDiscards := by
  intro s f settled side free first streak inScan inSave inSlides discarded
  have turn : s.forwardedTurn = true := (State.forwardedTurn_iff s).mpr ⟨free, first⟩
  have grants := execForwardedGrant_granted settled side turn
  have discards (a : Nat) (ls : List Lane) (area : GuardArea) (write : f = .write a ls)
      (guarded : s.grantGuard a = some area) : discarded area a ls.length := by
    subst write
    rw [State.grantForwarded_discards guarded] at grants
    exact ⟨_, grants, State.discardedWrite_frame s area a ls.length, rfl,
      fun set => by rw [State.discardedWrite, State.judgeGuard_set set],
      fun clear => by rw [State.discardedWrite, State.judgeGuard_clear clear]; rfl⟩
  refine ⟨fun a es read => ⟨fun outside => ?_, fun w k inside canvas => ?_⟩, fun a ls write len size memory =>
    ⟨fun w inside => discards a ls _ write (State.grantGuard_scan inside),
      fun scan save menu => discards a ls _ write (State.grantGuard_save scan save menu), fun scan save => ?_⟩⟩
  · subst read
    rw [State.grantForwarded_read, State.translate_outside outside] at grants
    exact grants
  · subst read
    rw [State.grantForwarded_read, State.translate_scan inside canvas] at grants
    exact grants
  · subst write
    rw [State.grantForwarded_stores (State.grantGuard_none scan save)] at grants
    have nav := s.storedWrite_nav a ls
    refine ⟨s.storedWrite a ls, grants, s.storedWrite_frame a ls, s.storedWrite_bridge a ls, fun k i l lane byte => ?_,
      fun x other => ?_, ⟨fun b buffer => ?_, fun g inflight => ?_⟩, fun buffer => ?_, fun inflight => ?_, ?_,
      fun outside => State.storedWrite_outside (fun w inside => absurd inside (outside w)) ls,
      fun saved => State.storedWrite_outside (fun _ _ => saved) ls, ?_, ?_,
      fun elsewhere map => State.storedWrite_events_elsewhere elsewhere map, ?_⟩
    · rw [State.storedWrite_readByte, State.readByte_writeLanes_at ls s a memory (by omega) k i l lane byte]
    · rw [State.storedWrite_readByte]
      exact State.readByte_writeLanes_other ls s a x memory other
    · rw [nav]
      exact Navigator.notice_buffer buffer
    · rw [nav]
      exact Navigator.notice_inflight inflight
    · rw [nav]
      exact Navigator.notice_no_buffer buffer
    · rw [nav]
      exact Navigator.notice_no_inflight inflight
    · rw [nav]
      rfl
    · rintro w l more unsaved inside rfl slot enabled map
      exact State.storedWrite_readyAt scan unsaved inside ⟨slot, enabled⟩ map
    · rintro w l more unsaved inside rfl
      exact ⟨State.storedWrite_misses scan unsaved inside, fun covers =>
        ⟨fun g => State.storedWrite_overtakes scan unsaved inside covers,
          State.storedWrite_begins scan unsaved inside covers,
          State.storedWrite_only scan unsaved inside covers⟩⟩
    · rintro l more rfl consumer
      rw [State.storedWrite_events_consumer consumer]
      exact ⟨rfl, s.events.clampIndex_byte l.data, rfl, rfl, rfl, s.events.consume_statusPending l.data⟩

end Sys2Proof.Machine

/-!
PROOF. O6 to O8: the departure of the head, the end of a run, the Intake's skips and refusals, and MARK.
-/

namespace Sys2Proof.Machine

variable {s : State} {c : Command} {rest : List Command}

/-! ## The departure of the head and the events (O6) -/

/-- A held write finds the entry that the departed head has left free: its command joins the end of the queue, in the
run unless it is alone there, and it is forwarded (R23, R24, R25). -/
theorem State.departed_holding {a n k : Nat} {ls : List Lane} (held : s.bridge.side = .holding a ls n k)
    (room : rest.length < 16) :
    s.departed rest =
      { s with
        intake := { s.intake with queue := rest ++ [⟨n, ls.map (·.data)⟩], inRun := decide (rest ≠ []) }
        bridge := { s.bridge with side := .forwarding (.write a ls) }
        events := { s.events with statusPending := true } } := by
  have follows : (true && !rest.isEmpty) = decide (rest ≠ []) := by cases rest <;> rfl
  have joins : s.departed rest =
      ((((s.onIntake fun i => { i with queue := rest, inRun := true }).touchStatus).enqueue
        (commandOf n ls)).forward (.write a ls)) := by
    simp only [State.departed, State.joinHeld, State.touchStatus, State.onEvents, State.onIntake, held]
    exact if_pos room
  rw [joins, ← follows]
  rfl

/-- The rows that are neither RSTN's nor start a command are the events of R25. -/
theorem exec_event (i : Instr) (wf : i.wf = true) (noAssert : i ≠ .rstnAssert)
    (noRelease : ∀ msz level, i ≠ .rstnRelease msz level) (noCommand : ∀ p ∈ commandRows, p.1 ≠ i) :
    ∃ own : State → State, ∀ s, exec i s = s.event own := by
  have notListed : i ∉ commandRows.map Prod.fst := by simpa using fun row mem => noCommand (i, row) mem rfl
  cases i with
  | rstnAssert => exact absurd rfl noAssert
  | rstnRelease msz level => exact absurd rfl (noRelease msz level)
  | controllerRequest r => exact ⟨fun t => t.takeRequest r, fun _ => if_pos wf⟩
  | frameTick _ | dwellExpiry | tkrqEdge _ | holdLimit | forwardedGrant | internalGrant | compositionComplete
  | paletteReadEnd | pageReadEnd | prefetchReadEnd _ | descriptorReadEnd | saveEnd | copyEnd | restoreReadEnd
  | eventRecordWriteEnd | statusWrite => exact ⟨_, fun _ => rfl⟩
  | mark | restart | setCanvas | setTakeover | setSlides | define | drop | place | unplace | patch | step
  | loadPalette | setProfile | move | retune | haltImmediate | haltEase | openPage | prefetchPage | keyUp | keyDown
  | keyLeft | keyRight | keySelect | keyEnter | keyBack | closeMenu | slideStart | slideStop | slideStep
  | slidePause | slideResume | takeover | resume | unknownKindCommand => exact absurd (by decide) notListed

/-- Before an event a due head starts by its own row, and leaves a quiet state, in which the event's effect follows
(R25, R26). -/
theorem State.event_head (head : s.Head c rest) (due : s.intake.inRun = false) (own : State → State) :
    ∃ p ∈ commandRows, p.2 c = true ∧ ∃ u, exec p.1 s = .next u ∧ s.event own = .next ((own u).endStep u) := by
  obtain ⟨row, mem, starts⟩ := commandRows_cover c
  have started : s.live State.startDue = .next (s.startDue.endStep s) := State.live_quiet head.toQuiet _
  refine ⟨row, mem, starts, s.startDue.endStep s, ?_, ?_⟩
  · rw [commandRows_due head row mem starts, started]
  · rw [State.event_due (head.due due) own _ started, State.live_quiet (State.startDue_quiet head.toQuiet)]

/-- Settles O6: the departure by whether a write is held, the completion, and an event by whether a head is due. -/
theorem headDepartureFreesEntry : Obligations.HeadDepartureFreesEntry := by
  refine ⟨fun s rest => ⟨State.departed_ready s rest, fun a ls n k => State.departed_holding⟩, State.complete_eq,
    fun i wf noAssert noRelease noCommand => ?_⟩
  obtain ⟨own, event⟩ := exec_event i wf noAssert noRelease noCommand
  refine ⟨own, fun s settled => ?_, fun s c rest head run => ?_, fun s c rest head due => ?_⟩
  · rw [event, State.event_settled settled]
  · rw [event, State.event_inRun head.toQuiet run]
  · rw [event]
    exact State.event_head head due own

/-! ## Skips and refusals of the Intake (O7) -/

theorem Command.judgement_unknown (unknown : c.known = none) (t : TakeoverState) :
    c.judgement t = some .unknownKind := by
  simp [Command.judgement, unknown]

theorem Command.judgement_badLength {k : Kind} (known : c.known = some k) (length : headerLength c.header ≠ k.words)
    (t : TakeoverState) : c.judgement t = some .badLength := by
  simp [Command.judgement, known, length]

theorem Command.judgement_lockout {k : Kind} (known : c.known = some k) (length : headerLength c.header = k.words)
    (noRestart : k ≠ .restart) (noTakeover : k ≠ .takeover) : c.judgement .lockout = some .lockout := by
  simp [Command.judgement, known, length, noRestart, noTakeover]

/-- Settles O7: each row does what a due start does, which skips a command that fails its mask before it judges it, and
refuses a judged one with the reason of the first test that fails. -/
theorem intakeSkipsAndRefuses : Obligations.IntakeSkipsAndRefuses := by
  intro p mem s c rest head starts passes refused
  have due : exec p.1 s = s.live State.startDue := commandRows_due head p mem starts
  have judged {r : RefusalReason} (pass : passes = true) (judgement : c.judgement s.takeover.state = some r) :
      refused r := due.trans (State.startHead_judged head _ Command.run rfl pass judgement)
  refine ⟨fun fails => ?_, fun pass unknown => ?_, fun k pass known => ⟨fun length => ?_, ?_⟩⟩
  · exact due.trans (State.startHead_skipped head _ Command.run rfl fails)
  · exact judged pass (Command.judgement_unknown unknown _)
  · exact judged pass (Command.judgement_badLength known length _)
  · intro length locked noRestart noTakeover
    refine judged pass ?_
    rw [locked]
    exact Command.judgement_lockout known length noRestart noTakeover

/-! ## MARK (O8) -/

/-- Settles O8: MARK's owner raises the event with the queue as the departure leaves it, and completes with code 0. -/
theorem markRaisesMark : Obligations.MarkRaisesMark := by
  intro s c rest h
  exact State.startHead_completed h _ runMark (ofKind_of h) rfl (by simp)

end Sys2Proof.Machine

/-!
PROOF. The display order (R45): its law as conditions on a list, and what the Scene Store's own operations keep of it.
-/

namespace Sys2Proof.Machine

section
variable {sc t : Scene} {n : Nat} {o : Obj}

/-! ## The law of the display order -/

/-- Parting a list by a test leaves it as it is just when no entry that passes stands behind one that fails. -/
theorem eq_filter_append_iff (p : Nat → Bool) (l : List Nat) :
    l = l.filter p ++ l.filter (fun n => !p n) ↔ l.Pairwise fun a b => p b = true → p a = true := by
  induction l with
  | nil => simp
  | cons a l ih =>
    rw [List.pairwise_cons]
    cases ha : p a with
    | true => simp [ha, ih]
    | false =>
      simp only [ha, List.filter_cons_of_neg, Bool.not_false, List.filter_cons_of_pos, Bool.false_eq_true,
        not_false_eq_true, imp_false, Bool.not_eq_true]
      constructor
      · intro h
        have none : l.filter p = [] := by
          cases hf : l.filter p with
          | nil => rfl
          | cons b bs =>
            rw [hf, List.cons_append, List.cons.injEq] at h
            have hb : b ∈ l.filter p := by rw [hf]; exact List.mem_cons_self ..
            have := (List.mem_filter.mp hb).2
            rw [← h.1, ha] at this
            cases this
        have fails : ∀ b ∈ l, p b = false := by simpa [List.filter_eq_nil_iff] using none
        exact ⟨fails, List.Pairwise.imp_of_mem (fun _ hb _ e => by simp [fails _ hb] at e)
          (List.pairwise_of_forall (R := fun _ _ => True) fun _ _ => trivial)⟩
      · rintro ⟨fails, -⟩
        rw [List.filter_eq_nil_iff.mpr (by simpa using fails),
          List.filter_eq_self.mpr (by simpa using fails), List.nil_append]

/-- The law of the display order: no slot twice, only defined slots, and no SLIDE-group entry behind one of the other
group (R45). -/
theorem Scene.orderLaw_iff (sc : Scene) : sc.orderLaw = true ↔
    sc.order.Nodup ∧ (∀ n ∈ sc.order, (sc.obj n).isSome)
      ∧ sc.order.Pairwise fun a b => sc.inGroup .slide b = true → sc.inGroup .slide a = true := by
  simp only [Scene.orderLaw, Scene.orderNodup, Scene.orderDefined, Scene.orderGrouped, Bool.and_eq_true,
    decide_eq_true_eq, List.all_eq_true, beq_iff_eq, and_assoc, eq_filter_append_iff]

/-- The group of the object in a slot, if the slot is defined. -/
def Scene.groupOf (sc : Scene) (n : Nat) : Option Group := (sc.obj n).map (·.group)

theorem Scene.groupOf_isSome (sc : Scene) (n : Nat) : (sc.groupOf n).isSome = (sc.obj n).isSome := by
  simp [Scene.groupOf]

theorem Scene.inGroup_eq (sc : Scene) (g : Group) (n : Nat) : sc.inGroup g n = (sc.groupOf n == some g) := by
  unfold Scene.inGroup Scene.groupOf
  cases sc.obj n <;> simp

theorem Scene.inGroup_congr (h : t.groupOf n = sc.groupOf n) (g : Group) : t.inGroup g n = sc.inGroup g n := by
  rw [Scene.inGroup_eq, Scene.inGroup_eq, h]

/-- Taking entries out of the order, with the slots that stay in their groups, keeps the law. -/
theorem Scene.orderLaw_of_sublist (h : sc.orderLaw = true) (sub : t.order.Sublist sc.order)
    (group : ∀ n ∈ t.order, t.groupOf n = sc.groupOf n) : t.orderLaw = true := by
  obtain ⟨nodup, defined, grouped⟩ := sc.orderLaw_iff.mp h
  refine t.orderLaw_iff.mpr ⟨nodup.sublist sub, fun n hn => ?_, ?_⟩
  · rw [← Scene.groupOf_isSome, group n hn, Scene.groupOf_isSome]
    exact defined n (sub.subset hn)
  · refine (grouped.sublist sub).imp_of_mem fun ha hb e => ?_
    rw [Scene.inGroup_congr (group _ ha), Scene.inGroup_congr (group _ hb)]
    exact e

/-- What leaves the order and every slot in its group keeps the law. -/
theorem Scene.orderLaw_congr (h : sc.orderLaw = true) (order : t.order = sc.order)
    (group : ∀ n, t.groupOf n = sc.groupOf n) : t.orderLaw = true :=
  Scene.orderLaw_of_sublist h (order ▸ List.Sublist.refl _) fun n _ => group n

theorem Scene.groupOf_of_unbound (h : (t.obj n).map Obj.unbound = (sc.obj n).map Obj.unbound) :
    t.groupOf n = sc.groupOf n := by
  have seen (u : Scene) : u.groupOf n = ((u.obj n).map Obj.unbound).map (·.group) := by
    unfold Scene.groupOf
    cases u.obj n <;> rfl
  rw [seen t, seen sc, h]

/-! ## Writes of slots -/

theorem Scene.groupOf_put (sc : Scene) (n m : Nat) (o : Option Obj) :
    (sc.put n o).groupOf m = if m = n ∧ n < 48 then o.map (·.group) else sc.groupOf m := by
  unfold Scene.groupOf
  rw [Scene.obj_put]
  split <;> rfl

theorem Scene.groupOf_modify (sc : Scene) (n m : Nat) {f : Obj → Obj} (hf : ∀ o, (f o).group = o.group) :
    (sc.modify n f).groupOf m = sc.groupOf m := by
  unfold Scene.groupOf
  rw [Scene.obj_modify]
  split
  · rename_i e
    rw [e]
    cases sc.obj n <;> simp [hf]
  · rfl

/-- A write of fields other than the group keeps the law. -/
theorem Scene.modify_ordered (h : sc.orderLaw = true) (n : Nat) {f : Obj → Obj} (hf : ∀ o, (f o).group = o.group) :
    (sc.modify n f).orderLaw = true :=
  Scene.orderLaw_congr h (by rw [Scene.modify_rest]) fun _ => Scene.groupOf_modify sc _ _ hf

/-- A write of a value that has the object's group keeps the law. -/
theorem Scene.modify_const_ordered {o' : Obj} (h : sc.orderLaw = true) (ho : sc.obj n = some o)
    (group : o'.group = o.group) : (sc.modify n fun _ => o').orderLaw = true := by
  refine Scene.orderLaw_congr h (by rw [Scene.modify_rest]) fun m => ?_
  unfold Scene.groupOf
  rw [Scene.obj_modify]
  split
  · rename_i e
    simp [e, ho, group]
  · rfl

theorem Scene.bind_ordered (h : sc.orderLaw = true) (n : Nat) (ch : Option Nat) : (sc.bind n ch).orderLaw = true :=
  Scene.orderLaw_congr h (by rw [Scene.bind_rest]) fun m => Scene.groupOf_of_unbound (Scene.bind_unbound sc n m ch)

/-- An undefined slot leaves the order (R44). -/
theorem Scene.undefine_ordered (h : sc.orderLaw = true) (n : Nat) : (sc.undefine n).orderLaw = true := by
  have order : (sc.undefine n).order = sc.order.filter (· ≠ n) := by rw [Scene.undefine_eq]
  refine Scene.orderLaw_of_sublist h (order ▸ List.filter_sublist) fun m hm => ?_
  rw [order, List.mem_filter, decide_eq_true_eq] at hm
  unfold Scene.groupOf
  rw [Scene.obj_undefine, if_neg hm.2]

/-- A slot taken out of the order alone (R47). -/
theorem Scene.unplace_ordered (h : sc.orderLaw = true) (n : Nat) :
    (sc.reorder (sc.order.filter (· ≠ n))).orderLaw = true := by
  rw [Scene.reorder_filter]
  exact Scene.orderLaw_of_sublist h List.filter_sublist fun _ _ => rfl

/-- DEFINE keeps the place of a slot whose group stands, and takes the slot out of the order otherwise (R43). -/
theorem Scene.define_ordered (h : sc.orderLaw = true) (hn : n < 48) (o : Obj) : (sc.define n o).orderLaw = true := by
  have groups (m : Nat) (hm : m ≠ n ∨ sc.groupOf n = some o.group) :
      (sc.put n (some o)).groupOf m = sc.groupOf m := by
    rw [Scene.groupOf_put]
    split
    · rename_i e
      rcases hm with hm | hm
      · exact absurd e.1 hm
      · rw [e.1, hm]
        rfl
    · rfl
  have kept : sc.inGroup o.group n = true ↔ sc.groupOf n = some o.group := by simp [Scene.inGroup_eq]
  unfold Scene.define
  dsimp only
  split
  · split
    · rename_i same
      exact Scene.orderLaw_congr h rfl fun m => groups m (.inr (kept.mp same))
    · exact Scene.orderLaw_of_sublist h List.filter_sublist fun m hm =>
        groups m (.inl (by simpa using (List.mem_filter.mp hm).2))
  · rename_i absent
    refine Scene.orderLaw_of_sublist h (List.Sublist.refl _) fun m hm => groups m (.inl ?_)
    rintro rfl
    exact absent (List.contains_iff_mem.mpr hm)

/-! ## Placing (R45, R46) -/

/-- The scene without a slot in its order. -/
def Scene.without (sc : Scene) (n : Nat) : Scene := { sc with order := sc.order.filter (· ≠ n) }

theorem Scene.without_ordered (h : sc.orderLaw = true) (n : Nat) : (sc.without n).orderLaw = true :=
  Scene.orderLaw_of_sublist h List.filter_sublist fun _ _ => rfl

/-- The order that remains without a slot has its SLIDE entries first. -/
theorem Scene.rest_parted (h : (sc.without n).orderLaw = true) :
    sc.order.filter (· ≠ n) =
      (sc.order.filter (· ≠ n)).filter (sc.inGroup .slide)
        ++ (sc.order.filter (· ≠ n)).filter fun k => !sc.inGroup .slide k :=
  (eq_filter_append_iff _ _).mpr ((sc.without n).orderLaw_iff.mp h).2.2

/-- Inserting an entry parts a list there: directly after the reference, or at the end when it is not listed. -/
theorem insertAfter_split (ref n : Nat) (l : List Nat) : ∃ pre post, pre ++ post = l
    ∧ insertAfter ref n l = pre ++ n :: post ∧ (ref ∈ l → pre.getLast? = some ref) := by
  induction l with
  | nil => exact ⟨[], [], rfl, rfl, by simp⟩
  | cons k l ih =>
    by_cases e : k = ref
    · exact ⟨[k], l, rfl, by simp [insertAfter, e], by simp [e]⟩
    · obtain ⟨pre, post, whole, inserted, last⟩ := ih
      refine ⟨k :: pre, post, by simp [whole], by simp [insertAfter, e, inserted], fun hm => ?_⟩
      have := last (by simpa [Ne.symm e] using hm)
      rw [List.getLast?_cons, this]
      rfl

/-- Where a position puts a slot of a group: the order that remains is parted there, with SLIDE entries alone ahead of
a SLIDE slot and none behind a MENU slot. -/
structure Scene.Parted (sc : Scene) (n : Nat) (g : Group) (p : Position) (pre post : List Nat) : Prop where
  whole : pre ++ post =
    (sc.order.filter (· ≠ n)).filter (sc.inGroup .slide)
      ++ (sc.order.filter (· ≠ n)).filter fun k => !sc.inGroup .slide k
  placed : sc.orderWith n g p = pre ++ n :: post
  ahead : g = .slide → ∀ k ∈ pre, sc.inGroup .slide k = true
  behind : g = .menu → ∀ k ∈ post, sc.inGroup .slide k = false

/-- Each position of each group parts the order that remains (R46). -/
theorem Scene.orderWith_parted (sc : Scene) (n : Nat) (g : Group) (p : Position) : ∃ pre post,
    sc.Parted n g p pre post
      ∧ (p = .bottom → g = .slide → pre = []) ∧ (p = .top → g = .menu → post = [])
      ∧ (p = .top → g = .slide → ∀ k ∈ post, sc.inGroup .slide k = false)
      ∧ (p = .bottom → g = .menu → ∀ k ∈ pre, sc.inGroup .slide k = true)
      ∧ ∀ r, p = .above r → r ∈ sc.order → r ≠ n → sc.inGroup .slide r = (g == .slide) →
          pre.getLast? = some r := by
  have back : ∀ k ∈ (sc.order.filter (· ≠ n)).filter (sc.inGroup .slide), sc.inGroup .slide k = true :=
    fun k hk => (List.mem_filter.mp hk).2
  have front : ∀ k ∈ (sc.order.filter (· ≠ n)).filter (fun k => !sc.inGroup .slide k),
      sc.inGroup .slide k = false := fun k hk => by simpa using (List.mem_filter.mp hk).2
  cases g with
  | slide =>
    cases p with
    | bottom => exact ⟨[], _, ⟨rfl, rfl, by simp, by simp⟩, by simp, by simp, by simp, by simp, by simp⟩
    | top =>
      exact ⟨_, _, ⟨rfl, rfl, fun _ => back, by simp⟩, by simp, by simp, fun _ _ => front, by simp, by simp⟩
    | above r =>
      obtain ⟨pre, post, whole, inserted, last⟩ :=
        insertAfter_split r n ((sc.order.filter (· ≠ n)).filter (sc.inGroup .slide))
      refine ⟨pre, post ++ _, ⟨by rw [← whole, List.append_assoc], ?_, fun _ k hk => ?_, by simp⟩, by simp, by simp,
        by simp, by simp, fun r' e hr hn hg => ?_⟩
      · simp only [Scene.orderWith]
        rw [inserted, List.append_assoc, List.cons_append]
      · exact back k (whole ▸ List.mem_append_left _ hk)
      · cases e
        exact last (by simp [hr, hn, hg])
  | menu =>
    cases p with
    | bottom =>
      exact ⟨_, _, ⟨rfl, rfl, by simp, fun _ => front⟩, by simp, by simp, by simp, fun _ _ => back, by simp⟩
    | top => exact ⟨_, [], ⟨by simp, rfl, by simp, by simp⟩, by simp, by simp, by simp, by simp, by simp⟩
    | above r =>
      obtain ⟨pre, post, whole, inserted, last⟩ :=
        insertAfter_split r n ((sc.order.filter (· ≠ n)).filter fun k => !sc.inGroup .slide k)
      refine ⟨_ ++ pre, post, ⟨by rw [← whole, List.append_assoc], ?_, by simp, fun _ k hk => ?_⟩, by simp, by simp,
        by simp, by simp, fun r' e hr hn hg => ?_⟩
      · simp only [Scene.orderWith]
        rw [inserted, List.append_assoc]
      · exact front k (whole ▸ List.mem_append_right _ hk)
      · cases e
        have := last (by simp [hr, hn, hg])
        rw [List.getLast?_append, this]
        rfl

/-- Placing a slot gives the law when the order that remains without it has the law (R45, R46). -/
theorem Scene.place_ordered (h : (sc.without n).orderLaw = true) (ho : sc.obj n = some o) (p : Position) :
    (sc.place n p).orderLaw = true := by
  simp only [Scene.place, ho]
  rw [Scene.reorder_eq]
  obtain ⟨pre, post, parted, -⟩ := sc.orderWith_parted n o.group p
  obtain ⟨nodup, defined, grouped⟩ := (sc.without n).orderLaw_iff.mp h
  have rest : pre ++ post = (sc.without n).order := parted.whole.trans (Scene.rest_parted h).symm
  have absent : n ∉ pre ++ post := by simp [rest, Scene.without]
  rw [← rest] at nodup defined grouped
  obtain ⟨ahead, behind, across⟩ := List.pairwise_append.mp grouped
  have slide : sc.inGroup .slide n = (o.group == .slide) := by simp [Scene.inGroup, ho]
  refine (Scene.orderLaw_iff _).mpr ⟨?_, ?_, ?_⟩
  · show (sc.orderWith n o.group p).Nodup
    rw [parted.placed, List.nodup_middle]
    exact List.nodup_cons.mpr ⟨absent, nodup⟩
  · show ∀ k ∈ sc.orderWith n o.group p, (sc.obj k).isSome
    intro k hk
    rw [parted.placed, List.mem_append, List.mem_cons] at hk
    rcases hk with hk | rfl | hk
    · exact defined k (List.mem_append_left _ hk)
    · simp [ho]
    · exact defined k (List.mem_append_right _ hk)
  · show (sc.orderWith n o.group p).Pairwise fun a b => sc.inGroup .slide b = true → sc.inGroup .slide a = true
    rw [parted.placed, List.pairwise_append, List.pairwise_cons]
    refine ⟨ahead, ⟨fun k hk e => ?_, behind⟩, fun a ha b hb e => ?_⟩
    · rw [slide]
      cases hg : o.group with
      | slide => rfl
      | menu =>
        rw [parted.behind hg k hk] at e
        cases e
    · rcases List.mem_cons.mp hb with rfl | hb
      · rw [slide] at e
        exact parted.ahead (by simpa using e) a ha
      · exact across a ha b hb e

/-- A slot placed again, or for the first time. -/
theorem Scene.replace_ordered (h : sc.orderLaw = true) (n : Nat) (p : Position) : (sc.place n p).orderLaw = true := by
  cases ho : sc.obj n with
  | none => simpa [Scene.place, ho] using h
  | some o => exact Scene.place_ordered (Scene.without_ordered h n) ho p

/-- An object put into a slot and placed there, whatever stood in the slot (R141). -/
theorem Scene.put_place_ordered (h : sc.orderLaw = true) (n : Nat) (o : Obj) (p : Position) :
    ((sc.put n (some o)).place n p).orderLaw = true := by
  cases hp : (sc.put n (some o)).obj n with
  | none =>
    have out : ¬ n < 48 := fun hn => by simp [Scene.obj_put, hn] at hp
    have same : sc.put n (some o) = sc := by
      unfold Scene.put
      rw [Vector.setIfInBounds_eq_of_size_le (by omega)]
    rw [same]
    exact Scene.replace_ordered h n p
  | some o' =>
    have rest : ((sc.put n (some o)).without n).orderLaw = true :=
      Scene.orderLaw_of_sublist (Scene.without_ordered h n) (List.Sublist.refl _) fun m hm => by
        have other : m ≠ n := by simpa using (List.mem_filter.mp hm).2
        exact (Scene.groupOf_put sc n m (some o)).trans (if_neg fun e => other e.1)
    exact Scene.place_ordered rest hp p

end

end Sys2Proof.Machine

/-!
PROOF. O58, the operations that keep the display order and leave what the laws of the banks and of the menu speak of.
-/

namespace Sys2Proof.Machine

/-! ## What the laws of the banks and of the menu speak of -/

/-- The back bank of the composition in flight, the banks, the open page with its focus and its stack, and whether a
BACK is in service. -/
structure BankMenu where
  back : Option Bank
  swapPending : Bool
  front : Bank
  page : Option Page
  focus : Option Nat
  stack : List Link
  backServed : Bool

def State.bankMenu (s : State) : BankMenu :=
  { back := s.composer.comp.map (·.back), swapPending := s.composer.swapPending, front := s.composer.front
    page := s.nav.page, focus := s.nav.focus, stack := s.nav.stack, backServed := s.backServed }

/-- From `s` to `t` the law of the display order is kept, and the banks and the menu stand. -/
structure State.Calm (s t : State) : Prop where
  view : t.bankMenu = s.bankMenu
  order : s.scene.orderLaw = true → t.scene.orderLaw = true

/-- The parts that neither law speaks of. -/
def Part.aside : List Part :=
  [.pending, .line, .free, .mem, .bridge, .motion, .seq, .takeover, .events]

section
variable {s t u : State}

theorem State.Calm.refl (s : State) : State.Calm s s := ⟨rfl, id⟩

theorem State.Calm.trans (h : State.Calm s t) (k : State.Calm t u) : State.Calm s u :=
  ⟨k.view.trans h.view, k.order ∘ h.order⟩

/-- An operation of the scene and of what the laws do not speak of, which keeps the display order. -/
theorem State.Calm.of_order (h : State.sameBut (.scene :: Part.aside) s t)
    (k : s.scene.orderLaw = true → t.scene.orderLaw = true) : State.Calm s t := by
  have composer : t.composer = s.composer := h .composer (by simp [Part.aside])
  have nav : t.nav = s.nav := h .nav (by simp [Part.aside])
  have intake : t.intake = s.intake := h .intake (by simp [Part.aside])
  exact ⟨by simp [State.bankMenu, State.backServed, composer, nav, intake], k⟩

theorem State.Calm.of_frame {ps : List Part} (h : State.sameBut ps s t)
    (aside : ∀ p ∈ ps, p ∈ Part.aside := by simp [Part.aside]) : State.Calm s t := by
  have frame := h.mono aside
  have scene : t.scene = s.scene := frame .scene (by simp [Part.aside])
  exact .of_order (h.mono fun p hp => List.mem_cons_of_mem _ (aside p hp)) (scene ▸ id)

/-- Freed channels and bindings (R77, R90). -/
theorem State.Freed.calm (h : State.Freed s t) : State.Calm s t := by
  refine .of_order (h.frame.mono (by simp [Part.aside])) fun ordered => ?_
  exact Scene.orderLaw_congr ordered (by rw [h.rest]) fun n => Scene.groupOf_of_unbound (h.objects n)

/-- Slots undefined and taken out of the order (R48). -/
theorem State.Undefined.calm {l : List Nat} (h : State.Undefined l s t) : State.Calm s t := by
  refine .of_order (h.frame.mono (by simp [Part.aside])) fun ordered => ?_
  refine Scene.orderLaw_of_sublist ordered (h.order ▸ List.filter_sublist) fun n hn => ?_
  rw [h.order, List.mem_filter] at hn
  exact Scene.groupOf_of_unbound (h.others n (by simpa using hn.2))

namespace State.Calm
theorem onScene (h : State.Calm s t) {f : Scene → Scene}
    (k : t.scene.orderLaw = true → (f t.scene).orderLaw = true) : State.Calm s (t.onScene f) :=
  h.trans ⟨rfl, k⟩
theorem onBridge (h : State.Calm s t) (f : Bridge → Bridge) : State.Calm s (t.onBridge f) := ⟨h.view, h.order⟩
theorem onMotion (h : State.Calm s t) (f : Motion → Motion) : State.Calm s (t.onMotion f) := ⟨h.view, h.order⟩
theorem onSeq (h : State.Calm s t) (f : Sequencer → Sequencer) : State.Calm s (t.onSeq f) := ⟨h.view, h.order⟩
theorem onTakeover (h : State.Calm s t) (f : Takeover → Takeover) : State.Calm s (t.onTakeover f) :=
  ⟨h.view, h.order⟩
theorem onEvents (h : State.Calm s t) (f : EventUnit → EventUnit) : State.Calm s (t.onEvents f) := ⟨h.view, h.order⟩
theorem raise (h : State.Calm s t) (e : Event) (slot : Option Nat) : State.Calm s (t.raise e slot) :=
  ⟨h.view, h.order⟩
theorem putChan (h : State.Calm s t) (n : Nat) (c : Channel) : State.Calm s (t.putChan n c) := ⟨h.view, h.order⟩
theorem startFetch (h : State.Calm s t) (kind : FetchKind) (addr words : Nat) :
    State.Calm s (t.startFetch kind addr words) := ⟨h.view, h.order⟩
end State.Calm

end

section
variable (s : State)

/-! ## Events, memory and the Bridge -/

theorem State.endStep_calm (old : State) : State.Calm s (s.endStep old) := by
  unfold State.endStep State.noteStatus
  split
  · exact (State.Calm.refl s).onEvents _
  · exact ((State.Calm.refl s).onEvents _).onEvents _

theorem State.noteStatus_calm (old : State) : State.Calm s (s.noteStatus old) := by
  unfold State.noteStatus
  split
  · exact .refl s
  · exact (State.Calm.refl s).onEvents _

theorem State.writeWords_calm (a : Nat) (ws : List Word) : State.Calm s (s.writeWords a ws) :=
  .of_frame (State.writeWords_frame s a ws)

theorem State.writeLanes_calm (a : Nat) (ls : List Lane) : State.Calm s (s.writeLanes a ls) :=
  .of_frame (State.writeLanes_frame ls s a)

theorem State.judgeGuard_calm (area : GuardArea) (a n : Nat) : State.Calm s (s.judgeGuard area a n) :=
  .of_frame (State.judgeGuard_frame s area a n)

theorem State.presentStatus_calm : State.Calm s s.presentStatus := ⟨rfl, id⟩

theorem State.choosePresented_calm : State.Calm s s.choosePresented := by
  unfold State.choosePresented
  dsimp only
  split
  · exact ((State.Calm.refl s).onEvents _).trans (State.presentStatus_calm _)
  · exact (State.Calm.refl s).onEvents _

theorem State.grantEvent_calm : State.Calm s s.grantEvent := by
  have h := s.choosePresented_calm
  unfold State.grantEvent
  dsimp only
  generalize s.choosePresented = u at h ⊢
  split
  · exact h
  · split
    · exact h
    · exact (h.trans (u.writeWords_calm _ _)).onBridge _
  · exact ((h.trans (u.writeWords_calm _ _)).trans (State.writeWords_calm _ _ _)).onEvents _
  · exact (h.trans (u.writeWords_calm _ _)).onEvents _

theorem State.grantTakeover_calm : State.Calm s s.grantTakeover := by
  unfold State.grantTakeover
  dsimp only
  split
  · exact .refl s
  · exact .refl s
  · split
    · exact ((s.writeWords_calm _ _).onTakeover _).onBridge _
    · exact (s.writeWords_calm _ _).onTakeover _
  · exact (State.Calm.refl s).onTakeover _
  · split
    · exact ((s.writeWords_calm _ _).onTakeover _).onBridge _
    · exact (s.writeWords_calm _ _).onTakeover _
  · split
    · exact .refl s
    · split
      · exact ((State.Calm.refl s).onTakeover _).onBridge _
      · exact (State.Calm.refl s).onTakeover _

theorem State.grantFetch_calm : State.Calm s s.grantFetch := by
  unfold State.grantFetch
  split
  · exact .refl s
  · dsimp only
    split
    · exact (State.Calm.refl s).onBridge _
    · exact ((State.Calm.refl s).onBridge _).onScene fun h => Scene.orderLaw_congr h rfl fun _ => rfl

theorem State.nextBurst_calm (k : Composition) (bursts : Nat) (h : s.composer.comp.map (·.back) = some k.back) :
    State.Calm s (s.nextBurst k bursts) := by
  have next (k' : Composition) (hk : k'.back = k.back) :
      State.Calm s (s.onComposer fun p => { p with comp := some k' }) :=
    ⟨by simp [State.bankMenu, State.backServed, h, hk], id⟩
  unfold State.nextBurst
  split
  · exact next { k with granted := k.granted + 1 } rfl
  · split
    · exact next { k with band := k.band + 1, granted := 0, reads := [] } rfl
    · exact (next { k with granted := k.granted + 1 } rfl).onBridge _

theorem State.grantCompose_calm : State.Calm s s.grantCompose := by
  unfold State.grantCompose
  split
  · exact .refl s
  · rename_i k hk
    dsimp only
    split
    · exact .refl s
    · exact s.nextBurst_calm _ _ (by simp [hk])
    · have written := s.writeWords_calm
      refine (written _ _).trans (State.nextBurst_calm _ _ _ ?_)
      exact (congrArg BankMenu.back (written _ _).view).trans (by simp [State.bankMenu, hk])

theorem State.grantInternal_calm : State.Calm s s.grantInternal := by
  unfold State.grantInternal
  split
  · exact .refl s
  · split
    · exact .refl s
    · rename_i c _
      refine State.Calm.onBridge ?_ _
      cases c with
      | event => exact s.grantEvent_calm
      | takeover => exact s.grantTakeover_calm
      | fetch => exact s.grantFetch_calm
      | compose => exact s.grantCompose_calm

/-! ## Taking requests, the Intake's queue -/

theorem State.forward_calm (f : Forwarded) : State.Calm s (s.forward f) := (State.Calm.refl s).onBridge _

theorem State.enqueue_calm (c : Command) : State.Calm s (s.enqueue c) := ⟨rfl, id⟩

theorem State.commandAt_calm (addr off : Nat) (lanes : List Lane) : State.Calm s (s.commandAt addr off lanes) := by
  unfold State.commandAt
  dsimp only
  split
  · exact ((State.Calm.refl s).raise _ _).onBridge _
  · split
    · exact (s.enqueue_calm _).onBridge _
    · exact (State.Calm.refl s).onBridge _

theorem State.statusAt_calm (addr off : Nat) (lanes : List Lane) : State.Calm s (s.statusAt addr off lanes) := by
  unfold State.statusAt
  dsimp only
  generalize hu : (if ((laneOffsets off lanes).any fun (o, l) => !isConsumerLane o l && l.enables != 0) then
    s.judgeGuard .status addr lanes.length else s) = u
  have h : State.Calm s u := by
    rw [← hu]
    split
    · exact s.judgeGuard_calm _ _ _
    · exact .refl s
  split
  · exact h.onBridge _
  · exact h

theorem State.accept_calm (r : Request) : State.Calm s (s.accept r) := by
  cases r with
  | read a es => exact s.forward_calm _
  | write a ls =>
    unfold State.accept
    dsimp only
    split
    · exact s.forward_calm _
    split
    · exact s.commandAt_calm _ _ _
    split
    · exact s.judgeGuard_calm _ _ _
    split
    · exact s.statusAt_calm _ _ _
    · exact s.forward_calm _

theorem State.takeRequest_calm (r : Request) : State.Calm s (s.takeRequest r) := by
  unfold State.takeRequest
  dsimp only
  split
  · exact s.accept_calm r
  · exact (State.Calm.refl s).onBridge _
  · exact (State.Calm.refl s).onBridge _

theorem State.acceptWaiting_calm (l : List Request) : State.Calm s (s.acceptWaiting l) := by
  induction l generalizing s with
  | nil => exact .refl s
  | cons r l ih =>
    unfold State.acceptWaiting
    split
    · exact (((State.Calm.refl s).onBridge _).trans (State.accept_calm _ r)).trans (ih _)
    · exact .refl s
    · exact .refl s

theorem State.release_calm : State.Calm s s.release :=
  ((State.Calm.refl s).onBridge _).trans (State.acceptWaiting_calm _ _)

theorem State.joinHeld_calm : State.Calm s s.joinHeld := by
  unfold State.joinHeld
  split
  · split
    · exact (s.enqueue_calm _).onBridge _
    · exact .refl s
  · exact .refl s

theorem State.dropHeld_calm : State.Calm s s.dropHeld := by
  unfold State.dropHeld
  split
  · dsimp only
    split
    · exact .refl s
    · exact (((State.Calm.refl s).raise _ _).onEvents _).onBridge _
  · exact .refl s

theorem State.busClock_calm : State.Calm s s.busClock := by
  unfold State.busClock
  split
  · split
    · exact (State.Calm.refl s).onBridge _
    · exact s.dropHeld_calm
  · exact .refl s

theorem State.departed_calm (rest : List Command) : State.Calm s (s.departed rest) := by
  have left : State.Calm s ((s.onIntake fun i => { i with queue := rest, inRun := true }).touchStatus) := ⟨rfl, id⟩
  exact left.trans (State.joinHeld_calm _)

theorem State.giveNotices_calm (a : Nat) (lanes : List Lane) : State.Calm s (s.giveNotices a lanes) := by
  have noted : State.Calm s (s.onNav fun v => v.notice a lanes) := ⟨rfl, id⟩
  rw [State.giveNotices_eq]
  exact (noted.trans (.of_frame (State.slidesNoticed_frame _ a lanes))).trans
    (.of_frame (State.consumed_frame _ a lanes))

theorem State.forwardedGrant_calm : State.Calm s s.forwardedGrant := by
  unfold State.forwardedGrant
  split
  · split
    · unfold State.grantForwarded
      dsimp only
      split
      · exact (((State.Calm.refl s).onBridge _).onBridge _).trans (State.release_calm _)
      · split
        · exact ((s.judgeGuard_calm _ _ _).onBridge _).trans (State.release_calm _)
        · exact (((s.writeLanes_calm _ _).trans (State.giveNotices_calm _ _ _)).onBridge _).trans
            (State.release_calm _)
    · exact .refl s
  · exact .refl s

end

end Sys2Proof.Machine

namespace Sys2Proof.Machine

section
variable (s : State)

/-! ## Motions (04) -/

theorem State.modify_calm (n : Nat) {f : Obj → Obj} (hf : ∀ o, (f o).group = o.group) :
    State.Calm s (s.onScene fun sc => sc.modify n f) :=
  (State.Calm.refl s).onScene fun h => Scene.modify_ordered h n hf

theorem State.freeChannel_calm (n : Nat) : State.Calm s (s.freeChannel n) := by
  unfold State.freeChannel
  dsimp only
  refine State.Calm.putChan ?_ _ _
  split
  · exact (State.Calm.refl s).onScene fun h => Scene.bind_ordered h _ _
  · exact .refl s

theorem State.silentHalt_calm (n : Nat) : State.Calm s (s.silentHalt n) := (State.silentHalt_freed s n).calm

theorem State.undefineSlot_calm (n : Nat) : State.Calm s (s.undefineSlot n) := (State.undefineSlot_undefined s n).calm

theorem Obj.moveTo_group (o : Obj) (m : Moved) (view : Bool) (e : Ends) : (o.moveTo m view e).group = o.group := by
  have clampX (o : Obj) : o.reclampX.group = o.group := by
    unfold Obj.reclampX
    split <;> rfl
  have clampY (o : Obj) : o.reclampY.group = o.group := by
    unfold Obj.reclampY
    split <;> rfl
  unfold Obj.moveTo
  dsimp only
  split
  · rw [clampY]
    split
    · rw [clampX]
      rfl
    · rfl
  · split
    · rw [clampX]
      rfl
    · rfl

theorem State.writeMoved_calm (c : Channel) (e : Ends) : State.Calm s (s.writeMoved c e) := by
  unfold State.writeMoved
  split
  · exact s.modify_calm _ fun o => Obj.moveTo_group o _ _ _
  · exact .refl s

theorem State.applyRequest_calm (r : MotionRequest) (owner : Owner) (slot : Option Nat) :
    State.Calm s (s.applyRequest r owner slot) := by
  unfold State.applyRequest
  split
  · exact .refl s
  · dsimp only
    split
    · exact ((State.Calm.refl s).onScene fun h => Scene.bind_ordered h _ _).putChan _ _
    · exact (State.Calm.refl s).putChan _ _

theorem State.request_calm {s t : State} {r : MotionRequest} {owner : Owner} (h : s.request r owner = some t) :
    State.Calm s t := by
  unfold State.request at h
  split at h
  · cases h
  · cases h
    exact s.applyRequest_calm r owner none

theorem State.request_getD_calm (r : MotionRequest) (owner : Owner) : State.Calm s ((s.request r owner).getD s) := by
  cases h : s.request r owner with
  | none => exact .refl s
  | some t => exact State.request_calm h

theorem State.panRequest_calm : State.Calm s s.panRequest := by
  unfold State.panRequest
  split
  · exact s.request_getD_calm _ _
  · exact .refl s

theorem State.rewind_calm (n : Nat) : State.Calm s (s.rewind n) := by
  unfold State.rewind
  dsimp only
  split
  · exact .refl s
  · refine State.Calm.putChan ?_ _ _
    split
    · exact s.modify_calm _ fun o => Obj.moveTo_group o _ _ _
    · exact .refl s

theorem State.rewindAwaited_calm : State.Calm s s.rewindAwaited := by
  have first : State.Calm s (if s.seq.await5 then s.rewind 5 else s) := by
    split
    · exact s.rewind_calm 5
    · exact .refl s
  unfold State.rewindAwaited
  dsimp only
  split
  · exact first.trans (State.rewind_calm _ 6)
  · exact first

/-! ## The show (07) -/

theorem State.loadBegin_calm (j : Nat) (slot : Option Nat) : State.Calm s (s.loadBegin j slot) :=
  .of_frame (State.loadBegin_frame s j slot)

theorem State.undefineShown_calm : State.Calm s s.undefineShown := by
  unfold State.undefineShown
  split
  · exact s.undefineSlot_calm _
  · exact .refl s

theorem State.undefineIf_calm (n : Nat) : State.Calm s (s.undefineIf n) := (s.undefineIf_undefined n).calm

theorem State.stopShow_calm : State.Calm s s.stopShow := by
  have halted : State.Calm s (((s.silentHalt 5).silentHalt 6).silentHalt 7) :=
    ((s.silentHalt_calm 5).trans (State.silentHalt_calm _ 6)).trans (State.silentHalt_calm _ 7)
  have undefined := (halted.trans (State.undefineIf_calm _ s.seq.setup.slotA)).trans
    (State.undefineIf_calm _ s.seq.setup.slotB)
  unfold State.stopShow
  dsimp only
  split
  · exact ((undefined.trans (.of_frame (State.releaseAll_frame _).1)).onSeq _).onTakeover _
  · exact (undefined.onSeq _).onTakeover _

theorem State.changeComplete_calm (kind : Nat) (snapped : Bool) (slot : Option Nat) :
    State.Calm s (s.changeComplete kind snapped slot) := by
  have shown (f : Sequencer → Sequencer) (e : Event) : State.Calm s ((s.undefineShown.onSeq f).raise e slot) :=
    (s.undefineShown_calm.onSeq f).raise e slot
  unfold State.changeComplete
  dsimp only
  split
  · split
    · exact (shown _ _).onSeq _
    · exact (shown _ _).trans (State.panRequest_calm _)
  · exact shown _ _

theorem State.notice_calm (n : Nat) (snapped : Bool) (slot : Option Nat) : State.Calm s (s.notice n snapped slot) := by
  unfold State.notice
  dsimp only
  split
  · exact .refl s
  · split
    · exact (State.Calm.refl s).onSeq _
    · exact ((State.Calm.refl s).onSeq _).trans (State.changeComplete_calm _ _ _ _)

theorem State.reportEnd_calm (n : Nat) (reason : EndReason) (abrupt : Bool) (slot : Option Nat) :
    State.Calm s (s.reportEnd n reason abrupt slot) := by
  unfold State.reportEnd
  dsimp only
  split
  · exact (State.Calm.refl s).raise _ _
  · exact .refl s

theorem State.endMotion_calm (n : Nat) (reason : EndReason) (abrupt snapped : Bool) (done shown : Option Nat) :
    State.Calm s (s.endMotion n reason abrupt snapped done shown) := by
  have ended := (s.reportEnd_calm n reason abrupt done).trans (State.freeChannel_calm _ n)
  unfold State.endMotion
  dsimp only
  split
  · exact ended.trans (State.notice_calm _ _ _ _)
  · exact ended

theorem State.skipSlide_calm (i : Nat) (reason : SkipReason) : State.Calm s (s.skipSlide i reason) := by
  have skipped (f : Sequencer → Sequencer) (e : Event) : State.Calm s ((s.onSeq f).raise e none) :=
    ((State.Calm.refl s).onSeq f).raise e none
  unfold State.skipSlide
  dsimp only
  split
  · exact ((skipped _ _).trans (State.stopShow_calm _)).raise _ _
  · split
    · exact (skipped _ _).trans (State.loadBegin_calm _ _ _)
    · split
      · exact (((skipped _ _).onSeq _).onTakeover _).raise _ _
      · exact ((skipped _ _).trans (State.stopShow_calm _)).raise _ _

theorem State.countFree_calm : State.Calm s s.countFree := by
  unfold State.countFree
  split
  · exact ⟨rfl, id⟩
  · exact .refl s

theorem State.transitionRequests_calm (d : Descriptor) (t : Transition) (width : Nat) (x : Int) :
    State.Calm s (s.transitionRequests d t width x).1 := by
  unfold State.transitionRequests
  dsimp only
  split
  · exact .refl s
  · rename_i s1 h1
    have first := State.request_calm h1
    split
    · exact first
    · exact first
    · split
      · rename_i s2 h2
        exact first.trans (State.request_calm h2)
      · exact first.trans (s1.silentHalt_calm 6)

theorem State.transition_calm (d : Descriptor) (t : Transition) (width : Nat) (x : Int) :
    State.Calm s (s.transition d t width x) := by
  unfold State.transition
  dsimp only
  have halted := (s.silentHalt_calm 7).onSeq fun q => { q with panOwed := false }
  generalize (s.silentHalt 7).onSeq (fun q => { q with panOwed := false }) = s1 at halted ⊢
  split
  · exact halted.trans (s1.changeComplete_calm _ _ _)
  · have requested := halted.trans (s1.transitionRequests_calm d t width x)
    generalize s1.transitionRequests d t width x = r at requested ⊢
    split
    · exact requested.onSeq _
    · refine requested.trans (.trans ?_ (State.changeComplete_calm _ _ _ _))
      exact r.1.modify_calm _ fun _ => rfl

theorem State.startSlide_calm (bytes : List Byte) : State.Calm s (s.startSlide bytes) := by
  unfold State.startSlide
  generalize s.composer.canvasSize s.freeCount = size
  obtain ⟨width, height⟩ := size
  dsimp only
  generalize (descriptorOf bytes).box width height = box
  obtain ⟨w, h, x, y⟩ := box
  refine State.Calm.trans (((s.countFree_calm.onScene fun h => ?_).onSeq _).onTakeover _) (State.transition_calm _ _ _ _ _)
  exact Scene.orderLaw_congr (Scene.put_place_ordered h _ _ _) rfl fun _ => rfl

theorem State.descriptorRead_calm (r : DescriptorRead) (bytes : List Byte) :
    State.Calm s (s.descriptorRead r bytes) := by
  have ended (f : Sequencer → Sequencer) : State.Calm s (s.onSeq f) := (State.Calm.refl s).onSeq f
  unfold State.descriptorRead
  dsimp only
  split
  · exact ended _
  split
  · split
    · exact (ended _).trans (State.loadBegin_calm _ _ _)
    · exact ended _
  · split
    · exact (ended _).trans (State.skipSlide_calm _ _ _)
    · exact (ended _).trans (State.startSlide_calm _ _)

theorem State.advance_calm : State.Calm s s.advance := by
  unfold State.advance
  dsimp only
  split
  · exact .refl s
  · split
    · exact ((State.Calm.refl s).onSeq _).trans (State.loadBegin_calm _ _ _)
    · exact (State.Calm.refl s).raise _ _

theorem State.begin_calm : State.Calm s s.begin := by
  have first : State.Calm s s.takeFirstWrite := by
    unfold State.takeFirstWrite
    split
    · exact s.presentStatus_calm
    · exact .refl s
  have owed (u : State) : State.Calm u u.takeOwedAdvance := by
    unfold State.takeOwedAdvance
    split
    · exact ((State.Calm.refl u).onSeq _).trans (State.advance_calm _)
    · exact .refl u
  exact (first.trans (owed _)).trans (State.noteStatus_calm _ _)

/-! ## The menu's writes (06) -/

theorem State.setVisible_calm (n : Nat) (v : Bool) : State.Calm s (s.setVisible n v) := s.modify_calm n fun _ => rfl

theorem State.showFocusSlot_calm (slot : Option Nat) (v : Bool) : State.Calm s (s.showFocusSlot slot v) := by
  unfold State.showFocusSlot
  split
  · exact s.setVisible_calm _ _
  · exact .refl s

theorem State.showFocusSlots_calm (l : List Button) (v : Bool) :
    State.Calm s (l.foldl (fun t b => t.showFocusSlot b.focusSlot v) s) := by
  induction l generalizing s with
  | nil => exact .refl s
  | cons b l ih => exact (s.showFocusSlot_calm _ _).trans (ih _)

theorem Obj.atButton_group (o : Obj) (cmdw : Nat) (b : Button) (margin : Nat) :
    (o.atButton cmdw b margin).group = o.group := by
  unfold Obj.atButton
  dsimp only
  split <;> rfl

theorem Obj.jump_group (o : Obj) (cmdw : Nat) (b : Button) (margin : Nat) :
    (o.jump cmdw (b.grown margin)).group = o.group := by rw [Obj.jump_grown, Obj.atButton_group]

theorem State.jump_calm (n cmdw : Nat) (b : Button) (margin : Nat) :
    State.Calm s (s.onScene fun sc => sc.modify n fun o => o.jump cmdw (b.grown margin)) :=
  s.modify_calm n fun o => o.jump_group cmdw b margin

theorem State.glide_calm (p : Page) (g : Nat) : State.Calm s (s.glide p g) := by
  unfold State.glide
  split
  · exact s.request_getD_calm _ _
  · exact .refl s

/-- The scene at an installation keeps the order: the highlight goes to the top of its group when it is unplaced
(R118). -/
theorem State.dressPage_calm (old : Option Page) (f : Option Nat) (p : Page) (g : Option Nat) :
    State.Calm s (s.dressPage old f p g) := by
  unfold State.dressPage
  extract_lets s1 s2 s3 s4 s5 s6 s7 s8
  have h1 : State.Calm s s1 := s.silentHalt_calm 0
  have h2 : State.Calm s s2 := by
    unfold s2
    split
    · exact h1.trans (s1.silentHalt_calm _)
    · exact h1
  have h3 : State.Calm s s3 := by
    unfold s3
    split
    · exact h2.trans (s2.jump_calm _ _ _ _)
    · exact h2
  have h4 : State.Calm s s4 := by
    unfold s4
    split
    · split
      · exact h3.trans (s3.setVisible_calm _ _)
      · exact h3
    · exact h3
  have h5 : State.Calm s s5 := h4.trans (s4.setVisible_calm _ _)
  have h6 : State.Calm s s6 := by
    unfold s6
    split
    · exact h5
    · exact h5.onScene fun h => Scene.replace_ordered h _ _
  exact ((h6.trans (s6.showFocusSlot_calm _ _)).trans (s7.showFocusSlots_calm _ _)).trans (s8.showFocusSlot_calm _ _)

/-! ## The tick (04, 07) -/

theorem State.snap_calm (n : Nat) (slot : Option Nat) : State.Calm s (s.snap n slot) := by
  unfold State.snap
  dsimp only
  split
  · exact .refl s
  · exact ((s.writeMoved_calm _ _).putChan _ _).trans (State.endMotion_calm _ _ _ _ _ _ _)

theorem State.tickChannel_calm (n : Nat) : State.Calm s (s.tickChannel n) := by
  unfold State.tickChannel
  dsimp only
  split
  · exact .refl s
  split
  · exact (State.Calm.refl s).putChan _ _
  · exact s.endMotion_calm _ _ _ _ _ _
  · unfold State.stepMotion
    dsimp only
    split
    · exact ((s.writeMoved_calm _ _).putChan _ _).trans (State.endMotion_calm _ _ _ _ _ _ _)
    · exact (s.writeMoved_calm _ _).putChan _ _

theorem State.tickSequencer_calm : State.Calm s s.tickSequencer := by
  unfold State.tickSequencer
  dsimp only
  split
  · exact (State.Calm.refl s).onSeq _
  · exact .refl s

theorem State.snapAwaited_calm (slot : Option Nat) : State.Calm s (s.snapAwaited slot) := by
  have first : State.Calm s (if s.seq.await5 then s.snap 5 slot else s) := by
    split
    · exact s.snap_calm 5 slot
    · exact .refl s
  unfold State.snapAwaited
  dsimp only
  split
  · exact first.trans (State.snap_calm _ 6 slot)
  · exact first

/-! ## Takeover and resume (08) -/

theorem State.startSave_calm : State.Calm s s.startSave := ⟨rfl, id⟩

theorem State.applyTransitionFlag_calm (r : SaveRecord) (slot : Option Nat) :
    State.Calm s (s.applyTransitionFlag r slot) := by
  unfold State.applyTransitionFlag
  split
  · exact .refl s
  split
  · exact s.rewindAwaited_calm
  · exact s.snapAwaited_calm slot

theorem State.applyJump_calm (j : Option Nat) (slot : Option Nat) : State.Calm s (s.applyJump j slot) := by
  cases j with
  | none => exact .refl s
  | some j =>
    have snapped : State.Calm s (if s.seq.state = .changing then s.snapAwaited slot else s) := by
      split
      · exact s.snapAwaited_calm slot
      · exact .refl s
    unfold State.applyJump
    exact ((snapped.onSeq _).trans (State.loadBegin_calm _ _ _)).onTakeover _

theorem State.takeUpLoad_calm : State.Calm s s.takeUpLoad := by
  unfold State.takeUpLoad
  split
  · split
    · exact s.loadBegin_calm _ _
    · exact .refl s
  · split
    · exact s.loadBegin_calm _ _
    · exact .refl s
  · exact .refl s

/-- The objects of a record that passes are of the SLIDE group (R166). -/
theorem SaveRecord.objects_slide {cmdw placed : Nat} {l : List SavedObject}
    (h : firstBad (objectEntryOk cmdw placed) [] l 0 = none) : ∀ e ∈ l, e.obj.group = .slide := by
  intro e he
  obtain ⟨a, b, rfl⟩ := List.append_of_mem he
  have := firstBad_none h _ _ _ rfl
  simp only [objectEntryOk, Bool.and_eq_true, beq_iff_eq, and_assoc] at this
  exact this.2.2.1

/-- An installed record puts its placed objects, all of the SLIDE group, ahead of what was in the order (R167). -/
theorem State.installRecord_calm (r : SaveRecord) (h : s.recordFault r = none) : State.Calm s (s.installRecord r) := by
  obtain ⟨frame, saved, others, ⟨front, order, nodup, members, -⟩, -⟩ := (State.installRecord_installed s h).1
  have slides := SaveRecord.objects_slide (SaveRecord.passes h).2.1
  refine .of_order (frame.mono (by simp [Part.aside])) fun ordered => ?_
  generalize s.installRecord r = t at saved others order
  obtain ⟨distinct, defined, grouped⟩ := s.scene.orderLaw_iff.mp ordered
  have ahead : ∀ n ∈ front, ∃ e ∈ r.objects, e.slot = n ∧ t.obj n = some e.obj := by
    intro n hn
    obtain ⟨e, he, rfl, -⟩ := (members n).mp hn
    exact ⟨e, he, rfl, saved e he⟩
  have behind : ∀ n ∈ s.scene.order.filter (fun n => !(r.objects.map (·.slot)).contains n),
      n ∈ s.scene.order ∧ n ∉ r.objects.map (·.slot) := by
    intro n hn
    simpa [List.mem_filter] using hn
  have same (n : Nat) (hn : n ∉ r.objects.map (·.slot)) : t.scene.groupOf n = s.scene.groupOf n :=
    congrArg (Option.map fun o : Obj => o.group) (others n hn)
  refine (Scene.orderLaw_iff _).mpr ⟨?_, fun n hn => ?_, ?_⟩
  · rw [order, List.nodup_append]
    refine ⟨nodup, distinct.filter _, fun a ha b hb e => ?_⟩
    obtain ⟨x, hx, rfl, -⟩ := ahead a ha
    exact (behind b hb).2 (e ▸ List.mem_map_of_mem hx)
  · rw [order, List.mem_append] at hn
    rcases hn with hn | hn
    · obtain ⟨e, -, -, ho⟩ := ahead n hn
      exact Option.isSome_iff_exists.mpr ⟨_, ho⟩
    · rw [← Scene.groupOf_isSome, same n (behind n hn).2, Scene.groupOf_isSome]
      exact defined n (behind n hn).1
  · have front_slide : ∀ a ∈ front, t.scene.inGroup .slide a = true := by
      intro a ha
      obtain ⟨e, he, -, ho⟩ := ahead a ha
      have ho : t.scene.obj a = some e.obj := ho
      simp [Scene.inGroup, ho, slides e he]
    rw [order, List.pairwise_append]
    refine ⟨List.Pairwise.imp_of_mem (fun ha _ _ _ => front_slide _ ha)
      (List.pairwise_of_forall (R := fun _ _ => True) fun _ _ => trivial), ?_, fun a ha _ _ _ => front_slide a ha⟩
    refine (grouped.sublist List.filter_sublist).imp_of_mem fun ha hb e => ?_
    rw [Scene.inGroup_congr (same _ (behind _ ha).2), Scene.inGroup_congr (same _ (behind _ hb).2)]
    exact e

end

end Sys2Proof.Machine

/-!
PROOF. O58, the operations that change the banks, the open page or the command in service.
-/

namespace Sys2Proof.Machine

/-! ## Keeping the laws -/

/-- From `s` to `t` the laws of the display order, of the banks and of the menu are kept. -/
structure State.Upholds (s t : State) : Prop where
  order : s.scene.orderLaw = true → t.scene.orderLaw = true
  bank : s.bankLaw = true → t.bankLaw = true
  menu : s.menuLaw = true → t.menuLaw = true

/-- The law of the menu but for a BACK in service: the focus names an enabled button of the open page, there is no
focus and no record while no page is open, and the stack has its bound (R117, R124). -/
structure Navigator.Sound (v : Navigator) : Prop where
  focus : ∀ p, v.page = some p → ∀ f, v.focus = some f → p.enabled f = true
  closed : v.page = none → v.focus = none ∧ v.stack = []
  bound : v.stack.length ≤ 8

/-- A BACK may be in service: a page is open, and the record it has popped has its place (R126). -/
def Navigator.Popped (v : Navigator) : Prop := v.page.isSome ∧ v.stack.length < 8

section
variable {s t u : State}

theorem State.menuLaw_iff (s : State) :
    s.menuLaw = true ↔ s.nav.Sound ∧ (s.backServed = true → s.nav.Popped) := by
  have split : s.menuLaw = true ↔
      ((∀ p, s.nav.page = some p → ∀ f, s.nav.focus = some f → p.enabled f = true)
        ∧ (s.nav.page = none → s.nav.focus = none ∧ s.nav.stack = [] ∧ s.backServed = false))
      ∧ s.nav.stack.length ≤ 8 ∧ (s.backServed = true → s.nav.stack.length < 8) := by
    have served (q : Prop) : (!s.backServed) = true ∨ q ↔ (s.backServed = true → q) := by
      cases s.backServed <;> simp
    have capacity : Config.stackCapacity = 8 := rfl
    unfold State.menuLaw
    cases s.nav.page <;>
      simp only [Bool.and_eq_true, Bool.or_eq_true, decide_eq_true_eq, served, capacity, and_assoc] <;>
      simp [Option.all_eq_true, and_assoc]
  rw [split]
  constructor
  · rintro ⟨⟨focus, closed⟩, bound, popped⟩
    refine ⟨⟨focus, fun h => ⟨(closed h).1, (closed h).2.1⟩, bound⟩, fun served => ⟨?_, popped served⟩⟩
    cases hp : s.nav.page with
    | none => simp [(closed hp).2.2] at served
    | some p => rfl
  · rintro ⟨⟨focus, closed, bound⟩, popped⟩
    refine ⟨⟨focus, fun h => ⟨(closed h).1, (closed h).2, ?_⟩⟩, bound, fun served => (popped served).2⟩
    by_contra served
    have := (popped (by simpa using served)).1
    simp [h] at this

theorem State.bankLaw_iff (s : State) : s.bankLaw = true ↔
    ∀ back, s.bankMenu.back = some back → s.composer.swapPending = false ∧ back ≠ s.composer.front := by
  unfold State.bankLaw State.bankMenu
  cases s.composer.comp <;> simp

theorem State.bankLaw_none (h : s.composer.comp = none) : s.bankLaw = true := by simp [State.bankLaw, h]

theorem State.Upholds.refl (s : State) : State.Upholds s s := ⟨id, id, id⟩

theorem State.Upholds.trans (h : State.Upholds s t) (k : State.Upholds t u) : State.Upholds s u :=
  ⟨k.order ∘ h.order, k.bank ∘ h.bank, k.menu ∘ h.menu⟩

theorem State.Calm.upholds (h : State.Calm s t) : State.Upholds s t := by
  have page : t.nav.page = s.nav.page := congrArg BankMenu.page h.view
  have focus : t.nav.focus = s.nav.focus := congrArg BankMenu.focus h.view
  have stack : t.nav.stack = s.nav.stack := congrArg BankMenu.stack h.view
  have served : t.backServed = s.backServed := congrArg BankMenu.backServed h.view
  have swap : t.composer.swapPending = s.composer.swapPending := congrArg BankMenu.swapPending h.view
  have front : t.composer.front = s.composer.front := congrArg BankMenu.front h.view
  refine ⟨h.order, ?_, ?_⟩
  · rw [State.bankLaw_iff, State.bankLaw_iff, h.view, swap, front]
    exact id
  · unfold State.menuLaw
    rw [page, focus, stack, served]
    exact id

/-- An operation that leaves the banks. -/
theorem State.Upholds.of_composer (h : t.composer = s.composer) (order : s.scene.orderLaw = true → t.scene.orderLaw = true)
    (menu : s.menuLaw = true → t.menuLaw = true) : State.Upholds s t :=
  ⟨order, by unfold State.bankLaw; rw [h]; exact id, menu⟩

/-- A command that is no BACK goes into service, or the command in service ends. -/
theorem State.Upholds.of_intake (f : Intake → Intake)
    (h : (s.onIntake f).backServed = true → s.backServed = true) : State.Upholds s (s.onIntake f) := by
  refine .of_composer rfl id fun law => ?_
  obtain ⟨sound, popped⟩ := s.menuLaw_iff.mp law
  exact (State.menuLaw_iff _).mpr ⟨sound, popped ∘ h⟩

end

section
variable (s : State)

theorem State.complete_upholds (code : Fin 4) : State.Upholds s (s.complete code) :=
  State.Upholds.of_intake (s := s) (fun i => { i with inService := none, code := code, inRun := false }) (by simp [State.backServed])

theorem State.setCode_calm (code : Fin 4) : State.Calm s (s.setCode code) := ⟨rfl, id⟩

theorem State.endRun_calm : State.Calm s s.endRun := ⟨rfl, id⟩

theorem State.keepRun_calm : State.Calm s s.keepRun := by
  unfold State.keepRun
  split
  · exact ⟨rfl, id⟩
  · exact .refl s

theorem State.serve_upholds (slot : Nat) {op : ServiceOp} (h : ∀ addr button awaits, op ≠ .openPage .back addr button awaits) :
    State.Upholds s (s.serve slot op) := by
  refine .of_intake _ fun served => ?_
  unfold State.backServed at served
  split at served
  · rename_i e
    cases e
    exact absurd rfl (h _ _ _)
  · cases served

/-! ## The banks (R96, R97) -/

theorem Bank.other_ne (bank : Bank) : bank.other ≠ bank := by cases bank <;> decide

/-- The flip waits for the composition, so it never meets one in flight (R97). -/
theorem State.tickComposer_upholds : State.Upholds s s.tickComposer := by
  refine ⟨id, fun law => ?_, id⟩
  rw [State.bankLaw_iff] at law ⊢
  intro back hb
  obtain ⟨swap, ne⟩ := law back hb
  refine ⟨rfl, ?_⟩
  show back ≠ if s.composer.swapPending then s.composer.front.other else s.composer.front
  simpa [swap] using ne

/-- A composition starts in the bank that is not in front, and only while no swap is pending (R99, R100). -/
theorem State.settle_upholds : State.Upholds s s.settle := by
  unfold State.settle
  split
  · exact .refl s
  · rename_i setup startable
    have idle : s.composer.swapPending = false := by
      unfold State.startable at startable
      repeat' split at startable
      · cases startable
      · rename_i h
        exact h.2.2.1
      · cases startable
    refine ⟨fun h => Scene.orderLaw_congr h rfl fun _ => rfl, fun _ => (State.bankLaw_iff _).mpr ?_, id⟩
    rintro back hb
    obtain rfl : s.composer.front.other = back := Option.some.inj hb
    exact ⟨idle, Bank.other_ne _⟩

theorem State.tickPart_upholds (p : TickPart) : State.Upholds s (s.tickPart p) := by
  cases p with
  | channel n => exact (s.tickChannel_calm n.val).upholds
  | composer => exact s.tickComposer_upholds
  | sequencer => exact s.tickSequencer_calm.upholds

theorem State.tickParts_upholds (l : List TickPart) : State.Upholds s (l.foldl State.tickPart s) := by
  induction l generalizing s with
  | nil => exact .refl s
  | cons p l ih => exact (s.tickPart_upholds p).trans (ih _)

theorem State.frameTick_upholds (order : List TickPart) : State.Upholds s (s.frameTick order) :=
  (s.tickParts_upholds _).trans (State.settle_upholds _)

/-- A new setup while no composition is in flight (R95). -/
theorem State.applyCanvas_upholds (c : CanvasSetup) (h : s.composer.comp = none) :
    State.Upholds s (s.applyCanvas c) :=
  ⟨fun k => Scene.orderLaw_congr k rfl fun _ => rfl, fun _ => State.bankLaw_none h, id⟩

/-! ## DRAIN, COPY and SAVE (R160 to R163, R170) -/

theorem State.marked_calm : State.Calm s (s.onScene fun sc => { sc with mark := true }) :=
  (State.Calm.refl s).onScene fun h => Scene.orderLaw_congr h rfl fun _ => rfl

theorem State.copyDone_upholds : State.Upholds s s.copyDone := by
  unfold State.copyDone
  dsimp only
  have entered (f : Takeover → Takeover) (e : Event) (slot : Option Nat) : State.Calm s
      (((s.onTakeover f).onScene fun sc => { sc with mark := true }).raise e slot) :=
    (((State.Calm.refl s).onTakeover f).trans (State.marked_calm _)).raise e slot
  split
  · exact (entered _ _ _).upholds.trans (State.complete_upholds _ 0)
  · exact ((entered _ _ _).trans (State.endRun_calm _)).upholds

theorem State.startCopy_upholds : State.Upholds s s.startCopy := by
  unfold State.startCopy
  dsimp only
  split
  · exact ((State.Calm.refl s).onTakeover _).upholds.trans (State.copyDone_upholds _)
  · exact (((State.Calm.refl s).onTakeover _).onTakeover _).upholds

theorem State.silentHalts_calm (l : List Nat) : State.Calm s (l.foldl State.silentHalt s) :=
  (State.silentHalts_freed l s).calm

theorem State.saveDone_upholds (slots channels : List Nat) : State.Upholds s (s.saveDone slots channels) := by
  have undefined := (s.silentHalts_calm channels).trans (State.undefineSlots_undefined slots _).calm
  exact (undefined.onSeq _).upholds.trans (State.startCopy_upholds _)

theorem State.drainStep_upholds : State.Upholds s s.drainStep := by
  unfold State.drainStep
  split
  · exact .refl s
  split
  · exact (s.stopShow_calm.onSeq _).upholds.trans (State.startCopy_upholds _)
  split
  · exact s.startSave_calm.upholds
  · exact .refl s

theorem State.acceptRequest_upholds (source : Source) : State.Upholds s (s.acceptRequest source) :=
  ((State.Calm.refl s).onTakeover _).upholds.trans (State.drainStep_upholds _)

theorem State.recover_upholds (source : Source) : State.Upholds s (s.recover source) :=
  ((State.Calm.refl s).onTakeover _).upholds.trans (State.drainStep_upholds _)

theorem State.lineRequest_upholds : State.Upholds s s.lineRequest := by
  unfold State.lineRequest
  split
  · exact s.acceptRequest_upholds _
  · exact ((State.Calm.refl s).onTakeover _).upholds
  · exact ((State.Calm.refl s).onTakeover _).upholds
  · exact ((State.Calm.refl s).onTakeover _).upholds
  · exact s.recover_upholds _

theorem State.lineLevel_upholds (level : Bool) : State.Upholds s (s.lineLevel level) := by
  have shown (f : Takeover → Takeover) := ((State.Calm.refl s).onTakeover f).upholds
  unfold State.lineLevel
  split
  · exact .refl s
  · dsimp only
    split
    · exact (shown _).trans (State.lineRequest_upholds _)
    · exact shown _

theorem State.installEntries_upholds : State.Upholds s s.installEntries := by
  have installed : State.Calm s (s.onScene Scene.installPalette) := by
    refine (State.Calm.refl s).onScene fun h => ?_
    unfold Scene.installPalette
    split
    · exact h
    · exact Scene.orderLaw_congr h rfl fun _ => rfl
  exact installed.upholds.trans (State.complete_upholds _ 0)

theorem State.paletteRead_upholds : State.Upholds s s.paletteRead := by
  unfold State.paletteRead
  split
  · exact s.installEntries_upholds
  · exact ((State.Calm.refl s).onScene fun h => Scene.orderLaw_congr h rfl fun _ => rfl).upholds

theorem State.compositionDone_upholds : State.Upholds s s.compositionDone := by
  have done : State.Upholds s (s.onComposer fun k => { k with swapPending := true, comp := none }) :=
    ⟨id, fun _ => State.bankLaw_none rfl, id⟩
  unfold State.compositionDone
  dsimp only
  generalize hu : s.onComposer _ = u at done
  have comp : u.composer.comp = none := by rw [← hu]; rfl
  have freed : State.Upholds s (if u.scene.load.any (·.ended) then u.installEntries else u) := by
    split
    · exact done.trans u.installEntries_upholds
    · exact done
  have comp' : (if u.scene.load.any (·.ended) then u.installEntries else u).composer.comp = none := by
    split
    · exact comp
    · exact comp
  generalize (if u.scene.load.any (·.ended) then u.installEntries else u) = v at freed comp' ⊢
  refine State.Upholds.trans ?_ (State.drainStep_upholds _)
  split
  · exact (freed.trans (v.applyCanvas_upholds _ comp')).trans (State.complete_upholds _ 0)
  · exact freed

/-! ## The menu (R117, R124, R126, R127) -/

theorem Page.focusFor_enabled (p : Page) (cause : Cause) (saved f : Nat) (h : p.focusFor cause saved = some f) :
    p.enabled f = true := by
  unfold Page.focusFor Page.initialFocus at h
  split at h
  · rename_i k
    exact Option.some.inj h ▸ k.2
  split at h
  · rename_i k
    exact Option.some.inj h ▸ k
  · exact List.find?_some h

theorem State.installPage_nav (p : Page) (cause : Cause) (saved : Nat) (fromBuffer : Bool) (slot : Nat) :
    (s.installPage p cause saved fromBuffer slot).nav =
      { s.nav with
        page := some p, focus := p.focusFor cause saved
        stack := if cause = .command then [] else s.nav.stack } :=
  State.dressPage_frame _ _ _ _ _ .nav (by simp)

theorem State.rejectPage_nav (cause : Cause) (addr saved : Nat) (reason : PageReason) (detail slot : Nat) :
    (s.rejectPage cause addr saved reason detail slot).nav =
      { s.nav with
        stack :=
          match cause with
          | .command => s.nav.stack
          | .enter => s.nav.stack.dropLast
          | .back => s.nav.stack ++ [⟨addr, saved⟩] } := by
  cases cause <;> rfl

/-- A page that is settled leaves the Navigator sound; a rejected BACK finds the place of its record (R124, R126). -/
theorem State.settlePage_sound (cause : Cause) (addr saved : Nat) (bytes : List Byte) (fromBuffer : Bool) (slot : Nat)
    (sound : s.nav.Sound) (popped : cause = .back → s.nav.Popped) :
    (s.settlePage cause addr saved bytes fromBuffer slot).1.nav.Sound := by
  unfold State.settlePage
  split
  · show (s.rejectPage _ _ _ _ _ _).nav.Sound
    rw [State.rejectPage_nav]
    refine ⟨sound.focus, fun h => ⟨(sound.closed h).1, ?_⟩, ?_⟩
    · cases cause with
      | command => exact (sound.closed h).2
      | enter => simp [(sound.closed h).2]
      | back =>
        have := (popped rfl).1
        rw [show s.nav.page = none from h] at this
        cases this
    · have := sound.bound
      cases cause with
      | command => exact this
      | enter =>
        show s.nav.stack.dropLast.length ≤ 8
        rw [List.length_dropLast]
        omega
      | back =>
        have := (popped rfl).2
        show (s.nav.stack ++ [_]).length ≤ 8
        simpa using this
  · show (s.installPage _ _ _ _ _).nav.Sound
    rw [State.installPage_nav]
    refine ⟨fun p hp f hf => ?_, fun h => (by cases h), ?_⟩
    · cases hp
      exact Page.focusFor_enabled _ _ _ _ hf
    · dsimp only
      split
      · simp
      · exact sound.bound

/-- Settling a page changes the open page, the stack and the scene, whose order it keeps. -/
theorem State.settlePage_rest (cause : Cause) (addr saved : Nat) (bytes : List Byte) (fromBuffer : Bool) (slot : Nat) :
    let t := (s.settlePage cause addr saved bytes fromBuffer slot).1
    t.composer = s.composer ∧ t.intake = s.intake ∧ (s.scene.orderLaw = true → t.scene.orderLaw = true) := by
  unfold State.settlePage
  split
  · cases cause <;> exact ⟨rfl, rfl, id⟩
  · have dressed (u : State) (f : Option Nat) (p : Page) (g : Option Nat) := State.dressPage_frame u u.nav.page f p g
    refine ⟨?_, ?_, fun h => ?_⟩
    · exact State.dressPage_frame _ _ _ _ _ .composer (by simp)
    · exact State.dressPage_frame _ _ _ _ _ .intake (by simp)
    · exact (State.dressPage_calm _ _ _ _ _).order h

/-- A page settled for the command in service, which completes (R116, R117). -/
theorem State.settled_upholds {slot addr saved : Nat} {cause : Cause} {awaits : Bool} (bytes : List Byte)
    (fromBuffer : Bool) (code : Fin 4) (serving : s.intake.inService = some ⟨slot, .openPage cause addr saved awaits⟩) :
    State.Upholds s ((s.settlePage cause addr saved bytes fromBuffer slot).1.complete code) := by
  obtain ⟨composer, -, order⟩ := s.settlePage_rest cause addr saved bytes fromBuffer slot
  refine .of_composer composer order fun law => ?_
  obtain ⟨sound, popped⟩ := s.menuLaw_iff.mp law
  refine (State.menuLaw_iff _).mpr
    ⟨s.settlePage_sound cause addr saved bytes fromBuffer slot sound fun back => popped ?_, fun h => by cases h⟩
  simp [State.backServed, serving, back]

theorem State.pageRead_upholds (bytes : List Byte) : State.Upholds s (s.pageRead bytes) := by
  unfold State.pageRead
  split
  · exact s.settled_upholds _ _ _ (by assumption)
  · exact .refl s

theorem State.takeBuffer_upholds (bytes : List Byte) : State.Upholds s (s.takeBuffer bytes) := by
  unfold State.takeBuffer
  split
  · exact s.settled_upholds _ _ _ (by assumption)
  · exact .refl s

theorem State.nextPrefetch_calm : State.Calm s s.nextPrefetch := by
  unfold State.nextPrefetch
  split
  · exact ⟨rfl, id⟩
  · exact .refl s

theorem State.ownPageRead_calm : State.Calm s s.ownPageRead := by
  unfold State.ownPageRead
  split
  · rename_i slot cause addr saved serving
    have served : State.Calm s (s.serve slot (.openPage cause addr saved false)) := by
      refine ⟨?_, id⟩
      cases cause <;> simp [State.bankMenu, State.backServed, State.serve, serving]
    exact served.startFetch _ _ _
  · exact .refl s

theorem State.prefetchRead_upholds (f : Prefetch) (bytes : List Byte) (pageFirst : Bool) :
    State.Upholds s (s.prefetchRead f bytes pageFirst) := by
  have ended : State.Calm s (s.onNav fun v => { v with inflight := none }) := ⟨rfl, id⟩
  unfold State.prefetchRead
  dsimp only
  split
  · split
    · exact ((ended.trans (State.ownPageRead_calm _)).trans (State.nextPrefetch_calm _)).upholds
    · exact ((ended.trans (State.nextPrefetch_calm _)).trans (State.ownPageRead_calm _)).upholds
  · have filled : State.Calm s ((s.onNav fun v => { v with inflight := none }).onNav fun v =>
      { v with buffer := some ⟨f.addr, bytes⟩ }) := ⟨rfl, id⟩
    exact (filled.trans (State.nextPrefetch_calm _)).upholds.trans (State.takeBuffer_upholds _ _)

theorem State.prefetchPage_calm (addr : Nat) : State.Calm s (s.prefetchPage addr) := by
  unfold State.prefetchPage
  dsimp only
  split
  · exact .refl s
  · split
    · exact ⟨rfl, id⟩
    · exact ⟨rfl, id⟩

/-- The close empties the Navigator; no BACK is in service then (R127). -/
theorem State.closeMenu_upholds (idle : s.backServed = false) : State.Upholds s s.closeMenu := by
  unfold State.closeMenu
  split
  · exact .refl s
  · rename_i p _
    have hidden := ((s.silentHalt_calm 0).trans (State.setVisible_calm _ p.highlight false)).trans
      (State.showFocusSlot_calm _ (s.nav.focus.bind p.focusSlot) false)
    dsimp only
    generalize State.showFocusSlot _ _ _ = u at hidden ⊢
    refine hidden.upholds.trans (.of_composer rfl id fun _ => (State.menuLaw_iff _).mpr ⟨?_, fun served => ?_⟩)
    · exact ⟨fun p hp => (by cases hp), fun _ => ⟨rfl, rfl⟩, Nat.zero_le 8⟩
    · have : u.backServed = s.backServed := congrArg BankMenu.backServed hidden.view
      rw [show u.backServed = true from served, idle] at this
      cases this

theorem State.undefineMenu_calm (l : List Nat) :
    State.Calm s (l.foldl (fun t n => if t.scene.inGroup .menu n then t.undefineSlot n else t) s) := by
  induction l generalizing s with
  | nil => exact .refl s
  | cons n l ih =>
    have first : State.Calm s (if s.scene.inGroup .menu n then s.undefineSlot n else s) := by
      split
      · exact s.undefineSlot_calm n
      · exact .refl s
    exact first.trans (ih _)

theorem State.closeScene_upholds (idle : s.backServed = false) : State.Upholds s s.closeScene := by
  have left := ((State.Calm.refl s).onTakeover fun t => { t with state := .leaving, phase := some .close }).upholds
  have closed := left.trans (State.closeMenu_upholds _ idle)
  generalize hu : State.closeMenu _ = u at closed
  have undefined := (u.silentHalts_calm (List.range 8)).trans (State.undefineMenu_calm _ (List.range 48))
  generalize hv : List.foldl _ (List.foldl State.silentHalt u _) _ = v at undefined
  have emptied : State.Calm v (v.onScene fun sc => { sc with mark := sc.mark || !s.scene.order.isEmpty }) :=
    (State.Calm.refl v).onScene fun h => Scene.orderLaw_congr h rfl fun _ => rfl
  have result := closed.trans ((undefined.trans emptied).onTakeover fun t =>
    { t with phase := some .restore, job := .restore 0 [] }).upholds
  rw [← hv] at result
  rw [← hu] at result
  exact result

/-! ## RESTORE (R166 to R169) -/

theorem State.restoreDone_upholds (r : SaveRecord) (redone finished jumped : Bool) (slot : Option Nat) :
    State.Upholds s (s.restoreDone r redone finished jumped slot) := by
  have left (f : Takeover → Takeover) (g : Bridge → Bridge) (e : Event) :
      State.Upholds s ((((s.onTakeover f).onBridge g).raise e slot).complete 0) :=
    ((((State.Calm.refl s).onTakeover f).onBridge g).raise e slot).upholds.trans (State.complete_upholds _ 0)
  have aside (u : State) (f : Takeover → Takeover) := ((State.Calm.refl u).onTakeover f).upholds
  unfold State.restoreDone
  dsimp only
  split
  · exact ((left _ _ _).trans (aside _ _)).trans (State.acceptRequest_upholds _ _)
  · exact ((left _ _ _).trans (aside _ _)).trans (State.takeUpLoad_calm _).upholds

theorem State.restoreRead_upholds (bytes : List Byte) : State.Upholds s (s.restoreRead bytes) := by
  unfold State.restoreRead
  dsimp only
  split
  · exact (((State.Calm.refl s).onTakeover _).raise _ _).upholds.trans (State.complete_upholds _ 3)
  · rename_i passes
    exact (((s.installRecord_calm _ passes).trans (State.applyTransitionFlag_calm _ _ _)).trans
      (State.applyJump_calm _ _ _)).upholds.trans (State.restoreDone_upholds _ _ _ _ _ _)

end

end Sys2Proof.Machine

/-!
PROOF. O58, the steps: what an owner makes of each command while no BACK is in service, the start of the head, and the
rows of the table.
-/

namespace Sys2Proof.Machine

/-! ## Verdicts (R29) -/

/-- The state that a verdict leaves, if any, meets a condition. -/
def Verdict.All (P : State → Prop) : Verdict → Prop
  | .refused _ => True
  | .completed _ t => P t
  | .began t => P t

theorem Verdict.All.imp {P Q : State → Prop} {v : Verdict} (h : v.All P) (k : ∀ t, P t → Q t) : v.All Q := by
  cases v with
  | refused r => trivial
  | completed code t => exact k t h
  | began t => exact k t h

theorem judged_all {P : State → Prop} {v : Verdict} (checks : List (Bool × RefusalReason)) (h : v.All P) :
    (judged checks v).All P := by
  unfold judged
  split
  · trivial
  · exact h

section
variable (c : Command) (s : State)

/-! ## The scene's commands (03) -/

/-- An edited object keeps its group (R53). -/
theorem Field.bringIn_group {f : Field} {cmdw : Nat} {o o' : Obj} {z : Int} (h : f.bringIn cmdw o z = some o') :
    o'.group = o.group := by
  have valid {p o' : Obj} (h : validated cmdw z p = some o') : o' = p := by
    unfold validated at h
    split at h
    · exact (Option.some.inj h).symm
    · cases h
  have sized {w : Nat} : (o.withW w).group = o.group ∧ (o.withH w).group = o.group := by
    constructor
    · unfold Obj.withW Obj.reclampX
      split <;> rfl
    · unfold Obj.withH Obj.reclampY
      split <;> rfl
  cases f
  case w => exact valid h ▸ sized.1
  case h => exact valid h ▸ sized.2
  case source | stride =>
    rw [valid h]
  case palette =>
    unfold Field.bringIn at h
    dsimp only at h
    split at h
    · rw [valid h]
    · cases h
  case vx | vy =>
    unfold Field.bringIn at h
    dsimp only at h
    split at h
    · exact Option.some.inj h ▸ rfl
    · cases h
  all_goals exact Option.some.inj h ▸ rfl

theorem State.edit_all (n : Nat) (field : Option Field) (modeOk : Bool) (value : Field → Int → Int)
    (code : Field → Int → Int → Fin 4) : (s.edit n field modeOk value code).All (State.Upholds s) := by
  refine judged_all _ ?_
  split
  · rename_i f old o' target brought
    obtain ⟨o, ho, -, hb⟩ : ∃ o, s.obj n = some o ∧ f.get o = some old ∧ f.bringIn s.cmdw o (value f old) = some o' := by
      rw [target] at brought
      split at target
      · rename_i o f' ho
        cases hg : f'.get o with
        | none => simp [hg] at target
        | some old' =>
          simp only [hg, Option.map_some, Option.some.injEq, Prod.mk.injEq] at target
          obtain ⟨rfl, rfl, rfl⟩ := target
          exact ⟨o, ho, hg, brought⟩
      · cases target
    exact State.Calm.upholds ((State.Calm.refl s).onScene fun h =>
      Scene.modify_const_ordered h ho (Field.bringIn_group hb))
  · trivial

theorem State.removeMotion_calm (n slot : Nat) : State.Calm s (s.removeMotion n slot) := by
  unfold State.removeMotion
  split
  · exact s.endMotion_calm _ _ _ _ _ _
  · exact .refl s

theorem runDefine_all : (runDefine c s).All (State.Upholds s) := by
  unfold runDefine judged
  dsimp only
  split
  · trivial
  · rename_i pass
    have small : c.small < 48 := by simpa using firstFailure_none.mp pass _ (List.mem_cons_self ..)
    exact State.Calm.upholds ((State.Calm.refl s).onScene fun h => Scene.define_ordered h small _)

/-! ## The menu's commands (06) -/

/-- An opening of a page from a sound Navigator with no BACK in service; one for BACK has popped its record (R114). -/
theorem State.openPage_all (u : State) (cause : Cause) (addr saved slot : Nat)
    (order : s.scene.orderLaw = true → u.scene.orderLaw = true) (composer : u.composer = s.composer)
    (menu : s.menuLaw = true → u.nav.Sound ∧ (cause = .back → u.nav.Popped)) (idle : u.backServed = false) :
    (u.openPage cause addr saved slot).All (State.Upholds s) := by
  have served (awaits : Bool) : State.Upholds s (u.serve slot (.openPage cause addr saved awaits)) := by
    refine .of_composer composer order fun law => (State.menuLaw_iff _).mpr ⟨(menu law).1, fun served => ?_⟩
    refine (menu law).2 ?_
    cases cause
    case back => rfl
    all_goals simp [State.backServed, State.serve] at served
  unfold State.openPage
  split
  · rename_i b _
    obtain ⟨same, intake, settled⟩ := u.settlePage_rest cause addr saved b.bytes true slot
    refine State.Upholds.of_composer (same.trans composer) (settled ∘ order) fun law => ?_
    obtain ⟨sound, popped⟩ := menu law
    refine (State.menuLaw_iff _).mpr ⟨u.settlePage_sound cause addr saved b.bytes true slot sound popped, fun served => ?_⟩
    have same : (u.settlePage cause addr saved b.bytes true slot).1.backServed = u.backServed :=
      congrArg (fun i : Intake => ({ u with intake := i } : State).backServed) intake
    exact absurd (same.symm.trans served) (by simp [idle])
  · split
    · exact served true
    · exact (served false).trans ((State.Calm.refl _).startFetch _ _ _).upholds

variable {s} in
/-- The focus moves to an enabled button of the open page (R120 to R122). -/
theorem State.focus_upholds {p : Page} {g : Nat} (open_ : s.nav.page = some p) (enabled : p.enabled g = true) :
    State.Upholds s (s.onNav fun v => { v with focus := some g }) := by
  refine .of_composer rfl id fun law => ?_
  obtain ⟨sound, popped⟩ := s.menuLaw_iff.mp law
  refine (State.menuLaw_iff _).mpr ⟨⟨fun q hq f hf => ?_, fun none => ?_, sound.bound⟩, popped⟩
  · obtain rfl : p = q := Option.some.inj (open_.symm.trans hq)
    obtain rfl : g = f := Option.some.inj hf
    exact enabled
  · exact absurd (open_.symm.trans none) (by simp)

variable {s}

theorem State.moveFocus_upholds {p : Page} (f : Nat) {g : Nat} (open_ : s.nav.page = some p)
    (enabled : p.enabled g = true) : State.Upholds s (s.moveFocus p f g) :=
  (State.focus_upholds open_ enabled).trans (State.Calm.upholds (((State.showFocusSlot_calm _ _ _).trans
    (State.showFocusSlot_calm _ _ _)).trans (State.glide_calm _ _ _)))

theorem State.firstFocus_upholds {p : Page} {g : Nat} (open_ : s.nav.page = some p) (enabled : p.enabled g = true) :
    State.Upholds s (s.firstFocus p g) := by
  have focused := State.focus_upholds open_ enabled
  unfold State.firstFocus
  dsimp only
  split
  · exact focused.trans (State.Calm.upholds (((State.jump_calm _ _ _ _ _).trans (State.setVisible_calm _ _ _)).trans
      (State.showFocusSlot_calm _ _ _)))
  · exact focused.trans (State.Calm.upholds ((State.setVisible_calm _ _ _).trans (State.showFocusSlot_calm _ _ _)))

theorem State.directionKey_all {p : Page} (open_ : s.nav.page = some p) (d : Direction) :
    (s.directionKey p d).All (State.Upholds s) := by
  unfold State.directionKey
  split
  · exact State.Upholds.refl s
  · split
    · rename_i g walked
      exact State.moveFocus_upholds _ open_ (Page.walk_moved walked).1
    · exact State.Upholds.refl s

theorem State.selectKey_all {p : Page} (open_ : s.nav.page = some p) (n : Nat) :
    (s.selectKey p n).All (State.Upholds s) := by
  unfold State.selectKey
  split
  · exact State.Upholds.refl s
  split
  · exact State.Upholds.refl s
  rename_i enabled
  have enabled : p.enabled n = true := by simpa using enabled
  split
  · exact State.firstFocus_upholds open_ enabled
  · split
    · exact State.Upholds.refl s
    · exact State.moveFocus_upholds _ open_ enabled

theorem State.enterKey_all {p : Page} (open_ : s.nav.page = some p) (f slot : Nat) (idle : s.backServed = false) :
    (s.enterKey p f slot).All (State.Upholds s) := by
  have raised (u : State) (e : Event) : State.Upholds u (u.raise e (some slot)) :=
    ((State.Calm.refl u).raise e _).upholds
  unfold State.enterKey
  split
  · exact State.Upholds.refl s
  rename_i b _
  dsimp only
  split
  · exact raised _ _
  split
  · exact raised _ _
  rename_i submenu room
  split
  · exact (raised _ _).trans (raised _ _)
  · refine State.openPage_all s _ .enter _ 0 slot id rfl (fun law => ?_) idle
    obtain ⟨sound, -⟩ := s.menuLaw_iff.mp law
    refine ⟨⟨sound.focus, fun none => absurd (open_.symm.trans none) (by simp), ?_⟩, fun h => by cases h⟩
    have has : b.submenu = true := by simpa using submenu
    have room : ¬ 8 ≤ s.nav.stack.length := fun full => room (by rw [has]; exact decide_eq_true full)
    show (s.nav.stack ++ [_]).length ≤ 8
    rw [List.length_append, List.length_singleton]
    omega

theorem State.backKey_all {p : Page} (open_ : s.nav.page = some p) (slot : Nat) (idle : s.backServed = false) :
    (s.backKey p slot).All (State.Upholds s) := by
  unfold State.backKey
  split
  · exact ((State.Calm.refl s).raise _ _).upholds
  · rename_i link last
    refine State.openPage_all s _ .back _ _ slot id rfl (fun law => ?_) idle
    obtain ⟨sound, -⟩ := s.menuLaw_iff.mp law
    have longer : s.nav.stack ≠ [] := by
      rintro e
      simp [e] at last
    have popped : s.nav.stack.dropLast.length < 8 := by
      have := sound.bound
      have := List.length_pos_iff.mpr longer
      rw [List.length_dropLast]
      omega
    exact ⟨⟨sound.focus, fun none => absurd (open_.symm.trans none) (by simp), popped.le⟩,
      fun _ => ⟨Option.isSome_iff_exists.mpr ⟨p, open_⟩, popped⟩⟩

theorem runKey_all (needsFocus : Bool) (act : Page → Verdict)
    (h : ∀ p, s.nav.page = some p → (act p).All (State.Upholds s)) :
    (runKey c s needsFocus act).All (State.Upholds s) := by
  refine judged_all _ ?_
  split
  · exact h _ (by assumption)
  · trivial

theorem runAnyKey_all (idle : s.backServed = false) : (runAnyKey c s).All (State.Upholds s) := by
  have direction (d : Direction) : (runKey c s false fun p => s.directionKey p d).All (State.Upholds s) :=
    runKey_all c _ _ fun _ h => State.directionKey_all h d
  unfold runAnyKey
  split
  · exact direction .up
  · exact direction .down
  · exact direction .left
  · exact direction .right
  · exact runKey_all c _ _ fun _ h => State.selectKey_all h _
  · exact runKey_all c _ _ fun _ h => State.enterKey_all h _ _ idle
  · exact runKey_all c _ _ fun _ h => State.backKey_all h _ idle
  · exact direction .up

/-! ## The show's commands (07) -/

variable (s)

theorem State.stepFrom_all (i : Nat) (backward : Bool) (slot : Nat) (prepare : Sequencer → Sequencer) :
    (s.stepFrom i backward slot prepare).All (State.Calm s) := by
  unfold State.stepFrom
  dsimp only
  split
  · exact ((State.Calm.refl s).onSeq _).trans (State.loadBegin_calm _ _ _)
  · exact (State.Calm.refl s).raise _ _

theorem State.stepShown_all (backward : Bool) (slot : Nat) : (s.stepShown backward slot).All (State.Calm s) := by
  unfold State.stepShown
  dsimp only
  split
  · exact s.stepFrom_all _ _ _ _
  · have counted : State.Calm s { s with freeCount := s.freeCount + 1 } := ⟨rfl, id⟩
    exact (State.stepFrom_all _ _ _ _ _).imp fun _ h => counted.trans h

theorem State.stepShow_all (backward : Bool) (slot : Nat) : (s.stepShow backward slot).All (State.Calm s) := by
  unfold State.stepShow
  split
  · exact s.stepShown_all _ _
  · exact (State.stepShown_all _ _ _).imp fun _ h => (s.snapAwaited_calm _).trans h
  · exact s.stepFrom_all _ _ _ _
  · exact s.stepFrom_all _ _ _ _
  · exact State.Calm.refl s
  · exact State.Calm.refl s

theorem State.resumeShow_calm : State.Calm s s.resumeShow := by
  have released (f : Sequencer → Sequencer) : State.Calm s ((s.onSeq f).releaseAll) :=
    ((State.Calm.refl s).onSeq f).trans (.of_frame (State.releaseAll_frame _).1)
  unfold State.resumeShow
  dsimp only
  split
  · exact ((released _).onSeq _).trans (State.panRequest_calm _)
  · exact released _

/-! ## Every command -/

/-- RESTART empties the order and closes the menu (R35, R62, R113). -/
theorem State.restart_upholds (idle : s.backServed = false) : State.Upholds s s.restart := by
  refine .of_composer rfl (fun _ => rfl) fun _ => (State.menuLaw_iff _).mpr ⟨?_, fun served => ?_⟩
  · exact ⟨fun _ h => (by cases h), fun _ => ⟨rfl, rfl⟩, Nat.zero_le 8⟩
  · exact absurd ((show s.backServed = true from served).symm.trans idle) (by decide)

theorem runSetCanvas_all : (runSetCanvas c s).All (State.Upholds s) := by
  refine judged_all _ ?_
  split
  · rename_i none
    exact s.applyCanvas_upholds _ (by simpa using none)
  · exact s.serve_upholds _ (by simp)

theorem runTakeover_all : (runTakeover c s).All (State.Upholds s) := by
  unfold runTakeover
  split
  · exact (s.serve_upholds _ (by simp)).trans (State.acceptRequest_upholds _ _)
  · exact ((s.serve_upholds _ (by simp)).trans (State.recover_upholds _ _)).trans (State.keepRun_calm _).upholds
  all_goals exact ((State.Calm.refl s).onTakeover _).upholds

theorem runLoadPalette_all : (runLoadPalette c s).All (State.Upholds s) := by
  unfold runLoadPalette
  refine judged_all _ ((s.serve_upholds c.slot (op := .loadPalette) (by simp)).trans ?_)
  exact (((State.Calm.refl _).onScene fun h => Scene.orderLaw_congr h rfl fun _ => rfl).startFetch _ _ _).upholds

theorem runPatch_all : (runPatch c s).All (State.Upholds s) := by
  unfold runPatch
  exact s.edit_all _ _ _ _ _

theorem runStep_all : (runStep c s).All (State.Upholds s) := by
  unfold runStep
  exact s.edit_all _ _ _ _ _

theorem runHaltImmediate_all : (runHaltImmediate c s).All (State.Upholds s) :=
  judged_all _ (s.endMotion_calm _ _ _ _ _ _).upholds

theorem runHaltEase_all : (runHaltEase c s).All (State.Upholds s) :=
  judged_all _ ((State.Calm.refl s).putChan _ _).upholds

variable {s} in
/-- What an owner makes of a command of any kind, with no BACK in service. -/
theorem runKind_all (k : Kind) (idle : s.backServed = false) : (runKind k c s).All (State.Upholds s) := by
  have calm {t : State} (h : State.Calm s t) : State.Upholds s t := h.upholds
  cases k with
  | mark => exact calm ((State.Calm.refl s).raise _ _)
  | restart => exact s.restart_upholds idle
  | setCanvas => exact runSetCanvas_all c s
  | setTakeover => exact judged_all _ (calm (((State.Calm.refl s).onTakeover _).onBridge _))
  | setSlides => exact judged_all _ (calm (((State.Calm.refl s).onSeq _).onBridge _))
  | define => exact runDefine_all c s
  | drop =>
    exact judged_all _ (calm ((s.removeMotion_calm _ _).onScene fun h => Scene.undefine_ordered h _))
  | place => exact judged_all _ (calm ((State.Calm.refl s).onScene fun h => Scene.replace_ordered h _ _))
  | unplace => exact judged_all _ (calm ((State.Calm.refl s).onScene fun h => Scene.unplace_ordered h _))
  | patch => exact runPatch_all c s
  | step => exact runStep_all c s
  | loadPalette => exact runLoadPalette_all c s
  | setProfile => exact judged_all _ (calm ((State.Calm.refl s).onMotion _))
  | move => exact judged_all _ (calm (s.applyRequest_calm _ _ _))
  | retune => exact judged_all _ (calm ((State.Calm.refl s).putChan _ _))
  | halt =>
    show (if c.haltEases then runHaltEase c s else runHaltImmediate c s).All _
    split
    · exact runHaltEase_all c s
    · exact runHaltImmediate_all c s
  | openPage =>
    refine judged_all _ (State.openPage_all s s .command _ _ _ id rfl (fun law => ?_) idle)
    exact ⟨(s.menuLaw_iff.mp law).1, fun h => by cases h⟩
  | prefetchPage => exact judged_all _ (calm (s.prefetchPage_calm _))
  | key => exact runAnyKey_all c idle
  | closeMenu => exact s.closeMenu_upholds idle
  | slideStart =>
    have halted := ((s.silentHalt_calm 5).trans (State.silentHalt_calm _ 6)).trans (State.silentHalt_calm _ 7)
    exact judged_all _ (calm ((halted.onSeq _).trans (State.loadBegin_calm _ _ _)))
  | slideStop =>
    refine judged_all _ ?_
    show State.Upholds s (if s.seq.state = .stopped then s else s.stopShow)
    split
    · exact .refl s
    · exact calm s.stopShow_calm
  | slideStep => exact judged_all _ ((s.stepShow_all _ _).imp fun _ h => h.upholds)
  | slidePause => exact judged_all _ (calm (((State.Calm.refl s).onSeq _).trans (.of_frame (State.holdAll_frame _ _).1)))
  | slideResume =>
    refine judged_all _ ?_
    show State.Upholds s (if s.seq.paused then s.resumeShow else s)
    split
    · exact calm s.resumeShow_calm
    · exact .refl s
  | takeover => exact runTakeover_all c s
  | resume =>
    exact judged_all _ ((s.serve_upholds _ (by simp)).trans (State.closeScene_upholds _ rfl))

variable {s} in
theorem Command.run_all (idle : s.backServed = false) : (c.run s).All (State.Upholds s) := by
  unfold Command.run
  split
  · exact runKind_all c _ idle
  · trivial

end

/-! ## The steps -/

/-- No BACK is in service when the head starts (R25). -/
theorem State.startHead_upholds (s : State) (row : Command → Bool) (run : Command → State → Verdict)
    (h : ∀ c t, t.backServed = false → (run c t).All (State.Upholds t)) : State.Upholds s (s.startHead row run) := by
  unfold State.startHead
  split
  · exact .refl s
  · rename_i c rest _
    have left := s.departed_calm rest
    dsimp only
    split
    · exact .refl s
    rename_i may
    have idle : (s.departed rest).backServed = false := by
      rw [show (s.departed rest).backServed = s.backServed from congrArg BankMenu.backServed left.view]
      have none : s.intake.inService = none := by
        simp only [State.canStart, Bool.not_and, Bool.or_eq_true, Bool.not_eq_true', not_or] at may
        simpa using may.1.1
      simp [State.backServed, none]
    split
    · exact left.upholds
    split
    · exact (left.raise _ _ |>.trans (State.setCode_calm _ _)).upholds
    · refine left.upholds.trans ?_
      have verdict := h c _ idle
      cases hv : run c (s.departed rest) with
      | refused r => exact (((State.Calm.refl _).raise _ _).trans (State.setCode_calm _ _)).upholds
      | completed code t =>
        rw [hv] at verdict
        exact State.Upholds.trans verdict (t.setCode_calm code).upholds
      | began t =>
        rw [hv] at verdict
        exact verdict

/-- Every outcome of a step upholds the laws. -/
def State.StepUpholds (s : State) (r : Result) : Prop := ∀ t, r = .next t → State.Upholds s t

section
variable (s : State)

theorem State.live_upholds {f : State → State} (h : ∀ u, State.Upholds u (f u)) : s.StepUpholds (s.live f) := by
  intro t ht
  unfold State.live at ht
  split at ht
  · cases ht
    exact .refl s
  · cases ht
    exact (s.begin_calm.upholds.trans (h _)).trans (State.endStep_calm _ _).upholds

theorem State.startDue_upholds : State.Upholds s s.startDue :=
  s.startHead_upholds _ _ fun c _ => Command.run_all c

theorem State.afterStart_upholds (first : Bool) {f : State → State} (h : ∀ u, State.Upholds u (f u)) :
    s.StepUpholds (s.afterStart first f) := by
  have started := s.live_upholds State.startDue_upholds
  intro t ht
  unfold State.afterStart at ht
  split at ht
  · split at ht
    · rename_i u hu
      exact (started u hu).trans (u.live_upholds h t ht)
    · exact started t ht
  · exact s.live_upholds h t ht

theorem State.event_upholds {f : State → State} (h : ∀ u, State.Upholds u (f u)) : s.StepUpholds (s.event f) :=
  s.afterStart_upholds _ h

theorem State.atEnd_upholds (e : BurstEnd) {f : State → State} (h : ∀ u, State.Upholds u (f u)) :
    State.Upholds s (s.atEnd e f) := by
  unfold State.atEnd
  split
  · exact ((State.Calm.refl s).onBridge _).upholds.trans (h _)
  · exact .refl s

/-- A row that ends a burst. -/
theorem State.ends_upholds (e : BurstEnd) {f : State → State} (h : ∀ u, State.Upholds u (f u)) :
    s.StepUpholds (s.event fun t => t.atEnd e f) := s.event_upholds fun u => u.atEnd_upholds e h

/-- A row that starts the head does what a due start does, or leaves the head where it is. -/
theorem State.row_upholds (row : Command → Bool) (run : Command → State → Verdict)
    (h : ∀ c t, t.backServed = false → (run c t).All (State.Upholds t)) :
    s.StepUpholds (s.live fun t => t.startHead row run) := s.live_upholds fun u => u.startHead_upholds row run h

/-- RSTN leaves an empty order, no composition and a closed menu (R61, R92, R113). -/
theorem State.rstn_upholds (memSize : Nat) (level low : Bool) :
    State.Upholds s { s.rstn memSize level with rstnLow := low } :=
  ⟨fun _ => (by decide : Scene.reset.orderLaw = true), fun _ => State.bankLaw_none rfl, fun _ => rfl⟩

theorem State.endFetch_calm (kind : FetchKind) : State.Calm s (s.endFetch kind) := (State.Calm.refl s).onBridge _

theorem execRstnAssert_upholds : s.StepUpholds (execRstnAssert s) := by
  intro t ht
  unfold execRstnAssert at ht
  split at ht
  · cases ht
    exact .refl s
  · cases ht
    exact s.rstn_upholds _ _ true

theorem execRstnRelease_upholds (msz : BitVec 2) (level : Bool) : s.StepUpholds (execRstnRelease msz level s) := by
  intro t ht
  unfold execRstnRelease at ht
  split at ht
  · cases ht
    exact s.rstn_upholds _ _ false
  · cases ht
    exact .refl s

theorem execControllerRequest_upholds (r : Request) : s.StepUpholds (execControllerRequest r s) := by
  unfold execControllerRequest
  split
  · exact s.event_upholds fun u => (u.takeRequest_calm r).upholds
  · intro t ht
    cases ht

theorem execStatusWrite_upholds : s.StepUpholds (execStatusWrite s) := by
  refine s.event_upholds fun u => ?_
  split
  · exact u.presentStatus_calm.upholds
  · exact .refl u

theorem execPrefetchReadEnd_upholds (pageFirst : Bool) : s.StepUpholds (execPrefetchReadEnd pageFirst s) := by
  refine s.ends_upholds _ fun u => ?_
  split
  · exact ((u.endFetch_calm _).upholds.trans (State.prefetchRead_upholds _ _ _ _)).trans (State.drainStep_upholds _)
  · exact (u.endFetch_calm _).upholds

theorem execDescriptorReadEnd_upholds : s.StepUpholds (execDescriptorReadEnd s) := by
  refine s.ends_upholds _ fun u => ?_
  split
  · exact ((u.endFetch_calm _).trans (State.descriptorRead_calm _ _ _)).upholds.trans (State.drainStep_upholds _)
  · exact (u.endFetch_calm _).upholds

theorem execSaveEnd_upholds : s.StepUpholds (execSaveEnd s) := by
  refine s.ends_upholds _ fun u => ?_
  split
  · exact u.saveDone_upholds _ _
  · exact .refl u

theorem execRestoreReadEnd_upholds : s.StepUpholds (execRestoreReadEnd s) := by
  refine s.ends_upholds _ fun u => ?_
  split
  · exact u.restoreRead_upholds _
  · exact .refl u

/-- A row of the table upholds the laws. -/
theorem exec_upholds (i : Instr) : s.StepUpholds (exec i s) := by
  have row (k : Kind) : s.StepUpholds (s.live fun t => t.startHead (ofKind k) (runKind k)) :=
    s.row_upholds _ _ fun c _ => runKind_all c k
  have key (k : Key) (run : Command → State → Verdict)
      (h : ∀ c t, t.backServed = false → (run c t).All (State.Upholds t)) :
      s.StepUpholds (s.live fun t => t.startHead (ofKey k) run) := s.row_upholds _ _ h
  have direction (d : Direction) (c : Command) (t : State) :
      (runKey c t false fun p => t.directionKey p d).All (State.Upholds t) :=
    runKey_all c _ _ fun _ h => State.directionKey_all h d
  cases i with
  | rstnAssert => exact execRstnAssert_upholds s
  | rstnRelease msz level => exact execRstnRelease_upholds s msz level
  | frameTick order => exact s.event_upholds fun u => u.frameTick_upholds order
  | dwellExpiry => exact s.event_upholds .refl
  | tkrqEdge level => exact s.event_upholds fun u => u.lineLevel_upholds level
  | controllerRequest r => exact execControllerRequest_upholds s r
  | holdLimit => exact s.event_upholds fun u => u.dropHeld_calm.upholds
  | forwardedGrant => exact s.event_upholds fun u => u.forwardedGrant_calm.upholds
  | internalGrant => exact s.event_upholds fun u => u.grantInternal_calm.upholds
  | compositionComplete => exact s.ends_upholds _ State.compositionDone_upholds
  | paletteReadEnd =>
    exact s.ends_upholds _ fun u => ((u.endFetch_calm _).upholds.trans (State.paletteRead_upholds _)).trans
      (State.drainStep_upholds _)
  | pageReadEnd =>
    exact s.ends_upholds _ fun u => ((u.endFetch_calm _).upholds.trans (State.pageRead_upholds _ _)).trans
      (State.drainStep_upholds _)
  | prefetchReadEnd pageFirst => exact execPrefetchReadEnd_upholds s pageFirst
  | descriptorReadEnd => exact execDescriptorReadEnd_upholds s
  | saveEnd => exact execSaveEnd_upholds s
  | copyEnd => exact s.ends_upholds _ State.copyDone_upholds
  | restoreReadEnd => exact execRestoreReadEnd_upholds s
  | eventRecordWriteEnd => exact s.ends_upholds _ fun u => ((State.Calm.refl u).onEvents _).upholds
  | statusWrite => exact execStatusWrite_upholds s
  | mark => exact row .mark
  | restart => exact row .restart
  | setCanvas => exact row .setCanvas
  | setTakeover => exact row .setTakeover
  | setSlides => exact row .setSlides
  | define => exact row .define
  | drop => exact row .drop
  | place => exact row .place
  | unplace => exact row .unplace
  | patch => exact row .patch
  | step => exact row .step
  | loadPalette => exact row .loadPalette
  | setProfile => exact row .setProfile
  | move => exact row .move
  | retune => exact row .retune
  | haltImmediate => exact s.row_upholds _ _ fun c t _ => runHaltImmediate_all c t
  | haltEase => exact s.row_upholds _ _ fun c t _ => runHaltEase_all c t
  | openPage => exact row .openPage
  | prefetchPage => exact row .prefetchPage
  | keyUp => exact key .up _ fun c t _ => direction .up c t
  | keyDown => exact key .down _ fun c t _ => direction .down c t
  | keyLeft => exact key .left _ fun c t _ => direction .left c t
  | keyRight => exact key .right _ fun c t _ => direction .right c t
  | keySelect => exact key .select _ fun c _ _ => runKey_all c _ _ fun _ h => State.selectKey_all h _
  | keyEnter => exact key .enter _ fun c _ idle => runKey_all c _ _ fun _ h => State.enterKey_all h _ _ idle
  | keyBack => exact key .back _ fun c _ idle => runKey_all c _ _ fun _ h => State.backKey_all h _ idle
  | closeMenu => exact row .closeMenu
  | slideStart => exact row .slideStart
  | slideStop => exact row .slideStop
  | slideStep => exact row .slideStep
  | slidePause => exact row .slidePause
  | slideResume => exact row .slideResume
  | takeover => exact row .takeover
  | resume => exact row .resume
  | unknownKindCommand => exact s.row_upholds _ _ fun _ _ _ => trivial

end

/-- A step of the machine upholds the laws of the display order, of the banks and of the menu. -/
theorem step_upholds {s t : State} (h : step s = .next t) : State.Upholds s t := by
  unfold step at h
  split at h
  · exact s.afterStart_upholds _ (fun u => u.busClock_calm.upholds) t h
  · rename_i c rest _
    have taken : State.Upholds s { s with pending := rest } := ⟨id, id, id⟩
    exact taken.trans (exec_upholds _ c t h)

/-- Settles O58: each step keeps the three laws, by the lemma on what each row upholds. -/
theorem everyStepKeepsTheOrderAndTheBanks : Obligations.EveryStepKeepsTheOrderAndTheBanks := by
  intro s t h
  obtain ⟨order, bank, menu⟩ := step_upholds h
  exact ⟨order, bank, menu⟩

end Sys2Proof.Machine

/-!
PROOF. O13 to O18: the commands of the scene, DEFINE, DROP, PLACE, UNPLACE, PATCH and STEP.
-/

namespace Sys2Proof.Machine

section
variable {s : State} {c : Command} {rest : List Command} {n : Nat}

/-- A command that has changed the scene alone and ends with a code. -/
theorem State.scene_done {sc : Scene} (code : Fin 4) {f : Scene → Scene} (h : f s.scene = sc) :
    (((s.departed rest).onScene f).setCode code).closed = { s.doneWith rest code with scene := sc } := by
  subst h
  simp [State.doneWith, State.closed, State.setCode, State.onEvents, State.onIntake, State.onScene]

/-- A row whose owner judges it, and whose checks all pass, carries out its verdict on the scene. -/
theorem State.runs_on_scene {k : Kind} {run : Command → State → Verdict} (h : s.Starts c rest k)
    {checks : List (Bool × RefusalReason)} {v : Verdict} {code : Fin 4} {f : Scene → Scene} {sc : Scene}
    (judges : run c (s.departed rest) = judged checks v) (pass : ∀ e ∈ checks, e.1 = true)
    (verdict : v = .completed code ((s.departed rest).onScene f)) (scene : f s.scene = sc) :
    s.live (fun t => t.startHead (ofKind k) run) = .next { s.doneWith rest code with scene := sc } := by
  have completed := judges.trans ((judged_pass pass).trans verdict)
  rw [State.startHead_completed h _ _ (ofKind_of h) completed (State.departed_statusPending s rest),
    State.scene_done code scene]

/-! ## DEFINE (O13) -/

/-- A DEFINE's record has no bound channel, and its clip stands for a kind but SLIDE (R43). -/
theorem Obj.installed_eq (o : Obj) : o.installed =
    if o.clip = true ∧ o.body.code ≠ 3 then o
    else { o with clip := false, clipX0 := 0, clipY0 := 0, clipX1 := 2048, clipY1 := 2048 } := by
  have absent (o : Obj) (h : o.clip = false) : o.defaultClip =
      { o with clip := false, clipX0 := 0, clipY0 := 0, clipX1 := 2048, clipY1 := 2048 } := by
    unfold Obj.defaultClip
    rw [h, if_neg Bool.false_ne_true, ← h]
  unfold Obj.installed
  split
  · rename_i slide
    simp [slide, Body.code, absent]
  · rename_i other
    have kind : o.body.code ≠ 3 := by
      cases hb : o.body
      case slide => exact absurd hb (other _ _ _ _ _ _)
      all_goals simp [Body.code]
    cases hc : o.clip with
    | false => simp [absent o hc]
    | true => simp [kind, Obj.defaultClip, hc]

theorem Obj.installed_group (o : Obj) : o.installed.group = o.group := by
  rw [Obj.installed_eq]
  split <;> rfl

/-- A record installed in its slot (R43). -/
theorem Scene.define_eq (sc : Scene) (n : Nat) (o : Obj) : sc.define n o =
    { sc with
      slots := sc.slots.setIfInBounds n (some o)
      order := if (sc.obj n).map (·.group) = some o.group then sc.order else sc.order.filter (· ≠ n)
      mark := sc.mark || sc.placed n } := by
  have kept : (sc.inGroup o.group n = true) = ((sc.obj n).map (·.group) = some o.group) := by
    rw [Scene.inGroup_eq, beq_iff_eq]
    rfl
  unfold Scene.define
  dsimp only
  cases hp : sc.placed n with
  | true =>
    simp only [if_true, Bool.or_true, kept]
    rfl
  | false =>
    have absent : sc.order.filter (· ≠ n) = sc.order :=
      filter_ne_of_not_mem (by simpa [Scene.placed] using hp)
    simp only [Bool.false_eq_true, if_false, Bool.or_false, absent, ite_self]
    rfl

/-- The checks of R42. -/
def Command.defineChecks (c : Command) (s : State) : List (Bool × RefusalReason) :=
  [ (decide (c.small < 48), .range),
    (!s.seqHeld c.small && !(s.pageHeld c.small && c.record.group == .slide), .reserved),
    ((s.obj c.small).all (·.bound.isNone), .slotBusy),
    (c.record.group == .menu || s.takeover.state == .normal || s.takeover.state == .lockout, .wrongState),
    (c.record.defaultClip.valid s.cmdw, .range) ]

theorem runDefine_departed (s : State) (rest : List Command) (c : Command) :
    runDefine c (s.departed rest) = judged (c.defineChecks s)
      (.completed 0 ((s.departed rest).onScene fun sc => sc.define c.small c.record.installed)) := by
  simp [runDefine, Command.defineChecks]

theorem Group.ne_slide {g : Group} : (g == .slide) = false ↔ g = .menu := by cases g <;> decide

/-- The checks of R42 say its conditions. -/
theorem Command.defineChecks_say (c : Command) (s : State) : ChecksSay (c.defineChecks s)
    [ (c.small < 48, .range),
      (s.seqHeld c.small = false ∧ (s.pageHeld c.small = true → c.record.group = .menu), .reserved),
      ((∀ old, s.obj c.small = some old → old.bound = none), .slotBusy),
      (c.record.group = .menu ∨ s.takeover.state = .normal ∨ s.takeover.state = .lockout, .wrongState),
      (c.record.defaultClip.valid s.cmdw = true, .range) ] := by
  refine ⟨rfl, by simp, fun _ => ⟨rfl, ?_, fun _ => ⟨rfl, by simp [Option.all_eq_true], fun _ =>
    ⟨rfl, by simp [or_assoc], fun _ => ⟨rfl, Iff.rfl, fun _ => trivial⟩⟩⟩⟩⟩
  rw [Bool.and_eq_true, Bool.not_eq_true', Bool.not_eq_true', Bool.and_eq_false_iff, Group.ne_slide]
  cases s.pageHeld c.small <;> simp

/-- Settles O13: the checks of R42 say its conditions, and the record is installed. -/
theorem defineInstallsItsRecord : Obligations.DefineInstallsItsRecord := by
  refine ⟨?_, ?_⟩
  · intro s c rest n o h hn ho small seq page unbound state valid
    subst hn ho
    have pass := (c.defineChecks_say s).pass rfl (by
      simp only [List.forall_mem_cons, List.not_mem_nil, false_implies, implies_true, and_true]
      exact ⟨small, ⟨seq, page⟩, unbound, state.imp_right .inl, valid⟩)
    refine State.runs_on_scene h (runDefine_departed s rest c) pass rfl ?_
    rw [Scene.define_eq, Obj.installed_group, Obj.installed_eq]
    rfl
  · intro s c rest n o h hn ho
    subst hn ho
    exact State.refusesIn_judged h rfl (ofKind_of h) (runDefine_departed s rest c) (c.defineChecks_say s)

/-! ## UNPLACE (O16) -/

/-- The checks of R47, and the first three of R46 and R50. -/
def State.slotChecks (s : State) (n : Nat) : List (Bool × RefusalReason) :=
  [ (decide (n < 48), .range), ((s.obj n).isSome, .undefinedSlot), (!s.seqHeld n, .reserved) ]

theorem State.slotChecks_say (s : State) (n : Nat) : ChecksSay (s.slotChecks n)
    [ (n < 48, .range), (s.obj n ≠ none, .undefinedSlot), (s.seqHeld n = false, .reserved) ] :=
  ⟨rfl, by simp, fun _ => ⟨rfl, Option.isSome_iff_ne_none, fun _ => ⟨rfl, by simp, fun _ => trivial⟩⟩⟩

theorem runUnplace_departed (s : State) (rest : List Command) (c : Command) :
    runUnplace c (s.departed rest) = judged (s.slotChecks c.small)
      (.completed 0 ((s.departed rest).onScene fun sc => sc.reorder (sc.order.filter (· ≠ c.small)))) := by
  simp [runUnplace, State.slotChecks]

theorem State.obj_lt {o : Obj} (h : s.obj n = some o) : n < 48 := Scene.obj_lt h

/-- Settles O16: the checks of R47 say its conditions, and the slot leaves the order. -/
theorem unplaceTakesOutOfTheOrder : Obligations.UnplaceTakesOutOfTheOrder := by
  refine ⟨?_, fun s c rest h =>
    State.refusesIn_judged h rfl (ofKind_of h) (runUnplace_departed s rest c) (s.slotChecks_say c.small)⟩
  intro s c rest n h hn defined seq
  subst hn
  obtain ⟨o, ho⟩ := Option.isSome_iff_exists.mp defined
  have pass := (s.slotChecks_say c.small).pass rfl (by
    simp only [List.forall_mem_cons, List.not_mem_nil, false_implies, implies_true, and_true]
    exact ⟨State.obj_lt ho, by simp [ho], seq⟩)
  exact State.runs_on_scene h (runUnplace_departed s rest c) pass rfl (Scene.reorder_filter s.scene c.small)

/-! ## PLACE (O15) -/

/-- The checks of R46. -/
def Command.placeChecks (c : Command) (s : State) : List (Bool × RefusalReason) :=
  [ (decide (c.small < 48) && positionOk c.position, .range),
    ((s.obj c.small).isSome, .undefinedSlot),
    (!s.seqHeld c.small, .reserved),
    (s.scene.aboveOk c.small c.position, .range) ]

theorem runPlace_departed (s : State) (rest : List Command) (c : Command) :
    runPlace c (s.departed rest) = judged (c.placeChecks s)
      (.completed 0 ((s.departed rest).onScene fun sc => sc.place c.small (c.position.getD .top))) := by
  simp [runPlace, Command.placeChecks]

theorem positionOk_iff (p : Option Position) :
    positionOk p = true ↔ p ≠ none ∧ ∀ r, p = some (.above r) → r < 48 := by
  rcases p with - | (- | - | r) <;> simp [positionOk]

/-- The condition of R46 on the reference slot of ABOVE. -/
theorem State.aboveOk_iff (s : State) (n : Nat) (p : Option Position) : s.scene.aboveOk n p = true ↔
    ∀ r, p = some (.above r) →
      r ≠ n ∧ r ∈ s.scene.order ∧ (s.obj r).map (·.group) = (s.obj n).map (·.group) := by
  rcases p with - | (- | - | r) <;> simp [Scene.aboveOk, Scene.placed, State.obj, and_assoc]

/-- The checks of R46 say its conditions. -/
theorem Command.placeChecks_say (c : Command) (s : State) : ChecksSay (c.placeChecks s)
    [ (c.small < 48 ∧ c.position ≠ none ∧ ∀ r, c.position = some (.above r) → r < 48, .range),
      (s.obj c.small ≠ none, .undefinedSlot),
      (s.seqHeld c.small = false, .reserved),
      ((∀ r, c.position = some (.above r) →
          r ≠ c.small ∧ r ∈ s.scene.order
            ∧ (s.obj r).map (·.group) = (s.obj c.small).map (·.group)), .range) ] := by
  refine ⟨rfl, ?_, fun _ => ⟨rfl, Option.isSome_iff_ne_none, fun _ => ⟨rfl, by simp, fun _ =>
    ⟨rfl, s.aboveOk_iff _ _, fun _ => trivial⟩⟩⟩⟩
  rw [Bool.and_eq_true, positionOk_iff, decide_eq_true_eq]

/-- Settles O15: the checks of R46 say its conditions, and the position parts the order that remains. -/
theorem placePutsAtThePosition : Obligations.PlacePutsAtThePosition := by
  refine ⟨?_, ?_⟩
  · intro s c rest n o p h hn ho seq hp law above
    subst hn
    have pass := (c.placeChecks_say s).pass rfl (by
      simp only [List.forall_mem_cons, List.not_mem_nil, false_implies, implies_true, and_true, hp, Option.some.injEq]
      refine ⟨⟨State.obj_lt ho, by simp, fun r e => (above r e).1⟩, by simp [ho], seq, fun r e => ?_⟩
      obtain ⟨-, other, placed, group⟩ := above r e
      exact ⟨other, placed, by rw [group, ho]; rfl⟩)
    obtain ⟨pre, post, parted, bottom, top, behind, ahead, reference⟩ := s.scene.orderWith_parted c.small o.group p
    have rest_ordered := Scene.without_ordered law c.small
    refine ⟨pre, post, parted.whole.trans (Scene.rest_parted rest_ordered).symm, ?_, bottom, top, ?_, ?_⟩
    · refine State.runs_on_scene h (runPlace_departed s rest c) pass rfl ?_
      have ho : s.scene.obj c.small = some o := ho
      simp only [hp, Option.getD_some, Scene.place, ho]
      rw [Scene.reorder_eq, parted.placed]
    · rintro (⟨rfl, slide⟩ | ⟨rfl, menu⟩)
      · exact ⟨parted.ahead slide, behind rfl slide⟩
      · exact ⟨ahead rfl menu, parted.behind menu⟩
    · intro r e
      obtain ⟨-, other, placed, group⟩ := above r e
      refine reference r e placed other ?_
      have group : s.scene.groupOf r = some o.group := group
      rw [Scene.inGroup_eq, group]
      cases o.group <;> rfl
  · intro s c rest n h hn
    subst hn
    exact State.refusesIn_judged h rfl (ofKind_of h) (runPlace_departed s rest c) (c.placeChecks_say s)

end

end Sys2Proof.Machine

/-!
PROOF. O14: DROP, whose object may be bound to a motion that then ends.
-/

namespace Sys2Proof.Machine

section
variable {s : State} {c : Command} {rest : List Command} {n : Nat}

/-- The checks of R44. -/
def Command.dropChecks (c : Command) (s : State) : List (Bool × RefusalReason) :=
  [ (decide (c.small < 48), .range), ((s.obj c.small).isSome, .undefinedSlot),
    (!s.seqHeld c.small && !s.pageHeld c.small, .reserved) ]

theorem Command.dropChecks_say (c : Command) (s : State) : ChecksSay (c.dropChecks s)
    [ (c.small < 48, .range), (s.obj c.small ≠ none, .undefinedSlot),
      (s.seqHeld c.small = false ∧ s.pageHeld c.small = false, .reserved) ] :=
  ⟨rfl, by simp, fun _ => ⟨rfl, Option.isSome_iff_ne_none, fun _ => ⟨rfl, by simp, fun _ => trivial⟩⟩⟩

theorem runDrop_departed (s : State) (rest : List Command) (c : Command) :
    runDrop c (s.departed rest) = judged (c.dropChecks s)
      (.completed 0 (((s.departed rest).removeMotion c.small c.slot).onScene fun sc => sc.undefine c.small)) := by
  simp [runDrop, Command.dropChecks]

/-- The removal of a motion leaves the status-write pending flag. -/
theorem State.removeMotion_statusPending (s : State) (n slot : Nat) :
    (s.removeMotion n slot).events.statusPending = s.events.statusPending := by
  unfold State.removeMotion
  split
  · exact (State.endMotion_notified s _ _ _ _ _ _).flag
  · rfl

/-- What a DROP that passes leaves. -/
theorem execDrop_passes {o : Obj} (h : s.Starts c rest .drop) (ho : s.obj c.small = some o)
    (seq : s.seqHeld c.small = false) (page : s.pageHeld c.small = false) :
    exec .drop s = .next
      ((((s.departed rest).removeMotion c.small c.slot).onScene fun sc => sc.undefine c.small).setCode 0).closed := by
  have pass := (c.dropChecks_say s).pass rfl (by
    simp only [List.forall_mem_cons, List.not_mem_nil, false_implies, implies_true, and_true]
    exact ⟨State.obj_lt ho, by simp [ho], seq, page⟩)
  refine State.startHead_completed h _ _ (ofKind_of h) ((runDrop_departed s rest c).trans (judged_pass pass)) ?_
  exact (State.removeMotion_statusPending _ _ _).trans (State.departed_statusPending s rest)

/-- The scene without the slot that a DROP undefines. -/
def Scene.dropped (sc : Scene) (n : Nat) : Scene :=
  { sc with slots := sc.slots.setIfInBounds n none, order := sc.order.filter (· ≠ n), mark := sc.mark || sc.placed n }

theorem State.onScene_undefine (v : State) (n : Nat) :
    (v.onScene fun sc => sc.undefine n) = { v with scene := v.scene.dropped n } :=
  congrArg (fun sc => ({ v with scene := sc } : State)) (Scene.undefine_eq v.scene n)

/-- A binding that ends with its slot's definition leaves no trace. -/
theorem Scene.undefine_bind (sc : Scene) (n : Nat) (ch : Option Nat) : (sc.bind n ch).undefine n = sc.dropped n := by
  rw [Scene.undefine_eq]
  unfold Scene.bind
  split
  · rfl
  · have twice (o : Option Obj) : (sc.slots.setIfInBounds n o).setIfInBounds n none = sc.slots.setIfInBounds n none := by
      ext i
      simp [Vector.getElem_setIfInBounds]
    simp only [Scene.put, Scene.dropped, twice]
    rfl

/-- A channel ends and frees the object of its slot. -/
theorem State.freeChannel_eq (s : State) {ch k : Nat} (h : (s.chan ch).slot = some k) : s.freeChannel ch =
    { s with
      scene := s.scene.bind k none
      motion := s.motion.putChannel ch (s.chan ch).ended } := by
  simp only [State.freeChannel, h]
  rfl

/-- The end of a motion whose owner is not COMMAND: the channel ends, and a SEQUENCER owner hears of it. -/
theorem State.endMotion_silent (s : State) {ch : Nat} (reason : EndReason) (abrupt snapped : Bool)
    (done shown : Option Nat) (h : (s.chan ch).owner ≠ some .command) :
    s.endMotion ch reason abrupt snapped done shown =
      if (s.chan ch).owner = some .sequencer then (s.freeChannel ch).notice ch snapped shown
      else s.freeChannel ch := by
  simp [State.endMotion, State.reportEnd, h]

/-- The end of a COMMAND-owned motion. -/
theorem State.endMotion_reports (s : State) {ch : Nat} (reason : EndReason) (abrupt snapped : Bool)
    (done shown : Option Nat) (h : (s.chan ch).owner = some .command) :
    s.endMotion ch reason abrupt snapped done shown =
      (s.raise (.motionDone ch reason abrupt ((s.chan ch).slot.getD 0) (s.chan ch).s) done).freeChannel ch := by
  simp [State.endMotion, State.reportEnd, h]

/-- A notice of a channel that is not awaited changes nothing (R144). -/
theorem State.notice_unawaited (s : State) {ch : Nat} (snapped : Bool) (slot : Option Nat)
    (h : ¬ (s.seq.state = .changing ∧ (ch = 5 ∧ s.seq.await5 = true ∨ ch = 6 ∧ s.seq.await6 = true))) :
    s.notice ch snapped slot = s := by
  refine if_pos ?_
  by_contra hc
  rw [not_or, not_not, Bool.not_eq_true', Bool.not_eq_false] at hc
  exact h ⟨hc.1, by simpa [Sequencer.awaits] using hc.2⟩

/-- Settles O14: the checks of R44 say its conditions; what the end of the motion leaves is told by whether the object
is bound, and by the channel's owner. -/
theorem dropUndefinesItsSlot : Obligations.DropUndefinesItsSlot := by
  refine ⟨?_, fun s c rest h =>
    State.refusesIn_judged h rfl (ofKind_of h) (runDrop_departed s rest c) (c.dropChecks_say s)⟩
  intro s c rest n o h hn ho seq page
  subst hn
  have ran := execDrop_passes h ho seq page
  refine ⟨fun loose => ?_, fun ch bound slot => ?_⟩
  · have still : (s.departed rest).removeMotion c.small c.slot = s.departed rest := by
      simp [State.removeMotion, ho, loose]
    rw [ran, still, State.scene_done 0 (Scene.undefine_eq s.scene c.small)]
  have removed : (s.departed rest).removeMotion c.small c.slot =
      (s.departed rest).endMotion ch .removed false false (some c.slot) (some c.slot) := by
    simp [State.removeMotion, ho, bound]
  rw [removed] at ran
  have channel : (s.departed rest).chan ch = s.chan ch := State.departed_chan s rest
  -- The freed channel leaves the object unbound, and the slot's definition goes with the binding.
  have freed (u : State) (hs : u.scene = s.scene) (hm : u.motion = s.motion) : u.freeChannel ch =
      { u with scene := s.scene.bind c.small none, motion := s.motion.putChannel ch (s.chan ch).ended } := by
    have chan : u.chan ch = s.chan ch := congrArg (fun m : Motion => m.channel ch) hm
    rw [State.freeChannel_eq u (chan ▸ slot), chan, hs, hm]
  have gone (u : State) (hs : u.scene = s.scene) (hm : u.motion = s.motion) :
      ((u.freeChannel ch).onScene fun sc => sc.undefine c.small) =
        { u with scene := s.scene.dropped c.small, motion := s.motion.putChannel ch (s.chan ch).ended } := by
    rw [freed u hs hm, ← Scene.undefine_bind s.scene c.small none]
    rfl
  refine ⟨fun owner unawaited => ?_, fun ⟨owner, changing, awaited⟩ => ?_, fun owner => ?_⟩
  · have unheard : (s.departed rest).endMotion ch .removed false false (some c.slot) (some c.slot) =
        (s.departed rest).freeChannel ch := by
      rw [State.endMotion_silent _ _ _ _ _ _ (channel ▸ owner), channel]
      split
      · rename_i sequencer
        refine State.notice_unawaited _ _ _ ?_
        rw [freed _ (State.departed_scene s rest) (State.departed_motion s rest)]
        show ¬ ((s.departed rest).seq.state = _ ∧ _)
        rw [State.departed_seq]
        exact fun k => unawaited ⟨sequencer, k⟩
      · rfl
    rw [ran, unheard, gone _ (State.departed_scene s rest) (State.departed_motion s rest)]
    rfl
  · have heard : (s.departed rest).endMotion ch .removed false false (some c.slot) (some c.slot) =
        ((s.departed rest).freeChannel ch).notice ch false (some c.slot) := by
      rw [State.endMotion_silent _ _ _ _ _ _ (by rw [channel, owner]; simp), channel, if_pos owner]
    rw [ran, heard, freed _ (State.departed_scene s rest) (State.departed_motion s rest), Scene.bind_eq ho]
    exact congrArg (fun v : State => Host.Outcome.next (v.setCode 0).closed) (State.onScene_undefine _ c.small)
  · rw [ran, State.endMotion_reports _ _ _ _ _ _ (channel ▸ owner), channel, slot,
      gone (State.raise _ _ _) (State.departed_scene s rest) (State.departed_motion s rest)]
    rfl

end

end Sys2Proof.Machine

/-!
PROOF. O17 to O19: the edits of a field, PATCH and STEP, and what bringing a value into a record leaves.
-/

namespace Sys2Proof.Machine

/-! ## The checks that PATCH and STEP share (R50) -/

section
variable {s : State} {c : Command} {rest : List Command}

/-- The object, the field and its old value that an edit names, when the object's kind carries the field. -/
def State.editTarget (s : State) (n : Nat) (field : Option Field) : Option (Obj × Field × Int) :=
  match s.obj n, field with
  | some o, some f => (f.get o).map fun old => (o, f, old)
  | _, _ => none

/-- The record with the new value brought in. -/
def State.editBrought (s : State) (n : Nat) (field : Option Field) (value : Field → Int → Int) : Option Obj :=
  (s.editTarget n field).bind fun (o, f, old) => f.bringIn s.cmdw o (value f old)

def State.editChecks (s : State) (n : Nat) (field : Option Field) (modeOk : Bool) (value : Field → Int → Int) :
    List (Bool × RefusalReason) :=
  [ (decide (n < 48), .range),
    ((s.obj n).isSome, .undefinedSlot),
    (!s.seqHeld n, .reserved),
    ((s.editTarget n field).isSome && modeOk, .range),
    ((s.editTarget n field).all fun (o, f, _) => !s.editBarred o f, .boundField),
    ((s.editBrought n field value).isSome, .range) ]

/-- An edit is judged by its checks, and stores the record brought. -/
theorem State.edit_eq (s : State) (n : Nat) (field : Option Field) (modeOk : Bool) (value : Field → Int → Int)
    (code : Field → Int → Int → Fin 4) : s.edit n field modeOk value code =
      judged (s.editChecks n field modeOk value)
        (match s.editTarget n field, s.editBrought n field value with
          | some (_, f, old), some o' =>
            .completed (code f old ((f.get o').getD 0)) (s.onScene fun sc => sc.modify n fun _ => o')
          | _, _ => .refused .range) := rfl

theorem State.departed_editTarget (s : State) (rest : List Command) (n : Nat) (field : Option Field) :
    (s.departed rest).editTarget n field = s.editTarget n field := by
  unfold State.editTarget
  rw [State.departed_obj]

theorem State.departed_editBrought (s : State) (rest : List Command) (n : Nat) (field : Option Field)
    (value : Field → Int → Int) : (s.departed rest).editBrought n field value = s.editBrought n field value := by
  unfold State.editBrought
  rw [State.departed_editTarget, State.departed_cmdw]

theorem State.departed_editChecks (s : State) (rest : List Command) (n : Nat) (field : Option Field) (modeOk : Bool)
    (value : Field → Int → Int) :
    (s.departed rest).editChecks n field modeOk value = s.editChecks n field modeOk value := by
  simp [State.editChecks, State.departed_editTarget, State.departed_editBrought]

/-- What an edit names. -/
theorem State.editTarget_iff {n : Nat} {field : Option Field} {o : Obj} {f : Field} {old : Int} :
    s.editTarget n field = some (o, f, old) ↔ s.obj n = some o ∧ field = some f ∧ f.get o = some old := by
  unfold State.editTarget
  split
  · rename_i o' f' ho
    constructor
    · intro h
      obtain ⟨old', get, e⟩ := Option.map_eq_some_iff.mp h
      simp only [Prod.mk.injEq] at e
      obtain ⟨rfl, rfl, rfl⟩ := e
      exact ⟨ho, rfl, get⟩
    · rintro ⟨e, e', get⟩
      cases ho.symm.trans e
      cases e'
      simp [get]
  · rename_i none
    simp only [reduceCtorEq, false_iff]
    rintro ⟨ho, rfl, -⟩
    exact none _ _ ho rfl

theorem State.editTarget_isSome {n : Nat} {field : Option Field} : (s.editTarget n field).isSome = true ↔
    ∃ f o, field = some f ∧ s.obj n = some o ∧ f.get o ≠ none := by
  rw [Option.isSome_iff_exists]
  constructor
  · rintro ⟨⟨o, f, old⟩, h⟩
    obtain ⟨ho, hf, get⟩ := State.editTarget_iff.mp h
    exact ⟨f, o, hf, ho, by simp [get]⟩
  · rintro ⟨f, o, hf, ho, get⟩
    obtain ⟨old, get⟩ := Option.ne_none_iff_exists'.mp get
    exact ⟨(o, f, old), State.editTarget_iff.mpr ⟨ho, hf, get⟩⟩

/-- The checks of R50 say its conditions; the fourth and the last are the commands' own. -/
theorem State.editChecks_say (s : State) (n : Nat) (field : Option Field) (modeOk : Bool) (value : Field → Int → Int)
    {carried stays : Prop}
    (hc : carried ↔ (∃ f o, field = some f ∧ s.obj n = some o ∧ f.get o ≠ none) ∧ modeOk = true)
    (hs : ∀ f o old, field = some f → s.obj n = some o → f.get o = some old → modeOk = true →
      (stays ↔ f.bringIn s.cmdw o (value f old) ≠ none)) :
    ChecksSay (s.editChecks n field modeOk value)
      [ (n < 48, .range),
        (s.obj n ≠ none, .undefinedSlot),
        (s.seqHeld n = false, .reserved),
        (carried, .range),
        ((∀ f o, field = some f → s.obj n = some o → s.editBarred o f = false), .boundField),
        (stays, .range) ] := by
  refine ⟨rfl, by simp, fun _ => ⟨rfl, Option.isSome_iff_ne_none, fun _ => ⟨rfl, by simp, fun _ =>
    ⟨rfl, by rw [hc, Bool.and_eq_true, State.editTarget_isSome], fun holds => ?_⟩⟩⟩⟩
  obtain ⟨⟨f, o, hf, ho, get⟩, mode⟩ := hc.mp holds
  obtain ⟨old, get⟩ := Option.ne_none_iff_exists'.mp get
  have target := State.editTarget_iff.mpr ⟨ho, hf, get⟩
  refine ⟨rfl, ?_, fun _ => ⟨rfl, ?_, fun _ => trivial⟩⟩
  · rw [target]
    simp [hf, ho]
  · rw [hs f o old hf ho get mode]
    simp [State.editBrought, target, Option.isSome_iff_ne_none]

/-- A row that edits a field, with the checks of R50 passed. -/
theorem State.edit_passes {k : Kind} {run : Command → State → Verdict} (h : s.Starts c rest k) {n : Nat}
    {field : Option Field} {modeOk : Bool} {value : Field → Int → Int} {code : Field → Int → Int → Fin 4}
    (edits : run c (s.departed rest) = (s.departed rest).edit n field modeOk value code)
    {o o' : Obj} {f : Field} {old : Int} (ho : s.obj n = some o) (hf : field = some f) (get : f.get o = some old)
    (pass : ∀ e ∈ s.editChecks n field modeOk value, e.1 = true) (brought : f.bringIn s.cmdw o (value f old) = some o') :
    s.live (fun t => t.startHead (ofKind k) run) = .next
      { s.doneWith rest (code f old ((f.get o').getD 0)) with
        scene :=
          { s.scene with
            slots := s.scene.slots.setIfInBounds n (some o')
            mark := s.scene.mark || (decide (o' ≠ o) && s.scene.placed n) } } := by
  have target := State.editTarget_iff.mpr ⟨ho, hf, get⟩
  have stored : s.editBrought n field value = some o' := by simp [State.editBrought, target, brought]
  refine State.runs_on_scene h (edits.trans (State.edit_eq ..)) (f := fun sc => sc.modify n fun _ => o') ?_ ?_
    (Scene.modify_eq ho _)
  · rwa [State.departed_editChecks]
  · rw [State.departed_editTarget, State.departed_editBrought, target, stored]

/-! ## PATCH (O17) -/

theorem runPatch_edits (s : State) (c : Command) : runPatch c s =
    s.edit c.smallLow c.field true (patchValue (c.word 1) (c.word 2))
      fun f _ stored => patchCode ((c.word 1).setWidth f.width) (BitVec.ofInt f.width stored) := rfl

/-- The checks of R50 say the conditions on a PATCH. -/
theorem Command.patchChecks_say (c : Command) (s : State) :
    ChecksSay (s.editChecks c.smallLow c.field true (patchValue (c.word 1) (c.word 2)))
      [ (c.smallLow < 48, .range),
        (s.obj c.smallLow ≠ none, .undefinedSlot),
        (s.seqHeld c.smallLow = false, .reserved),
        ((∃ f o, c.field = some f ∧ s.obj c.smallLow = some o ∧ f.get o ≠ none), .range),
        ((∀ f o, c.field = some f → s.obj c.smallLow = some o → s.editBarred o f = false), .boundField),
        ((∀ f o old, c.field = some f → s.obj c.smallLow = some o → f.get o = some old →
            f.bringIn s.cmdw o (patchValue (c.word 1) (c.word 2) f old) ≠ none), .range) ] := by
  refine s.editChecks_say _ _ _ _ (by simp) fun f o old hf ho get _ => ⟨fun h => h f o old hf ho get, ?_⟩
  intro h f' o' old' hf' ho' get'
  cases hf.symm.trans hf'
  cases ho.symm.trans ho'
  cases get.symm.trans get'
  exact h

/-- Settles O17: the checks of R50 say its conditions, and the record brought is stored. -/
theorem patchWritesAField : Obligations.PatchWritesAField := by
  refine ⟨?_, ?_⟩
  · intro s c rest n o o' f old new h hn ho seq hf get free brought stored
    subst hn
    have pass := (c.patchChecks_say s).pass rfl (by
      simp only [List.forall_mem_cons, List.not_mem_nil, false_implies, implies_true, and_true]
      refine ⟨State.obj_lt ho, by simp [ho], seq, ⟨f, o, hf, ho, by simp [get]⟩, fun f' o' hf' ho' => ?_,
        fun f' o' old' hf' ho' get' => ?_⟩
      · cases hf.symm.trans hf'
        cases ho.symm.trans ho'
        exact free
      · cases hf.symm.trans hf'
        cases ho.symm.trans ho'
        cases get.symm.trans get'
        exact Option.ne_none_iff_exists'.mpr ⟨_, brought⟩)
    have ran := State.edit_passes h (runPatch_edits _ c) ho hf get pass brought
    rw [stored] at ran
    exact ran
  · intro s c rest n h hn
    subst hn
    exact State.refusesIn_judged h rfl (ofKind_of h)
      ((runPatch_edits _ c).trans ((State.edit_eq ..).trans (by rw [State.departed_editChecks]))) (c.patchChecks_say s)

/-! ## STEP (O18) -/

theorem runStep_edits (s : State) (c : Command) : runStep c s =
    s.edit c.smallLow c.field c.stepStops.isSome
      (fun _ old => stepValue (c.word 1).toInt (c.word 2).toInt (c.stepStops.getD true) old)
      fun _ old _ => stepCode (c.word 1).toInt (old + (c.word 1).toInt) (c.word 2).toInt := rfl

/-- The sum has passed the limit (R52). -/
theorem stepCode_passed (increment sum limit : Int) :
    stepCode increment sum limit = 2 ↔ if 0 ≤ increment then limit < sum else sum < limit := by
  unfold stepCode
  split_ifs <;> simp <;> omega

/-- The code says within, reached or passed (R52). -/
theorem stepCode_unique {increment sum limit : Int} {code : Fin 4}
    (within : code = 0 ↔ (0 ≤ increment ∧ sum < limit) ∨ (increment < 0 ∧ limit < sum))
    (reached : code = 1 ↔ sum = limit)
    (passed : code = 2 ↔ (0 ≤ increment ∧ limit < sum) ∨ (increment < 0 ∧ sum < limit)) :
    stepCode increment sum limit = code := by
  unfold stepCode
  split_ifs with equal up below above
  · exact (reached.mpr equal).symm
  · exact (within.mpr (.inl ⟨up, below⟩)).symm
  · exact (passed.mpr (.inl ⟨up, by omega⟩)).symm
  · exact (within.mpr (.inr ⟨by omega, above⟩)).symm
  · exact (passed.mpr (.inr ⟨by omega, by omega⟩)).symm

/-- The last check of R50 for the value that STEP chooses. -/
theorem stepValue_stays (increment limit old : Int) (stops : Bool) (stays : Int → Prop) :
    stays (stepValue increment limit stops old) ↔
      ((if 0 ≤ increment then limit < old + increment else old + increment < limit) → stops = true → stays limit)
      ∧ (¬ ((if 0 ≤ increment then limit < old + increment else old + increment < limit) ∧ stops = true) →
          stays (old + increment)) := by
  rw [← stepCode_passed]
  unfold stepValue
  by_cases h : stepCode increment (old + increment) limit = 2 ∧ stops = true
  · simp [h]
  · rw [if_neg h]
    exact ⟨fun k => ⟨fun a b => absurd ⟨a, b⟩ h, fun _ => k⟩, fun k => k.2 h⟩

/-- The checks of R50 say the conditions on a STEP. -/
theorem Command.stepChecks_say (c : Command) (s : State) :
    ChecksSay (s.editChecks c.smallLow c.field c.stepStops.isSome fun _ old =>
        stepValue (c.word 1).toInt (c.word 2).toInt (c.stepStops.getD true) old)
      [ (c.smallLow < 48, .range),
        (s.obj c.smallLow ≠ none, .undefinedSlot),
        (s.seqHeld c.smallLow = false, .reserved),
        ((∃ f o, c.field = some f ∧ s.obj c.smallLow = some o ∧ f.get o ≠ none) ∧ c.stepStops ≠ none, .range),
        ((∀ f o, c.field = some f → s.obj c.smallLow = some o → s.editBarred o f = false), .boundField),
        ((∀ f o old stops, c.field = some f → s.obj c.smallLow = some o → f.get o = some old →
            c.stepStops = some stops →
            let increment := (c.word 1).toInt
            let limit := (c.word 2).toInt
            let sum := old + increment
            let passed : Prop := if 0 ≤ increment then limit < sum else sum < limit
            (passed → stops = true → f.bringIn s.cmdw o limit ≠ none)
              ∧ (¬ (passed ∧ stops = true) → f.bringIn s.cmdw o sum ≠ none)), .range) ] := by
  refine s.editChecks_say _ _ _ _ (by rw [Option.isSome_iff_ne_none]) fun f o old hf ho get mode => ?_
  obtain ⟨stops, known⟩ := Option.isSome_iff_exists.mp mode
  rw [known, Option.getD_some, stepValue_stays _ _ _ _ fun z => f.bringIn s.cmdw o z ≠ none]
  constructor
  · exact fun h => h f o old stops hf ho get rfl
  · intro h f' o' old' stops' hf' ho' get' known'
    cases hf.symm.trans hf'
    cases ho.symm.trans ho'
    cases get.symm.trans get'
    cases known'
    exact h

/-- Settles O18: the checks of R50 say its conditions, and the value that the comparison chooses is stored. -/
theorem stepComparesAndStores : Obligations.StepComparesAndStores := by
  refine ⟨?_, ?_⟩
  · intro s c rest n o o' f stops old code h hn ho seq hf known get free increment limit sum within reached passed brought
    subst hn
    have judgement : stepCode increment (old + increment) limit = code := stepCode_unique within reached passed
    have value : stepValue increment limit (c.stepStops.getD true) old =
        if code = 2 ∧ stops = true then limit else sum := by
      unfold stepValue
      rw [judgement, known]
      rfl
    have brought : f.bringIn s.cmdw o (stepValue increment limit (c.stepStops.getD true) old) = some o' := by
      rw [value]
      exact brought
    have pass := (s.editChecks_say c.smallLow c.field c.stepStops.isSome
        (fun _ old => stepValue increment limit (c.stepStops.getD true) old) Iff.rfl
        (stays := f.bringIn s.cmdw o (stepValue increment limit (c.stepStops.getD true) old) ≠ none) (by
          intro f' o' old' hf' ho' get' _
          cases hf.symm.trans hf'
          cases ho.symm.trans ho'
          cases get.symm.trans get'
          rfl)).pass rfl (by
      simp only [List.forall_mem_cons, List.not_mem_nil, false_implies, implies_true, and_true]
      refine ⟨State.obj_lt ho, by simp [ho], seq, ⟨⟨f, o, hf, ho, by simp [get]⟩, by simp [known]⟩,
        fun f' o' hf' ho' => ?_, Option.ne_none_iff_exists'.mpr ⟨_, brought⟩⟩
      cases hf.symm.trans hf'
      cases ho.symm.trans ho'
      exact free)
    have ran := State.edit_passes h (runStep_edits _ c) ho hf get pass brought
    rw [show stepCode (c.word 1).toInt (old + (c.word 1).toInt) (c.word 2).toInt = code from judgement] at ran
    exact ran
  · intro s c rest n h hn
    subst hn
    exact State.refusesIn_judged h rfl (ofKind_of h)
      ((runStep_edits _ c).trans ((State.edit_eq ..).trans (by rw [State.departed_editChecks]))) (c.stepChecks_say s)

end

end Sys2Proof.Machine


/-! PROOF. Bringing a value into a valid record (O19). -/

namespace Sys2Proof.Machine

theorem validated_some {cmdw : Nat} {z : Int} {p o : Obj} (h : validated cmdw z p = some o) :
    o = p ∧ 0 ≤ z ∧ p.valid cmdw = true := by
  unfold validated at h
  split at h
  next pass => exact ⟨(Option.some.inj h).symm, pass⟩
  · cases h

/-- A record is valid just when its ranges, its kind, its viewport and its source's end are. -/
theorem Obj.valid_iff {cmdw : Nat} {o : Obj} : o.valid cmdw = true ↔
    o.rangesOk = true ∧ o.kindOk = true ∧ o.viewportOk = true ∧ o.sourceEnd ≤ cmdw := by
  simp [Obj.valid, and_assoc]

theorem clampInt_bounds {lo hi : Int} (z : Int) (h : lo ≤ hi) : lo ≤ clampInt lo hi z ∧ clampInt lo hi z ≤ hi := by
  unfold clampInt
  omega

/-- A clamp between 0 and a natural number is a natural number up to it. -/
theorem clampInt_nat (n : Nat) (z : Int) :
    (clampInt 0 n z).toNat ≤ n ∧ ((clampInt 0 n z).toNat : Int) = max 0 (min (n : Int) z) := by
  unfold clampInt
  omega

/-! ## The value that a field gets -/

/-- The value that a field holds after `z` was brought in, by its class (R53). -/
def Field.heldAs (f : Field) (o : Obj) (z : Int) : Int :=
  match f with
  | .x | .y => max (-32768) (min 65535 z)
  | .alpha => max 0 (min 255 z)
  | .clipX0 | .clipY0 | .clipX1 | .clipY1 => max 0 (min 2048 z)
  | .vx => match o.body with | .slide _ _ iw _ _ _ => max 0 (min (((iw - o.w) * 16 : Nat) : Int) z) | _ => z
  | .vy => match o.body with | .slide _ _ _ ih _ _ => max 0 (min (((ih - o.h) * 16 : Nat) : Int) z) | _ => z
  | .visible | .clip => z % 2
  | .colour => z % 2 ^ 32
  | .w | .h | .palette | .source | .stride => z

@[simp] theorem Field.get_w_withW (o : Obj) (n : Nat) : Field.w.get (o.withW n) = some (n : Int) := by
  unfold Obj.withW Obj.reclampX
  split <;> rfl

@[simp] theorem Field.get_h_withH (o : Obj) (n : Nat) : Field.h.get (o.withH n) = some (n : Int) := by
  unfold Obj.withH Obj.reclampY
  split <;> rfl

theorem Field.get_source_withSource {o : Obj} (carried : (Field.source.get o).isSome = true) (n : Nat) :
    Field.source.get { o with body := o.body.withSource n } = some (n : Int) := by
  unfold Field.get at *
  cases hb : o.body <;> simp_all [Body.withSource]

theorem Field.get_stride_withStride {o : Obj} (carried : (Field.stride.get o).isSome = true) (n : Nat) :
    Field.stride.get { o with body := o.body.withStride n } = some (n : Int) := by
  unfold Field.get at *
  cases hb : o.body <;> simp_all [Body.withStride]

/-- A wrapped flag is the low bit of its value. -/
theorem flag_value (z : Int) : (if (z % 2 == 1) = true then 1 else 0) = z % 2 := by
  rcases Int.emod_two_eq z with h | h <;> simp [h]

section
variable {f : Field} {cmdw : Nat} {o o' : Obj} {z : Int}

/-- The viewport is edited in a SLIDE only, and the field is clamped to its range. -/
theorem Field.bringIn_vx (h : Field.vx.bringIn cmdw o z = some o') : ∃ src st iw ih vx vy,
    o.body = .slide src st iw ih vx vy ∧
      o' = { o with body := .slide src st iw ih (clampInt 0 (((iw - o.w) * 16 : Nat) : Int) z).toNat vy } := by
  unfold Field.bringIn at h
  dsimp only at h
  split at h
  next src st iw ih vx vy body => exact ⟨src, st, iw, ih, vx, vy, body, (Option.some.inj h).symm⟩
  · cases h

theorem Field.bringIn_vy (h : Field.vy.bringIn cmdw o z = some o') : ∃ src st iw ih vx vy,
    o.body = .slide src st iw ih vx vy ∧
      o' = { o with body := .slide src st iw ih vx (clampInt 0 (((ih - o.h) * 16 : Nat) : Int) z).toNat } := by
  unfold Field.bringIn at h
  dsimp only at h
  split at h
  next src st iw ih vx vy body => exact ⟨src, st, iw, ih, vx, vy, body, (Option.some.inj h).symm⟩
  · cases h

/-- The palette number is edited in a BITMAP8 only. -/
theorem Field.bringIn_palette (h : Field.palette.bringIn cmdw o z = some o') : ∃ p src st,
    o.body = .bitmap8 p src st ∧ validated cmdw z { o with body := .bitmap8 z.toNat src st } = some o' := by
  unfold Field.bringIn at h
  dsimp only at h
  split at h
  next p src st body => exact ⟨p, src, st, body, h⟩
  · cases h

/-- The colour is edited in a FILL only. -/
theorem Field.get_colour (h : (Field.colour.get o).isSome = true) : ∃ colour, o.body = .fill colour := by
  unfold Field.get at h
  cases body : o.body <;> simp_all

/-- R53: the field holds the value by its class. -/
theorem Field.bringIn_value (carried : (f.get o).isSome = true) (h : f.bringIn cmdw o z = some o') :
    f.get o' = some (f.heldAs o z) := by
  cases f
  case w | h =>
    obtain ⟨rfl, pos, -⟩ := validated_some h
    simp [Field.heldAs, pos]
  case source =>
    obtain ⟨rfl, pos, -⟩ := validated_some h
    rw [Field.get_source_withSource carried]
    simp [Field.heldAs, pos]
  case stride =>
    obtain ⟨rfl, pos, -⟩ := validated_some h
    rw [Field.get_stride_withStride carried]
    simp [Field.heldAs, pos]
  case palette =>
    obtain ⟨p, src, st, body, h⟩ := Field.bringIn_palette h
    obtain ⟨rfl, pos, -⟩ := validated_some h
    simp [Field.get, Field.heldAs, pos]
  case vx =>
    obtain ⟨src, st, iw, ih, vx, vy, body, rfl⟩ := Field.bringIn_vx h
    simp only [Field.get, Field.heldAs, body, (clampInt_nat _ z).2]
  case vy =>
    obtain ⟨src, st, iw, ih, vx, vy, body, rfl⟩ := Field.bringIn_vy h
    simp only [Field.get, Field.heldAs, body, (clampInt_nat _ z).2]
  case visible | clip =>
    cases h
    exact congrArg some (flag_value z)
  case colour =>
    cases h
    simp only [Field.get, Field.heldAs, BitVec.toNat_ofInt]
    exact congrArg some (Int.toNat_of_nonneg (by omega))
  case x | y =>
    cases h
    rfl
  case alpha =>
    cases h
    exact congrArg some (clampInt_nat 255 z).2
  case clipX0 | clipY0 | clipX1 | clipY1 =>
    cases h
    exact congrArg some (clampInt_nat 2048 z).2

/-! ## The record stays valid -/

/-- R53: a geometric or wrapping field keeps the record valid at its class's value, and any other field is stored
only in a valid record. -/
theorem Field.bringIn_valid (valid : o.valid cmdw = true) (carried : (f.get o).isSome = true)
    (h : f.bringIn cmdw o z = some o') : o'.valid cmdw = true := by
  have ⟨ranges, kind, view, ends⟩ := Obj.valid_iff.mp valid
  cases f
  case w | h | source | stride =>
    obtain ⟨rfl, -, pass⟩ := validated_some h
    exact pass
  case palette =>
    obtain ⟨p, src, st, body, h⟩ := Field.bringIn_palette h
    obtain ⟨rfl, -, pass⟩ := validated_some h
    exact pass
  case vx =>
    obtain ⟨src, st, iw, ih, vx, vy, body, rfl⟩ := Field.bringIn_vx h
    simp only [Obj.kindOk, Obj.viewportOk, Obj.sourceEnd, body, Bool.and_eq_true, decide_eq_true_eq] at kind view ends
    refine Obj.valid_iff.mpr ⟨ranges, ?_, ?_, ends⟩
    · simpa [Obj.kindOk] using kind
    · simp only [Obj.viewportOk, Bool.and_eq_true, decide_eq_true_eq]
      exact ⟨(clampInt_nat _ z).1, view.2⟩
  case vy =>
    obtain ⟨src, st, iw, ih, vx, vy, body, rfl⟩ := Field.bringIn_vy h
    simp only [Obj.kindOk, Obj.viewportOk, Obj.sourceEnd, body, Bool.and_eq_true, decide_eq_true_eq] at kind view ends
    refine Obj.valid_iff.mpr ⟨ranges, ?_, ?_, ends⟩
    · simpa [Obj.kindOk] using kind
    · simp only [Obj.viewportOk, Bool.and_eq_true, decide_eq_true_eq]
      exact ⟨view.1, (clampInt_nat _ z).1⟩
  case colour =>
    obtain ⟨colour, body⟩ := Field.get_colour carried
    cases h
    exact Obj.valid_iff.mpr ⟨ranges, rfl, rfl, Nat.zero_le _⟩
  case visible | clip =>
    cases h
    exact valid
  case x | y =>
    cases h
    have bounds := clampInt_bounds (lo := -32768) (hi := 65535) z (by omega)
    refine Obj.valid_iff.mpr ⟨?_, kind, view, ends⟩
    simp only [Obj.rangesOk, Bool.and_eq_true, decide_eq_true_eq] at ranges ⊢
    omega
  case alpha =>
    cases h
    have bound : (clampInt 0 255 z).toNat ≤ 255 := (clampInt_nat 255 z).1
    refine Obj.valid_iff.mpr ⟨?_, kind, view, ends⟩
    simp only [Obj.rangesOk, Bool.and_eq_true, decide_eq_true_eq] at ranges ⊢
    omega
  case clipX0 | clipY0 | clipX1 | clipY1 =>
    cases h
    have bound : (clampInt 0 2048 z).toNat ≤ 2048 := (clampInt_nat 2048 z).1
    refine Obj.valid_iff.mpr ⟨?_, kind, view, ends⟩
    simp only [Obj.rangesOk, Bool.and_eq_true, decide_eq_true_eq] at ranges ⊢
    omega

/-! ## Nothing else changes -/

/-- The body of a record after an edit of `f` with `z` (R53, R55). -/
def Obj.editedBody (o : Obj) (f : Field) (z : Int) : Body :=
  match o.body with
  | .fill colour => .fill (if f = .colour then BitVec.ofInt 32 z else colour)
  | .bitmap8 palette src st =>
    .bitmap8 (if f = .palette then z.toNat else palette) (if f = .source then z.toNat else src)
      (if f = .stride then z.toNat else st)
  | .bitmap32 src st =>
    .bitmap32 (if f = .source then z.toNat else src) (if f = .stride then z.toNat else st)
  | .slide src st iw ih vx vy =>
    .slide (if f = .source then z.toNat else src) (if f = .stride then z.toNat else st) iw ih
      (if f = .vx then (max 0 (min (((iw - o.w) * 16 : Nat) : Int) z)).toNat
        else if f = .w then min vx ((iw - z.toNat) * 16) else vx)
      (if f = .vy then (max 0 (min (((ih - o.h) * 16 : Nat) : Int) z)).toNat
        else if f = .h then min vy ((ih - z.toNat) * 16) else vy)

/-- The record after an edit of `f` with `z`, whose own fields are those of `o'`. -/
def Obj.edited (o o' : Obj) (f : Field) (z : Int) : Obj :=
  { o with
    x := if f = .x then o'.x else o.x
    y := if f = .y then o'.y else o.y
    w := if f = .w then o'.w else o.w
    h := if f = .h then o'.h else o.h
    alpha := if f = .alpha then o'.alpha else o.alpha
    visible := if f = .visible then o'.visible else o.visible
    clip := if f = .clip then o'.clip else o.clip
    clipX0 := if f = .clipX0 then o'.clipX0 else o.clipX0
    clipY0 := if f = .clipY0 then o'.clipY0 else o.clipY0
    clipX1 := if f = .clipX1 then o'.clipX1 else o.clipX1
    clipY1 := if f = .clipY1 then o'.clipY1 else o.clipY1
    body := o.editedBody f z }

/-- A field of the general part is not one of the body. -/
theorem Obj.editedBody_general (o : Obj) {f : Field} (z : Int)
    (general : f ∉ [Field.w, .h, .colour, .palette, .source, .stride, .vx, .vy]) : o.editedBody f z = o.body := by
  simp only [List.mem_cons, List.not_mem_nil, or_false, not_or] at general
  obtain ⟨w, h, colour, palette, source, stride, vx, vy⟩ := general
  unfold Obj.editedBody
  cases o.body <;> simp [w, h, colour, palette, source, stride, vx, vy]

/-- A new size re-clamps the viewport (R55). -/
theorem Obj.withW_edited (o : Obj) (z : Int) : o.withW z.toNat = o.edited (o.withW z.toNat) .w z := by
  unfold Obj.withW Obj.reclampX Obj.edited Obj.editedBody
  cases o.body <;> rfl

theorem Obj.withH_edited (o : Obj) (z : Int) : o.withH z.toNat = o.edited (o.withH z.toNat) .h z := by
  unfold Obj.withH Obj.reclampY Obj.edited Obj.editedBody
  cases o.body <;> rfl

theorem Obj.editedBody_source (o : Obj) (z : Int) : o.editedBody .source z = o.body.withSource z.toNat := by
  unfold Obj.editedBody
  cases o.body <;> rfl

theorem Obj.editedBody_stride (o : Obj) (z : Int) : o.editedBody .stride z = o.body.withStride z.toNat := by
  unfold Obj.editedBody
  cases o.body <;> rfl

/-- R53, R55: nothing but the named field changes, apart from the viewport under a new size. -/
theorem Field.bringIn_edited (carried : (f.get o).isSome = true) (h : f.bringIn cmdw o z = some o') :
    o' = o.edited o' f z := by
  cases f
  case w =>
    obtain ⟨rfl, -⟩ := validated_some h
    exact o.withW_edited z
  case h =>
    obtain ⟨rfl, -⟩ := validated_some h
    exact o.withH_edited z
  case source =>
    obtain ⟨rfl, -⟩ := validated_some h
    exact congrArg (fun body => { o with body := body }) (o.editedBody_source z).symm
  case stride =>
    obtain ⟨rfl, -⟩ := validated_some h
    exact congrArg (fun body => { o with body := body }) (o.editedBody_stride z).symm
  case palette =>
    obtain ⟨p, src, st, body, h⟩ := Field.bringIn_palette h
    obtain ⟨rfl, -⟩ := validated_some h
    simp [Obj.edited, Obj.editedBody, body]
  case vx =>
    obtain ⟨src, st, iw, ih, vx, vy, body, rfl⟩ := Field.bringIn_vx h
    simp [Obj.edited, Obj.editedBody, body, clampInt]
  case vy =>
    obtain ⟨src, st, iw, ih, vx, vy, body, rfl⟩ := Field.bringIn_vy h
    simp [Obj.edited, Obj.editedBody, body, clampInt]
  case colour =>
    obtain ⟨colour, body⟩ := Field.get_colour carried
    cases h
    simp [Obj.edited, Obj.editedBody, body]
  case x | y | alpha | visible | clip | clipX0 | clipY0 | clipX1 | clipY1 =>
    cases h
    simp [Obj.edited, Obj.editedBody_general]

/-- An edit leaves every other field's value, apart from the viewport under a new size. -/
theorem Field.get_edited {g : Field} (o' : Obj) (other : g ≠ f) (size : ¬ (f = .w ∧ g = .vx))
    (height : ¬ (f = .h ∧ g = .vy)) : g.get (o.edited o' f z) = g.get o := by
  cases g
  case x | y | w | h | alpha | visible | clip | clipX0 | clipY0 | clipX1 | clipY1 =>
    simp [Field.get, Obj.edited, other.symm]
  case colour | palette | source | stride =>
    cases body : o.body <;> simp [Field.get, Obj.edited, Obj.editedBody, body, other.symm]
  case vx =>
    have size : f ≠ .w := fun e => size ⟨e, rfl⟩
    cases body : o.body <;> simp [Field.get, Obj.edited, Obj.editedBody, body, other.symm, size]
  case vy =>
    have height : f ≠ .h := fun e => height ⟨e, rfl⟩
    cases body : o.body <;> simp [Field.get, Obj.edited, Obj.editedBody, body, other.symm, height]

end

/-- Settles O19: the value by the field's class, the record's validity and its frame. -/
theorem editKeepsTheRecordValid : Obligations.EditKeepsTheRecordValid := by
  intro f g cmdw o o' z valid carried h
  have value := Field.bringIn_value carried h
  have edited := Field.bringIn_edited carried h
  refine ⟨Field.bringIn_valid valid carried h, ?_, ?_, ?_, ?_, ?_, ?_, ?_, ?_, edited⟩
  · rintro (rfl | rfl) <;> exact value
  · rintro rfl
    exact value
  · rintro (rfl | rfl | rfl | rfl) <;> exact value
  · intro src st iw ih vx vy body
    constructor <;> (rintro rfl; simpa only [Field.heldAs, body] using value)
  · rintro (rfl | rfl | rfl | rfl | rfl) <;> exact value
  · rintro (rfl | rfl) <;> exact value
  · rintro rfl
    exact value
  · intro other size height
    rw [edited]
    exact Field.get_edited o' other size height

end Sys2Proof.Machine


/-! PROOF. The end of a palette read (O21) and the completion of a composition (O55). -/

namespace Sys2Proof.Machine

/-! ## Palettes (R56, R58) -/

/-- The entries of a palette after words were put into it from an entry on. -/
theorem paletteWith_get (ws : List Word) (p : Vector Word 256) (first : Nat) (i : Fin 256) :
    (paletteWith p first ws)[i] =
      if first ≤ i.val ∧ i.val < first + ws.length then ws.getD (i.val - first) 0 else p[i] := by
  induction ws generalizing p first with
  | nil => rw [if_neg (by simp)]; rfl
  | cons w ws ih =>
    rw [paletteWith, ih, List.length_cons, Fin.getElem_fin, Fin.getElem_fin, Vector.getElem_setIfInBounds]
    rcases Nat.lt_trichotomy i.val first with low | here | high
    · rw [if_neg (by omega), if_neg (by omega), if_neg (by omega)]
    · rw [if_neg (by omega), if_pos here.symm, if_pos (by omega), here, Nat.sub_self]
      rfl
    · obtain ⟨k, hk⟩ : ∃ k, i.val - first = k + 1 := ⟨i.val - first - 1, by omega⟩
      have hk' : i.val - (first + 1) = k := by omega
      simp only [hk, hk', List.getD_cons_succ]
      rw [if_neg (show ¬ first = i.val by omega)]
      exact if_congr (by omega) rfl rfl

/-- R58: the installed entries are those of the buffer, in order. -/
theorem Scene.installPalette_get {sc : Scene} {l : PaletteLoad} (load : sc.load = some l) (q : Fin 4) (i : Fin 256) :
    (sc.installPalette.palettes[q])[i] =
      if q.val = l.palette ∧ l.first ≤ i.val ∧ i.val < l.first + l.entries.length then
        l.entries.getD (i.val - l.first) 0
      else (sc.palettes[q])[i] := by
  have installed : sc.installPalette.palettes =
      sc.palettes.setIfInBounds l.palette
        (paletteWith (sc.palettes[l.palette]?.getD (Vector.replicate 256 0)) l.first l.entries) := by
    simp only [Scene.installPalette, load]
  rw [installed, Fin.getElem_fin (i := q), Vector.getElem_setIfInBounds]
  by_cases named : l.palette = q.val
  · have old : sc.palettes[l.palette]?.getD (Vector.replicate 256 0) = sc.palettes[q] := by
      rw [named, Vector.getElem?_eq_getElem q.isLt, Option.getD_some]
      rfl
    rw [if_pos named, old, paletteWith_get]
    simp only [named, true_and]
  · rw [if_neg named, if_neg fun h => named h.1.symm]
    rfl

theorem Scene.installPalette_rest {sc : Scene} {l : PaletteLoad} (load : sc.load = some l) :
    sc.installPalette.slots = sc.slots ∧ sc.installPalette.order = sc.order ∧ sc.installPalette.load = none
      ∧ sc.installPalette.mark = true := by
  simp [Scene.installPalette, load]

/-- R58: with a composition in flight the entries wait. -/
theorem State.paletteRead_waits {s : State} {l : PaletteLoad} (load : s.scene.load = some l)
    (comp : s.composer.comp ≠ none) :
    s.paletteRead = { s with scene := { s.scene with load := some { l with ended := true } } } := by
  unfold State.paletteRead
  rw [if_neg (by simpa using comp)]
  unfold State.onScene
  simp only [load, Option.map_some]

theorem State.paletteRead_installs {s : State} (comp : s.composer.comp = none) :
    s.paletteRead = s.installEntries := by
  unfold State.paletteRead
  rw [comp]
  rfl

/-- Settles O21: the entries are installed, or wait for the composition in flight. -/
theorem paletteReadEndInstalls : Obligations.PaletteReadEndInstalls := by
  intro s l settled busy load
  refine ⟨(s.free.endFetch .palette).paletteRead, State.event_fetchEnd settled busy _, ?_⟩
  by_cases comp : s.composer.comp = none
  · have done := State.paletteRead_installs (s := s.free.endFetch .palette) comp
    rw [done]
    obtain ⟨slots, order, emptied, mark⟩ := Scene.installPalette_rest load
    refine ⟨fun p hp => ?_, rfl, slots, order, fun h => absurd comp h, fun _ => ⟨rfl, emptied, mark,
      Scene.installPalette_get load⟩⟩
    cases p <;> simp_all [Part.same] <;> rfl
  · have done := State.paletteRead_waits (s := s.free.endFetch .palette) load comp
    rw [done]
    refine ⟨fun p hp => ?_, rfl, rfl, rfl, fun _ => ⟨rfl, rfl⟩, fun h => absurd h comp⟩
    cases p <;> simp_all [Part.same] <;> rfl

/-! ## The completion of a composition (R98) -/

/-- R98: swap-pending is set and no composition is in flight. -/
def State.composed (s : State) : State :=
  { s with
    bridge := { s.bridge with busy := none }
    composer := { s.composer with swapPending := true, comp := none } }

theorem exec_compositionComplete {s : State} (settled : s.Settled) (busy : s.bridge.busy = some .composition) :
    exec .compositionComplete s = .next ((s.free.compositionDone).endStep s) :=
  (State.event_settled settled _).trans (by rw [State.atEnd_busy busy])

/-- No entries wait. -/
theorem Scene.no_entries_wait {sc : Scene} (h : ∀ l, sc.load = some l → l.ended = false) :
    sc.load.any (·.ended) = false := by
  cases load : sc.load with
  | none => rfl
  | some l => exact h l load

/-- With no entries waiting, only a SET CANVAS in service waits for the composition. -/
theorem State.compositionDone_entries {s : State} (h : ∀ l, s.scene.load = some l → l.ended = false) :
    s.free.compositionDone =
      State.drainStep (match s.intake.inService with
        | some ⟨_, .setCanvas c⟩ => (s.composed.applyCanvas c).complete 0
        | _ => s.composed) := by
  have none_wait : s.free.scene.load.any (·.ended) = false := Scene.no_entries_wait h
  unfold State.compositionDone
  simp only [State.onComposer, none_wait, Bool.false_eq_true, if_false]
  rfl

/-- With no waiter, the completion only lets DRAIN look. -/
theorem State.compositionDone_alone {s : State} (entries : ∀ l, s.scene.load = some l → l.ended = false)
    (canvas : ∀ slot k, s.intake.inService ≠ some ⟨slot, .setCanvas k⟩) :
    s.free.compositionDone = s.composed.drainStep := by
  rw [State.compositionDone_entries entries]
  split
  next slot k serving => exact absurd serving (canvas slot k)
  · rfl

/-- R95: a SET CANVAS in service applies its setup and completes. -/
theorem State.compositionDone_canvas {s : State} {slot : Nat} {k : CanvasSetup}
    (entries : ∀ l, s.scene.load = some l → l.ended = false)
    (serving : s.intake.inService = some ⟨slot, .setCanvas k⟩) :
    s.free.compositionDone = ((s.composed.applyCanvas k).complete 0).drainStep := by
  rw [State.compositionDone_entries entries, serving]

/-- R58: waiting entries are installed and their LOAD PALETTE completes. -/
theorem State.compositionDone_palette {s : State} {l : PaletteLoad} (load : s.scene.load = some l)
    (ended : l.ended = true) : s.free.compositionDone = s.composed.installEntries.drainStep := by
  have wait : s.free.scene.load.any (·.ended) = true := by
    show s.scene.load.any (·.ended) = true
    rw [load]
    exact ended
  unfold State.compositionDone
  simp only [State.onComposer, wait, if_true]
  rfl

/-- Settles O55: each waiter is freed, and DRAIN stands or ends by what is left. -/
theorem compositionCompletesAndFreesWaiters : Obligations.CompositionCompletesAndFreesWaiters := by
  refine ⟨fun s u settled busy hu => ?_, fun s => ⟨State.drainStep_idle, State.drainStep_composing,
    fun f he hp hf => ⟨fun recovered => ⟨State.drainStep_waits ?_, State.drainStep_saves he hp f hf recovered⟩,
      fun recovered comp => State.drainStep_recovers he hp f hf recovered comp⟩⟩⟩
  · rw [exec_compositionComplete settled busy]
    obtain rfl : u = s.composed := hu
    refine ⟨fun entries canvas => ?_, fun slot k entries serving => ?_, fun l load ended => ?_⟩
    · rw [State.compositionDone_alone entries canvas]
    · rw [State.compositionDone_canvas entries serving]
      rfl
    · obtain ⟨slots, order, emptied, mark⟩ := Scene.installPalette_rest load
      refine ⟨s.composed.installEntries, by rw [State.compositionDone_palette load ended], fun p hp => ?_, rfl, rfl, rfl,
        slots, order, emptied, mark, Scene.installPalette_get load⟩
      cases p <;> simp_all [Part.same] <;> rfl
  · rw [hf]
    exact recovered

end Sys2Proof.Machine


/-! PROOF. The value of a moved field and one step's writes (O29). -/

namespace Sys2Proof.Machine

/-! ## Rounding to the nearest (R75) -/

/-- The part `s` of `travel` of a distance, rounded to the nearest with halves up. -/
def nearest (distance s travel : Nat) : Nat := (distance * s + travel / 2) / travel

/-- Twice the rounded part is within `travel` of twice the exact one, and below it by less. -/
theorem nearest_bounds (distance s : Nat) {travel : Nat} (pos : 0 < travel) :
    2 * (nearest distance s travel * travel) ≤ 2 * (distance * s) + travel
      ∧ 2 * (distance * s) < 2 * (nearest distance s travel * travel) + travel := by
  unfold nearest
  have split := Nat.div_add_mod (distance * s + travel / 2) travel
  have rest := Nat.mod_lt (distance * s + travel / 2) pos
  rw [Nat.mul_comm] at split
  omega

theorem nearest_zero (distance : Nat) {travel : Nat} (pos : 0 < travel) : nearest distance 0 travel = 0 := by
  unfold nearest
  rw [Nat.mul_zero, Nat.zero_add]
  exact Nat.div_eq_of_lt (by omega)

theorem nearest_none (s : Nat) {travel : Nat} (pos : 0 < travel) : nearest 0 s travel = 0 := by
  unfold nearest
  rw [Nat.zero_mul, Nat.zero_add]
  exact Nat.div_eq_of_lt (by omega)

theorem nearest_travel (distance : Nat) {travel : Nat} (pos : 0 < travel) :
    nearest distance travel travel = distance := by
  unfold nearest
  rw [Nat.mul_comm, Nat.mul_add_div pos, Nat.div_eq_of_lt (by omega), Nat.add_zero]

theorem nearest_le (distance : Nat) {s travel : Nat} (pos : 0 < travel) (within : s ≤ travel) :
    nearest distance s travel ≤ distance := by
  calc nearest distance s travel
      ≤ nearest distance travel travel :=
        Nat.div_le_div_right (Nat.add_le_add_right (Nat.mul_le_mul_left distance within) _)
    _ = distance := nearest_travel distance pos

/-- The nearest value, with halves away from 0, for an exact value that is not negative. -/
theorem closest_of_bounds {got exact travel : Int} (pos : 0 < travel) (start : 0 ≤ exact)
    (above : got ≤ exact + travel) (below : exact < got + travel) :
    |got - exact| ≤ travel ∧ (|got - exact| = travel → |exact| < |got|) := by
  refine ⟨abs_le.mpr (by omega), fun half => ?_⟩
  have further : got - exact = travel := by
    rcases abs_eq pos.le |>.mp half with h | h <;> omega
  rw [abs_of_nonneg start, abs_of_nonneg (by omega)]
  omega

/-! ## The value of a moved field -/

theorem valueAt_up (e0 : Int) (distance s : Nat) {travel : Nat} (pos : 0 < travel) :
    valueAt e0 (e0 + distance) s travel = e0 + nearest distance s travel := by
  have whole : e0 + (distance : Int) - e0 = distance := by omega
  unfold valueAt
  rw [if_neg pos.ne', whole, Int.natAbs_natCast]
  rcases Nat.eq_zero_or_pos distance with rfl | some
  · simp [nearest_none s pos]
  · rw [Int.sign_eq_one_of_pos (by omega), Int.one_mul]
    rfl

theorem valueAt_down (e0 : Int) (distance s : Nat) {travel : Nat} (pos : 0 < travel) :
    valueAt e0 (e0 - distance) s travel = e0 - nearest distance s travel := by
  have whole : e0 - (distance : Int) - e0 = -distance := by omega
  rcases Nat.eq_zero_or_pos distance with rfl | some
  · have up := valueAt_up e0 0 s pos
    simpa [nearest_none s pos] using up
  · unfold valueAt
    rw [if_neg pos.ne', whole, Int.natAbs_neg, Int.natAbs_natCast, Int.sign_neg,
      Int.sign_eq_one_of_pos (by omega), Int.neg_mul, Int.one_mul]
    rfl

/-- Which of the two endpoints is the greater, and by what. -/
theorem endpoints_apart (e0 e1 : Int) : ∃ distance : Nat, e1 = e0 + distance ∨ e1 = e0 - distance :=
  ⟨(e1 - e0).natAbs, by omega⟩

theorem valueAt_end (e0 e1 : Int) (travel : Nat) : valueAt e0 e1 travel travel = e1 := by
  rcases Nat.eq_zero_or_pos travel with rfl | pos
  · rfl
  obtain ⟨distance, rfl | rfl⟩ := endpoints_apart e0 e1
  · rw [valueAt_up e0 distance travel pos, nearest_travel distance pos]
  · rw [valueAt_down e0 distance travel pos, nearest_travel distance pos]

theorem valueAt_start (e0 e1 : Int) {travel : Nat} (pos : 0 < travel) : valueAt e0 e1 0 travel = e0 := by
  obtain ⟨distance, rfl | rfl⟩ := endpoints_apart e0 e1
  · simp [valueAt_up e0 distance 0 pos, nearest_zero distance pos]
  · simp [valueAt_down e0 distance 0 pos, nearest_zero distance pos]

theorem valueAt_between (e0 e1 : Int) {s travel : Nat} (within : s ≤ travel) :
    min e0 e1 ≤ valueAt e0 e1 s travel ∧ valueAt e0 e1 s travel ≤ max e0 e1 := by
  rcases Nat.eq_zero_or_pos travel with rfl | pos
  · rw [Nat.le_zero.mp within, valueAt_end]
    omega
  obtain ⟨distance, rfl | rfl⟩ := endpoints_apart e0 e1
  · have bound := nearest_le distance pos within
    rw [valueAt_up e0 distance s pos]
    omega
  · have bound := nearest_le distance pos within
    rw [valueAt_down e0 distance s pos]
    omega

/-- R75: the value is the nearest to the exact one, halves away from E0. -/
theorem valueAt_closest (e0 e1 : Int) (s : Nat) {travel : Nat} (pos : 0 < travel) :
    let exact2 : Int := 2 * (e1 - e0) * s
    let got2 : Int := 2 * (valueAt e0 e1 s travel - e0) * travel
    |got2 - exact2| ≤ travel ∧ (|got2 - exact2| = travel → |exact2| < |got2|) := by
  intro exact2 got2
  obtain ⟨distance, apart⟩ := endpoints_apart e0 e1
  have bounds := nearest_bounds distance s pos
  have closest := closest_of_bounds (got := 2 * (nearest distance s travel * travel : Nat))
    (exact := 2 * (distance * s : Nat)) (travel := travel) (by omega) (by omega) (by omega) (by omega)
  push_cast at closest
  rcases apart with rfl | rfl
  · have got : got2 = 2 * (nearest distance s travel * travel) := by
      simp only [got2, valueAt_up e0 distance s pos]
      ring
    have exact : exact2 = 2 * (distance * s) := by
      simp only [exact2]
      ring
    rw [got, exact]
    exact closest
  · have got : got2 = -(2 * (nearest distance s travel * travel)) := by
      simp only [got2, valueAt_down e0 distance s pos]
      ring
    have exact : exact2 = -(2 * (distance * s)) := by
      simp only [exact2]
      ring
    rw [got, exact, ← neg_sub', abs_neg, abs_neg, abs_neg]
    exact closest

/-! ## One step's writes (R55, R74, R75) -/

/-- The viewport after a step: a moved size holds the coordinate to its new range. -/
def Body.viewHeld (view : Body) (w h : Option Nat) : Body :=
  match view with
  | .slide src st iw ih vx vy =>
    .slide src st iw ih (w.elim vx fun w => min vx ((iw - w) * 16)) (h.elim vy fun h => min vy ((ih - h) * 16))
  | b => b

@[simp] theorem Body.viewHeld_none (view : Body) : view.viewHeld none none = view := by
  cases view <;> rfl

theorem Body.viewHeld_both (view : Body) (w h : Nat) :
    (view.viewHeld (some w) none).viewHeld none (some h) = view.viewHeld (some w) (some h) := by
  cases view <;> rfl

theorem Obj.reclampX_eq (o : Obj) : o.reclampX = { o with body := o.body.viewHeld (some o.w) none } := by
  unfold Obj.reclampX
  cases body : o.body <;> simp [Body.viewHeld, ← body]

theorem Obj.reclampY_eq (o : Obj) : o.reclampY = { o with body := o.body.viewHeld none (some o.h) } := by
  unfold Obj.reclampY
  cases body : o.body <;> simp [Body.viewHeld, ← body]

/-- A step writes the moved fields, then holds the viewport. -/
theorem Obj.moveTo_eq (o : Obj) (m : Moved) (view : Bool) (e : Ends) :
    o.moveTo m view e =
      { o.setMoved m view e with
        body := (o.setMoved m view e).body.viewHeld (if m.w then some e.w else none) (if m.h then some e.h else none) } := by
  have w : m.w = true → (o.setMoved m view e).w = e.w := fun moved => if_pos moved
  have h : m.h = true → (o.setMoved m view e).h = e.h := fun moved => if_pos moved
  unfold Obj.moveTo
  dsimp only
  generalize o.setMoved m view e = t at w h ⊢
  split_ifs with mh mw mw
  · rw [Obj.reclampY_eq, Obj.reclampX_eq, Body.viewHeld_both, w mw, h mh]
  · rw [Obj.reclampY_eq, h mh]
  · rw [Obj.reclampX_eq, w mw]
  · rw [Body.viewHeld_none]

/-- Settles O29: the value's endpoints, bounds and rounding, and the writes of a step. -/
theorem movedValueRunsBetweenEndpoints : Obligations.MovedValueRunsBetweenEndpoints := by
  refine ⟨fun e0 e1 s travel within => ⟨valueAt_end e0 e1 travel, valueAt_start e0 e1,
    (valueAt_between e0 e1 within).1, (valueAt_between e0 e1 within).2, valueAt_closest e0 e1 s⟩, ?_⟩
  intro o m view e t
  have ht : t = _ := o.moveTo_eq m view e
  generalize t = t at ht
  subst ht
  refine ⟨rfl, by simp [Obj.setMoved], by simp [Obj.setMoved], rfl, rfl, rfl, fun other => ?_, ?_⟩
  · cases body : o.body with
    | slide => simp [body, Body.code] at other
    | fill | bitmap8 | bitmap32 => simp [Obj.setMoved, body, Body.viewHeld]
  · intro src st iw ih vx vy body ux uy
    simp only [Obj.setMoved, body, Body.viewHeld, Bool.and_eq_true]
    cases m.w <;> cases m.h <;> rfl

end Sys2Proof.Machine


/-! PROOF. Writes of placed objects and their marks, what a request leaves, and the end of a command that changes
the menu's parts: the layer under O32, O36, O37 and O40. -/

namespace Sys2Proof.Machine

/-! ## Writes of objects (R48, R59) -/

/-- From `s` to `t` another block has written objects: each object o of slot n is now `value n o`, and the mark is set
just when it was or when some write has changed a placed object, `changed n o`. -/
structure State.Wrote (value : Nat → Obj → Obj) (changed : Nat → Obj → Prop) (s t : State) : Prop where
  frame : State.sameBut [.scene] s t
  rest : t.scene = { s.scene with slots := t.scene.slots, mark := t.scene.mark }
  objects : ∀ n, t.obj n = (s.obj n).map (value n)
  mark : t.scene.mark = true ↔
    s.scene.mark = true ∨ ∃ n o, n ∈ s.scene.order ∧ s.obj n = some o ∧ changed n o

section
variable {s t u : State} {f g : Nat → Obj → Obj} {A B : Nat → Obj → Prop}

theorem State.Wrote.refl (s : State) : State.Wrote (fun _ o => o) (fun _ _ => False) s s :=
  ⟨State.sameBut_refl s _, rfl, by simp, by simp⟩

theorem State.Wrote.order (h : State.Wrote f A s t) : t.scene.order = s.scene.order := by rw [h.rest]

theorem State.Wrote.palettes (h : State.Wrote f A s t) : t.scene.palettes = s.scene.palettes := by rw [h.rest]

theorem State.Wrote.load (h : State.Wrote f A s t) : t.scene.load = s.scene.load := by rw [h.rest]

/-- Each write counts by itself: of two runs of writes the second sees what the first has left. -/
theorem State.Wrote.trans (h : State.Wrote f A s t) (k : State.Wrote g B t u) :
    State.Wrote (fun n o => g n (f n o)) (fun n o => A n o ∨ B n (f n o)) s u where
  frame := (h.frame.trans k.frame).mono (by simp)
  rest := by rw [k.rest, h.rest]
  objects n := by rw [k.objects, h.objects, Option.map_map]; rfl
  mark := by
    rw [k.mark, h.mark, h.order, or_assoc]
    refine or_congr_right ⟨?_, ?_⟩
    · rintro (⟨n, o, placed, here, a⟩ | ⟨n, o, placed, here, b⟩)
      · exact ⟨n, o, placed, here, .inl a⟩
      · rw [h.objects, Option.map_eq_some_iff] at here
        obtain ⟨o', here, rfl⟩ := here
        exact ⟨n, o', placed, here, .inr b⟩
    · rintro ⟨n, o, placed, here, a | b⟩
      · exact .inl ⟨n, o, placed, here, a⟩
      · exact .inr ⟨n, f n o, placed, by rw [h.objects, here]; rfl, b⟩

/-- The values and the changes may be said in other words. -/
theorem State.Wrote.congr (h : State.Wrote f A s t) (value : ∀ n o, s.obj n = some o → g n o = f n o)
    (changed : ∀ n o, s.obj n = some o → (B n o ↔ A n o)) : State.Wrote g B s t where
  frame := h.frame
  rest := h.rest
  objects n := by
    rw [h.objects]
    cases here : s.obj n with
    | none => rfl
    | some o => exact congrArg some (value n o here).symm
  mark := by
    rw [h.mark]
    refine or_congr_right (exists_congr fun n => exists_congr fun o => and_congr_right fun _ => ?_)
    exact and_congr_right fun here => (changed n o here).symm

end

theorem Scene.modify_mark (sc : Scene) (n : Nat) (f : Obj → Obj) :
    (sc.modify n f).mark = true ↔ sc.mark = true ∨ ∃ o, n ∈ sc.order ∧ sc.obj n = some o ∧ f o ≠ o := by
  cases here : sc.obj n with
  | none => simp [Scene.modify_none here]
  | some o =>
    rw [Scene.modify_eq here]
    simp [Scene.placed, and_comm]

/-- A write of one object. -/
theorem State.modify_wrote (s : State) (k : Nat) (f : Obj → Obj) :
    State.Wrote (fun n o => if n = k then f o else o) (fun n o => n = k ∧ f o ≠ o) s
      (s.onScene fun sc => sc.modify k f) where
  frame := State.onScene_frame s _
  rest := Scene.modify_rest _ _ _
  objects n := by
    refine (Scene.obj_modify _ _ _ _).trans ?_
    by_cases here : n = k
    · subst here
      simp [State.obj]
    · simp [here, State.obj]
  mark := by
    refine (Scene.modify_mark _ _ _).trans (or_congr_right ⟨?_, ?_⟩)
    · rintro ⟨o, placed, here, change⟩
      exact ⟨k, o, placed, here, rfl, change⟩
    · rintro ⟨n, o, placed, here, rfl, change⟩
      exact ⟨o, placed, here, change⟩

/-- A new value of the visible field changes its object just when it differs. -/
theorem Obj.show_changes (o : Obj) (v : Bool) : { o with visible := v } ≠ o ↔ o.visible ≠ v := by
  rw [not_iff_not]
  exact ⟨fun e => (congrArg Obj.visible e).symm, fun e => by rw [← e]⟩

theorem State.setVisible_wrote (s : State) (k : Nat) (v : Bool) :
    State.Wrote (fun n o => if n = k then { o with visible := v } else o) (fun n o => n = k ∧ o.visible ≠ v) s
      (s.setVisible k v) :=
  (s.modify_wrote k _).congr (fun _ _ _ => rfl) fun _ o _ => and_congr_right fun _ => (o.show_changes v).symm

/-- A focus slot's marker is shown or hidden, where there is one. -/
theorem State.showFocusSlot_wrote (s : State) (slot : Option Nat) (v : Bool) :
    State.Wrote (fun n o => if slot = some n then { o with visible := v } else o)
      (fun n o => slot = some n ∧ o.visible ≠ v) s (s.showFocusSlot slot v) := by
  cases slot with
  | none => exact (State.Wrote.refl s).congr (by simp) (by simp)
  | some k => exact (s.setVisible_wrote k v).congr (by simp [eq_comm]) (by simp [eq_comm])

/-- The markers of two buttons, the first hidden and then the second shown (R122). -/
theorem State.markers_wrote (s : State) (old new : Option Nat) :
    State.Wrote
      (fun n o => { o with
        visible := if new = some n then true else if old = some n then false else o.visible })
      (fun n o => old = some n ∧ o.visible = true ∨ new = some n ∧ (o.visible = false ∨ old = some n)) s
      ((s.showFocusSlot old false).showFocusSlot new true) := by
  refine ((s.showFocusSlot_wrote old false).trans (State.showFocusSlot_wrote _ new true)).congr ?_ ?_
  · intro n o _
    by_cases hn : new = some n <;> by_cases ho : old = some n <;> simp [hn, ho]
  · intro n o _
    by_cases ho : old = some n <;> simp [ho]

/-! ## Requests (R82, R89) -/

/-- What a request on channel n for the object of slot k leaves, from `s` to `t`: the scene differs in that object's
binding alone, and every other channel stands. -/
structure State.Requested (n k : Nat) (s t : State) : Prop where
  frame : State.sameBut [.scene, .motion] s t
  rest : t.scene = { s.scene with slots := t.scene.slots }
  objects : ∀ m, (t.obj m).map Obj.unbound = (s.obj m).map Obj.unbound
  others : ∀ m, m ≠ k → t.obj m = s.obj m
  channels : ∀ m, m ≠ n → t.chan m = s.chan m
  profiles : t.motion.profiles = s.motion.profiles

theorem State.Requested.refl (n k : Nat) (s : State) : State.Requested n k s s :=
  ⟨State.sameBut_refl s _, rfl, fun _ => rfl, fun _ _ => rfl, fun _ _ => rfl, rfl⟩

theorem State.putChan_requested (s : State) (n k : Nat) (c : Channel) : State.Requested n k s (s.putChan n c) where
  frame := (State.putChan_frame s n c).mono (by simp)
  rest := rfl
  objects _ := rfl
  others _ _ := rfl
  channels m other := by rw [State.chan_put, if_neg fun h => other h.1]
  profiles := rfl

theorem State.applyRequest_requested (s : State) (r : MotionRequest) (owner : Owner) (slot : Option Nat) :
    State.Requested r.channel r.slot s (s.applyRequest r owner slot) := by
  unfold State.applyRequest
  split
  · exact State.Requested.refl _ _ s
  · dsimp only
    split
    · refine ⟨(State.onScene_frame s _).trans (State.putChan_frame _ _ _), Scene.bind_rest _ _ _,
        fun m => Scene.bind_unbound _ _ _ _, fun m other => ?_, fun m other => ?_, rfl⟩
      · exact (Scene.obj_bind _ _ _ _).trans (if_neg other)
      · rw [State.chan_put, if_neg fun h => other h.1]
        rfl
    · exact s.putChan_requested _ _ _

theorem State.request_requested (s : State) (r : MotionRequest) (owner : Owner) :
    State.Requested r.channel r.slot s ((s.request r owner).getD s) := by
  unfold State.request
  split
  · exact State.Requested.refl _ _ s
  · exact s.applyRequest_requested r owner none

/-- The glide is a request on channel 0 for the highlight (R122). -/
theorem State.glide_requested (s : State) (p : Page) (g : Nat) : State.Requested 0 p.highlight s (s.glide p g) := by
  unfold State.glide
  split
  next b o _ _ =>
    exact s.request_requested ⟨0, p.profile, p.highlight,
      if o.sizeFits s.cmdw (b.grown p.margin) then glideFields else ⟨true, true, false, false, false⟩, false,
      b.grown p.margin⟩ .navigator
  · exact State.Requested.refl _ _ s

/-! ## The end of a command -/

/-- The code and the end of the step touch the Intake and the events alone. -/
theorem State.sameBut_closed {s t : State} {parts : List Part} (h : State.sameBut parts s t)
    (intake : .intake ∉ parts) (events : .events ∉ parts) (code : Fin 4) :
    State.sameBut parts (s.setCode code).closed (t.setCode code).closed := by
  have hi : t.intake = s.intake := h .intake intake
  have he : t.events = s.events := h .events events
  intro p hp
  have same := h p hp
  cases p
  case intake => exact congrArg (fun i : Intake => { i with code := code }) hi
  case events => exact congrArg EventUnit.present he
  all_goals exact same

end Sys2Proof.Machine


/-! PROOF. CLOSE MENU closes the page (O40). -/

namespace Sys2Proof.Machine

section
variable {s t u : State} {l : List Nat}

/-- What a silent end leaves of a record but for its binding. -/
theorem State.Freed.object (h : State.Freed s t) {n : Nat} {o : Obj} (here : s.obj n = some o) :
    ∃ o', t.obj n = some o' ∧ o'.unbound = o.unbound := by
  have same := h.objects n
  rw [here, Option.map_some, Option.map_eq_some_iff] at same
  exact same

theorem State.Freed.object_before (h : State.Freed s t) {n : Nat} {o' : Obj} (here : t.obj n = some o') :
    ∃ o, s.obj n = some o ∧ o'.unbound = o.unbound := by
  have same := h.objects n
  rw [here, Option.map_some] at same
  obtain ⟨o, ho, e⟩ := Option.map_eq_some_iff.mp same.symm
  exact ⟨o, ho, e.symm⟩

theorem Obj.visible_of_unbound {o o' : Obj} (h : o'.unbound = o.unbound) : o'.visible = o.visible := by
  simpa [Obj.unbound] using congrArg Obj.visible h

/-- The highlight and a marker are hidden (R127). -/
theorem State.hides_wrote (s : State) (k : Nat) (marker : Option Nat) :
    State.Wrote (fun n o => if n = k ∨ marker = some n then { o with visible := false } else o)
      (fun n o => (n = k ∨ marker = some n) ∧ o.visible = true) s
      ((s.setVisible k false).showFocusSlot marker false) := by
  refine ((s.setVisible_wrote k false).trans (State.showFocusSlot_wrote _ marker false)).congr ?_ ?_
  · intro n o _
    by_cases hk : n = k <;> by_cases hm : marker = some n <;> simp [hk, hm]
  · intro n o _
    by_cases hk : n = k <;> simp [hk]

/-- The scene when the page has been closed, before the Navigator forgets it (R127). -/
def State.menuHidden (s : State) (p : Page) : State :=
  ((s.silentHalt 0).setVisible p.highlight false).showFocusSlot (s.nav.focus.bind p.focusSlot) false

theorem State.closeMenu_open {p : Page} (page : s.nav.page = some p) :
    s.closeMenu = (s.menuHidden p).onNav fun v => { v with page := none, focus := none, stack := [] } := by
  unfold State.closeMenu State.menuHidden
  rw [page]

theorem State.closeMenu_none (page : s.nav.page = none) : s.closeMenu = s := by
  unfold State.closeMenu
  rw [page]

theorem State.menuHidden_frame (s : State) (p : Page) : State.sameBut [.scene, .motion] s (s.menuHidden p) :=
  (State.silentHalt_freed s 0).frame.and_then (State.hides_wrote _ _ _).frame (by simp)

/-- The highlight or the focused button's marker: what a close hides. -/
def State.closeHides (s : State) (p : Page) (n : Nat) : Prop := n = p.highlight ∨ s.nav.focus.bind p.focusSlot = some n

section
variable {p : Page} {n : Nat}

/-- A record of the hidden menu, from the record after the silent end. -/
theorem State.menuHidden_obj (s : State) (p : Page) (n : Nat) : (s.menuHidden p).obj n =
    ((s.silentHalt 0).obj n).map fun o =>
      if n = p.highlight ∨ s.nav.focus.bind p.focusSlot = some n then { o with visible := false } else o :=
  (State.hides_wrote _ _ _).objects n

theorem State.menuHidden_hidden {o : Obj} (hidden : s.closeHides p n) (here : (s.menuHidden p).obj n = some o) :
    o.visible = false := by
  rw [State.menuHidden_obj] at here
  obtain ⟨o1, -, rfl⟩ := Option.map_eq_some_iff.mp here
  exact congrArg Obj.visible (if_pos hidden)

theorem State.menuHidden_defined : ((s.menuHidden p).obj n).isSome = (s.obj n).isSome := by
  have same := congrArg Option.isSome ((State.silentHalt_freed s 0).objects n)
  simp only [Option.isSome_map] at same
  rw [State.menuHidden_obj, Option.isSome_map, same]

/-- Every record keeps its fields but for the visible one and the binding (R127). -/
theorem State.menuHidden_object {o : Obj} (here : s.obj n = some o) : ∃ o', (s.menuHidden p).obj n = some o'
    ∧ o'.unbound = { o.unbound with visible := o'.visible } ∧ (¬ s.closeHides p n → o'.visible = o.visible) := by
  obtain ⟨o1, after, same⟩ := (State.silentHalt_freed s 0).object here
  refine ⟨_, by rw [State.menuHidden_obj, after]; rfl, ?_, fun shown => ?_⟩
  · split
    · exact congrArg (fun o : Obj => { o with visible := false }) same
    · exact same.trans (by rw [Obj.visible_of_unbound same]; rfl)
  · exact (congrArg Obj.visible (if_neg shown)).trans (Obj.visible_of_unbound same)

/-- The mark is set when a placed object was hidden (R59). -/
theorem State.menuHidden_mark : (s.menuHidden p).scene.mark = true ↔ s.scene.mark = true
    ∨ ∃ n o, n ∈ s.scene.order ∧ s.obj n = some o ∧ s.closeHides p n ∧ o.visible = true := by
  have freed := State.silentHalt_freed s 0
  have mark : (s.silentHalt 0).scene.mark = s.scene.mark := by rw [freed.rest]
  have order : (s.silentHalt 0).scene.order = s.scene.order := by rw [freed.rest]
  refine (State.hides_wrote _ _ _).mark.trans ?_
  rw [mark, order]
  refine or_congr_right ⟨?_, ?_⟩
  · rintro ⟨n, o1, placed, after, hidden, visible⟩
    obtain ⟨o, here, same⟩ := freed.object_before after
    exact ⟨n, o, placed, here, hidden, (Obj.visible_of_unbound same).symm.trans visible⟩
  · rintro ⟨n, o, placed, here, hidden, visible⟩
    obtain ⟨o1, after, same⟩ := freed.object here
    exact ⟨n, o1, placed, after, hidden, (Obj.visible_of_unbound same).trans visible⟩

theorem State.menuHidden_motion : (s.menuHidden p).motion = (s.silentHalt 0).motion :=
  (State.hides_wrote _ _ _).frame .motion (by simp)

theorem State.menuHidden_chan {k : Nat} (other : k ≠ 0) : (s.menuHidden p).chan k = s.chan k := by
  rw [State.chan, State.menuHidden_motion]
  exact State.silentHalt_other s other

theorem State.menuHidden_idle : ((s.menuHidden p).chan 0).phase = .idle := by
  rw [State.chan, State.menuHidden_motion]
  exact State.silentHalt_idle s 0

/-- The order, the palettes, the load buffer and the profiles stand. -/
theorem State.menuHidden_kept : (s.menuHidden p).scene.order = s.scene.order
    ∧ (s.menuHidden p).scene.palettes = s.scene.palettes ∧ (s.menuHidden p).scene.load = s.scene.load
    ∧ (s.menuHidden p).motion.profiles = s.motion.profiles := by
  have freed := State.silentHalt_freed s 0
  have hides := State.hides_wrote (s.silentHalt 0) p.highlight (s.nav.focus.bind p.focusSlot)
  refine ⟨hides.order.trans ?_, hides.palettes.trans ?_, hides.load.trans ?_, ?_⟩
  · rw [freed.rest]
  · rw [freed.rest]
  · rw [freed.rest]
  · rw [State.menuHidden_motion, freed.profiles]

theorem State.menuHidden_loosed : State.Loosed s (s.menuHidden p) :=
  ((State.silentHalt_freed s 0).loosed.trans (State.setVisible_loosed _ _ _)).trans (State.showFocusSlot_loosed _ _ _)

end

/-- The close of the page `p`, in the words of R127. -/
def State.closedPage (s : State) (p : Page) (w : State) : Prop :=
  w.scene.order = s.scene.order
    ∧ State.silenced s w [0] ∧ (∀ k, k ≠ 0 → w.chan k = s.chan k)
    ∧ (∀ o, w.obj p.highlight = some o → o.visible = false)
    ∧ (∀ n o, s.nav.focus.bind p.focusSlot = some n → w.obj n = some o → o.visible = false)
    ∧ (∀ n, (w.obj n).isSome = (s.obj n).isSome)
    ∧ ((∀ n o, s.obj n = some o →
          ∃ o', w.obj n = some o' ∧ o'.unbound = { o.unbound with visible := o'.visible }
            ∧ (¬ s.closeHides p n → o'.visible = o.visible)
            ∧ ((s.chan 0).slot ≠ some n → o'.bound = o.bound))
        ∧ (w.scene.mark = true ↔
            s.scene.mark = true
              ∨ ∃ n o, n ∈ s.scene.order ∧ s.obj n = some o ∧ s.closeHides p n ∧ o.visible = true))
    ∧ w.scene.palettes = s.scene.palettes ∧ w.scene.load = s.scene.load
    ∧ w.motion.profiles = s.motion.profiles

theorem State.menuHidden_closedPage (s : State) (p : Page) : s.closedPage p (s.menuHidden p) := by
  obtain ⟨order, palettes, load, profiles⟩ := s.menuHidden_kept (p := p)
  have ended : State.silenced s (s.menuHidden p) [0] :=
    State.menuHidden_loosed.silenced (by simpa using State.menuHidden_idle)
  refine ⟨order, ended, fun k => State.menuHidden_chan, fun o => State.menuHidden_hidden (.inl rfl),
    fun n o marker => State.menuHidden_hidden (.inr marker), fun n => State.menuHidden_defined,
    ⟨fun n o here => ?_, State.menuHidden_mark⟩, palettes, load, profiles⟩
  obtain ⟨o', after, fields, shown⟩ := s.menuHidden_object (p := p) here
  refine ⟨o', after, fields, shown, fun apart => State.menuHidden_loosed.bound after here fun k slot => ?_⟩
  exact State.menuHidden_chan fun first => apart (first ▸ slot)

/-- The departure of the command is no part of the close. -/
theorem State.closedPage_of_departed {rest : List Command} {p : Page} {w : State} (h : (s.departed rest).closedPage p w) :
    s.closedPage p w := by
  unfold State.closedPage State.silenced State.closeHides at h ⊢
  simpa only [State.departed_chan, State.departed_obj, State.departed_scene, State.departed_motion, State.departed_nav]
    using h

end

/-- Settles O40: the page's objects are hidden after the silent end of channel 0, and the Navigator forgets the page. -/
theorem closeMenuClosesThePage : Obligations.CloseMenuClosesThePage := by
  intro s c rest h
  have runs {u : State} (closes : (s.departed rest).closeMenu = u) (pending : u.events.statusPending = true) :
      exec .closeMenu s = .next (u.setCode 0).closed :=
    State.startHead_completed h _ runCloseMenu (ofKind_of h) (congrArg (Verdict.completed 0) closes) pending
  refine ⟨fun page => runs (State.closeMenu_none (by simpa using page)) (State.departed_statusPending s rest),
    fun p page => ?_⟩
  have frame := (s.departed rest).menuHidden_frame p
  have closed : s.closedPage p ((s.departed rest).menuHidden p) :=
    State.closedPage_of_departed (State.menuHidden_closedPage _ p)
  have closes := State.closeMenu_open (s := s.departed rest) (p := p) (by simpa using page)
  generalize (s.departed rest).menuHidden p = w at *
  refine ⟨_, runs closes ?_, ?_, ?_, closed⟩
  · show w.events.statusPending = true
    rw [frame .events (by simp), State.departed_statusPending]
  · exact State.sameBut_closed ((frame.trans (State.onNav_frame w _)).mono (by simp)) (by simp) (by simp) 0
  · show { w.nav with page := none, focus := none, stack := [] } = _
    rw [frame .nav (by simp), State.departed_nav]

end Sys2Proof.Machine


/-! PROOF. The direction keys and SELECT (O36, O37). -/

namespace Sys2Proof.Machine

/-! ## A key on the open page (R119) -/

section
variable {s : State} {c : Command} {rest : List Command} {p : Page} {k : Key} {row : Instr} {act : Command → Page → State → Verdict}

/-- The row of a key that needs no focus. -/
def keyRow (row : Instr) (k : Key) (act : Command → Page → State → Verdict) : Prop :=
  ∀ s, exec row s = s.live fun t => t.startHead (ofKey k) fun c t => runKey c t false fun p => act c p t

theorem ofKey_of (h : s.Starts c rest .key) (key : c.key = some k ∨ c.key = none) : ofKey k c = true := by
  simpa [ofKey, ofKind_of h] using key

/-- The checks of R119 passed, the key's own rule stands. -/
theorem runKey_open {v : State} {act : Page → Verdict} (key : c.key = some k) (page : v.nav.page = some p) :
    runKey c v false act = act p := by
  unfold runKey
  rw [judged_pass (by simp [key, page]), page]

/-- A key that completes on the open page. -/
theorem State.key_completes (h : s.Starts c rest .key) (runs : keyRow row k act) (key : c.key = some k)
    (page : s.nav.page = some p) {code : Fin 4} {u : State} (completes : act c p (s.departed rest) = .completed code u)
    (pending : u.events.statusPending = true) : exec row s = .next (u.setCode code).closed := by
  have page' : (s.departed rest).nav.page = some p := by simpa using page
  exact (runs s).trans
    (State.startHead_completed h _ _ (ofKey_of h (.inl key)) ((runKey_open key page').trans completes) pending)

/-- A key that changes nothing. -/
theorem State.key_stays (h : s.Starts c rest .key) (runs : keyRow row k act) (key : c.key = some k)
    (page : s.nav.page = some p) {code : Fin 4} (stays : act c p (s.departed rest) = .completed code (s.departed rest)) :
    exec row s = .next (s.doneWith rest code) :=
  State.key_completes h runs key page stays (State.departed_statusPending s rest)

/-- The first check of R119 that fails refuses the key. -/
theorem State.key_refused (h : s.Starts c rest .key) (runs : keyRow row k act) (key : c.key = some k ∨ c.key = none) :
    s.refusesIn row c rest [ (c.key ≠ none, .range), (s.nav.page ≠ none, .noPage) ] :=
  State.refusesIn_judged h (runs s) (ofKey_of h key) rfl
    ⟨rfl, Option.isSome_iff_ne_none, fun _ =>
      ⟨rfl, by rw [State.departed_nav]; exact Option.isSome_iff_ne_none, fun _ => trivial⟩⟩

/-! ## The focus moves (R122) -/

/-- The markers when the focus has moved, before the glide (R122). -/
def State.refocused (v : State) (p : Page) (f g : Nat) : State :=
  ((v.onNav fun n => { n with focus := some g }).showFocusSlot (p.focusSlot f) false).showFocusSlot (p.focusSlot g) true

theorem State.moveFocus_eq (v : State) (p : Page) (f g : Nat) : v.moveFocus p f g = (v.refocused p f g).glide p g := rfl

theorem State.refocused_frame (v : State) (p : Page) (f g : Nat) : State.sameBut [.nav, .scene] v (v.refocused p f g) :=
  (State.onNav_frame v _).trans (State.markers_wrote _ _ _).frame

/-- What the glide leaves of the written records: their values but for the binding. -/
theorem State.Requested.object {n m : Nat} {u t : State} (h : State.Requested n m u t) {i : Nat} {o : Obj}
    (here : t.obj i = some o) : ∃ o', u.obj i = some o' ∧ o.visible = o'.visible := by
  have same := h.objects i
  rw [here, Option.map_some] at same
  obtain ⟨o', before, e⟩ := Option.map_eq_some_iff.mp same.symm
  exact ⟨o', before, Obj.visible_of_unbound e.symm⟩

/-- The two markers are written and the mark is set for each that changes, in the words of the state before the key. -/
theorem State.refocused_wrote (s : State) (rest : List Command) (p : Page) (f g : Nat) :
    State.Wrote
      (fun n o => { o with
        visible := if p.focusSlot g = some n then true else if p.focusSlot f = some n then false else o.visible })
      (fun n o => p.focusSlot f = some n ∧ o.visible = true
        ∨ p.focusSlot g = some n ∧ (o.visible = false ∨ p.focusSlot f = some n))
      { (s.departed rest).onNav (fun n => { n with focus := some g }) with scene := s.scene }
      ((s.departed rest).refocused p f g) := by
  have scene : ({ (s.departed rest).onNav (fun n => { n with focus := some g }) with scene := s.scene } : State) =
      (s.departed rest).onNav fun n => { n with focus := some g } := by
    rw [← State.departed_scene s rest]
    rfl
  rw [scene]
  exact State.markers_wrote _ _ _

/-- A moved focus, in the words of R122. -/
theorem State.moveFocus_moved (s : State) (rest : List Command) (p : Page) (f g : Nat) :
    s.focusMoved rest p f g (((s.departed rest).moveFocus p f g).setCode 0).closed := by
  have frame := (s.departed rest).refocused_frame p f g
  have wrote := s.refocused_wrote rest p f g
  have glides := ((s.departed rest).refocused p f g).glide_requested p g
  have glide {b : Button} {o : Obj} := State.glide_request (s := (s.departed rest).refocused p f g) (p := p) (g := g)
    (b := b) (o := o)
  rw [State.moveFocus_eq]
  have nav : ((s.departed rest).refocused p f g).nav = { s.nav with focus := some g } := by
    refine (wrote.frame .nav (by simp)).trans ?_
    exact congrArg (fun n : Navigator => { n with focus := some g }) (State.departed_nav ..)
  have motion : ((s.departed rest).refocused p f g).motion = s.motion := by
    rw [frame .motion (by simp), State.departed_motion]
  have cmdw : ((s.departed rest).refocused p f g).cmdw = s.cmdw := by
    rw [State.cmdw, frame .bridge (by simp)]
    exact State.departed_cmdw ..
  have objects : ∀ n, ((s.departed rest).refocused p f g).obj n = (s.obj n).map _ := wrote.objects
  generalize (s.departed rest).refocused p f g = u at *
  generalize u.glide p g = t at glides glide ⊢
  have scene := glides.rest
  refine ⟨?_, ?_, ?_, ?_, ?_, ?_, ?_, ?_, ?_, ?_, ?_, u, frame, objects, fun b o button here => ?_⟩
  · exact State.sameBut_closed ((frame.trans glides.frame).mono (by simp)) (by simp) (by simp) 0
  · exact (glides.frame .nav (by simp)).trans nav
  · show t.scene.order = _
    rw [scene, wrote.order]
  · intro n o new here
    obtain ⟨o', before, same⟩ := glides.object here
    obtain ⟨o1, -, rfl⟩ := Option.map_eq_some_iff.mp ((objects n).symm.trans before)
    simp [same, new]
  · intro n o old new here
    obtain ⟨o', before, same⟩ := glides.object here
    obtain ⟨o1, -, rfl⟩ := Option.map_eq_some_iff.mp ((objects n).symm.trans before)
    simp [same, old, new]
  · intro n o here old new other
    refine (glides.others n other).trans ((objects n).trans ?_)
    simp [here, old, new]
  · show t.scene.mark = true ↔ _
    rw [scene]
    exact wrote.mark
  · show t.scene.palettes = _
    rw [scene, wrote.palettes]
  · show t.scene.load = _
    rw [scene, wrote.load]
  · show t.motion.profiles = _
    rw [glides.profiles, motion]
  · intro k other
    refine (glides.channels k other).trans ?_
    rw [State.chan, motion]
    rfl
  · rw [← cmdw, ← glide button here]

/-- A key whose rule moves the focus. -/
theorem State.key_moves (h : s.Starts c rest .key) (runs : keyRow row k act) (key : c.key = some k)
    (page : s.nav.page = some p) {f g : Nat}
    (moves : act c p (s.departed rest) = .completed 0 ((s.departed rest).moveFocus p f g)) :
    ∃ t, exec row s = .next t ∧ s.focusMoved rest p f g t := by
  refine ⟨_, State.key_completes h runs key page moves ?_, s.moveFocus_moved rest p f g⟩
  have glided := ((s.departed rest).refocused p f g).glide_requested p g
  have events := ((State.refocused_frame _ p f g).trans glided.frame) .events (by simp)
  rw [State.moveFocus_eq, events, State.departed_statusPending]

end

/-! ## The direction keys (O36) -/

/-- The rows of the four direction keys. -/
theorem directionRow {e : Instr × Key × Direction}
    (h : e ∈ [(Instr.keyUp, Key.up, Direction.up), (.keyDown, .down, .down), (.keyLeft, .left, .left),
      (.keyRight, .right, .right)]) : keyRow e.1 e.2.1 fun _ p t => t.directionKey p e.2.2 := by
  simp only [List.mem_cons, List.not_mem_nil, or_false] at h
  rcases h with rfl | rfl | rfl | rfl <;> exact fun _ => rfl

section
variable {s : State} {c : Command} {rest : List Command} {p : Page} {d : Direction} {f : Nat}

theorem State.directionKey_unfocused (focus : s.nav.focus = none) :
    (s.departed rest).directionKey p d = .completed 2 (s.departed rest) := by
  unfold State.directionKey
  rw [State.departed_nav, focus]

theorem State.directionKey_stays (focus : s.nav.focus = some f) {code : Fin 4} (walk : p.walk d f 32 f true = .stays code) :
    (s.departed rest).directionKey p d = .completed code (s.departed rest) := by
  unfold State.directionKey
  rw [State.departed_nav, focus]
  simp only [walk]

theorem State.directionKey_moves (focus : s.nav.focus = some f) {g : Nat} (walk : p.walk d f 32 f true = .moved g) :
    (s.departed rest).directionKey p d = .completed 0 ((s.departed rest).moveFocus p f g) := by
  unfold State.directionKey
  rw [State.departed_nav, focus]
  simp only [walk]

end

/-- Along a path of disabled buttons the chain goes on from its last, with as many hops less (R120). -/
theorem Page.walk_path (p : Page) (d : Direction) (f z hops : Nat) (path : List Nat) (n : Nat) (first : Bool)
    (links : ∀ i, i < path.length →
      (p.button ((n :: path).getD i z)).bind (·.neighbour d) = some (path.getD i z))
    (past : ∀ b ∈ path, b ≠ f ∧ p.enabled b = false) :
    p.walk d f (path.length + hops) n first =
      p.walk d f hops ((n :: path).getD path.length z) (first && path.isEmpty) := by
  induction path generalizing n first with
  | nil => simp
  | cons a path ih =>
    obtain ⟨other, disabled⟩ := past a List.mem_cons_self
    have link : (p.button n).bind (·.neighbour d) = some a := links 0 (Nat.succ_pos _)
    have rest := ih a false (fun i hi => links (i + 1) (Nat.succ_lt_succ hi))
      fun b hb => past b (List.mem_cons_of_mem a hb)
    rw [List.length_cons, Nat.add_right_comm, Page.walk_disabled link other disabled, rest]
    simp

/-- Settles O36: the neighbour chain decides what the key does, and a moved focus is R122's. -/
theorem directionKeysFollowNeighbours : Obligations.DirectionKeysFollowNeighbours := by
  refine ⟨?_, ?_, fun e he s c rest h key => ?_⟩
  · intro e he s c rest p h key page
    have runs := directionRow he
    refine ⟨fun focus => State.key_stays h runs key page (State.directionKey_unfocused focus), fun f focus => ?_⟩
    have stays {code : Fin 4} (walk : p.walk e.2.2 f 32 f true = .stays code) :=
      State.key_stays h runs key page (State.directionKey_stays focus walk)
    have moves {g : Nat} (walk : p.walk e.2.2 f 32 f true = .moved g) :=
      State.key_moves h runs key page (State.directionKey_moves focus walk)
    exact ⟨fun last => stays (Page.walk_end last), fun round => stays (Page.walk_round round),
      fun g link other enabled => moves (Page.walk_enabled link other enabled),
      fun g walk => ⟨(Page.walk_moved walk).1, (Page.walk_moved walk).2, moves walk⟩, fun code walk => stays walk⟩
  · intro e he s c rest p f path h key page focus link last links past short
    have runs := directionRow he
    have stays {code : Fin 4} (walk : p.walk e.2.2 f 32 f true = .stays code) :=
      State.key_stays h runs key page (State.directionKey_stays focus walk)
    have walk (hops : Nat) (total : path.length + hops = 32) :
        p.walk e.2.2 f 32 f true = p.walk e.2.2 f hops last path.isEmpty := by
      rw [← total]
      exact Page.walk_path p e.2.2 f f hops path f true links past
    refine ⟨fun full => stays (walk 0 full), fun room => ?_⟩
    have onward := walk (31 - path.length + 1) (by omega)
    refine ⟨fun none_left => stays (onward.trans ?_), fun round => stays (onward.trans (Page.walk_round round)),
      fun g next other enabled => State.key_moves h runs key page
        (State.directionKey_moves focus (onward.trans (Page.walk_enabled next other enabled)))⟩
    rw [Page.walk_end none_left]
    cases path <;> rfl
  · obtain ⟨d, he⟩ : ∃ d, (e.1, e.2, d) ∈ [(Instr.keyUp, Key.up, Direction.up), (.keyDown, .down, .down),
        (.keyLeft, .left, .left), (.keyRight, .right, .right)] := by
      simp only [List.mem_cons, List.not_mem_nil, or_false] at he
      rcases he with rfl | rfl | rfl | rfl <;> simp
    exact State.key_refused h (directionRow he) key

end Sys2Proof.Machine


/-! PROOF. SELECT (O37): a move of the focus, or from none a jump of the highlight. -/

namespace Sys2Proof.Machine

/-! ## The jump of the highlight (R112, R118) -/

/-- The highlight at a button keeps its visibility and its binding. -/
theorem Obj.atButton_visible (o : Obj) (cmdw : Nat) (b : Button) (margin : Nat) :
    (o.atButton cmdw b margin).visible = o.visible := by
  unfold Obj.atButton
  dsimp only
  split <;> rfl

/-- The highlight jumps to a button. -/
theorem State.jump_wrote (s : State) (k cmdw : Nat) (b : Button) (margin : Nat) :
    State.Wrote (fun n o => if n = k then o.atButton cmdw b margin else o)
      (fun n o => n = k ∧ o.atButton cmdw b margin ≠ o) s
      (s.onScene fun sc => sc.modify k fun o => o.jump cmdw (b.grown margin)) := by
  have jumps : (fun o : Obj => o.jump cmdw (b.grown margin)) = fun o => o.atButton cmdw b margin :=
    funext fun o => o.jump_grown cmdw b margin
  rw [jumps]
  exact s.modify_wrote k _

/-- Writes that mark just when a record differs in the end mark just when the objects differ. -/
theorem State.Wrote.mark_differs {s t : State} {value : Nat → Obj → Obj} {changed : Nat → Obj → Prop}
    (h : State.Wrote value changed s t) (differs : ∀ n o, s.obj n = some o → (changed n o ↔ value n o ≠ o)) :
    t.scene.mark = true ↔ s.scene.mark = true ∨ ∃ k, k ∈ s.scene.order ∧ t.obj k ≠ s.obj k := by
  refine h.mark.trans (or_congr_right (exists_congr fun n => ?_))
  rw [h.objects]
  cases here : s.obj n with
  | none => simp
  | some o => simp [differs n o here]

/-- From no focus: the highlight jumps to the button and is shown, and so is the button's marker (R121). -/
def Button.focused (b : Button) (p : Page) (cmdw n : Nat) (marker : Option Nat) (o : Obj) : Obj :=
  if n = p.highlight then { o.atButton cmdw b p.margin with visible := true }
  else if marker = some n then { o with visible := true } else o

/-- A jump and a show change the highlight just when it is not there and shown already. -/
theorem Obj.jump_show_changes (o : Obj) (cmdw : Nat) (b : Button) (margin : Nat) :
    (o.atButton cmdw b margin ≠ o ∨ (o.atButton cmdw b margin).visible ≠ true) ↔
      { o.atButton cmdw b margin with visible := true } ≠ o := by
  rw [← not_iff_not, not_or, not_not, not_not, not_not]
  constructor
  · rintro ⟨there, shown⟩
    rw [← shown, there]
  · intro same
    have shown : (o.atButton cmdw b margin).visible = true := by
      rw [Obj.atButton_visible, ← same]
    exact ⟨by rw [← shown] at same; exact same, shown⟩

section
variable {s : State} {c : Command} {rest : List Command} {p : Page} {n : Nat} {b : Button}

theorem State.firstFocus_wrote (v : State) (button : p.button n = some b) :
    State.Wrote (fun k o => b.focused p v.cmdw k (p.focusSlot n) o)
      (fun k o => b.focused p v.cmdw k (p.focusSlot n) o ≠ o) (v.onNav fun q => { q with focus := some n })
      (v.firstFocus p n) := by
  unfold State.firstFocus
  rw [button]
  refine (((State.jump_wrote _ p.highlight v.cmdw b p.margin).trans (State.setVisible_wrote _ p.highlight true)).trans
    (State.showFocusSlot_wrote _ (p.focusSlot n) true)).congr ?_ ?_
  · intro k o _
    by_cases hk : k = p.highlight <;> by_cases hm : p.focusSlot n = some k <;> simp [Button.focused, hk, hm]
  · intro k o _
    by_cases hk : k = p.highlight
    · simp only [Button.focused, hk, if_true, true_and, not_true_eq_false, and_false, or_false, ne_eq]
      exact (o.jump_show_changes v.cmdw b p.margin).symm
    · by_cases hm : p.focusSlot n = some k
      · simp only [Button.focused, hk, hm, if_true, if_false, false_and, false_or, true_and]
        exact o.show_changes true
      · simp [Button.focused, hk, hm]

theorem Page.button_of_enabled (enabled : p.enabled n = true) : ∃ b, p.button n = some b := by
  unfold Page.enabled at enabled
  cases button : p.button n with
  | none => simp [button] at enabled
  | some b => exact ⟨b, rfl⟩

theorem Page.lt_of_enabled (enabled : p.enabled n = true) : n < p.buttons.length := by
  obtain ⟨b, button⟩ := Page.button_of_enabled enabled
  exact (List.getElem?_eq_some_iff.mp button).1

/-! ## SELECT's rule (R121) -/

theorem State.selectKey_beyond {v : State} (beyond : p.buttons.length ≤ n) : v.selectKey p n = .completed 1 v := by
  unfold State.selectKey
  rw [if_pos beyond]

theorem State.selectKey_disabled {v : State} (within : n < p.buttons.length) (disabled : p.enabled n = false) :
    v.selectKey p n = .completed 2 v := by
  unfold State.selectKey
  rw [if_neg (Nat.not_le.mpr within), disabled]
  rfl

/-- On an enabled button the focus decides. -/
theorem State.selectKey_enabled {v : State} (enabled : p.enabled n = true) : v.selectKey p n =
    match v.nav.focus with
    | none => .completed 0 (v.firstFocus p n)
    | some f => if f = n then .completed 0 v else .completed 0 (v.moveFocus p f n) := by
  unfold State.selectKey
  rw [if_neg (Nat.not_le.mpr (Page.lt_of_enabled enabled)), enabled]
  rfl

end

theorem selectRow : keyRow .keySelect .select fun c p t => t.selectKey p c.smallHigh := fun _ => rfl

/-- Settles O37: SELECT's rule by the button and the focus; from no focus the highlight jumps. -/
theorem selectMovesTheFocus : Obligations.SelectMovesTheFocus := by
  refine ⟨?_, fun s c rest h key => State.key_refused h selectRow key⟩
  intro s c rest p n h key hn page
  subst hn
  have focus : (s.departed rest).nav.focus = s.nav.focus := by rw [State.departed_nav]
  refine ⟨fun beyond => State.key_stays h selectRow key page (State.selectKey_beyond beyond),
    fun within disabled => State.key_stays h selectRow key page (State.selectKey_disabled within disabled),
    fun enabled here => State.key_stays h selectRow key page ?_,
    fun f enabled here other => State.key_moves h selectRow key page (f := f) ?_, fun enabled unfocused => ?_⟩
  · simp only [State.selectKey_enabled enabled, focus, here, if_true]
  · simp only [State.selectKey_enabled enabled, focus, here, other, if_false]
  · obtain ⟨b, button⟩ := Page.button_of_enabled enabled
    have wrote := (s.departed rest).firstFocus_wrote button
    have frame := (State.onNav_frame (s.departed rest) fun q => { q with focus := some c.smallHigh }).trans wrote.frame
    have scene : ((s.departed rest).onNav fun q => { q with focus := some c.smallHigh }).scene = s.scene :=
      State.departed_scene s rest
    have objects (k : Nat) : ((s.departed rest).firstFocus p c.smallHigh).obj k =
        (s.obj k).map (b.focused p s.cmdw k (p.focusSlot c.smallHigh)) := by
      rw [wrote.objects, State.departed_cmdw, State.obj, scene]
      rfl
    have mark := wrote.mark_differs fun _ _ _ => Iff.rfl
    refine ⟨_, State.key_completes h selectRow key page (u := (s.departed rest).firstFocus p c.smallHigh) ?_ ?_,
      State.sameBut_closed frame (by simp) (by simp) 0, ?_, ?_, ?_, ?_, ?_, ?_, ?_, ?_, ?_⟩
    · simp only [State.selectKey_enabled enabled, focus, unfocused]
    · rw [frame .events (by simp), State.departed_statusPending]
    · refine (wrote.frame .nav (by simp)).trans ?_
      exact congrArg (fun q : Navigator => { q with focus := some c.smallHigh }) (State.departed_nav s rest)
    · exact wrote.order.trans (by rw [scene])
    · intro b' o button' here
      cases button.symm.trans button'
      refine (objects p.highlight).trans ?_
      simp [here, Button.focused]
    · intro k o marker other here
      refine (objects k).trans ?_
      simp [here, Button.focused, other, marker]
    · intro k none_here
      exact (objects k).trans (by rw [none_here]; rfl)
    · exact wrote.palettes.trans (by rw [scene])
    · exact wrote.load.trans (by rw [scene])
    · refine mark.trans ?_
      simp only [State.obj, scene]
      rfl
    · intro k o here unmarked other
      refine (objects k).trans ?_
      simp [here, Button.focused, other, unmarked]

end Sys2Proof.Machine


/-! PROOF. The scene at the installation of a page, stage by stage: the silent ends, the highlight, its place, the
markers (R117, R118); the layer under O32. -/

namespace Sys2Proof.Machine

/-! ## The silent ends -/

/-- Channel 0 and the highlight's motion have ended silently (R77, R90). -/
def State.highlightHalted (s : State) (p : Page) : State :=
  match ((s.silentHalt 0).obj p.highlight).bind (·.bound) with
  | some ch => (s.silentHalt 0).silentHalt ch
  | none => s.silentHalt 0

section
variable {s : State} {p : Page}

theorem State.highlightHalted_freed (s : State) (p : Page) : State.Freed s (s.highlightHalted p) := by
  unfold State.highlightHalted
  split
  · exact (State.silentHalt_freed s 0).trans (State.silentHalt_freed _ _)
  · exact State.silentHalt_freed s 0

/-- Every channel but channel 0 and the highlight's stands. -/
theorem State.highlightHalted_chan {k : Nat} (other : k ≠ 0)
    (apart : ∀ o, s.obj p.highlight = some o → o.bound ≠ some k) : (s.highlightHalted p).chan k = s.chan k := by
  unfold State.highlightHalted
  split
  next ch bound =>
    have apart : k ≠ ch := by
      rintro rfl
      obtain ⟨o1, here, held⟩ := Option.bind_eq_some_iff.mp bound
      obtain ⟨o, before, same | ⟨loose, -⟩⟩ := (State.silentHalt_freed s 0).loosed.bindings _ _ here
      · exact apart o before (same ▸ held)
      · simp [loose] at held
    rw [State.silentHalt_other _ apart, State.silentHalt_other s other]
  · exact State.silentHalt_other s other

end

/-! ## The highlight (R118) -/

/-- The highlight at the focused button, or where it stands without one. -/
def Page.jumped (p : Page) (cmdw : Nat) (focus : Option Nat) (o : Obj) : Obj :=
  match focus.bind p.button with
  | some b => o.atButton cmdw b p.margin
  | none => o

/-- The highlight has jumped, the old page's is hidden, and it is shown just when a button has the focus. -/
def State.faced (u : State) (cmdw : Nat) (old : Option Page) (p : Page) (focus : Option Nat) : State :=
  let jumped := match focus.bind p.button with
    | some b => u.onScene fun sc => sc.modify p.highlight fun o => o.jump cmdw (b.grown p.margin)
    | none => u
  let hidden := match old with
    | some q => if q.highlight ≠ p.highlight then jumped.setVisible q.highlight false else jumped
    | none => jumped
  hidden.setVisible p.highlight focus.isSome

/-- A record after the highlights have been written. -/
def Page.facedValue (p : Page) (cmdw : Nat) (old : Option Page) (focus : Option Nat) (n : Nat) (o : Obj) : Obj :=
  if n = p.highlight then { p.jumped cmdw focus o with visible := focus.isSome }
  else if old.map (·.highlight) = some n then { o with visible := false } else o

theorem Page.jumped_visible (p : Page) (cmdw : Nat) (focus : Option Nat) (o : Obj) :
    (p.jumped cmdw focus o).visible = o.visible := by
  unfold Page.jumped
  split
  · exact Obj.atButton_visible _ _ _ _
  · rfl

theorem State.jumped_wrote (u : State) (cmdw : Nat) (p : Page) (focus : Option Nat) :
    State.Wrote (fun n o => if n = p.highlight then p.jumped cmdw focus o else o)
      (fun n o => n = p.highlight ∧ p.jumped cmdw focus o ≠ o) u
      (match focus.bind p.button with
        | some b => u.onScene fun sc => sc.modify p.highlight fun o => o.jump cmdw (b.grown p.margin)
        | none => u) := by
  unfold Page.jumped
  cases focus.bind p.button with
  | some b => exact u.jump_wrote p.highlight cmdw b p.margin
  | none => exact (State.Wrote.refl u).congr (by simp) (by simp)

theorem State.oldHidden_wrote (u : State) (old : Option Page) (p : Page) :
    State.Wrote
      (fun n o => if n ≠ p.highlight ∧ old.map (·.highlight) = some n then { o with visible := false } else o)
      (fun n o => (n ≠ p.highlight ∧ old.map (·.highlight) = some n) ∧ o.visible = true) u
      (match old with
        | some q => if q.highlight ≠ p.highlight then u.setVisible q.highlight false else u
        | none => u) := by
  cases old with
  | none => exact (State.Wrote.refl u).congr (by simp) (by simp)
  | some q =>
    by_cases same : q.highlight = p.highlight
    · have never (n : Nat) : ¬ (n ≠ p.highlight ∧ (some q).map (·.highlight) = some n) := by
        rintro ⟨other, e⟩
        exact other ((Option.some.inj e).symm.trans same)
      simp only [same, ne_eq, not_true_eq_false, if_false]
      exact (State.Wrote.refl u).congr (fun n o _ => if_neg (never n)) fun n o _ => iff_of_false (fun h => never n h.1) id
    · have named (n : Nat) : (n ≠ p.highlight ∧ (some q).map (·.highlight) = some n) ↔ n = q.highlight := by
        constructor
        · exact fun h => (Option.some.inj h.2).symm
        · rintro rfl
          exact ⟨same, rfl⟩
      simp only [same, ne_eq, not_false_eq_true, if_true]
      refine (u.setVisible_wrote q.highlight false).congr (fun n o _ => if_congr (named n) rfl rfl) fun n o _ => ?_
      rw [named, ne_eq, Bool.not_eq_false]

/-- Some write of the highlights changes the record. -/
def Page.facedChange (p : Page) (cmdw : Nat) (old : Option Page) (focus : Option Nat) (n : Nat) (o : Obj) : Prop :=
  n = p.highlight ∧ (p.jumped cmdw focus o ≠ o ∨ o.visible ≠ focus.isSome)
    ∨ (n ≠ p.highlight ∧ old.map (·.highlight) = some n) ∧ o.visible = true

theorem State.faced_wrote (u : State) (cmdw : Nat) (old : Option Page) (p : Page) (focus : Option Nat) :
    State.Wrote (p.facedValue cmdw old focus) (p.facedChange cmdw old focus) u (u.faced cmdw old p focus) := by
  refine (((u.jumped_wrote cmdw p focus).trans (State.oldHidden_wrote _ old p)).trans
    (State.setVisible_wrote _ p.highlight focus.isSome)).congr ?_ ?_
  · intro n o _
    by_cases here : n = p.highlight <;> simp [Page.facedValue, here]
  · intro n o _
    by_cases here : n = p.highlight <;> simp [Page.facedChange, here, Page.jumped_visible]

/-! ## Its place (R118) -/

/-- An unplaced highlight is put at the top of its group. -/
def State.topped (u : State) (k : Nat) : State :=
  if u.scene.placed k then u else u.onScene fun sc => sc.place k .top

section
variable {u : State} {k : Nat}

theorem State.topped_placed (placed : k ∈ u.scene.order) : u.topped k = u := by
  unfold State.topped
  rw [if_pos (by simpa [Scene.placed] using placed)]

/-- A place at the top is a new display order. -/
theorem State.topped_unplaced {o : Obj} (unplaced : k ∉ u.scene.order) (here : u.obj k = some o) :
    u.topped k = u.onScene fun sc => sc.reorder (sc.orderWith k o.group .top) := by
  unfold State.topped
  rw [if_neg (by simpa [Scene.placed] using unplaced)]
  have placed : u.scene.place k .top = u.scene.reorder (u.scene.orderWith k o.group .top) := by
    unfold Scene.place
    rw [show u.scene.obj k = some o from here]
  exact congrArg (fun sc => { u with scene := sc }) placed

theorem State.topped_obj (u : State) (k n : Nat) : (u.topped k).obj n = u.obj n := by
  unfold State.topped
  split
  · rfl
  · show (u.scene.place k .top).obj n = _
    unfold Scene.place
    split
    · rfl
    · rw [Scene.reorder_eq]
      rfl

theorem State.topped_frame (u : State) (k : Nat) : State.sameBut [.scene] u (u.topped k) := by
  unfold State.topped
  split
  · exact State.sameBut_refl u _
  · exact State.onScene_frame u _

theorem State.topped_rest (u : State) (k : Nat) :
    (u.topped k).scene.palettes = u.scene.palettes ∧ (u.topped k).scene.load = u.scene.load := by
  unfold State.topped
  split
  · exact ⟨rfl, rfl⟩
  · show (u.scene.place k .top).palettes = _ ∧ (u.scene.place k .top).load = _
    unfold Scene.place
    split
    · exact ⟨rfl, rfl⟩
    · rw [Scene.reorder_eq]
      exact ⟨rfl, rfl⟩

/-- A place of a slot lists it and marks the scene when it was not listed. -/
theorem State.topped_lists {o : Obj} (unplaced : k ∉ u.scene.order) (here : u.obj k = some o) :
    k ∈ (u.topped k).scene.order ∧ (u.topped k).scene.mark = true := by
  obtain ⟨pre, post, parted, -⟩ := u.scene.orderWith_parted k o.group .top
  have listed : k ∈ u.scene.orderWith k o.group .top := by
    rw [parted.placed]
    exact List.mem_append_right _ List.mem_cons_self
  have moved : u.scene.orderWith k o.group .top ≠ u.scene.order := fun same => unplaced (same ▸ listed)
  rw [State.topped_unplaced unplaced here]
  show k ∈ (u.scene.reorder _).order ∧ (u.scene.reorder _).mark = true
  rw [Scene.reorder_eq]
  exact ⟨listed, by simp [moved]⟩

/-- At the top of the MENU group is the end of the order (R45). -/
theorem State.topped_menu {o : Obj} (unplaced : k ∉ u.scene.order) (here : u.obj k = some o) (menu : o.group = .menu)
    (law : u.scene.orderLaw = true) : (u.topped k).scene.order = u.scene.order ++ [k] := by
  obtain ⟨pre, post, parted, -, atEnd, -⟩ := u.scene.orderWith_parted k o.group .top
  have without : (u.scene.without k).order = u.scene.order := filter_ne_of_not_mem unplaced
  have whole : pre ++ post = u.scene.order :=
    parted.whole.trans ((Scene.rest_parted (Scene.without_ordered law k)).symm.trans without)
  rw [State.topped_unplaced unplaced here]
  show (u.scene.reorder _).order = _
  rw [Scene.reorder_eq]
  show u.scene.orderWith k o.group .top = _
  rw [parted.placed, ← whole, atEnd rfl menu, List.append_nil]

end

/-! ## The markers (R118) -/

theorem State.hideMarkers_wrote (l : List Button) (u : State) :
    State.Wrote (fun n o => if ∃ b ∈ l, b.focusSlot = some n then { o with visible := false } else o)
      (fun n o => (∃ b ∈ l, b.focusSlot = some n) ∧ o.visible = true) u
      (l.foldl (fun t b => t.showFocusSlot b.focusSlot false) u) := by
  induction l generalizing u with
  | nil => exact (State.Wrote.refl u).congr (by simp) (by simp)
  | cons b l ih =>
    refine ((u.showFocusSlot_wrote b.focusSlot false).trans (ih _)).congr ?_ ?_
    · intro n o _
      simp only [List.exists_mem_cons_iff]
      by_cases here : b.focusSlot = some n <;> by_cases later : ∃ c ∈ l, c.focusSlot = some n <;> simp [here, later]
    · intro n o _
      simp only [List.exists_mem_cons_iff]
      by_cases here : b.focusSlot = some n <;> simp [here]

/-- The old marker and those of the page are hidden, and the focused button's is shown. -/
def State.marked (u : State) (old : Option Nat) (p : Page) (new : Option Nat) : State :=
  (p.buttons.foldl (fun t b => t.showFocusSlot b.focusSlot false) (u.showFocusSlot old false)).showFocusSlot new true

/-- Slot n is the old marker or a button's focus slot. -/
def Page.marks (p : Page) (old : Option Nat) (n : Nat) : Bool :=
  old == some n || p.buttons.any fun b => b.focusSlot == some n

theorem Page.marks_iff {p : Page} {old : Option Nat} {n : Nat} :
    p.marks old n = true ↔ old = some n ∨ ∃ b ∈ p.buttons, b.focusSlot = some n := by
  simp [Page.marks]

/-- The focused button's marker is a button's. -/
theorem Page.marks_new {p : Page} {focus old : Option Nat} {n : Nat} (new : focus.bind p.focusSlot = some n) :
    p.marks old n = true := by
  obtain ⟨f, -, slot⟩ := Option.bind_eq_some_iff.mp new
  obtain ⟨b, button, slot⟩ := Option.bind_eq_some_iff.mp slot
  exact Page.marks_iff.mpr (.inr ⟨b, List.mem_of_getElem? button, slot⟩)

/-- A record after the markers have been written. -/
def Page.markedValue (p : Page) (old new : Option Nat) (n : Nat) (o : Obj) : Obj :=
  { o with visible := if new = some n then true else if p.marks old n then false else o.visible }

/-- Some write of the markers changes the record: a shown one is hidden, the focused button's is shown after it. -/
def Page.markedChange (p : Page) (old new : Option Nat) (n : Nat) (o : Obj) : Prop :=
  p.marks old n = true ∧ o.visible = true ∨ new = some n

theorem State.marked_wrote (u : State) (old : Option Nat) (p : Page) (focus : Option Nat) :
    State.Wrote (p.markedValue old (focus.bind p.focusSlot)) (p.markedChange old (focus.bind p.focusSlot)) u
      (u.marked old p (focus.bind p.focusSlot)) := by
  refine (((u.showFocusSlot_wrote old false).trans (State.hideMarkers_wrote p.buttons _)).trans
    (State.showFocusSlot_wrote _ (focus.bind p.focusSlot) true)).congr ?_ ?_
  · intro n o _
    by_cases first : old = some n <;> by_cases some_b : ∃ b ∈ p.buttons, b.focusSlot = some n <;>
      by_cases new : focus.bind p.focusSlot = some n <;>
      simp [Page.markedValue, Page.marks_iff, first, some_b, new]
  · intro n o _
    by_cases new : focus.bind p.focusSlot = some n
    · have hidden := Page.marks_iff.mp (Page.marks_new (old := old) new)
      by_cases first : old = some n
      · simp [Page.markedChange, new, first]
      · have some_b := hidden.resolve_left first
        simp [Page.markedChange, new, first, some_b]
    · by_cases first : old = some n <;> simp [Page.markedChange, new, first, Page.marks_iff]

/-! ## The whole scene -/

/-- The stages in their order. -/
theorem State.dressPage_eq (s : State) (old : Option Page) (f : Option Nat) (p : Page) (g : Option Nat) :
    s.dressPage old f p g =
      (((s.highlightHalted p).faced s.cmdw old p g).topped p.highlight).marked
        (old.bind fun q => f.bind q.focusSlot) p (g.bind p.focusSlot) := rfl

end Sys2Proof.Machine


/-! PROOF. A page is installed or rejected (O32). -/

namespace Sys2Proof.Machine

/-! ## Records without their binding (R38) -/

/-- Records with one binding differ just when their other fields do. -/
theorem Obj.ne_iff_unbound {o o' : Obj} (bound : o.bound = o'.bound) : o ≠ o' ↔ o.unbound ≠ o'.unbound := by
  rw [not_iff_not]
  refine ⟨fun e => by rw [e], fun e => ?_⟩
  obtain ⟨⟩ := o
  obtain ⟨⟩ := o'
  simp_all [Obj.unbound]

theorem Obj.atButton_bound (o : Obj) (cmdw : Nat) (b : Button) (margin : Nat) :
    (o.atButton cmdw b margin).bound = o.bound := by
  rw [← Obj.jump_grown, Obj.jump_bound]

/-- The binding has no part in the jump. -/
theorem Obj.atButton_unbound (o : Obj) (cmdw : Nat) (b : Button) (margin : Nat) :
    (o.atButton cmdw b margin).unbound = o.unbound.atButton cmdw b margin := by
  have grown : o.unbound.grownTo b margin = (o.grownTo b margin).unbound := rfl
  have valid : (o.grownTo b margin).unbound.valid cmdw = (o.grownTo b margin).valid cmdw := rfl
  unfold Obj.atButton
  rw [grown, valid]
  split <;> rfl

section
variable {p : Page} {cmdw : Nat} {g : Option Nat}

theorem Page.jumped_bound (o : Obj) : (p.jumped cmdw g o).bound = o.bound := by
  unfold Page.jumped
  split
  · exact Obj.atButton_bound _ _ _ _
  · rfl

theorem Page.jumped_unbound (o : Obj) : (p.jumped cmdw g o).unbound = p.jumped cmdw g o.unbound := by
  unfold Page.jumped
  split
  · exact Obj.atButton_unbound _ _ _ _
  · rfl

theorem Page.jumped_group (o : Obj) : (p.jumped cmdw g o).group = o.group := by
  unfold Page.jumped
  split
  · exact Obj.atButton_group _ _ _ _
  · rfl

/-- The jump moves the highlight just when it moves one with another binding. -/
theorem Page.jumped_moves {o o' : Obj} (same : o'.unbound = o.unbound) :
    p.jumped cmdw g o' ≠ o' ↔ ∃ b, g.bind p.button = some b ∧ (o.atButton cmdw b p.margin).unbound ≠ o.unbound := by
  rw [Obj.ne_iff_unbound (Page.jumped_bound o'), Page.jumped_unbound, same, ← Page.jumped_unbound]
  unfold Page.jumped
  cases g.bind p.button <;> simp

theorem Page.facedValue_group (old : Option Page) (n : Nat) (o : Obj) : (p.facedValue cmdw old g n o).group = o.group := by
  unfold Page.facedValue
  split
  · exact Page.jumped_group o
  · split <;> rfl

end

/-! ## The installed scene -/

section
variable {s : State} {old : Option Page} {f : Option Nat} {p : Page} {g : Option Nat}

/-- The old focus slot, where there was one. -/
def oldMarker (old : Option Page) (f : Option Nat) : Option Nat := old.bind fun q => f.bind q.focusSlot

theorem oldMarker_iff {n : Nat} :
    oldMarker old f = some n ↔ ∃ q k, old = some q ∧ f = some k ∧ q.focusSlot k = some n := by
  simp [oldMarker, Option.bind_eq_some_iff]

/-- The highlights are written after the silent ends. -/
theorem State.dressPage_faced (s : State) (old : Option Page) (p : Page) (g : Option Nat) :
    State.Wrote (p.facedValue s.cmdw old g) (p.facedChange s.cmdw old g) (s.highlightHalted p)
      ((s.highlightHalted p).faced s.cmdw old p g) :=
  State.faced_wrote _ s.cmdw old p g

/-- The markers are written last. -/
theorem State.dressPage_marked (s : State) (old : Option Page) (f : Option Nat) (p : Page) (g : Option Nat) :
    State.Wrote (p.markedValue (oldMarker old f) (g.bind p.focusSlot))
      (p.markedChange (oldMarker old f) (g.bind p.focusSlot))
      (((s.highlightHalted p).faced s.cmdw old p g).topped p.highlight) (s.dressPage old f p g) := by
  rw [State.dressPage_eq]
  exact State.marked_wrote _ _ p g

theorem State.highlightHalted_scene (s : State) (p : Page) :
    (s.highlightHalted p).scene.order = s.scene.order ∧ (s.highlightHalted p).scene.mark = s.scene.mark
      ∧ (s.highlightHalted p).scene.palettes = s.scene.palettes ∧ (s.highlightHalted p).scene.load = s.scene.load := by
  rw [(s.highlightHalted_freed p).rest]
  exact ⟨rfl, rfl, rfl, rfl⟩

/-- A record of the installed scene, from the record after the silent ends. -/
theorem State.dressPage_obj (n : Nat) : (s.dressPage old f p g).obj n =
    ((s.highlightHalted p).obj n).map fun o =>
      p.markedValue (oldMarker old f) (g.bind p.focusSlot) n (p.facedValue s.cmdw old g n o) := by
  rw [(s.dressPage_marked old f p g).objects, State.topped_obj, (s.dressPage_faced old p g).objects, Option.map_map]
  rfl

/-- A record of the installed scene, from the record before. -/
theorem State.dressPage_object {n : Nat} {o : Obj} (here : s.obj n = some o) : ∃ o1, o1.unbound = o.unbound
    ∧ (s.dressPage old f p g).obj n =
        some (p.markedValue (oldMarker old f) (g.bind p.focusSlot) n (p.facedValue s.cmdw old g n o1)) := by
  obtain ⟨o1, after, same⟩ := (s.highlightHalted_freed p).object here
  exact ⟨o1, same, by rw [State.dressPage_obj, after]; rfl⟩

theorem State.dressPage_undefined {n : Nat} (none_here : s.obj n = none) : (s.dressPage old f p g).obj n = none := by
  have same := (s.highlightHalted_freed p).objects n
  rw [none_here, Option.map_none, Option.map_eq_none_iff] at same
  rw [State.dressPage_obj, same]
  rfl

/-- The focused button's marker is shown. -/
theorem State.dressPage_marker {n : Nat} {o : Obj} (marker : g.bind p.focusSlot = some n)
    (here : (s.dressPage old f p g).obj n = some o) : o.visible = true := by
  rw [State.dressPage_obj] at here
  obtain ⟨o1, -, rfl⟩ := Option.map_eq_some_iff.mp here
  simp [Page.markedValue, marker]

/-- The installed highlight: at the focused button, and shown just when there is one, unless it is the old focus slot
(log entry 34). -/
theorem State.dressPage_highlight {o : Obj} (here : s.obj p.highlight = some o)
    (clear : ∀ b ∈ p.buttons, b.focusSlot ≠ some p.highlight) : ∃ o', (s.dressPage old f p g).obj p.highlight = some o'
      ∧ o'.unbound = { (p.jumped s.cmdw g o).unbound with visible := o'.visible }
      ∧ (oldMarker old f ≠ some p.highlight → o'.visible = g.isSome) := by
  obtain ⟨o1, same, after⟩ := s.dressPage_object (old := old) (f := f) (p := p) (g := g) here
  have faced : (p.jumped s.cmdw g o1).unbound = (p.jumped s.cmdw g o).unbound := by
    rw [Page.jumped_unbound, same, ← Page.jumped_unbound]
  refine ⟨_, after, ?_, fun apart => ?_⟩
  · simp only [Page.markedValue, Page.facedValue, if_true]
    rw [← faced]
    rfl
  · have unmarked : p.marks (oldMarker old f) p.highlight ≠ true := fun m =>
      (Page.marks_iff.mp m).elim apart fun ⟨b, hb, slot⟩ => clear b hb slot
    have other : g.bind p.focusSlot ≠ some p.highlight := fun m => unmarked (Page.marks_new m)
    simp [Page.markedValue, Page.facedValue, other, unmarked]

/-- Slot n is hidden at an installation: a button's focus slot, the old one, or the old highlight. -/
def Page.hides (p : Page) (old : Option Page) (f : Option Nat) (n : Nat) : Prop :=
  (∃ b ∈ p.buttons, b.focusSlot = some n) ∨ oldMarker old f = some n ∨ old.map (·.highlight) = some n

theorem Page.hides_iff {n : Nat} : p.hides old f n ↔
    p.marks (oldMarker old f) n = true ∨ old.map (·.highlight) = some n := by
  rw [Page.marks_iff, Page.hides, ← or_assoc, or_comm (a := ∃ b ∈ p.buttons, b.focusSlot = some n)]

/-- Every other object keeps its fields but for the visible one, by its part in the two pages. -/
theorem State.dressPage_other {n : Nat} {o : Obj} (other : n ≠ p.highlight) (here : s.obj n = some o) :
    ∃ o', (s.dressPage old f p g).obj n = some o' ∧ o'.unbound = { o.unbound with visible := o'.visible }
      ∧ (g.bind p.focusSlot = some n → o'.visible = true)
      ∧ (g.bind p.focusSlot ≠ some n → p.hides old f n → o'.visible = false)
      ∧ (g.bind p.focusSlot ≠ some n → ¬ p.hides old f n → o'.visible = o.visible) := by
  obtain ⟨o1, same, after⟩ := s.dressPage_object (old := old) (f := f) (p := p) (g := g) here
  refine ⟨_, after, ?_, fun marker => by simp [Page.markedValue, marker], fun plain hidden => ?_, fun plain stays => ?_⟩
  · rw [← same]
    unfold Page.markedValue Page.facedValue
    rw [if_neg other]
    split <;> rfl
  · rw [Page.hides_iff] at hidden
    rcases hidden with hidden | hidden
    · simp [Page.markedValue, plain, hidden]
    · simp [Page.markedValue, Page.facedValue, plain, other, hidden]
  · rw [Page.hides_iff, not_or] at stays
    rw [← Obj.visible_of_unbound same]
    simp [Page.markedValue, Page.facedValue, plain, other, stays.1, stays.2]

/-! ## Order, mark and channels -/

theorem State.dressPage_placed (placed : p.highlight ∈ s.scene.order) :
    (s.dressPage old f p g).scene.order = s.scene.order := by
  have faced : ((s.highlightHalted p).faced s.cmdw old p g).scene.order = s.scene.order :=
    (s.dressPage_faced old p g).order.trans (s.highlightHalted_scene p).1
  rw [(s.dressPage_marked old f p g).order, State.topped_placed (by rwa [faced]), faced]

/-- The highlight before it is placed. -/
theorem State.faced_highlight {o : Obj} (here : s.obj p.highlight = some o) :
    ∃ o1, ((s.highlightHalted p).faced s.cmdw old p g).obj p.highlight = some o1 ∧ o1.group = o.group := by
  obtain ⟨o1, after, same⟩ := (s.highlightHalted_freed p).object here
  refine ⟨_, by rw [(s.dressPage_faced old p g).objects, after]; rfl, ?_⟩
  rw [Page.facedValue_group]
  simpa [Obj.unbound] using congrArg Obj.group same

theorem State.dressPage_unplaced {o : Obj} (here : s.obj p.highlight = some o) (unplaced : p.highlight ∉ s.scene.order) :
    p.highlight ∈ (s.dressPage old f p g).scene.order ∧ (s.dressPage old f p g).scene.mark = true := by
  obtain ⟨o1, after, -⟩ := s.faced_highlight (old := old) (g := g) here
  have faced : ((s.highlightHalted p).faced s.cmdw old p g).scene.order = s.scene.order :=
    (s.dressPage_faced old p g).order.trans (s.highlightHalted_scene p).1
  obtain ⟨listed, mark⟩ := State.topped_lists (by rwa [faced]) after
  exact ⟨(s.dressPage_marked old f p g).order ▸ listed, (s.dressPage_marked old f p g).mark.mpr (.inl mark)⟩

theorem State.dressPage_top {o : Obj} (here : s.obj p.highlight = some o) (menu : o.group = .menu)
    (unplaced : p.highlight ∉ s.scene.order) (law : s.scene.orderLaw = true) :
    (s.dressPage old f p g).scene.order = s.scene.order ++ [p.highlight] := by
  obtain ⟨o1, after, group⟩ := s.faced_highlight (old := old) (g := g) here
  have wrote := s.dressPage_faced old p g
  have faced : ((s.highlightHalted p).faced s.cmdw old p g).scene.order = s.scene.order :=
    wrote.order.trans (s.highlightHalted_scene p).1
  have law : ((s.highlightHalted p).faced s.cmdw old p g).scene.orderLaw = true := by
    refine Scene.orderLaw_congr law faced fun n => ?_
    refine Eq.trans ?_ (Scene.groupOf_of_unbound ((s.highlightHalted_freed p).objects n))
    show ((State.faced _ _ _ _ _).obj n).map _ = ((s.highlightHalted p).obj n).map _
    rw [wrote.objects, Option.map_map]
    exact congrArg (fun k => Option.map k _) (funext fun o => Page.facedValue_group old n o)
  rw [(s.dressPage_marked old f p g).order, State.topped_menu (by rwa [faced]) after (group.trans menu) law, faced]

/-- Some write changes the record, with the highlight in its place. -/
def Page.dressChange (p : Page) (cmdw : Nat) (old : Option Page) (f g : Option Nat) (n : Nat) (o : Obj) : Prop :=
  p.facedChange cmdw old g n o
    ∨ p.markedChange (oldMarker old f) (g.bind p.focusSlot) n (p.facedValue cmdw old g n o)

theorem Page.dressChange_other {cmdw n : Nat} {o o1 : Obj} (other : n ≠ p.highlight) (same : o1.unbound = o.unbound) :
    p.dressChange cmdw old f g n o1 ↔ p.hides old f n ∧ o.visible = true ∨ g.bind p.focusSlot = some n := by
  rw [Page.hides_iff, ← Obj.visible_of_unbound same]
  by_cases beneath : old.map (·.highlight) = some n
  · simp [Page.dressChange, Page.facedChange, Page.markedChange, Page.facedValue, other, beneath]
  · simp [Page.dressChange, Page.facedChange, Page.markedChange, Page.facedValue, other, beneath]

theorem Page.dressChange_highlight {cmdw : Nat} {o o1 : Obj} (same : o1.unbound = o.unbound)
    (clear : ∀ b ∈ p.buttons, b.focusSlot ≠ some p.highlight) : p.dressChange cmdw old f g p.highlight o1 ↔
      (∃ b, g.bind p.button = some b ∧ (o.atButton cmdw b p.margin).unbound ≠ o.unbound) ∨ o.visible ≠ g.isSome
        ∨ oldMarker old f = some p.highlight ∧ g.isSome = true := by
  have marked : p.marks (oldMarker old f) p.highlight = true ↔ oldMarker old f = some p.highlight :=
    Page.marks_iff.trans (or_iff_left fun ⟨b, hb, slot⟩ => clear b hb slot)
  have plain : g.bind p.focusSlot ≠ some p.highlight := by
    intro m
    obtain ⟨k, -, slot⟩ := Option.bind_eq_some_iff.mp m
    obtain ⟨b, button, slot⟩ := Option.bind_eq_some_iff.mp slot
    exact clear b (List.mem_of_getElem? button) slot
  rw [← Page.jumped_moves same, ← Obj.visible_of_unbound same]
  simp [Page.dressChange, Page.facedChange, Page.markedChange, Page.facedValue, marked, plain, or_assoc]

/-- The mark at an installation whose highlight was placed: each write counts by itself (log entry 42). -/
theorem State.dressPage_mark (placed : p.highlight ∈ s.scene.order)
    (clear : ∀ b ∈ p.buttons, b.focusSlot ≠ some p.highlight) :
    (s.dressPage old f p g).scene.mark = true ↔ s.scene.mark = true
      ∨ (∃ n o, n ≠ p.highlight ∧ n ∈ s.scene.order ∧ s.obj n = some o
          ∧ (p.hides old f n ∧ o.visible = true ∨ g.bind p.focusSlot = some n))
      ∨ ∃ o, s.obj p.highlight = some o
          ∧ ((∃ b, g.bind p.button = some b ∧ (o.atButton s.cmdw b p.margin).unbound ≠ o.unbound)
              ∨ o.visible ≠ g.isSome
              ∨ oldMarker old f = some p.highlight ∧ g.isSome = true) := by
  have freed := s.highlightHalted_freed p
  obtain ⟨order, mark, -⟩ := s.highlightHalted_scene p
  have faced := s.dressPage_faced old p g
  have stays := State.topped_placed (u := (s.highlightHalted p).faced s.cmdw old p g) (k := p.highlight)
    (by rwa [faced.order, order])
  have wrote := s.dressPage_marked old f p g
  rw [stays] at wrote
  rw [(faced.trans wrote).mark, mark, order]
  refine or_congr_right ?_
  constructor
  · rintro ⟨n, o1, listed, after, change⟩
    obtain ⟨o, here, same⟩ := freed.object_before after
    by_cases own : n = p.highlight
    · subst own
      exact .inr ⟨o, here, (Page.dressChange_highlight same clear).mp change⟩
    · exact .inl ⟨n, o, own, listed, here, (Page.dressChange_other own same).mp change⟩
  · rintro (⟨n, o, other, listed, here, change⟩ | ⟨o, here, change⟩)
    · obtain ⟨o1, after, same⟩ := freed.object here
      exact ⟨n, o1, listed, after, (Page.dressChange_other other same).mpr change⟩
    · obtain ⟨o1, after, same⟩ := freed.object here
      exact ⟨p.highlight, o1, placed, after, (Page.dressChange_highlight same clear).mpr change⟩

theorem State.dressPage_chan {k : Nat} (other : k ≠ 0) (apart : ∀ o, s.obj p.highlight = some o → o.bound ≠ some k) :
    (s.dressPage old f p g).chan k = s.chan k := by
  have motion : (s.dressPage old f p g).motion = (s.highlightHalted p).motion :=
    ((s.dressPage_faced old p g).frame.trans ((State.topped_frame _ _).trans (s.dressPage_marked old f p g).frame))
      .motion (by simp)
  rw [State.chan, motion]
  exact State.highlightHalted_chan other apart

/-- An object keeps its binding while no ended channel has its slot. -/
theorem State.dressPage_bound {n : Nat} {o o' : Obj} (here : s.obj n = some o)
    (after : (s.dressPage old f p g).obj n = some o') (first : (s.chan 0).slot ≠ some n)
    (apart : ∀ o k, s.obj p.highlight = some o → o.bound = some k → (s.chan k).slot ≠ some n) : o'.bound = o.bound := by
  refine (s.dressPage_silenced old f p g).1.bound after here fun k slot => ?_
  refine State.dressPage_chan (fun e => first (e ▸ slot)) fun o1 highlight bound => apart o1 k highlight bound slot

end

end Sys2Proof.Machine


/-! PROOF. The checks of a page and its settling (O32). -/

namespace Sys2Proof.Machine

/-! ## The checks of R116 -/

section
variable {s : State} {bytes : List Byte}

theorem State.menuSlot_iff {n : Nat} : s.menuSlot n = true ↔ ∃ o, s.obj n = some o ∧ o.group = .menu := by
  unfold State.menuSlot Scene.inGroup State.obj
  cases here : s.scene.obj n with
  | none => simp
  | some o => simp [Scene.obj_lt here]

/-- The present neighbours of a button are buttons of the page. -/
def Button.linked (b : Button) (count : Nat) : Prop :=
  ∀ k ∈ [b.up, b.down, b.left, b.right], ∀ n, k = some n → n < count

/-- The present focus slot of a button holds a MENU object that is not the highlight. -/
def State.marksMenu (s : State) (p : Page) (b : Button) : Prop :=
  ∀ n, b.focusSlot = some n → (∃ o, s.obj n = some o ∧ o.group = .menu) ∧ n ≠ p.highlight

theorem Option.all_lt_iff {k : Option Nat} {count : Nat} : k.all (· < count) = true ↔ ∀ n, k = some n → n < count := by
  cases k <;> simp

theorem Button.linked_iff {b : Button} {count : Nat} :
    (b.up.all (· < count) && b.down.all (· < count) && b.left.all (· < count) && b.right.all (· < count)) = true ↔
      b.linked count := by
  simp only [Button.linked, Bool.and_eq_true, Option.all_lt_iff, List.forall_mem_cons, List.not_mem_nil, false_implies,
    implies_true, and_true, and_assoc]

theorem State.buttonFault_unlinked {p : Page} {b : Button} (unlinked : ¬ b.linked p.buttons.length) :
    s.buttonFault p b = some .neighbour := by
  have fails := Bool.eq_false_iff.mpr (mt Button.linked_iff.mp unlinked)
  unfold State.buttonFault
  dsimp only
  rw [fails]
  rfl

theorem State.buttonFault_linked {p : Page} {b : Button} (linked : b.linked p.buttons.length) :
    s.buttonFault p b = if (b.focusSlot.all fun n => s.menuSlot n && n != p.highlight) then none else some .focusSlot := by
  have passes := Button.linked_iff.mpr linked
  unfold State.buttonFault
  dsimp only
  rw [passes]
  cases b.focusSlot.all fun n => s.menuSlot n && n != p.highlight <;> rfl

theorem State.marksMenu_iff {p : Page} {b : Button} :
    (b.focusSlot.all fun n => s.menuSlot n && n != p.highlight) = true ↔ s.marksMenu p b := by
  unfold State.marksMenu
  cases b.focusSlot with
  | none => simp
  | some n => simp [State.menuSlot_iff]

/-- A button passes check 5 just when its neighbours are buttons and its focus slot is a MENU object (R116). -/
theorem State.buttonFault_none {p : Page} {b : Button} :
    s.buttonFault p b = none ↔ b.linked p.buttons.length ∧ s.marksMenu p b := by
  rw [← State.marksMenu_iff]
  by_cases linked : b.linked p.buttons.length
  · rw [State.buttonFault_linked linked]
    simp [linked]
  · simp [State.buttonFault_unlinked linked, linked]

theorem State.buttonFault_unmarked {p : Page} {b : Button} (linked : b.linked p.buttons.length)
    (unmarked : ¬ s.marksMenu p b) : s.buttonFault p b = some .focusSlot := by
  rw [State.buttonFault_linked linked, if_neg (mt State.marksMenu_iff.mp unmarked)]

theorem pageAt_count (addr : Nat) (bytes : List Byte) : (pageAt addr bytes).buttons.length = pageCount bytes := by
  simp [pageAt]

theorem State.pageFault_format (format : pageFormat bytes ≠ 1) :
    s.pageFault bytes = some (.format, pageFormat bytes) := by
  unfold State.pageFault
  exact if_pos format

theorem State.pageFault_count (format : pageFormat bytes = 1) (count : ¬ (1 ≤ pageCount bytes ∧ pageCount bytes ≤ 32)) :
    s.pageFault bytes = some (.count, pageCount bytes) := by
  unfold State.pageFault
  exact (if_neg (not_not.mpr format)).trans (if_pos count)

theorem State.pageFault_profile (format : pageFormat bytes = 1) (count : 1 ≤ pageCount bytes ∧ pageCount bytes ≤ 32)
    (profile : 7 < (pageAt 0 bytes).profile) : s.pageFault bytes = some (.profile, (pageAt 0 bytes).profile) := by
  unfold State.pageFault
  exact (if_neg (not_not.mpr format)).trans ((if_neg (not_not.mpr count)).trans (if_pos profile))

/-- The checks before the highlight's passed. -/
theorem State.pageFault_header (format : pageFormat bytes = 1) (count : 1 ≤ pageCount bytes ∧ pageCount bytes ≤ 32)
    (profile : (pageAt 0 bytes).profile ≤ 7) : s.pageFault bytes =
      if !s.menuSlot (pageAt 0 bytes).highlight then some (.highlight, (pageAt 0 bytes).highlight)
      else s.buttonsFault (pageAt 0 bytes) 0 (pageAt 0 bytes).buttons := by
  unfold State.pageFault
  exact (if_neg (not_not.mpr format)).trans ((if_neg (not_not.mpr count)).trans (if_neg (Nat.not_lt.mpr profile)))

theorem State.pageFault_highlight (format : pageFormat bytes = 1) (count : 1 ≤ pageCount bytes ∧ pageCount bytes ≤ 32)
    (profile : (pageAt 0 bytes).profile ≤ 7) (highlight : ¬ s.menuSlot (pageAt 0 bytes).highlight = true) :
    s.pageFault bytes = some (.highlight, (pageAt 0 bytes).highlight) := by
  rw [State.pageFault_header format count profile, Bool.eq_false_iff.mpr highlight]
  rfl

/-- The checks of the header passed, the buttons decide. -/
theorem State.pageFault_buttons (format : pageFormat bytes = 1) (count : 1 ≤ pageCount bytes ∧ pageCount bytes ≤ 32)
    (profile : (pageAt 0 bytes).profile ≤ 7) (highlight : s.menuSlot (pageAt 0 bytes).highlight = true) :
    s.pageFault bytes = s.buttonsFault (pageAt 0 bytes) 0 (pageAt 0 bytes).buttons := by
  rw [State.pageFault_header format count profile, highlight]
  rfl

/-- A page that passes has a MENU object for its highlight, and no button's focus slot is that object. -/
theorem State.pageFault_passed (passed : s.pageFault bytes = none) (addr : Nat) :
    (∃ o, s.obj (pageAt addr bytes).highlight = some o ∧ o.group = .menu)
      ∧ ∀ b ∈ (pageAt addr bytes).buttons, b.focusSlot ≠ some (pageAt addr bytes).highlight := by
  unfold State.pageFault at passed
  dsimp only at passed
  split_ifs at passed with format count profile highlight
  have menu : s.menuSlot (pageAt 0 bytes).highlight = true := by simpa using highlight
  refine ⟨State.menuSlot_iff.mp menu, fun b hb slot => ?_⟩
  have buttons := (State.buttonsFault_first.1.mp passed) b hb
  exact ((State.buttonFault_none.mp buttons).2 _ slot).2 rfl

end

/-! ## The settling -/

section
variable {s : State} {cause : Cause} {addr saved slot : Nat} {bytes : List Byte} {fromBuffer : Bool}

theorem State.settlePage_passed (passed : s.pageFault bytes = none) :
    s.settlePage cause addr saved bytes fromBuffer slot =
      (s.installPage (pageAt addr bytes) cause saved fromBuffer slot, 0) := by
  simp only [State.settlePage, passed]

theorem State.settlePage_rejected {reason : PageReason} {detail : Nat} (rejected : s.pageFault bytes = some (reason, detail)) :
    s.settlePage cause addr saved bytes fromBuffer slot = (s.rejectPage cause addr saved reason detail slot, 3) := by
  simp only [State.settlePage, rejected]

/-- The Navigator with the new page open (R117). -/
def State.opened (s : State) (p : Page) (cause : Cause) (saved : Nat) : State :=
  s.onNav fun v =>
    { v with page := some p, focus := p.focusFor cause saved, stack := if cause = .command then [] else v.stack }

theorem State.installPage_eq (s : State) (p : Page) (cause : Cause) (saved : Nat) (fromBuffer : Bool) (slot : Nat) :
    s.installPage p cause saved fromBuffer slot =
      ((s.opened p cause saved).dressPage s.nav.page s.nav.focus p (p.focusFor cause saved)).raise
        (.pageOpened (p.focusFor cause saved) cause fromBuffer p.addr p.buttons.length) (some slot) := rfl

theorem State.installPage_frame (p : Page) :
    State.sameBut [.nav, .scene, .motion, .events] s (s.installPage p cause saved fromBuffer slot) := by
  rw [State.installPage_eq]
  have dressed := (State.onNav_frame s _).trans
    (State.dressPage_frame (s.opened p cause saved) s.nav.page s.nav.focus p (p.focusFor cause saved))
  exact (dressed.trans (State.raise_frame _ _ _)).mono (by simp)

theorem State.installPage_events (p : Page) : (s.installPage p cause saved fromBuffer slot).events =
    (s.raise (.pageOpened (p.focusFor cause saved) cause fromBuffer p.addr p.buttons.length) (some slot)).events := by
  have dressed := (State.onNav_frame s _).trans
    (State.dressPage_frame (s.opened p cause saved) s.nav.page s.nav.focus p (p.focusFor cause saved))
  rw [State.installPage_eq]
  simp only [State.raise, State.onEvents]
  rw [dressed .events (by simp), dressed .composer (by simp)]

theorem State.rejectPage_frame (reason : PageReason) (detail : Nat) :
    State.sameBut [.nav, .events] s (s.rejectPage cause addr saved reason detail slot) := by
  cases cause with
  | command => exact (State.raise_frame s _ _).mono (by simp)
  | enter | back => exact (State.onNav_frame s _).trans (State.raise_frame _ _ _)

theorem State.rejectPage_events (reason : PageReason) (detail : Nat) :
    (s.rejectPage cause addr saved reason detail slot).events =
      (s.raise (.pageRejected cause reason addr detail) (some slot)).events := by
  cases cause <;> rfl

end

end Sys2Proof.Machine


/-! PROOF. A page is installed or rejected (O32): the statement. -/

namespace Sys2Proof.Machine

section
variable {s : State} {old : Option Page} {f : Option Nat} {p : Page} {g : Option Nat}

/-- The palettes, the load buffer and the profiles have no part in an installation. -/
theorem State.dressPage_kept (s : State) (old : Option Page) (f : Option Nat) (p : Page) (g : Option Nat) :
    (s.dressPage old f p g).scene.palettes = s.scene.palettes ∧ (s.dressPage old f p g).scene.load = s.scene.load
      ∧ (s.dressPage old f p g).motion.profiles = s.motion.profiles := by
  obtain ⟨-, -, palettes, load⟩ := s.highlightHalted_scene p
  have faced := s.dressPage_faced old p g
  have marked := s.dressPage_marked old f p g
  obtain ⟨topPalettes, topLoad⟩ := ((s.highlightHalted p).faced s.cmdw old p g).topped_rest p.highlight
  have motion : (s.dressPage old f p g).motion = (s.highlightHalted p).motion :=
    (faced.frame.trans ((State.topped_frame _ _).trans marked.frame)) .motion (by simp)
  refine ⟨?_, ?_, ?_⟩
  · rw [marked.palettes, topPalettes, faced.palettes, palettes]
  · rw [marked.load, topLoad, faced.load, load]
  · rw [motion, (s.highlightHalted_freed p).profiles]

/-- The highlight is placed at an installation (R118). -/
theorem State.dressPage_lists {o : Obj} (here : s.obj p.highlight = some o) :
    p.highlight ∈ (s.dressPage old f p g).scene.order := by
  by_cases placed : p.highlight ∈ s.scene.order
  · rw [State.dressPage_placed placed]
    exact placed
  · exact (State.dressPage_unplaced here placed).1

/-- What an installation hides, in the words of R118. -/
theorem Page.hides_said {n : Nat} : p.hides old f n ↔
    (∃ b ∈ p.buttons, b.focusSlot = some n) ∨ (∃ q k, old = some q ∧ f = some k ∧ q.focusSlot k = some n)
      ∨ ∃ q, old = some q ∧ q.highlight = n := by
  rw [Page.hides, oldMarker_iff, Option.map_eq_some_iff]

end

/-- The installed scene and channels, from `s` to `d`, with the old page and focus, the new page and its focus (R117, R118):
the part of the statement that is about the dressing. -/
def State.dressedTo (s : State) (old : Option Page) (f : Option Nat) (p : Page) (g : Option Nat) (d : State) : Prop :=
  let untouched (k : Nat) : Prop :=
    (s.chan 0).slot ≠ some k
      ∧ ∀ o n, s.obj p.highlight = some o → o.bound = some n → (s.chan n).slot ≠ some k
  (∃ o, d.obj p.highlight = some o
      ∧ ((∀ q k, old = some q → f = some k → q.focusSlot k ≠ some p.highlight) → o.visible = g.isSome))
    ∧ (∀ n, g.bind p.focusSlot = some n → ∀ o, d.obj n = some o → o.visible = true)
    ∧ State.silenced s d [0]
    ∧ (∀ o n, s.obj p.highlight = some o → o.bound = some n →
        (s.chan 0).slot ≠ some p.highlight → State.silenced s d [n])
    ∧ p.highlight ∈ d.scene.order
    ∧ (∀ o, s.obj p.highlight = some o → ∃ o', d.obj p.highlight = some o'
        ∧ o'.unbound = { (p.jumped s.cmdw g o).unbound with visible := o'.visible }
        ∧ (untouched p.highlight → o'.bound = o.bound))
    ∧ (∀ n o, n ≠ p.highlight → s.obj n = some o →
        ∃ o', d.obj n = some o' ∧ o'.unbound = { o.unbound with visible := o'.visible }
          ∧ (untouched n → o'.bound = o.bound)
          ∧ (g.bind p.focusSlot = some n → o'.visible = true)
          ∧ (g.bind p.focusSlot ≠ some n → p.hides old f n → o'.visible = false)
          ∧ (g.bind p.focusSlot ≠ some n → ¬ p.hides old f n → o'.visible = o.visible))
    ∧ (p.highlight ∉ s.scene.order → d.scene.mark = true)
    ∧ (p.highlight ∈ s.scene.order →
        (d.scene.mark = true ↔ s.scene.mark = true
          ∨ (∃ n o, n ≠ p.highlight ∧ n ∈ s.scene.order ∧ s.obj n = some o
              ∧ (p.hides old f n ∧ o.visible = true ∨ g.bind p.focusSlot = some n))
          ∨ ∃ o, s.obj p.highlight = some o
              ∧ ((∃ b, g.bind p.button = some b ∧ (o.atButton s.cmdw b p.margin).unbound ≠ o.unbound)
                  ∨ o.visible ≠ g.isSome
                  ∨ oldMarker old f = some p.highlight ∧ g.isSome = true)))
    ∧ (∀ n, s.obj n = none → d.obj n = none)
    ∧ (p.highlight ∈ s.scene.order → d.scene.order = s.scene.order)
    ∧ (p.highlight ∉ s.scene.order → s.scene.orderLaw = true → d.scene.order = s.scene.order ++ [p.highlight])
    ∧ d.scene.palettes = s.scene.palettes ∧ d.scene.load = s.scene.load
    ∧ d.motion.profiles = s.motion.profiles
    ∧ ∀ k, k ≠ 0 → (∀ o, s.obj p.highlight = some o → o.bound ≠ some k) → d.chan k = s.chan k

theorem State.dressPage_dressedTo {s : State} {old : Option Page} {f : Option Nat} {p : Page} {g : Option Nat} {o : Obj}
    (here : s.obj p.highlight = some o) (menu : o.group = .menu)
    (clear : ∀ b ∈ p.buttons, b.focusSlot ≠ some p.highlight) :
    s.dressedTo old f p g (s.dressPage old f p g) := by
  obtain ⟨palettes, load, profiles⟩ := s.dressPage_kept old f p g
  obtain ⟨-, first, own⟩ := s.dressPage_silenced old f p g
  obtain ⟨o', after, face, shown⟩ := State.dressPage_highlight (old := old) (f := f) (g := g) here clear
  refine ⟨⟨o', after, fun apart => shown ?_⟩, fun n marker o1 stands => State.dressPage_marker marker stands, first,
    own, State.dressPage_lists here, fun o2 here2 => ?_, fun n o1 other stands => ?_,
    fun unplaced => (State.dressPage_unplaced here unplaced).2, fun placed => State.dressPage_mark placed clear,
    fun n undefined => State.dressPage_undefined undefined, fun placed => State.dressPage_placed placed,
    fun unplaced law => State.dressPage_top here menu unplaced law, palettes, load, profiles,
    fun k other apart => State.dressPage_chan other apart⟩
  · rw [ne_eq, oldMarker_iff]
    rintro ⟨q, k, page, old, slot⟩
    exact apart q k page old slot
  · cases here.symm.trans here2
    exact ⟨o', after, face, fun alone => State.dressPage_bound here after alone.1 alone.2⟩
  · obtain ⟨o2, follows, fields, marks, hides, stays⟩ := State.dressPage_other (old := old) (f := f) (g := g) other stands
    exact ⟨o2, follows, fields, fun alone => State.dressPage_bound stands follows alone.1 alone.2, marks, hides, stays⟩

/-- Settles O32: a page that passes R116 dresses the scene stage by stage, and the first check that fails rejects it. -/
theorem pageIsInstalledOrRejected : Obligations.PageIsInstalledOrRejected := by
  refine ⟨?_, ?_⟩
  · intro s cause addr saved slot bytes fromBuffer t code p untouched
    refine ⟨fun passed => ?_, fun reason detail rejected => ?_⟩
    · have settled := State.settlePage_passed (s := s) (cause := cause) (addr := addr) (saved := saved)
        (fromBuffer := fromBuffer) (slot := slot) passed
      have installed : t = s.installPage p cause saved fromBuffer slot := congrArg Prod.fst settled
      have done : code = 0 := congrArg Prod.snd settled
      clear_value t code
      subst installed done
      obtain ⟨⟨o, here, menu⟩, clear⟩ := State.pageFault_passed passed addr
      have nav := s.installPage_nav p cause saved fromBuffer slot
      have focus := congrArg Navigator.focus nav
      dsimp only at focus
      have events := State.installPage_events (s := s) (cause := cause) (saved := saved) (fromBuffer := fromBuffer)
        (slot := slot) p
      rw [← focus, pageAt_count] at events
      refine ⟨rfl, State.installPage_frame p, nav, ?_⟩
      rw [focus] at events ⊢
      have dressed : s.dressedTo s.nav.page s.nav.focus p (p.focusFor cause saved)
          (s.installPage p cause saved fromBuffer slot) :=
        State.dressPage_dressedTo (s := s.opened p cause saved) here menu clear
      generalize s.installPage p cause saved fromBuffer slot = t at *
      generalize p.focusFor cause saved = g at *
      simp only [State.dressedTo, Page.hides_said, oldMarker_iff] at dressed
      obtain ⟨face, marker, first, own, lists, highlight, others, unplaced, mark, undefined, placed, top, palettes, load,
        profiles, chans⟩ := dressed
      exact ⟨face, marker, first, own, lists, events, highlight, ⟨others, unplaced, mark⟩, undefined, placed, top,
        palettes, load, profiles, chans⟩
    · have settled := State.settlePage_rejected (s := s) (cause := cause) (addr := addr) (saved := saved)
        (fromBuffer := fromBuffer) (slot := slot) rejected
      have refused : t = s.rejectPage cause addr saved reason detail slot := congrArg Prod.fst settled
      have done : code = 3 := congrArg Prod.snd settled
      clear_value t code
      subst refused done
      exact ⟨rfl, State.rejectPage_frame reason detail, State.rejectPage_nav s cause addr saved reason detail slot,
        State.rejectPage_events reason detail⟩
  · intro s bytes p count menuObject linked marked
    have buttons : p.buttons.length = count := pageAt_count 0 bytes
    have link {b : Button} : linked b ↔ b.linked p.buttons.length := by
      rw [buttons]
      rfl
    refine ⟨State.pageFault_format, fun format => ⟨State.pageFault_count format, fun least most => ?_⟩⟩
    refine ⟨State.pageFault_profile format ⟨least, most⟩, fun profile => ?_⟩
    refine ⟨fun absent => State.pageFault_highlight format ⟨least, most⟩ profile (mt State.menuSlot_iff.mp absent),
      fun menu => ?_⟩
    rw [State.pageFault_buttons format ⟨least, most⟩ profile (State.menuSlot_iff.mpr menu)]
    refine ⟨fun sound => ?_, fun n b button before => ?_⟩
    · exact State.buttonsFault_first.1.mpr fun b hb =>
        State.buttonFault_none.mpr ⟨link.mp (sound b hb).1, (sound b hb).2⟩
    · have first (r : PageReason) (fault : s.buttonFault p b = some r) : s.buttonsFault p 0 p.buttons = some (r, n) := by
        rw [← Nat.zero_add n]
        refine State.buttonsFault_first.2 n b button (fun k c low other => ?_) r fault
        exact State.buttonFault_none.mpr ⟨link.mp (before k c low other).1, (before k c low other).2⟩
      exact ⟨fun unlinked => first _ (State.buttonFault_unlinked (mt link.mpr unlinked)),
        fun joined unmarked => first _ (State.buttonFault_unmarked (link.mp joined) unmarked)⟩

end Sys2Proof.Machine

/-!
PROOF. The commands of the Motion Engine: O22 (SET PROFILE), O25 (RETUNE), O26 (HALT), O23 and O24 (MOVE).
-/

namespace Sys2Proof.Machine

section
variable {s : State} {c : Command} {rest : List Command} {k : Kind}

/-- A row whose owner judges it, and whose checks all pass, carries out its verdict. -/
theorem State.runs (h : s.Starts c rest k) {test : Command → Bool} (row : test c = true)
    {run : Command → State → Verdict} {checks : List (Bool × RefusalReason)} {v : Verdict} {code : Fin 4} {u : State}
    (judges : run c (s.departed rest) = judged checks v) (pass : ∀ e ∈ checks, e.1 = true)
    (verdict : v = .completed code u) (pending : u.events.statusPending = true) :
    s.live (fun t => t.startHead test run) = .next (u.setCode code).closed :=
  State.startHead_completed h test run row (judges.trans ((judged_pass pass).trans verdict)) pending

/-- The same for a verdict that changes the channels or the profiles alone. -/
theorem State.runs_on_motion (h : s.Starts c rest k) {test : Command → Bool} (row : test c = true)
    {run : Command → State → Verdict} {checks : List (Bool × RefusalReason)} {v : Verdict} {code : Fin 4} {m : Motion}
    (judges : run c (s.departed rest) = judged checks v) (pass : ∀ e ∈ checks, e.1 = true)
    (verdict : v = .completed code { s.departed rest with motion := m }) :
    s.live (fun t => t.startHead test run) = .next { s.doneWith rest code with motion := m } :=
  State.runs h row judges pass verdict (State.departed_statusPending s rest)

/-- A channel put after the departure of the head. -/
theorem State.departed_putChan (s : State) (rest : List Command) (n : Nat) (ch : Channel) :
    (s.departed rest).putChan n ch = { s.departed rest with motion := s.motion.putChannel n ch } := by
  rw [← State.departed_motion s rest]
  rfl

/-! ## SET PROFILE (O22) -/

/-- Settles O22: the one check of R64 is the profile number, and the values are stored as R63 clamps them. -/
theorem setProfileStoresClampedValues : Obligations.SetProfileStoresClampedValues := by
  intro s c rest p h hp
  subst hp
  have judges : runSetProfile c (s.departed rest) = judged [(decide (c.small < 8), .range)]
      (.completed 0 { s.departed rest with
        motion := { s.motion with
          profiles := s.motion.profiles.setIfInBounds c.small c.profileValues.clamped } }) := by
    rw [← State.departed_motion s rest]
    rfl
  refine ⟨fun small => ?_, fun large => ?_⟩
  · exact State.runs_on_motion h (ofKind_of h) judges (by simpa using small) rfl
  · exact State.judged_refused h (ofKind_of h) judges (by simp [firstFailure, large])

/-! ## The checks of RETUNE and HALT (R84) -/

theorem State.tuneChecks_say (s : State) (n : Nat) : ChecksSay (s.tuneChecks n)
    [ (n < 8, .range), (s.channelReserved n = false, .reserved), ((s.chan n).phase ≠ .idle, .wrongState) ] :=
  ⟨rfl, by simp, fun _ => ⟨rfl, by simp, fun _ => ⟨rfl, by simp, fun _ => trivial⟩⟩⟩

@[simp] theorem State.departed_tuneChecks (s : State) (rest : List Command) (n : Nat) :
    (s.departed rest).tuneChecks n = s.tuneChecks n := by simp [State.tuneChecks]

theorem State.tuneChecks_pass {n : Nat} (small : n < 8) (free : s.channelReserved n = false)
    (busy : (s.chan n).phase ≠ .idle) : ∀ e ∈ s.tuneChecks n, e.1 = true :=
  (s.tuneChecks_say n).pass rfl (by simp [small, free, busy])

/-! ## RETUNE (O25) -/

/-- The phase after a new Vtop (R84). -/
theorem Channel.retuned_eq (ch : Channel) (peak : Nat) :
    ch.retuned peak =
      let p := { ch.prof with vp := max ch.prof.vs (min 4095 peak) }
      let vtop := peakSearch p ch.v ch.lead (ch.travel - ch.s)
      { ch with
        prof := p
        vtop := vtop
        phase :=
          if (ch.phase = .accel ∨ ch.phase = .cruise) ∧ vtop < ch.v then .slow
          else if (ch.phase = .cruise ∨ ch.phase = .slow) ∧ ch.v < vtop then .accel
          else ch.phase } := by
  unfold Channel.retuned Channel.remaining clampNat
  cases ch.phase <;> simp

theorem runRetune_departed (s : State) (rest : List Command) (c : Command) :
    runRetune c (s.departed rest) = judged (s.tuneChecks c.small)
      (.completed 0 { s.departed rest with
        motion := s.motion.putChannel c.small ((s.chan c.small).retuned ((c.word 1).toNat % 2 ^ 16)) }) := by
  simp only [runRetune, State.departed_tuneChecks, State.departed_chan, State.departed_putChan, bits_low]

/-- Settles O25: the checks of R84 say its conditions, and the channel is retuned. -/
theorem retuneChangesThePeak : Obligations.RetuneChangesThePeak := by
  refine ⟨?_, ?_⟩
  · intro s c rest n ch h hn small free hch busy
    subst hn hch
    refine (State.runs_on_motion h (ofKind_of h) (runRetune_departed s rest c) (State.tuneChecks_pass small free busy)
      rfl).trans ?_
    rw [Channel.retuned_eq]
  · intro s c rest n h hn
    subst hn
    exact State.refusesIn_judged h rfl (ofKind_of h) (runRetune_departed s rest c) (s.tuneChecks_say c.small)

/-! ## The end of a motion (R77, R78) -/

theorem Vector.setIfInBounds_twice {α : Type} {n : Nat} (v : Vector α n) (i : Nat) (a b : α) :
    (v.setIfInBounds i a).setIfInBounds i b = v.setIfInBounds i b := by
  ext j
  simp only [Vector.getElem_setIfInBounds]
  split <;> rfl

/-- A channel put twice. -/
theorem Motion.putChannel_twice (m : Motion) (n : Nat) (a b : Channel) :
    (m.putChannel n a).putChannel n b = m.putChannel n b := by
  simp only [Motion.putChannel, Vector.setIfInBounds_twice]

/-- A motion's end changes nothing of the Sequencer. -/
@[simp] theorem State.motionEnded_seq (n : Nat) (ch : Channel) (k : Nat) (o : Obj) (reason : EndReason) (abrupt : Bool)
    (slot : Option Nat) : (s.motionEnded n ch k o reason abrupt slot).seq = s.seq := by
  unfold State.motionEnded
  split <;> rfl

/-- The scene when the motion of an unchanged object has ended. -/
theorem Scene.unbind_mark {k : Nat} {o : Obj} (here : s.obj k = some o) :
    (s.scene.mark || (decide (s.obj k ≠ some o) && s.scene.placed k)) = s.scene.mark := by simp [here]

theorem State.motionEnded_silent {n k : Nat} {ch : Channel} {o : Obj} (here : s.obj k = some o)
    (owner : ch.owner ≠ some .command) (reason : EndReason) (abrupt : Bool) (slot : Option Nat) :
    s.motionEnded n ch k o reason abrupt slot =
      { s with
        scene := { s.scene with slots := s.scene.slots.setIfInBounds k (some { o with bound := none }) }
        motion := s.motion.putChannel n ch.ended } := by
  simp only [State.motionEnded, Scene.unbind_mark here, owner, if_false]
  rfl

theorem State.motionEnded_reports {n k : Nat} {ch : Channel} {o : Obj} (here : s.obj k = some o)
    (owner : ch.owner = some .command) (reason : EndReason) (abrupt : Bool) (slot : Option Nat) :
    s.motionEnded n ch k o reason abrupt slot =
      { s.raise (.motionDone n reason abrupt k ch.s) slot with
        scene := { s.scene with slots := s.scene.slots.setIfInBounds k (some { o with bound := none }) }
        motion := s.motion.putChannel n ch.ended } := by
  simp only [State.motionEnded, Scene.unbind_mark here, owner, if_true]
  rfl

/-- The end of the motion of a channel with context `c` on the object `o` of its slot, as its owner hears of it
(R77, R78, R144). -/
theorem State.endMotion_eq {n k : Nat} {ch : Channel} {o : Obj} (hc : s.chan n = ch) (slot : ch.slot = some k)
    (here : s.obj k = some o) (reason : EndReason) (abrupt snapped : Bool) (done shown : Option Nat) :
    s.endMotion n reason abrupt snapped done shown =
      let u := s.motionEnded n ch k o reason abrupt done
      if ch.owner = some .sequencer then u.notice n snapped shown else u := by
  subst hc
  have freed (u : State) (hs : u.scene = s.scene) (hm : u.motion = s.motion) : u.freeChannel n =
      { u with
        scene := { s.scene with slots := s.scene.slots.setIfInBounds k (some { o with bound := none }) }
        motion := s.motion.putChannel n (s.chan n).ended } := by
    have chan : u.chan n = s.chan n := congrArg (fun m : Motion => m.channel n) hm
    rw [State.freeChannel_eq u (chan ▸ slot), chan, hs, hm, Scene.bind_eq here]
  by_cases command : (s.chan n).owner = some .command
  · rw [State.endMotion_reports s _ _ _ _ _ command, freed (State.raise _ _ _) rfl rfl, slot]
    simp only [State.motionEnded_reports here command, command, Option.some.injEq, reduceCtorEq, if_false]
    rfl
  · rw [State.endMotion_silent s _ _ _ _ _ command, freed _ rfl rfl]
    simp only [State.motionEnded_silent here command]

/-! ## HALT (O26) -/

theorem runHaltEase_departed (s : State) (rest : List Command) (c : Command) :
    runHaltEase c (s.departed rest) = judged (s.tuneChecks c.smallLow)
      (.completed 0 { s.departed rest with
        motion := s.motion.putChannel c.smallLow ((s.chan c.smallLow).haltEase c.slot) }) := by
  simp only [runHaltEase, State.departed_tuneChecks, State.departed_chan, State.departed_putChan]

theorem runHaltImmediate_departed (s : State) (rest : List Command) (c : Command) :
    runHaltImmediate c (s.departed rest) = judged (s.tuneChecks c.smallLow)
      (.completed 0
        ((s.departed rest).endMotion c.smallLow .halted false false (some c.slot) (some c.slot))) := by
  simp only [runHaltImmediate, State.departed_tuneChecks]

/-- A channel that is not reserved is not awaited (R66, R144). -/
theorem State.unawaited_of_free {n : Nat} (free : s.channelReserved n = false) :
    ¬ (s.seq.state = .changing ∧ (n = 5 ∧ s.seq.await5 = true ∨ n = 6 ∧ s.seq.await6 = true)) := by
  rintro ⟨changing, ⟨rfl, -⟩ | ⟨rfl, -⟩⟩ <;> simp [State.channelReserved, changing] at free

/-- Settles O26: the checks of R84 say its conditions; EASE changes the channel, and IMMEDIATE ends its motion, of
which no SEQUENCER awaits to hear, since the channel is not reserved. -/
theorem haltEasesOrEnds : Obligations.HaltEasesOrEnds := by
  refine ⟨?_, ?_⟩
  · intro s c rest n ch h hn small free hch busy
    subst hn hch
    have pass := State.tuneChecks_pass small free busy
    refine ⟨fun eases => ?_, fun k o sharp slot here => ?_⟩
    · exact State.runs_on_motion h (by simp [ofKind_of h, eases]) (runHaltEase_departed s rest c) pass rfl
    have there : (s.departed rest).obj k = some o := (State.departed_obj s rest).trans here
    have ended : (s.departed rest).endMotion c.smallLow .halted false false (some c.slot) (some c.slot) =
        (s.departed rest).motionEnded c.smallLow (s.chan c.smallLow) k o .halted false (some c.slot) := by
      refine (State.endMotion_eq (State.departed_chan s rest) slot there ..).trans (ite_eq_right_iff.mpr fun _ => ?_)
      refine State.notice_unawaited _ _ _ ?_
      rw [State.motionEnded_seq, State.departed_seq]
      exact State.unawaited_of_free free
    have ran := State.runs h (test := fun c => ofKind .halt c && !c.haltEases) (by simp [ofKind_of h, sharp])
      (runHaltImmediate_departed s rest c) pass rfl
      ((State.endMotion_notified _ _ _ _ _ _ _).flag.trans (State.departed_statusPending s rest))
    rw [ended] at ran
    refine ⟨fun owner => ran.trans ?_, fun owner => ran.trans ?_⟩
    · rw [State.motionEnded_silent there owner, State.departed_scene, State.departed_motion]
      rfl
    · rw [State.motionEnded_reports there owner, State.departed_scene, State.departed_motion]
      rfl
  · intro s c rest n h hn
    subst hn
    by_cases eases : c.haltEases = true
    · rw [if_pos eases]
      exact State.refusesIn_judged h rfl (by simp [ofKind_of h, eases]) (runHaltEase_departed s rest c)
        (s.tuneChecks_say c.smallLow)
    · rw [if_neg eases]
      exact State.refusesIn_judged h rfl (by simp [ofKind_of h, eases]) (runHaltImmediate_departed s rest c)
        (s.tuneChecks_say c.smallLow)

/-! ## Requests (R79 to R82, R89) -/

theorem Moved.empty_iff (m : Moved) : m.empty = false ↔ m ≠ ⟨false, false, false, false, false⟩ := by
  obtain ⟨p1, p2, w, h, alpha⟩ := m
  simp only [Moved.empty, Bool.not_eq_false', Bool.or_eq_true, ne_eq, Moved.mk.injEq, not_and_or, Bool.not_eq_false,
    or_assoc]

section
variable {r : MotionRequest} {o : Obj}

/-- The checks of R79 say its conditions, `free` being that of the reservations. -/
theorem State.requestChecks_say (s : State) (r : MotionRequest) {reserved : Bool} {free : Prop}
    (hf : reserved = false ↔ free) : ChecksSay (s.requestChecks r reserved)
    [ (r.channel < 8 ∧ r.profile < 8 ∧ r.slot < 48 ∧ r.moved ≠ ⟨false, false, false, false, false⟩, .range),
      (free, .reserved),
      (s.obj r.slot ≠ none, .undefinedSlot),
      ((r.view = true → ∀ o, s.obj r.slot = some o → o.body.code = 3), .range),
      ((∀ o, s.obj r.slot = some o → o.bound = none ∨ o.bound = some r.channel), .slotBusy),
      ((s.chan r.channel).phase = .idle
        ∨ (s.chan r.channel).slot = some r.slot ∧ (s.chan r.channel).view = r.view, .channelBusy),
      ((∀ o, s.obj r.slot = some o →
          (o.withSizes r.moved (o.clampTargets r.moved r.view r.targets)).valid s.cmdw = true), .range) ] := by
  refine ⟨rfl, by simp [← Moved.empty_iff, and_assoc], fun _ => ⟨rfl, by simp [hf], fun _ =>
    ⟨rfl, Option.isSome_iff_ne_none, fun defined => ?_⟩⟩⟩
  obtain ⟨o, ho⟩ := Option.ne_none_iff_exists'.mp defined
  refine ⟨rfl, ?_, fun _ => ⟨rfl, by simp [ho], fun _ => ⟨rfl, by simp, fun _ =>
    ⟨rfl, by simp [ho], fun _ => trivial⟩⟩⟩⟩
  cases r.view <;> simp [ho]

theorem State.requestPasses_conditions (h : s.requestPasses r o) :
    ∀ e ∈ s.requestChecks r false, e.1 = true := by
  obtain ⟨channel, profile, moved, here, view, bound, busy, valid⟩ := h
  refine (s.requestChecks_say r (free := True) (by simp)).pass rfl ?_
  simp only [List.forall_mem_cons, List.not_mem_nil, false_implies, implies_true, and_true, here, Option.some.injEq,
    forall_eq']
  exact ⟨⟨channel, profile, State.obj_lt here, moved⟩, trivial, by simp, view, bound, busy, valid⟩

/-- A block's request that passes is taken (R89). -/
theorem State.request_taken (h : s.requestPasses r o) (owner : Owner) :
    s.request r owner = some (s.applyRequest r owner none) := by
  simp [State.request, firstFailure_none.mpr (State.requestPasses_conditions h)]

/-- One that fails a check is not (R89). -/
theorem State.request_refused (h : ∀ o, ¬ s.requestPasses r o) (owner : Owner) : s.request r owner = none := by
  cases failure : firstFailure (s.requestChecks r false) with
  | some reason => simp [State.request, failure]
  | none =>
    have pass := firstFailure_none.mp failure
    simp only [State.requestChecks, List.forall_mem_cons, Bool.and_eq_true, decide_eq_true_eq, Bool.not_eq_true',
      Moved.empty_iff, Option.isSome_iff_exists, List.not_mem_nil, false_implies, implies_true, and_true, true_and]
      at pass
    obtain ⟨⟨⟨⟨channel, profile⟩, -⟩, moved⟩, ⟨o, here⟩, view, bound, busy, valid⟩ := pass
    refine absurd ⟨channel, profile, moved, here, ?_, ?_, ?_, ?_⟩ (h o)
    · simpa [here, Bool.eq_false_imp_eq_true, or_iff_not_imp_left] using view
    · simpa [here] using bound
    · simpa using busy
    · simpa [here] using valid

/-- A request on an IDLE channel starts a new motion (R81). -/
theorem State.applyRequest_idle (here : s.obj r.slot = some o) (idle : (s.chan r.channel).phase = .idle) (owner : Owner)
    (slot : Option Nat) : s.applyRequest r owner slot =
      { s with
        scene := { s.scene with slots := s.scene.slots.setIfInBounds r.slot (some { o with bound := some r.channel }) }
        motion := s.motion.putChannel r.channel (newMotion o (s.motion.profile r.profile) r owner slot) } := by
  simp only [State.applyRequest, here, idle, if_true, State.onScene, Scene.bind_eq here]
  rfl

/-- A request on a channel in motion overrides it (R82). -/
theorem State.applyRequest_busy (here : s.obj r.slot = some o) (busy : (s.chan r.channel).phase ≠ .idle) (owner : Owner)
    (slot : Option Nat) : s.applyRequest r owner slot =
      { s with
        motion := s.motion.putChannel r.channel
          (overrideMotion (s.chan r.channel) o (s.motion.profile r.profile) r owner slot) } := by
  simp only [State.applyRequest, here, busy, if_false]
  rfl

/-- The rows of R82. -/
theorem overridePhase_eq (ch : Channel) (p : Profile) (v vtop travel : Nat) : overridePhase ch p v vtop travel =
    if ch.phase = .lead then .lead
    else if ch.phase = .held then .held
    else if travel < v + brakingDistance p v then .decel
    else if vtop < v then .slow
    else if v < vtop then .accel
    else .cruise := by
  unfold overridePhase
  cases ch.phase <;> simp

/-! ## MOVE (O23, O24) -/

theorem State.moveReserved_iff (s : State) (r : MotionRequest) : s.moveReserved r = false ↔
    s.channelReserved r.channel = false ∧ s.seqHeld r.slot = false
      ∧ ∀ p, s.nav.page = some p → p.highlight ≠ r.slot := by
  cases page : s.nav.page <;> simp [State.moveReserved, page, and_assoc]

theorem runMove_departed (s : State) (rest : List Command) (c : Command) :
    runMove c (s.departed rest) = judged (s.requestChecks c.motion (s.moveReserved c.motion))
      (.completed (if (s.chan c.motion.channel).phase = .idle then 0 else 1)
        ((s.departed rest).applyRequest c.motion .command (some c.slot))) := by
  simp [runMove, State.requestChecks, State.moveReserved]

/-- A MOVE that passes applies its request (R79). -/
theorem execMove_applies (h : s.Starts c rest .move) (passes : s.movePasses c.motion o)
    (bound : o.bound = none ∨ o.bound = some c.motion.channel)
    (channel : (s.chan c.motion.channel).phase = .idle
      ∨ (s.chan c.motion.channel).slot = some c.motion.slot ∧ (s.chan c.motion.channel).view = c.motion.view) :
    exec .move s = .next
      ((((s.departed rest).applyRequest c.motion .command (some c.slot)).setCode
        (if (s.chan c.motion.channel).phase = .idle then 0 else 1)).closed) := by
  obtain ⟨small, profile, moved, free, seq, page, here, view, valid⟩ := passes
  have pass := (s.requestChecks_say c.motion (s.moveReserved_iff c.motion)).pass rfl (by
    simp only [List.forall_mem_cons, List.not_mem_nil, false_implies, implies_true, and_true, here, Option.some.injEq,
      forall_eq']
    exact ⟨⟨small, profile, State.obj_lt here, moved⟩, ⟨free, seq, page⟩, by simp, view, bound, channel, valid⟩)
  exact State.runs h (ofKind_of h) (runMove_departed s rest c) pass rfl
    (congrArg EventUnit.statusPending (State.applyRequest_frame (s.departed rest) _ _ _ .events (by simp)) |>.trans
      (State.departed_statusPending s rest))

/-- The travel is the largest of the five quantities of R68. -/
theorem travelOf_largest (e0 e1 : Ends) :
    let quantities : List Nat :=
      [ (e1.p1 - e0.p1).natAbs, (e1.p2 - e0.p2).natAbs, 16 * ((e1.w : Int) - e0.w).natAbs,
        16 * ((e1.h : Int) - e0.h).natAbs, 16 * ((e1.alpha : Int) - e0.alpha).natAbs ]
    travelOf e0 e1 ∈ quantities ∧ ∀ q ∈ quantities, q ≤ travelOf e0 e1 := by
  intro quantities
  simp only [quantities, travelOf, List.mem_cons, List.not_mem_nil, or_false, forall_eq_or_imp, forall_eq]
  omega

theorem Obj.greatest_eq (o : Obj) : o.greatest = (o.maxW, o.maxH) := by
  unfold Obj.greatest Obj.maxW Obj.maxH
  cases o.body <;> rfl

theorem Obj.ends_alpha (o : Obj) (view : Bool) : (o.ends view).alpha = o.alpha := by
  unfold Obj.ends
  split <;> rfl

/-- Settles O23: a passing request on an IDLE channel is a new motion, and the checks of R79 say its conditions. -/
theorem moveStartsAMotion : Obligations.MoveStartsAMotion := by
  refine ⟨⟨?_, ?_, ?_⟩, travelOf_largest, ?_⟩
  · intro s c rest r o h hr passes idle bound
    subst hr
    have here := passes.2.2.2.2.2.2.1
    rw [execMove_applies h passes bound (.inl idle), if_pos idle,
      State.applyRequest_idle ((State.departed_obj s rest).trans here) (by rwa [State.departed_chan])]
    rfl
  · intro s r owner
    refine ⟨fun fails => State.request_refused fails owner, fun o passes idle => ?_⟩
    rw [State.request_taken passes owner, State.applyRequest_idle passes.2.2.2.1 idle]
    rfl
  · intro s c rest r h hr
    subst hr
    exact State.refusesIn_judged h rfl (ofKind_of h) (runMove_departed s rest c)
      (s.requestChecks_say c.motion (s.moveReserved_iff c.motion))
  · intro o m view t now e
    have alpha : e.alpha = if m.alpha then min 255 t.alpha else o.alpha := by
      rw [← o.ends_alpha view]
      rfl
    have standing (hv : view = false) : now = ⟨o.x, o.y, o.w, o.h, o.alpha⟩ := by
      subst hv
      rfl
    rw [o.greatest_eq]
    refine ⟨standing, ?_, rfl, rfl, alpha, fun hm => ?_, fun hm => ?_, fun hm hv => ?_, fun hm hv => ?_, fun hm hv => ?_,
      fun hm hv => ?_⟩
    · intro src st iw ih vx vy hv body
      subst hv
      simp only [now, Obj.ends, body]
    all_goals simp only [e, now, Obj.clampTargets, hm, if_false, if_true, Bool.false_eq_true]
    all_goals subst hv; rfl

/-- Settles O24: a passing request on a channel in motion overrides it. -/
theorem moveOverridesAMotion : Obligations.MoveOverridesAMotion := by
  refine ⟨?_, ?_⟩
  · intro s c rest r o ch h hr passes hch busy slot view bound
    subst hr hch
    have here := passes.2.2.2.2.2.2.1
    rw [execMove_applies h passes (.inr bound) (.inr ⟨slot, view⟩), if_neg busy,
      State.applyRequest_busy ((State.departed_obj s rest).trans here) (by rwa [State.departed_chan]),
      State.departed_chan]
    simp only [overrideMotion, overridePhase_eq]
    rfl
  · intro s r owner o ch passes hch busy
    subst hch
    rw [State.request_taken passes owner, State.applyRequest_busy passes.2.2.2.1 busy]
    simp only [overrideMotion, overridePhase_eq]
    rfl

end

end

end Sys2Proof.Machine

/-!
PROOF. O27: the braking distance as the sum of the braking speeds, and what the peak search finds (R69, R70). O28:
the step of a channel, which keeps room to brake.
-/

namespace Sys2Proof.Machine

/-! ## The braking distance (R69) -/

section
variable {p : Profile} {v m : Nat}

theorem brakingDistance_low (h : v ≤ p.vs) : brakingDistance p v = 0 := if_pos h

/-- With m + 1 braking frames, m of them above Vs, twice the formula of R69, its subtraction moved to the left. -/
theorem brakingDistance_twice (above : p.vs + p.d * m < v) (below : v ≤ p.vs + p.d * (m + 1)) :
    2 * brakingDistance p v + p.d * (m * (m + 1)) = 2 * (m * v) + 2 * p.vs := by
  have pos : 0 < p.d := Nat.pos_of_ne_zero fun h => by simp only [h, Nat.zero_mul] at above below; omega
  have high : p.vs < v := lt_of_le_of_lt (Nat.le_add_right ..) above
  have frames : (v - p.vs + p.d - 1) / p.d = m + 1 := by
    refine Nat.div_eq_of_lt_le ?_ ?_
    · rw [Nat.mul_comm, Nat.mul_succ]
      omega
    · rw [Nat.mul_comm, Nat.mul_succ, Nat.mul_succ]
      rw [Nat.mul_succ] at below
      omega
  obtain ⟨t, even⟩ := Nat.even_mul_succ_self m
  have covered : p.d * t ≤ m * v := by
    have wide : t ≤ m * m := by nlinarith
    calc p.d * t ≤ p.d * (m * m) := Nat.mul_le_mul_left _ wide
      _ = m * (p.d * m) := by ring
      _ ≤ m * v := Nat.mul_le_mul_left _ (by omega)
  have half : p.d * m * (m + 1) / 2 = p.d * t := by
    rw [Nat.mul_assoc, even, ← Nat.two_mul, ← Nat.mul_assoc, Nat.mul_right_comm, Nat.mul_comm]
    exact Nat.mul_div_cancel_left _ (by decide)
  have whole : p.d * (m * (m + 1)) = 2 * (p.d * t) := by
    rw [even]
    ring
  simp only [brakingDistance, Nat.not_le.mpr high, if_false, frames, Nat.add_sub_cancel, half, whole]
  omega

/-- Above Vs there are some braking frames, by the width of D. -/
theorem braking_frames (pos : 1 ≤ p.d) (high : p.vs < v) : ∃ m, p.vs + p.d * m < v ∧ v ≤ p.vs + p.d * (m + 1) := by
  refine ⟨(v - p.vs - 1) / p.d, ?_, ?_⟩
  · have := Nat.mul_div_le (v - p.vs - 1) p.d
    omega
  · have := Nat.lt_mul_div_succ (v - p.vs - 1) pos
    omega

/-- The formula of R69 over the integers, `n` the number of braking frames. -/
theorem brakingDistance_formula {n : Nat} (high : p.vs < v) (above : p.vs + p.d * (n - 1) < v)
    (below : v ≤ p.vs + p.d * n) :
    (brakingDistance p v : Int) = ((n : Int) - 1) * v - p.d * ((n : Int) - 1) * n / 2 + p.vs := by
  obtain ⟨m, rfl⟩ : ∃ m, n = m + 1 := Nat.exists_eq_add_one.mpr (Nat.pos_of_ne_zero fun h => by
    rw [h, Nat.mul_zero] at below
    omega)
  have twice := congrArg (Nat.cast : Nat → Int) (brakingDistance_twice above below)
  push_cast at twice ⊢
  obtain ⟨t, even⟩ := Nat.even_mul_succ_self m
  have even := congrArg (Nat.cast : Nat → Int) even
  push_cast at even
  have half : (p.d : Int) * (m + 1 - 1) * (m + 1) / 2 = p.d * t := by
    rw [add_sub_cancel_right, mul_assoc, even, ← two_mul, mul_left_comm]
    exact Int.mul_ediv_cancel_left _ (by decide)
  rw [half, add_sub_cancel_right]
  rw [even] at twice
  linarith

/-- One braking frame: its speed, and the braking distance from there (R69, R73). -/
theorem brakingDistance_step (pos : 1 ≤ p.d) (high : p.vs < v) :
    brakingDistance p v = max (v - p.d) p.vs + (if v - p.d ≤ p.vs then 0 else brakingDistance p (v - p.d)) := by
  obtain ⟨m, above, below⟩ := braking_frames pos high
  have here := brakingDistance_twice above below
  cases m with
  | zero =>
    rw [Nat.mul_one] at below
    rw [if_pos (by omega)]
    omega
  | succ m =>
    simp only [Nat.mul_add, Nat.mul_one] at above below
    have next := brakingDistance_twice (p := p) (v := v - p.d) (m := m) (by omega) (by rw [Nat.mul_succ]; omega)
    rw [if_neg (by omega), Nat.max_eq_left (by omega)]
    have long : p.d ≤ v := by omega
    zify [long] at here next ⊢
    linarith

theorem Channel.fits_iff (c : Channel) (v : Nat) :
    c.fits v = true ↔ v + brakingDistance c.prof v ≤ c.travel - c.s := decide_eq_true_iff

end

/-! ## The peak search (R70) -/

/-- Candidate k of the peak search from v0. -/
def Profile.candidate (p : Profile) (v0 k : Nat) : Nat := min (v0 + k * p.a) p.vp

/-- The distance covered before cruising at candidate k. -/
def Profile.reach (p : Profile) (v0 lead k : Nat) : Nat :=
  lead * v0 + ((List.range k).map fun i => p.candidate v0 (i + 1)).sum

/-- Candidate k can be reached, cruised at for one frame and braked from. -/
def Profile.Reachable (p : Profile) (v0 lead remaining k : Nat) : Prop :=
  p.reach v0 lead k + p.candidate v0 k + brakingDistance p (p.candidate v0 k) ≤ remaining

/-- `best` is the largest candidate found among those that `seen` allows, v0 when there is none. -/
structure Profile.Best (p : Profile) (v0 lead remaining : Nat) (seen : Nat → Prop) (best : Nat) : Prop where
  largest : ∀ k, seen k → p.Reachable v0 lead remaining k → p.candidate v0 k ≤ best
  found : (∃ k, seen k ∧ p.Reachable v0 lead remaining k ∧ best = p.candidate v0 k)
    ∨ ((∀ k, seen k → ¬ p.Reachable v0 lead remaining k) ∧ best = v0)

section
variable {p : Profile} {v0 lead remaining k best : Nat}

theorem Profile.reach_succ (p : Profile) (v0 lead k : Nat) :
    p.reach v0 lead (k + 1) = p.reach v0 lead k + p.candidate v0 (k + 1) := by
  simp [Profile.reach, List.range_succ, Nat.add_assoc]

theorem Profile.reach_mono {j : Nat} (h : k ≤ j) : p.reach v0 lead k ≤ p.reach v0 lead j :=
  monotone_nat_of_le_succ (fun k => p.reach_succ v0 lead k ▸ Nat.le_add_right ..) h

theorem Profile.candidate_mono {j : Nat} (h : k ≤ j) : p.candidate v0 k ≤ p.candidate v0 j :=
  min_le_min_right _ (Nat.add_le_add_left (Nat.mul_le_mul_right _ h) _)

/-- Below Vp the next candidate is one acceleration further. -/
theorem Profile.candidate_succ (h : p.candidate v0 k < p.vp) :
    min (p.candidate v0 k + p.a) p.vp = p.candidate v0 (k + 1) := by
  simp only [Profile.candidate, Nat.add_mul, Nat.one_mul] at h ⊢
  omega

/-- One more candidate is tried. -/
theorem Profile.Best.next (h : p.Best v0 lead remaining (· < k) best) :
    p.Best v0 lead remaining (· ≤ k)
      (if p.reach v0 lead k + p.candidate v0 k + brakingDistance p (p.candidate v0 k) ≤ remaining
        then p.candidate v0 k else best) := by
  split
  · rename_i fits
    exact ⟨fun j hj _ => Profile.candidate_mono hj, .inl ⟨k, le_rfl, fits, rfl⟩⟩
  · rename_i fails
    have other {j : Nat} (hj : j ≤ k) (r : p.Reachable v0 lead remaining j) : j < k :=
      lt_of_le_of_ne hj fun e => fails (e ▸ r)
    refine ⟨fun j hj r => h.largest j (other hj r) r, h.found.imp ?_ ?_⟩
    · rintro ⟨j, hj, found⟩
      exact ⟨j, hj.le, found⟩
    · rintro ⟨none, e⟩
      exact ⟨fun j hj r => none j (other hj r) r, e⟩

/-- Once a candidate is Vp, the later ones are the same speed from further away. -/
theorem Profile.Best.all (h : p.Best v0 lead remaining (· ≤ k) best) (top : p.vp ≤ p.candidate v0 k) :
    p.Best v0 lead remaining (fun _ => True) best := by
  have same {j : Nat} (hj : k ≤ j) : p.candidate v0 j = p.candidate v0 k :=
    le_antisymm ((min_le_right _ _).trans top) (Profile.candidate_mono hj)
  have nearer {j : Nat} (hj : k ≤ j) (r : p.Reachable v0 lead remaining j) : p.Reachable v0 lead remaining k := by
    have := Profile.reach_mono (p := p) (v0 := v0) (lead := lead) hj
    simp only [Profile.Reachable, same hj] at r ⊢
    omega
  refine ⟨fun j _ r => ?_, h.found.imp ?_ ?_⟩
  · rcases Nat.le_total j k with hj | hj
    · exact h.largest j hj r
    · exact same hj ▸ h.largest k le_rfl (nearer hj r)
  · rintro ⟨j, -, found⟩
    exact ⟨j, trivial, found⟩
  · rintro ⟨none, e⟩
    refine ⟨fun j _ r => ?_, e⟩
    rcases Nat.le_total j k with hj | hj
    · exact none j hj r
    · exact none k le_rfl (nearer hj r)

/-- The search from candidate k on, with fuel for all that are left. -/
theorem peakFrom_best (pos : 1 ≤ p.a) (low : v0 < p.vp) (fuel : Nat) :
    ∀ {k best : Nat}, p.vp - v0 < fuel + k → k ≤ p.vp - v0 → p.Best v0 lead remaining (· < k) best →
      p.Best v0 lead remaining (fun _ => True)
        (peakFrom p remaining fuel (p.candidate v0 k) (p.reach v0 lead k) best) := by
  induction fuel with
  | zero => omega
  | succ fuel ih =>
    intro k best enough inside h
    rw [peakFrom]
    split
    · exact h.next.all (by assumption)
    · rename_i rising
      rw [Profile.candidate_succ (Nat.not_le.mp rising)]
      dsimp only
      rw [← Profile.reach_succ]
      have step : k ≤ k * p.a := Nat.le_mul_of_pos_right k pos
      have short : k + 1 ≤ p.vp - v0 := by
        simp only [Profile.candidate] at rising
        omega
      exact ih (by omega) short
        ⟨fun j hj => h.next.largest j (Nat.lt_succ_iff.mp hj), by simpa only [Nat.lt_succ_iff] using h.next.found⟩

/-- The peak search finds the largest candidate that can be reached, and v0 when none can (R70). -/
theorem peakSearch_best (pos : 1 ≤ p.a) (auto : p.auto = true) (low : v0 < p.vp) :
    p.Best v0 lead remaining (fun _ => True) (peakSearch p v0 lead remaining) := by
  have start : p.candidate v0 0 = v0 ∧ p.reach v0 lead 0 = lead * v0 := by
    simp [Profile.candidate, Profile.reach, low.le]
  have search := peakFrom_best (lead := lead) (remaining := remaining) (k := 0) (best := v0) pos low
    (p.vp - v0 + 1) (by omega) (by omega)
    ⟨fun _ h => absurd h (Nat.not_lt_zero _), .inr ⟨fun _ h => absurd h (Nat.not_lt_zero _), rfl⟩⟩
  rw [start.1, start.2] at search
  simpa [peakSearch, auto, Nat.not_le.mpr low] using search

theorem peakSearch_vp (h : p.auto = false ∨ p.vp ≤ v0) : peakSearch p v0 lead remaining = p.vp := by
  rcases h with h | h <;> simp [peakSearch, h]

end

/-- Settles O27: the formula of R69 and its sum, and the search of R70 by the candidates tried so far. -/
theorem brakingDistanceAndPeakSearch : Obligations.BrakingDistanceAndPeakSearch := by
  refine ⟨fun p pos => ⟨brakingDistance_low le_rfl, fun v n => brakingDistance_formula,
    fun v => brakingDistance_step pos, fun c v hp => hp ▸ c.fits_iff v⟩, ?_⟩
  intro p v0 lead remaining pos
  refine ⟨peakSearch_vp, fun auto low => ?_⟩
  have best := peakSearch_best (lead := lead) (remaining := remaining) pos auto low
  refine ⟨fun k => best.largest k trivial, best.found.imp ?_ ?_⟩
  · rintro ⟨k, -, found⟩
    exact ⟨k, found⟩
  · rintro ⟨none, e⟩
    exact ⟨fun k => none k trivial, e⟩

/-! ## The step of a channel (O28) -/

section
variable {c r : Channel}

/-- The DECEL row of R73. -/
theorem Channel.decelStep_eq (c : Channel) : c.decelStep =
    .move { c with
      v := max (c.v - c.prof.d) c.prof.vs
      phase := if max (c.v - c.prof.d) c.prof.vs = c.prof.vs then .creep else .decel } := rfl

theorem Channel.tick_accel (h : c.phase = .accel) : c.tick =
    if c.fits (min (c.v + c.prof.a) c.vtop) then
      .move { c with
        v := min (c.v + c.prof.a) c.vtop
        phase := if min (c.v + c.prof.a) c.vtop = c.vtop then .cruise else .accel }
    else c.decelStep := by
  simp only [Channel.tick, h]

theorem Channel.tick_cruise (h : c.phase = .cruise) : c.tick = if c.fits c.v then .move c else c.decelStep := by
  simp only [Channel.tick, h]

theorem Channel.tick_slow (h : c.phase = .slow) : c.tick =
    if c.fits (max (c.v - c.prof.d) c.vtop) then
      .move { c with
        v := max (c.v - c.prof.d) c.vtop
        phase := if max (c.v - c.prof.d) c.vtop = c.vtop then .cruise else .slow }
    else c.decelStep := by
  simp only [Channel.tick, h]

theorem Channel.tick_easing_moves (h : c.phase = .easing ∨ c.phase = .stopping) (fast : c.v ≠ c.prof.vs) :
    c.tick = .move { c with v := max (c.v - c.prof.d) c.prof.vs } := by
  rcases h with h | h <;> simp only [Channel.tick, h, fast, if_false]

/-- The speeds of a step: Vs, the next braking speed, or one that passes the braking test and is no lower than the
speed or Vtop (R73). -/
theorem Channel.tick_speed (h : c.tick = .move r) : r.v = c.prof.vs ∨ r.v = max (c.v - c.prof.d) c.prof.vs
    ∨ (c.fits r.v = true ∧ min c.v c.vtop ≤ r.v) := by
  have braked (h : c.decelStep = .move r) : r.v = max (c.v - c.prof.d) c.prof.vs := by
    rw [Channel.decelStep_eq, TickAct.move.injEq] at h
    rw [← h]
  have tested {v : Nat} {d : Channel} (h : (if c.fits v then TickAct.move d else c.decelStep) = .move r)
      (speed : d.v = v) (low : min c.v c.vtop ≤ v) :
      r.v = max (c.v - c.prof.d) c.prof.vs ∨ (c.fits r.v = true ∧ min c.v c.vtop ≤ r.v) := by
    split at h
    · rename_i fits
      rw [TickAct.move.injEq] at h
      subst h speed
      exact .inr ⟨fits, low⟩
    · exact .inl (braked h)
  cases phase : c.phase with
  | idle | held => simp [Channel.tick, phase] at h
  | lead | creep =>
    simp only [Channel.tick, phase, TickAct.move.injEq] at h
    exact .inl (h ▸ rfl)
  | accel =>
    rw [Channel.tick_accel phase] at h
    exact .inr (tested h rfl (by omega))
  | cruise => exact .inr (tested (Channel.tick_cruise phase ▸ h) rfl (min_le_left ..))
  | slow =>
    rw [Channel.tick_slow phase] at h
    exact .inr (tested h rfl (by omega))
  | decel => exact .inr (.inl (braked (by simpa only [Channel.tick, phase] using h)))
  | easing =>
    by_cases fast : c.v = c.prof.vs
    · simp only [Channel.tick, phase, fast, if_true] at h
      split at h <;> cases h
    · rw [Channel.tick_easing_moves (.inl phase) fast, TickAct.move.injEq] at h
      exact .inr (.inl (h ▸ rfl))
  | stopping =>
    by_cases fast : c.v = c.prof.vs
    · simp [Channel.tick, phase, fast] at h
    · rw [Channel.tick_easing_moves (.inr phase) fast, TickAct.move.injEq] at h
      exact .inr (.inl (h ▸ rfl))

/-- The next braking speed is Vs, or leaves room to brake where the speed before it did (R69). -/
theorem Channel.braking_speed (pos : 1 ≤ c.prof.d) (low : c.prof.vs ≤ c.v)
    (fits : brakingDistance c.prof c.v ≤ c.travel - c.s) :
    max (c.v - c.prof.d) c.prof.vs = c.prof.vs ∨ c.fits (max (c.v - c.prof.d) c.prof.vs) = true := by
  by_cases last : c.v - c.prof.d ≤ c.prof.vs
  · exact .inl (Nat.max_eq_right last)
  · rw [brakingDistance_step pos (by omega), if_neg last] at fits
    rw [Nat.max_eq_left (by omega)] at fits ⊢
    exact .inr (c.fits_iff _ |>.mpr fits)

/-- A speed that is Vs or passes the braking test arrives without being abrupt, and leaves room to brake. -/
theorem Channel.safe_step {v : Nat} (h : v = c.prof.vs ∨ c.fits v = true) :
    abruptEnd v (c.travel - c.s) c.prof.vs = false
      ∧ brakingDistance c.prof v ≤ c.travel - (c.s + min v (c.travel - c.s)) := by
  rw [Channel.fits_iff] at h
  rcases h with rfl | fits
  · simp [abruptEnd, brakingDistance_low]
  · simp only [abruptEnd, Bool.and_eq_false_iff, decide_eq_false_iff_not]
    omega

/-- Settles O28: the rows of R73, and the speeds of a step, each of which keeps room to brake. -/
theorem brakeableChannelNeverArrivesAbruptly : Obligations.BrakeableChannelNeverArrivesAbruptly := by
  refine ⟨?_, ?_⟩
  · intro c r pos low top fits h
    have same := Channel.tick_same c r h
    have prof : r.prof = c.prof := by rw [same]
    have vtop : r.vtop = c.vtop := by rw [same]
    have speed : c.prof.vs ≤ r.v ∧ (r.v = c.prof.vs ∨ c.fits r.v = true) := by
      rcases Channel.tick_speed h with e | e | ⟨fits, least⟩
      · exact ⟨e.ge, .inl e⟩
      · exact ⟨e ▸ le_max_right .., e ▸ Channel.braking_speed pos low fits⟩
      · exact ⟨(le_min low top).trans least, .inr fits⟩
    obtain ⟨gentle, room⟩ := Channel.safe_step speed.2
    exact ⟨gentle, prof, by rw [same], by rw [same], speed.1, vtop ▸ top, room⟩
  · intro c vs fits rising falling slower braked found
    have test (v : Nat) : c.fits v = true ↔ fits v := c.fits_iff v
    refine ⟨?_, ?_, fun h => ⟨fun f => ?_, fun f => ?_⟩, fun h => ⟨fun f => ?_, fun f => ?_⟩,
      fun h => ⟨fun f => ?_, fun f => ?_⟩, ?_, ?_, Channel.tick_easing_moves, ?_, ?_, ?_⟩
    · rintro (h | h) <;> simp only [Channel.tick, h]
    · intro h
      simp only [Channel.tick, h, risePhase]
      rfl
    · rw [Channel.tick_accel h, if_pos ((test _).mpr f)]
    · rw [Channel.tick_accel h, if_neg (mt (test _).mp f)]
      rfl
    · rw [Channel.tick_cruise h, if_pos ((test _).mpr f)]
    · rw [Channel.tick_cruise h, if_neg (mt (test _).mp f)]
      rfl
    · rw [Channel.tick_slow h, if_pos ((test _).mpr f)]
    · rw [Channel.tick_slow h, if_neg (mt (test _).mp f)]
      rfl
    · intro h
      simp only [Channel.tick, h]
      rfl
    · intro h
      simp only [Channel.tick, h]
      rfl
    · intro h still
      simp only [Channel.tick, h]
      exact if_pos still
    · intro h still kept
      simp only [Channel.tick, h, kept]
      exact if_pos still
    · intro h still released
      simp only [Channel.tick, h, released]
      refine (if_pos still).trans ?_
      rw [if_pos trivial, Channel.releaseHeld, still]
      rfl

end

end Sys2Proof.Machine

/-!
PROOF. The commands of the Slide Sequencer: O45 (SLIDE PAUSE and SLIDE RESUME), O41 (SLIDE START), O42 (SLIDE STOP)
and O43 (SLIDE STEP).
-/

namespace Sys2Proof.Machine

section
variable {s t u : State} {c : Command} {rest : List Command}

/-! ## What the commands of the show share -/

/-- A frame that leaves the Event Unit leaves its status-write pending flag. -/
theorem State.pending_of_frame {parts : List Part} (h : State.sameBut parts (s.departed rest) t)
    (events : .events ∉ parts) : t.events.statusPending = true :=
  (congrArg EventUnit.statusPending (h .events events)).trans (State.departed_statusPending s rest)

theorem State.onSlideObject_iff (s : State) (ch : Channel) :
    s.onSlideObject ch = true ↔ ∃ k o, ch.slot = some k ∧ s.obj k = some o ∧ o.group = .slide := by
  have group (k : Nat) : s.scene.inGroup .slide k = true ↔ ∃ o, s.obj k = some o ∧ o.group = .slide := by
    unfold Scene.inGroup State.obj
    cases s.scene.obj k <;> simp
  cases slot : ch.slot <;> simp [State.onSlideObject, slot, group]

/-- The checks on the states that R146, R149 and R150 make. -/
theorem State.showChecks_say (s : State) : ChecksSay s.showChecks
    [ (s.takeover.state ≠ .menuOver, .suspended), (s.seq.state ≠ .stopped, .wrongState) ] :=
  ⟨rfl, by simp, fun _ => ⟨rfl, by simp, fun _ => trivial⟩⟩

/-- The same after a check of an operand. -/
theorem State.operandChecks_say (s : State) {α : Type} (operand : Option α) :
    ChecksSay ((operand.isSome, .range) :: s.showChecks)
      [ (operand ≠ none, .range), (s.takeover.state ≠ .menuOver, .suspended), (s.seq.state ≠ .stopped, .wrongState) ] :=
  ⟨rfl, Option.isSome_iff_ne_none, fun _ => s.showChecks_say⟩

@[simp] theorem State.departed_showChecks (s : State) (rest : List Command) :
    (s.departed rest).showChecks = s.showChecks := by simp [State.showChecks]

theorem State.showChecks_pass (normal : s.takeover.state = .normal) (running : s.seq.state ≠ .stopped) :
    ∀ e ∈ s.showChecks, e.1 = true := s.showChecks_say.pass rfl (by simp [normal, running])

theorem State.operandChecks_pass {α : Type} {operand : Option α} {a : α} (given : operand = some a)
    (normal : s.takeover.state = .normal) (running : s.seq.state ≠ .stopped) :
    ∀ e ∈ (operand.isSome, .range) :: s.showChecks, e.1 = true :=
  (s.operandChecks_say operand).pass rfl (by simp [given, normal, running])

/-! ## SLIDE PAUSE (O45) -/

theorem Channel.holdWith_stopping {ch : Channel} (h : ch.phase = .stopping) (mode : HoldMode) :
    ch.holdWith mode = ch := by
  simp only [Channel.holdWith, h]

theorem Channel.holdWith_held {ch : Channel} (h : ch.phase = .held) (mode : HoldMode) :
    ch.holdWith mode = { ch with hold := some mode, release := false } := by
  simp only [Channel.holdWith, h]

/-- FREEZE holds a channel in motion at once (R86). -/
theorem Channel.holdWith_freeze {ch : Channel} (busy : ch.phase ≠ .idle) (loose : ch.phase ≠ .held)
    (going : ch.phase ≠ .stopping) :
    ch.holdWith .freeze = { ch with phase := .held, hold := some .freeze, release := false } := by
  unfold Channel.holdWith
  cases phase : ch.phase <;> simp_all

/-- EASE and FIRM send a channel in motion to EASING (R86). -/
theorem Channel.holdWith_eases {ch : Channel} (busy : ch.phase ≠ .idle) (loose : ch.phase ≠ .held)
    (going : ch.phase ≠ .stopping) {mode : HoldMode} (eases : mode ≠ .freeze) :
    ch.holdWith mode =
      { ch with
        phase := .easing, lead := if ch.phase = .easing then ch.lead else 0, hold := some mode, release := false } := by
  unfold Channel.holdWith
  cases phase : ch.phase <;> cases mode <;> simp_all

/-- The Sequencer with a pause of a mode begun or ended. -/
def State.withPause (s : State) (paused : Bool) (mode : Option HoldMode) : State :=
  s.onSeq fun q => { q with paused := paused, pauseMode := mode }

theorem runSlidePause_departed (s : State) (rest : List Command) (c : Command) :
    runSlidePause c (s.departed rest) = judged ((c.holdMode.isSome, .range) :: s.showChecks)
      (.completed 0 (((s.departed rest).withPause true (some (c.holdMode.getD .freeze))).holdAll
        (c.holdMode.getD .freeze))) := by
  simp only [runSlidePause, State.departed_showChecks]
  rfl

/-- What SLIDE PAUSE makes of a channel, whatever the state that the hold starts from has in its other parts. -/
theorem State.holdAll_holds (mode : HoldMode) (n : Fin 8) :
    let ch := s.chan n
    let ofShow : Prop :=
      ch.phase ≠ .idle ∧ (ch.owner = some .sequencer
        ∨ ∃ k o, ch.slot = some k ∧ s.obj k = some o ∧ o.group = .slide)
    (¬ ofShow ∨ ch.phase = .stopping → (s.holdAll mode).chan n = ch)
    ∧ (ofShow → ch.phase = .held → (s.holdAll mode).chan n = { ch with hold := some mode, release := false })
    ∧ (ofShow → ch.phase ≠ .held → ch.phase ≠ .stopping → mode = .freeze →
        (s.holdAll mode).chan n = { ch with phase := .held, hold := some .freeze, release := false })
    ∧ (ofShow → ch.phase ≠ .held → ch.phase ≠ .stopping → mode ≠ .freeze →
        (s.holdAll mode).chan n =
          { ch with
            phase := .easing, lead := if ch.phase = .easing then ch.lead else 0
            hold := some mode, release := false }) := by
  intro ch ofShow
  have held := State.holdAll_chan s mode n n.isLt
  have test : ((s.chan n).owner = some .sequencer ∨ s.onSlideObject (s.chan n) = true) ↔ _ :=
    or_congr_right (s.onSlideObject_iff ch)
  have holds (h : ofShow) : (s.holdAll mode).chan n = ch.holdWith mode := held.trans (if_pos ⟨h.1, test.mpr h.2⟩)
  refine ⟨?_, fun h phase => ?_, fun h loose going freeze => ?_, fun h loose going eases => ?_⟩
  · by_cases h : ofShow
    · exact fun still => (holds h).trans (Channel.holdWith_stopping (still.resolve_left (not_not.mpr h)) mode)
    · exact fun _ => held.trans (if_neg fun k => h ⟨k.1, test.mp k.2⟩)
  · rw [holds h, Channel.holdWith_held phase]
  · subst freeze
    rw [holds h, Channel.holdWith_freeze h.1 loose going]
  · rw [holds h, Channel.holdWith_eases h.1 loose going eases]

/-! ## SLIDE RESUME (O45) -/

/-- What SLIDE RESUME leaves before the pan that is owed (R87, R150). -/
def State.unpaused (s : State) : State := (s.withPause false none).releaseAll

theorem State.unpaused_frame (s : State) : State.sameBut [.seq, .motion] s s.unpaused :=
  ((State.onSeq_frame s _).trans (State.releaseAll_frame _).1).mono (by simp)

theorem State.unpaused_seq (s : State) : s.unpaused.seq = { s.seq with paused := false, pauseMode := none } :=
  (State.releaseAll_frame (s.withPause false none)).1 .seq (by simp)

theorem State.unpaused_profiles (s : State) : s.unpaused.motion.profiles = s.motion.profiles := by
  rw [State.unpaused, (State.releaseAll_frame _).2]
  rfl

theorem State.unpaused_chan (s : State) (n : Fin 8) :
    s.unpaused.chan n = if (s.chan n).hold ≠ none then (s.chan n).released else s.chan n := by
  rw [State.unpaused, State.releaseAll_chan _ n n.isLt]
  rfl

/-- With no pan owed the release is all that SLIDE RESUME does. -/
theorem State.resumeShow_free (h : s.seq.panOwed = false) : s.resumeShow = s.unpaused := by
  simp only [State.resumeShow, h, Bool.and_false, Bool.false_eq_true, if_false]
  rfl

/-- The pan that is owed is requested for the slide on show (R150). -/
theorem State.resumeShow_owed {o : OnShow} {bank : Bank} (owed : s.seq.panOwed = true)
    (state : s.seq.state ∈ [.showing, .loading, .waiting]) (onShow : s.seq.onShow = some o)
    (shown : s.seq.shown = some bank) :
    s.resumeShow =
      let w : State := { s.unpaused with seq := { s.unpaused.seq with panOwed := false } }
      (w.request
        ⟨7, o.panProfile, s.seq.setup.slot bank, ⟨true, true, false, false, false⟩, true,
          ⟨16 * o.panX, 16 * o.panY, 0, 0, 0⟩⟩ .sequencer).getD w := by
  have occasion : (s.seq.shown.isSome
      && (s.seq.state == .showing || s.seq.state == .loading || s.seq.state == .waiting)) = true := by
    simpa [shown, or_assoc] using state
  have resumed : s.resumeShow = (s.unpaused.onSeq fun q => { q with panOwed := false }).panRequest := by
    simp only [State.resumeShow, occasion, owed, Bool.and_self, if_true]
    rfl
  have slot : (s.unpaused.onSeq fun q => { q with panOwed := false }).seq.shownSlot = some (s.seq.setup.slot bank) := by
    rw [State.onSeq_seq, State.unpaused_seq]
    simp only [Sequencer.shownSlot, shown]
    rfl
  have pan : (s.unpaused.onSeq fun q => { q with panOwed := false }).seq.onShow = some o := by
    rw [State.onSeq_seq, State.unpaused_seq]
    exact onShow
  rw [resumed, State.panRequest]
  simp only [slot, pan]
  rfl

theorem State.resumeShow_frame (s : State) : State.sameBut [.seq, .scene, .motion] s s.resumeShow := by
  unfold State.resumeShow
  have before : State.sameBut [.seq, .scene, .motion] s s.unpaused := s.unpaused_frame.mono (by simp)
  dsimp only
  split
  · exact ((before.trans (State.onSeq_frame _ _)).trans (State.panRequest_frame _)).mono (by simp)
  · exact before

theorem runSlideResume_departed (s : State) (rest : List Command) (c : Command) :
    runSlideResume c (s.departed rest) = judged s.showChecks
      (.completed 0 (if s.seq.paused then (s.departed rest).resumeShow else s.departed rest)) := by
  simp only [runSlideResume, State.departed_showChecks, State.departed_seq]

/-- The state that SLIDE PAUSE leaves before its code (R149). -/
theorem execSlidePause_holds (h : s.Starts c rest .slidePause) (normal : s.takeover.state = .normal) {mode : HoldMode}
    (given : c.holdMode = some mode) (running : s.seq.state ≠ .stopped) :
    ∃ u, exec .slidePause s = .next (u.setCode 0).closed ∧ State.sameBut [.seq, .motion] (s.departed rest) u
      ∧ u.seq = { s.seq with paused := true, pauseMode := some mode }
      ∧ u.motion.profiles = s.motion.profiles
      ∧ ∀ n, u.chan n = (((s.departed rest).withPause true (some mode)).holdAll mode).chan n := by
  have ends := State.holdAll_frame ((s.departed rest).withPause true (some mode)) mode
  have frame : State.sameBut [.seq, .motion] (s.departed rest)
      (((s.departed rest).withPause true (some mode)).holdAll mode) :=
    ((State.onSeq_frame _ _).trans ends.1).mono (by simp)
  have judges := (runSlidePause_departed s rest c).trans (judged_pass (State.operandChecks_pass given normal running))
  rw [given, Option.getD_some] at judges
  refine ⟨_, State.startHead_completed h _ _ (ofKind_of h) judges (State.pending_of_frame frame (by simp)), frame,
    (ends.1 .seq (by simp)).trans ?_, ends.2.trans ?_, fun _ => rfl⟩
  · simp [State.withPause]
  · simp [State.withPause]

/-- Settles O45: the hold and the release channel by channel, and the pan that is owed. -/
theorem pauseHoldsAndResumeReleases : Obligations.PauseHoldsAndResumeReleases := by
  refine ⟨⟨?_, ?_⟩, ?_, ?_⟩
  · intro s c rest mode h normal given running
    obtain ⟨u, ran, frame, seq, profiles, chans⟩ := execSlidePause_holds h normal given running
    refine ⟨_, ran, State.sameBut_closed frame (by simp) (by simp) 0, seq, profiles, fun n => ?_⟩
    have holds := State.holdAll_holds (s := (s.departed rest).withPause true (some mode)) mode n
    rw [← chans n] at holds
    simp only [State.withPause, State.chan, State.obj, State.onSeq_motion, State.onSeq_scene, State.departed_motion,
      State.departed_scene] at holds
    exact holds
  · intro s c rest h normal running
    have ran := State.startHead_completed h _ _ (ofKind_of h)
      ((runSlideResume_departed s rest c).trans (judged_pass (State.showChecks_pass normal running)))
    refine ⟨fun loose => ?_, fun paused => ?_⟩
    · rw [loose] at ran
      exact ran (State.departed_statusPending s rest)
    rw [if_pos paused] at ran
    have ran := ran (State.pending_of_frame (State.resumeShow_frame _) (by simp))
    refine ⟨(s.departed rest).unpaused, State.unpaused_frame _, ?_, ?_, fun n => ?_, fun free => ?_,
      fun o bank owed state onShow shown => ?_⟩
    · rw [State.unpaused_seq, State.departed_seq]
    · rw [State.unpaused_profiles, State.departed_motion]
    · rw [State.unpaused_chan _ n, State.departed_chan]
      exact Channel.released_takes (s.chan n)
    · rwa [State.resumeShow_free (by rwa [State.departed_seq])] at ran
    · rw [State.resumeShow_owed (o := o) (bank := bank) (by rwa [State.departed_seq]) (by rwa [State.departed_seq])
        (by rwa [State.departed_seq]) (by rwa [State.departed_seq]), State.departed_seq] at ran
      exact ran
  · intro s c rest h
    exact State.refusesIn_judged h rfl (ofKind_of h) (runSlidePause_departed s rest c) (s.operandChecks_say c.holdMode)
  · intro s c rest h
    exact State.refusesIn_judged h rfl (ofKind_of h) (runSlideResume_departed s rest c) s.showChecks_say

/-! ## What the ends of the channels of the show leave (R90) -/

/-- Channels 5, 6 and 7 end silently. -/
def State.showHalted (s : State) : State := [5, 6, 7].foldl State.silentHalt s

/-- A slot that no ended channel has keeps its whole record. -/
theorem State.Freed.whole {k : Nat} (h : State.Freed s t) (hc : ∀ n, (s.chan n).slot = some k → t.chan n = s.chan n) :
    t.obj k = s.obj k := h.undefined.whole (by simp) hc

theorem State.showHalted_eq (s : State) : s.showHalted = ((s.silentHalt 5).silentHalt 6).silentHalt 7 := rfl

theorem State.showHalted_freed (s : State) : State.Freed s s.showHalted := State.silentHalts_freed _ s

theorem State.showHalted_silenced (s : State) : State.silenced s s.showHalted [5, 6, 7] :=
  s.showHalted_freed.loosed.silenced (State.silentHalts_idle [5, 6, 7] s)

theorem State.showHalted_other (s : State) {n : Nat} (h : n ∉ [5, 6, 7]) : s.showHalted.chan n = s.chan n :=
  State.silentHalts_other [5, 6, 7] s n h

theorem State.showHalted_whole (s : State) {k : Nat} (h : ∀ n ∈ [5, 6, 7], (s.chan n).slot ≠ some k) :
    s.showHalted.obj k = s.obj k :=
  s.showHalted_freed.whole fun n slot => s.showHalted_other fun hn => h n hn slot

/-- What has ended silently after the departure of the head has so from before it. -/
theorem State.silenced_departed {l : List Nat} : State.silenced (s.departed rest) t l ↔ State.silenced s t l := by
  simp only [State.silenced, State.departed_chan]

/-! ## SLIDE START (O41) -/

@[simp] theorem State.loadBegin_statusPending (s : State) (j : Nat) (slot : Option Nat) :
    (s.loadBegin j slot).events.statusPending = s.events.statusPending := by
  cases ready : s.seq.readyAt j with
  | false =>
    rw [((State.loadBegin_begun s j slot).2.2.1 ready).2.2]
    split <;> simp
  | true => rw [State.loadBegin_events j slot ready]

/-- The checks of R137. -/
def Command.startChecks (c : Command) (s : State) : List (Bool × RefusalReason) :=
  [ (s.takeover.state != .menuOver, .suspended),
    (s.seq.state == .stopped, .wrongState),
    (s.seq.list.isSome && s.composer.canvas.isSome, .wrongState),
    (decide (c.small < s.seq.setup.count), .range),
    ((s.obj s.seq.setup.slotA).isNone && (s.obj s.seq.setup.slotB).isNone, .slotBusy) ]

theorem Command.startChecks_say (c : Command) (s : State) : ChecksSay (c.startChecks s)
    [ (s.takeover.state ≠ .menuOver, .suspended),
      (s.seq.state = .stopped, .wrongState),
      (s.seq.list ≠ none ∧ s.composer.canvas ≠ none, .wrongState),
      ((∀ l, s.seq.list = some l → c.small < l.count), .range),
      ((∀ l, s.seq.list = some l → s.obj l.slotA = none ∧ s.obj l.slotB = none), .slotBusy) ] := by
  refine ⟨rfl, by simp, fun _ => ⟨rfl, by simp, fun _ => ⟨rfl, by simp [Option.isSome_iff_ne_none], fun set => ?_⟩⟩⟩
  obtain ⟨l, list⟩ := Option.ne_none_iff_exists'.mp set.1
  exact ⟨rfl, by simp [Sequencer.setup, list], fun _ => ⟨rfl, by simp [Sequencer.setup, list], fun _ => trivial⟩⟩

/-- The show set to begin (R137). -/
def Sequencer.fresh (q : Sequencer) : Sequencer :=
  { q with shown := none, current := none, backward := false, skip := 0 }

theorem Sequencer.fresh_eq :
    Sequencer.fresh = fun q => { q with shown := none, current := none, backward := false, skip := 0 } := rfl

theorem runSlideStart_departed (s : State) (rest : List Command) (c : Command) :
    runSlideStart c (s.departed rest) = judged (c.startChecks s)
      (.completed 0 (((s.departed rest).showHalted.onSeq Sequencer.fresh).loadBegin c.small (some c.slot))) := by
  simp only [runSlideStart, State.departed_takeover, State.departed_seq, State.departed_composer, State.departed_obj,
    Command.startChecks, State.showHalted_eq, Sequencer.fresh_eq]

/-- Settles O41: the checks of R137 say its conditions; three channels end silently, and the load begins. -/
theorem slideStartBeginsTheLoad : Obligations.SlideStartBeginsTheLoad := by
  refine ⟨?_, fun s c rest h => State.refusesIn_judged h rfl (ofKind_of h) (runSlideStart_departed s rest c)
    (c.startChecks_say s)⟩
  intro s c rest l h normal stopped list canvas small slotA slotB
  have pass := (c.startChecks_say s).pass rfl (by
    simp [normal, stopped, list, canvas, small, slotA, slotB])
  have freed := (s.departed rest).showHalted_freed
  have silent := State.silenced_departed.mp (s.departed rest).showHalted_silenced
  have other {n : Nat} (hn : n ∉ [5, 6, 7]) := (s.departed rest).showHalted_other hn
  have whole {k : Nat} (hk : ∀ n ∈ [5, 6, 7], ((s.departed rest).chan n).slot ≠ some k) :=
    (s.departed rest).showHalted_whole hk
  have ran := State.startHead_completed h _ _ (ofKind_of h) ((runSlideStart_departed s rest c).trans (judged_pass pass))
  generalize (s.departed rest).showHalted = v at freed silent other whole ran
  simp only [State.departed_chan, State.departed_obj] at other whole
  have pending : v.events.statusPending = true := State.pending_of_frame freed.frame (by simp)
  refine ⟨v.onSeq Sequencer.fresh, _, ran (by simpa using pending), State.loadBegin_begun _ _ _,
    (freed.frame.trans (State.onSeq_frame v _)).mono (by simp), ?_, ?_, silent.congr (fun _ => rfl) fun _ => rfl,
    fun n hn => other hn, ?_, fun n => ?_, fun k hk => whole hk⟩
  · rw [State.onSeq_seq, show v.seq = _ from freed.frame .seq (by simp), State.departed_seq]
    rfl
  · exact freed.profiles.trans (by rw [State.departed_motion])
  · exact freed.rest.trans (by rw [State.departed_scene]; rfl)
  · exact (freed.objects n).trans (by rw [State.departed_obj])

/-! ## SLIDE STOP (O42) -/

theorem runSlideStop_departed (s : State) (rest : List Command) (c : Command) :
    runSlideStop c (s.departed rest) = judged [(s.takeover.state != .menuOver, .suspended)]
      (.completed 0 (if s.seq.state = .stopped then s.departed rest else (s.departed rest).stopShow)) := by
  simp only [runSlideStop, State.departed_takeover, State.departed_seq]

/-- The stop of a show after the departure of the head is one from before it. -/
theorem State.showStopped_departed (h : State.showStopped (s.departed rest) t) : State.showStopped s t := by
  simpa only [State.showStopped, State.silenced_departed, State.departed_chan, State.departed_obj, State.departed_seq,
    State.departed_scene, State.departed_motion] using h

/-- Settles O42: the stop of R151, or nothing from STOPPED. -/
theorem slideStopStopsTheShow : Obligations.SlideStopStopsTheShow := by
  refine ⟨?_, fun s c rest h => State.refusesIn_judged h rfl (ofKind_of h) (runSlideStop_departed s rest c)
    ⟨rfl, by simp, fun _ => trivial⟩⟩
  intro s c rest h normal
  have ran := State.startHead_completed h _ _ (ofKind_of h)
    ((runSlideStop_departed s rest c).trans (judged_pass (by simp [normal])))
  refine ⟨fun stopped => ?_, fun running => ?_⟩
  · rw [if_pos stopped] at ran
    exact ran (State.departed_statusPending s rest)
  rw [if_neg running] at ran
  have frame := (s.departed rest).stopShow_frame
  have takeover := (s.departed rest).stopShow_takeover
  have seq := (s.departed rest).stopShow_seq
  obtain ⟨stopped, mark⟩ := (s.departed rest).stopShow_stopped
  generalize (s.departed rest).stopShow = v at ran frame takeover seq stopped mark
  rw [State.departed_takeover] at takeover
  rw [State.departed_seq] at seq
  rw [State.departed_scene] at mark
  exact ⟨_, ran (State.pending_of_frame frame (by simp)), State.sameBut_closed frame (by simp) (by simp) 0, takeover, seq,
    (State.showStopped_departed stopped).congr rfl rfl rfl rfl rfl, mark⟩

/-! ## A motion that ends after a write of its fields (R74, R77, R90) -/

theorem Scene.modify_obj {sc : Scene} {k : Nat} {o : Obj} (here : sc.obj k = some o) (f : Obj → Obj) :
    (sc.modify k f).obj k = some (f o) := by
  have put : (sc.modify k f).obj k = (sc.put k (some (f o))).obj k := by
    rw [Scene.modify_eq here]
    rfl
  rw [put, Scene.obj_put, if_pos ⟨rfl, Scene.obj_lt here⟩]

/-- What a step of channel n leaves that has written the object `o` of slot k as `o'` (R75). -/
def State.stepped (s : State) (n k : Nat) (r : Channel) (o o' : Obj) : State :=
  { s with
    scene :=
      { s.scene with
        slots := s.scene.slots.setIfInBounds k (some o')
        mark := s.scene.mark || (decide (o' ≠ o) && s.scene.placed k) }
    motion := s.motion.putChannel n r }

/-- The moved fields are written, and the channel's context with them. -/
theorem State.writeMoved_put {n k : Nat} {ch : Channel} {o : Obj} (slot : ch.slot = some k) (here : s.obj k = some o)
    (e : Ends) (r : Channel) :
    (s.writeMoved ch e).putChan n r = s.stepped n k r o (o.moveTo ch.moved ch.view e) := by
  simp only [State.writeMoved, slot, State.onScene, Scene.modify_eq here]
  rfl

/-- The end of a motion whose last step has just been written is told from before that step. -/
theorem State.stepped_motionEnded {n k : Nat} {r : Channel} {o o' : Obj} (here : s.obj k = some o) (reason : EndReason)
    (abrupt : Bool) (slot : Option Nat) :
    (s.stepped n k r o o').motionEnded n r k o' reason abrupt slot = s.motionEnded n r k o' reason abrupt slot := by
  have there : (s.stepped n k r o o').obj k = some o' :=
    (Scene.obj_put s.scene k k (some o')).trans (if_pos ⟨rfl, Scene.obj_lt here⟩)
  simp only [State.motionEnded, there, here, ne_eq, not_true, decide_false, Bool.false_and, Bool.or_false,
    Option.some.injEq, eq_comm (a := o)]
  simp only [State.stepped, Vector.setIfInBounds_twice, Motion.putChannel_twice]

/-- A motion ends with the write of its last step (R74, R77, R78, R144). -/
theorem State.endMotion_written {n k : Nat} {ch r : Channel} {o : Obj} (low : n < 8) (slot : ch.slot = some k)
    (same : r.slot = some k) (here : s.obj k = some o) (e : Ends) (reason : EndReason) (abrupt snapped : Bool)
    (done shown : Option Nat) :
    ((s.writeMoved ch e).putChan n r).endMotion n reason abrupt snapped done shown =
      let u := s.motionEnded n r k (o.moveTo ch.moved ch.view e) reason abrupt done
      if r.owner = some .sequencer then u.notice n snapped shown else u := by
  have chan : (s.stepped n k r o (o.moveTo ch.moved ch.view e)).chan n = r :=
    (State.chan_put s n n r).trans (if_pos ⟨rfl, low⟩)
  have there : (s.stepped n k r o (o.moveTo ch.moved ch.view e)).obj k = some (o.moveTo ch.moved ch.view e) :=
    (Scene.obj_put s.scene k k _).trans (if_pos ⟨rfl, Scene.obj_lt here⟩)
  rw [State.writeMoved_put slot here, State.endMotion_eq chan same there, State.stepped_motionEnded here]

/-- A channel that is not IDLE has a number below 8. -/
theorem State.lt_of_busy {n : Nat} (busy : (s.chan n).phase ≠ .idle) : n < 8 := by
  by_contra h
  exact busy (by rw [State.chan_idle s (Nat.not_lt.mp h)]; rfl)

/-- A snap ends a motion at its targets (R90). -/
theorem State.snap_eq {n k : Nat} {ch : Channel} {o : Obj} (hc : ch = s.chan n) (busy : ch.phase ≠ .idle)
    (slot : ch.slot = some k) (here : s.obj k = some o) (shown : Option Nat) :
    s.snap n shown =
      let u := s.motionEnded n { ch with s := ch.travel } k (o.moveTo ch.moved ch.view ch.e1) .arrived false ch.cmdSlot
      if ch.owner = some .sequencer then u.notice n true shown else u := by
  subst hc
  have low := State.lt_of_busy busy
  have chan (v : State) (c : Channel) : ((v.putChan n c).chan n) = c :=
    (State.chan_put v n n c).trans (if_pos ⟨rfl, low⟩)
  simp only [State.snap, busy, if_false, State.arrive, chan]
  exact State.endMotion_written (r := { s.chan n with s := (s.chan n).travel }) low slot slot here _ _ _ _ _ _

/-! ## SLIDE STEP (O43) -/

/-- SHOW END, END OF LIST, of a step beyond the list's end, with code 1 (R148). -/
def State.steppedBeyond (s : State) (l : SlideList) (back : Bool) (slot : Nat) : State :=
  s.raise (.showEnd s.seq.current true back l.base l.count) (some slot)

variable {l : SlideList} {back : Bool}

theorem State.stepFrom_beyond {i slot : Nat} (list : s.seq.list = some l) (last : l.next i back = none)
    (prepare : Sequencer → Sequencer) :
    s.stepFrom i back slot prepare = .completed 1 (s.steppedBeyond l back slot) := by
  simp only [State.stepFrom, Sequencer.setup, list, Option.getD_some, last]
  rfl

theorem State.stepFrom_loads {i j slot : Nat} (list : s.seq.list = some l) (next : l.next i back = some j)
    (prepare : Sequencer → Sequencer) :
    s.stepFrom i back slot prepare =
      .completed 0 (State.loadBegin { s with seq := { prepare s.seq with backward := back, skip := 0 } } j
        (some slot)) := by
  simp only [State.stepFrom, Sequencer.setup, list, Option.getD_some, next]
  rfl

theorem runSlideStep_departed (s : State) (rest : List Command) (c : Command) :
    runSlideStep c (s.departed rest) = judged ((c.direction.isSome, .range) :: s.showChecks)
      ((s.departed rest).stepShow (c.direction.getD false) c.slot) := by
  simp only [runSlideStep, State.departed_showChecks]

/-- A SLIDE STEP that passes does what its step from an index does. -/
theorem execSlideStep_steps (h : s.Starts c rest .slideStep) (normal : s.takeover.state = .normal)
    (running : s.seq.state ≠ .stopped) (direction : c.direction = some back) {code : Fin 4} {v : State}
    (steps : (s.departed rest).stepShow back c.slot = .completed code v) (pending : v.events.statusPending = true) :
    exec .slideStep s = .next (v.setCode code).closed := by
  have judges := (runSlideStep_departed s rest c).trans
    (judged_pass (State.operandChecks_pass direction normal running))
  rw [direction, Option.getD_some, steps] at judges
  exact State.startHead_completed h _ _ (ofKind_of h) judges pending

/-- The step that is taken from an index of the state `u`, whatever the Sequencer does before the load (R146). -/
theorem execSlideStep_from (h : s.Starts c rest .slideStep) (normal : s.takeover.state = .normal)
    (running : s.seq.state ≠ .stopped) (direction : c.direction = some back) {i : Nat} {prepare : Sequencer → Sequencer}
    (steps : (s.departed rest).stepShow back c.slot = u.stepFrom i back c.slot prepare) (list : u.seq.list = some l)
    (pending : u.events.statusPending = true) :
    (l.next i back = none →
        exec .slideStep s = .next (((u.steppedBeyond l back c.slot).setCode 1).endStep s))
      ∧ ∀ j, l.next i back = some j →
          ∃ v, exec .slideStep s = .next (v.setCode 0).closed
            ∧ State.loadBegun { u with seq := { prepare u.seq with backward := back, skip := 0 } } j (some c.slot) v := by
  refine ⟨fun last => ?_, fun j next => ?_⟩
  · have raised : (u.steppedBeyond l back c.slot).events.statusPending = true :=
      (State.raise_statusPending ..).trans pending
    rw [execSlideStep_steps h normal running direction (steps.trans (State.stepFrom_beyond list last prepare)) raised]
    exact congrArg _ (State.endStep_of_pending (t := (u.steppedBeyond l back c.slot).setCode 1) raised).symm
  · exact ⟨_, execSlideStep_steps h normal running direction (steps.trans (State.stepFrom_loads list next prepare))
      ((State.loadBegin_statusPending ..).trans pending), State.loadBegin_begun ..⟩

/-- Settles O43: a step from an index of the list, in CHANGING from what the snaps leave; the snaps in turn; and the
checks of R146. -/
theorem slideStepLoadsTheNext : Obligations.SlideStepLoadsTheNext := by
  refine ⟨?_, ?_, fun s c rest h => State.refusesIn_judged h rfl (ofKind_of h) (runSlideStep_departed s rest c)
    (s.operandChecks_say c.direction)⟩
  · intro s c rest l back h normal list direction beyond loads fromIndex fromShown
    have shown {u : State} (running : s.seq.state ≠ .stopped)
        (steps : (s.departed rest).stepShow back c.slot = u.stepShown back c.slot) (list : u.seq.list = some l)
        (pending : u.events.statusPending = true) : fromShown u := by
      refine ⟨fun i current => ?_, fun none some => ?_⟩
      · have steps := steps.trans (by rw [State.stepShown, current])
        exact execSlideStep_from h normal running direction steps list pending
      · refine ⟨Config.stepIndex u.freeCount % l.count, Nat.mod_lt _ some, ?_⟩
        have steps := steps.trans (by rw [State.stepShown, none])
        simp only [Sequencer.setup, list, Option.getD_some] at steps
        exact execSlideStep_from h normal running direction steps list pending
    have here : (s.departed rest).seq.list = some l := by rwa [State.departed_seq]
    refine ⟨fun state => ?_, fun state => ?_, fun i state incoming => ?_⟩
    · refine shown (by simp [state]) ?_ here (State.departed_statusPending s rest)
      simp only [State.stepShow, State.departed_seq, state]
    · have snapped := State.snapAwaited_notified (s.departed rest) (some c.slot)
      refine shown (by simp [state]) ?_ (snapped.list.trans here)
        (snapped.flag.trans (State.departed_statusPending s rest))
      simp only [State.stepShow, State.departed_seq, state]
    · have steps : (s.departed rest).stepShow back c.slot = (s.departed rest).stepFrom i back c.slot fun q =>
          { q with read := q.read.map fun r => { r with overtaken := true } } := by
        rcases state with state | state <;>
          simp only [State.stepShow, State.departed_seq, state, incoming, Option.getD_some]
      have stepped := execSlideStep_from h normal (by rcases state with e | e <;> simp [e]) direction steps here
        (State.departed_statusPending s rest)
      rw [State.departed_seq] at stepped
      exact stepped
  · intro s slot
    refine ⟨rfl, fun n ch hc => ⟨fun idle => ?_, fun k o busy here there => State.snap_eq hc busy here there slot⟩⟩
    rw [State.snap, ← hc]
    exact if_pos idle

end

end Sys2Proof.Machine

/-!
PROOF. O48: RESUME and its CLOSE, which undefines the MENU-group slots after every motion has ended silently.
-/

namespace Sys2Proof.Machine

section
variable {s t u v : State} {c : Command} {rest : List Command}

/-- The end of a step keeps a frame that leaves the Event Unit. -/
theorem State.sameBut_closing {parts : List Part} (h : State.sameBut parts s t) (events : .events ∉ parts) :
    State.sameBut parts s.closed t.closed := by
  intro p hp
  have same := h p hp
  have view := h .events events
  cases p with
  | events => exact congrArg EventUnit.present view
  | _ => exact same

/-! ## Silent halts, told whole (R77, R90) -/

theorem State.silentHalt_idle_eq {n : Nat} (idle : (s.chan n).phase = .idle) : s.silentHalt n = s := if_pos idle

theorem Scene.bind_none {sc : Scene} {k : Nat} (h : sc.obj k = none) (ch : Option Nat) : sc.bind k ch = sc := by
  simp [Scene.bind, h]

/-- A silent halt of a channel in motion frees it and unbinds the object of its slot (R77). -/
theorem State.silentHalt_busy {n : Nat} (busy : (s.chan n).phase ≠ .idle) : s.silentHalt n =
    { s with
      scene := (match (s.chan n).slot with
        | some k => s.scene.bind k none
        | none => s.scene)
      motion := s.motion.putChannel n (s.chan n).ended } := by
  simp only [State.silentHalt, busy, if_false, State.freeChannel]
  cases (s.chan n).slot <;> rfl

/-! ## CLOSE (R165) -/

/-- The undefinition of the MENU-group slots among `l` is that of the slots that are of the group before it. -/
theorem State.undefineMenu_undefined {l : List Nat} (nodup : l.Nodup) (s : State) :
    State.Undefined (l.filter (s.scene.inGroup .menu)) s
      (l.foldl (fun t n => if t.scene.inGroup .menu n then t.undefineSlot n else t) s) := by
  induction l generalizing s with
  | nil => exact State.Undefined.refl s
  | cons n l ih =>
    obtain ⟨fresh, nodup⟩ := List.nodup_cons.mp nodup
    rw [List.foldl_cons, List.filter_cons]
    split
    · have first := State.undefineSlot_undefined s n
      have same : l.filter ((s.undefineSlot n).scene.inGroup .menu) = l.filter (s.scene.inGroup .menu) :=
        List.filter_congr fun k hk => Scene.inGroup_congr (Scene.groupOf_of_unbound
          (first.others k fun e => fresh (List.mem_singleton.mp e ▸ hk))) .menu
      exact same ▸ first.trans (ih nodup _)
    · exact ih nodup s

/-- The Takeover Unit as CLOSE begins (R165). -/
def State.leaves (s : State) : State := s.onTakeover fun t => { t with state := .leaving, phase := some .close }

/-- CLOSE in its steps: the page, the motions, the MENU-group slots, the mark, and the beginning of RESTORE (R165). -/
theorem State.closeScene_steps (s : State) : ∃ x y, State.Freed s.leaves.closeMenu x
    ∧ State.Undefined ((List.range 48).filter (x.scene.inGroup .menu)) x y
    ∧ s.closeScene = (y.onScene fun sc => { sc with mark := sc.mark || !s.scene.order.isEmpty }).onTakeover
        fun t => { t with phase := some .restore, job := .restore 0 [] } :=
  ⟨_, _, State.silentHalts_freed (List.range 8) s.leaves.closeMenu, State.undefineMenu_undefined List.nodup_range _, rfl⟩

/-- The close of the page keeps the group of every slot. -/
theorem State.closeMenu_group (s : State) (n : Nat) : s.closeMenu.scene.groupOf n = s.scene.groupOf n := by
  cases page : s.nav.page with
  | none => rw [State.closeMenu_none page]
  | some p =>
    have hidden : (s.menuHidden p).scene.groupOf n = (s.silentHalt 0).scene.groupOf n := by
      rw [Scene.groupOf, show (s.menuHidden p).scene.obj n = _ from State.menuHidden_obj s p n, Option.map_map]
      refine congrArg (fun f => Option.map f _) (funext fun o => ?_)
      simp only [Function.comp]
      split <;> rfl
    rw [State.closeMenu_open page]
    exact hidden.trans (Scene.groupOf_of_unbound ((State.silentHalt_freed s 0).objects n))

/-- What the close of the page keeps of the order, the palettes and the profiles, and of the Navigator. -/
theorem State.closeMenu_kept (s : State) : State.sameBut [.nav, .scene, .motion] s s.closeMenu
    ∧ s.closeMenu.scene.order = s.scene.order ∧ s.closeMenu.scene.palettes = s.scene.palettes
    ∧ s.closeMenu.motion.profiles = s.motion.profiles
    ∧ (s.nav.page = none → s.closeMenu.nav = s.nav)
    ∧ (s.nav.page ≠ none → s.closeMenu.nav = { s.nav with page := none, focus := none, stack := [] }) := by
  cases page : s.nav.page with
  | none =>
    rw [State.closeMenu_none page]
    exact ⟨State.sameBut_refl s _, rfl, rfl, rfl, fun _ => rfl, fun h => absurd rfl h⟩
  | some p =>
    obtain ⟨order, palettes, -, profiles⟩ := s.menuHidden_kept (p := p)
    have nav : (s.menuHidden p).nav = s.nav := s.menuHidden_frame p .nav (by simp)
    rw [State.closeMenu_open page]
    refine ⟨((s.menuHidden_frame p).trans (State.onNav_frame _ _)).mono (by simp), order, palettes, profiles,
      fun h => absurd h (by simp), fun _ => ?_⟩
    rw [State.onNav_nav, nav]

/-- The whole frame of CLOSE, the groups that it leaves, and the order (R165). -/
theorem State.closeScene_spec (s : State) : State.sameBut [.nav, .scene, .motion, .takeover] s s.closeScene
    ∧ s.closeScene.takeover = { s.takeover with state := .leaving, phase := some .restore, job := .restore 0 [] }
    ∧ s.closeScene.nav = s.closeMenu.nav
    ∧ s.closeScene.motion.profiles = s.motion.profiles
    ∧ (∀ n o, s.closeScene.obj n = some o → o.group = .slide)
    ∧ s.closeScene.scene.order = s.scene.order.filter (fun n => !s.scene.inGroup .menu n)
    ∧ s.closeScene.scene.palettes = s.scene.palettes := by
  obtain ⟨x, y, freed, gone, steps⟩ := s.closeScene_steps
  obtain ⟨frame, order, palettes, profiles, none, some⟩ := s.leaves.closeMenu_kept
  have group (n : Nat) : x.scene.groupOf n = s.scene.groupOf n :=
    (Scene.groupOf_of_unbound (freed.objects n)).trans (s.leaves.closeMenu_group n)
  have member (n : Nat) : n ∈ (List.range 48).filter (x.scene.inGroup .menu) ↔ s.scene.inGroup .menu n = true := by
    rw [List.mem_filter, List.mem_range, Scene.inGroup_congr (group n)]
    refine and_iff_right_of_imp fun inside => ?_
    rw [Scene.inGroup_eq, Scene.groupOf, beq_iff_eq, Option.map_eq_some_iff] at inside
    obtain ⟨o, here, -⟩ := inside
    exact Scene.obj_lt here
  have sameOrder : x.scene.order = s.scene.order := by
    rw [freed.rest]
    exact order
  have samePalettes : x.scene.palettes = s.scene.palettes := by
    rw [freed.rest]
    exact palettes
  rw [steps]
  have whole : State.sameBut [.nav, .scene, .motion, .takeover] s y :=
    (((State.onTakeover_frame s _).trans frame).trans (freed.frame.trans gone.frame)).mono (by simp)
  refine ⟨(whole.trans ((State.onScene_frame y _).trans (State.onTakeover_frame _ _))).mono (by simp), ?_, ?_,
    gone.profiles.trans (freed.profiles.trans profiles), fun n o here => ?_, ?_, ?_⟩
  · have takeover : y.takeover = s.leaves.takeover := ((frame.trans (freed.frame.trans gone.frame)) .takeover (by simp))
    simp only [State.onTakeover_takeover, State.onScene_takeover, takeover]
    rfl
  · have nav : y.nav = s.leaves.closeMenu.nav := (freed.frame.trans gone.frame) .nav (by simp)
    refine nav.trans ?_
    by_cases page : s.nav.page = .none
    · rw [none page, State.closeMenu_none page]
      rfl
    · rw [some page, s.closeMenu_kept.2.2.2.2.2 page]
      rfl
  · have kept : n ∉ (List.range 48).filter (x.scene.inGroup .menu) := fun e => by
      have := (gone.gone n e).symm.trans here
      simp at this
    have ofMenu := mt (member n).mpr kept
    have same : s.scene.groupOf n = .some o.group := by
      rw [← group n, ← Scene.groupOf_of_unbound (gone.others n kept)]
      exact congrArg (Option.map _) here
    rw [Scene.inGroup_eq, same] at ofMenu
    cases hg : o.group with
    | slide => rfl
    | menu => exact absurd (by rw [hg]; rfl) ofMenu
  · refine gone.order.trans ?_
    rw [sameOrder]
    refine List.filter_congr fun n _ => congrArg (!·) ?_
    rw [Bool.eq_iff_iff, List.contains_iff_mem, member]
  · exact gone.palettes.trans samePalettes

/-- CLOSE keeps the record of a SLIDE-group slot but for what CLOSE MENU hides, and its binding unless a channel has
the slot (R127, R165). -/
theorem State.closeScene_slide (s : State) {n : Nat} {o : Obj} (here : s.obj n = some o) (slide : o.group = .slide) :
    ∃ o', s.closeScene.obj n = some o' ∧ o'.unbound = { o.unbound with visible := o'.visible }
      ∧ ((∃ p, s.nav.page = some p ∧ s.closeHides p n) → o'.visible = false)
      ∧ (¬ (∃ p, s.nav.page = some p ∧ s.closeHides p n) → o'.visible = o.visible)
      ∧ ((∀ m, (s.chan m).slot ≠ some n) → o'.bound = o.bound) := by
  obtain ⟨loosed, -, kept⟩ := s.closeScene_kept
  obtain ⟨o1, o', first, last, same⟩ := kept n o here slide
  have visible := Obj.visible_of_unbound same
  suffices fields : o1.unbound = { o.unbound with visible := o1.visible }
      ∧ ((∃ p, s.nav.page = some p ∧ s.closeHides p n) → o1.visible = false)
      ∧ (¬ (∃ p, s.nav.page = some p ∧ s.closeHides p n) → o1.visible = o.visible) by
    refine ⟨o', last, ?_, fun h => visible.trans (fields.2.1 h), fun h => visible.trans (fields.2.2 h),
      fun free => loosed.bound last here fun m slot => absurd slot (free m)⟩
    rw [same, visible]
    exact fields.1
  cases page : s.nav.page with
  | none =>
    rw [State.closeMenu_none page, here, Option.some_inj] at first
    subst first
    exact ⟨rfl, by simp, fun _ => rfl⟩
  | some p =>
    rw [State.closeMenu_open page] at first
    obtain ⟨o2, after, fields, shown⟩ := State.menuHidden_object (p := p) here
    obtain rfl : o2 = o1 := Option.some_inj.mp (after.symm.trans first)
    refine ⟨fields, ?_, fun apart => shown fun hidden => apart ⟨p, rfl, hidden⟩⟩
    rintro ⟨q, ⟨⟩, hidden⟩
    exact State.menuHidden_hidden hidden first

theorem runResume_departed (s : State) (rest : List Command) (c : Command) :
    runResume c (s.departed rest) = judged [(s.takeover.state == .menuOver, .wrongState)]
      (.began ((s.departed rest).serve c.slot .resume).closeScene) := by
  rw [runResume, State.departed_takeover]

/-- Settles O48: CLOSE of the state in which RESUME has gone into service; a silent halt told whole. -/
theorem resumeClosesTheScene : Obligations.ResumeClosesTheScene := by
  refine ⟨?_, ?_, fun s c rest h => State.refusesIn_judged h rfl (ofKind_of h)
    (runResume_departed s rest c) ⟨rfl, by simp, fun _ => trivial⟩⟩
  · intro s c rest h menuOver
    have ran := State.startHead_began h _ _ (ofKind_of h)
      ((runResume_departed s rest c).trans (judged_pass (by simp [menuOver])))
    obtain ⟨v, served⟩ : ∃ v, v = (s.departed rest).serve c.slot .resume := ⟨_, rfl⟩
    have scene : v.scene = s.scene := by simp [served, State.serve]
    have motion : v.motion = s.motion := by simp [served, State.serve]
    have nav : v.nav = s.nav := by simp [served, State.serve]
    have takeover : v.takeover = s.takeover := by simp [served, State.serve]
    have pending : v.events.statusPending = true := by simp [served, State.serve]
    have obj (n : Nat) : v.obj n = s.obj n := congrArg (·.obj n) scene
    have chan (n : Nat) : v.chan n = s.chan n := by rw [State.chan, motion]; rfl
    obtain ⟨frame, left, page, profiles, slides, order, palettes⟩ := v.closeScene_spec
    obtain ⟨-, -, -, -, noPage, hadPage⟩ := v.closeMenu_kept
    obtain ⟨-, silent, -⟩ := v.closeScene_kept
    have slide {n : Nat} {o : Obj} := v.closeScene_slide (n := n) (o := o)
    obtain ⟨mark, load⟩ := v.closeScene_mark
    rw [State.servedWith, ← served]
    rw [← served] at ran
    generalize v.closeScene = t at *
    rw [nav] at noPage hadPage
    rw [scene] at order palettes mark load
    simp only [State.closeHides, nav, obj, chan] at slide
    refine ⟨t.closed, ran ((congrArg _ (frame .events (by simp))).trans pending),
      State.sameBut_closing frame (by simp), left.trans (by rw [takeover]), fun closed => page.trans (noPage closed),
      fun opened => page.trans (hadPage opened), profiles.trans (by rw [motion]), ?_, slides,
      fun n o => slide, order, mark, load, palettes⟩
    have ended : State.silenced s t (List.range 8) := by simpa only [State.silenced, obj, chan] using silent
    exact ended.congr (fun _ => rfl) fun _ => rfl
  · rintro s n c rfl
    refine ⟨State.silentHalt_idle_eq, fun busy => ?_⟩
    have halted := State.silentHalt_busy busy
    refine ⟨fun free => ?_, fun k slot => ⟨fun empty => ?_, fun o here => ?_⟩⟩
    · rw [halted, free]
      rfl
    · simp only [halted, slot, Scene.bind_none (show s.scene.obj k = none from empty)]
      rfl
    · simp only [halted, slot, Scene.bind_eq (show s.scene.obj k = some o from here)]
      rfl

end

end Sys2Proof.Machine

/-!
PROOF. O49: the ends of SAVE and COPY, and the bursts of both.
-/

namespace Sys2Proof.Machine

section
variable {s t u v : State}

/-! ## What the end of SAVE undefines (R162) -/

/-- The undefinition of a slot ends no channel but the one that its object names (R48). -/
theorem State.undefineSlot_other {k n : Nat} (apart : ∀ o, s.obj k = some o → o.bound ≠ some n) :
    (s.undefineSlot k).chan n = s.chan n := by
  have other : ∀ m, (s.obj k).bind (·.bound) = some m → n ≠ m := by
    rintro m bound rfl
    obtain ⟨o, here, named⟩ := Option.bind_eq_some_iff.mp bound
    exact apart o here named
  unfold State.undefineSlot
  cases bound : (s.obj k).bind (·.bound) with
  | none => rfl
  | some m => exact State.silentHalt_other s (other m bound)

theorem State.undefineSlots_other (l : List Nat) {n : Nat} (apart : ∀ k ∈ l, ∀ o, s.obj k = some o → o.bound ≠ some n) :
    (l.foldl State.undefineSlot s).chan n = s.chan n := by
  induction l generalizing s with
  | nil => rfl
  | cons k l ih =>
    refine (ih fun j hj o here bound => ?_).trans (State.undefineSlot_other (apart k List.mem_cons_self))
    obtain ⟨o', before, same | ⟨free, -⟩⟩ := (State.undefineSlot_undefined s k).loosed.bindings j o here
    · exact apart j (List.mem_cons_of_mem k hj) o' before (same.symm.trans bound)
    · exact absurd (free.symm.trans bound) (by simp)

/-- The saved channels have ended silently, and the saved slots are undefined (R162). -/
def State.unsaved (s : State) (slots channels : List Nat) : State :=
  slots.foldl State.undefineSlot (channels.foldl State.silentHalt s)

/-- A channel that the end of SAVE can end. -/
def State.savedOrBound (s : State) (slots channels : List Nat) (n : Nat) : Prop :=
  n ∈ channels ∨ ∃ k ∈ slots, ∃ o, s.obj k = some o ∧ o.bound = some n

theorem State.unsaved_undefined (s : State) (slots channels : List Nat) :
    State.Undefined slots s (s.unsaved slots channels) :=
  (State.silentHalts_freed channels s).undefined.trans (State.undefineSlots_undefined slots _)

theorem State.unsaved_silenced (s : State) (slots channels : List Nat) :
    State.silenced s (s.unsaved slots channels) channels :=
  (s.unsaved_undefined slots channels).loosed.silenced fun n hn =>
    (State.undefineSlots_undefined slots _).loosed.idle n (State.silentHalts_idle channels s n hn)

theorem State.unsaved_other {slots channels : List Nat} {n : Nat} (apart : ¬ s.savedOrBound slots channels n) :
    (s.unsaved slots channels).chan n = s.chan n := by
  refine (State.undefineSlots_other slots fun k hk o here bound => ?_).trans
    (State.silentHalts_other channels s n fun hn => apart (.inl hn))
  obtain ⟨o', before, same | ⟨free, -⟩⟩ := (State.silentHalts_freed channels s).loosed.bindings k o here
  · exact apart (.inr ⟨k, hk, o', before, same.symm.trans bound⟩)
  · exact absurd (free.symm.trans bound) (by simp)

/-- A slot that is not saved keeps its whole record, unless a channel that ends has it. -/
theorem State.unsaved_whole {slots channels : List Nat} {n : Nat} (kept : n ∉ slots)
    (free : ∀ m, s.savedOrBound slots channels m → (s.chan m).slot ≠ some n) :
    (s.unsaved slots channels).obj n = s.obj n :=
  (s.unsaved_undefined slots channels).whole kept fun m slot => State.unsaved_other fun ends => free m ends slot

/-- What the end of SAVE leaves of the channels and of the records, in any state with both of them (R162). -/
theorem State.unsaved_leaves {slots channels : List Nat} (chan : ∀ n, t.chan n = (s.unsaved slots channels).chan n)
    (obj : ∀ n, t.obj n = (s.unsaved slots channels).obj n) :
    State.silenced s t channels
      ∧ (∀ n, n ∉ channels → (∀ k ∈ slots, ∀ o, s.obj k = some o → o.bound ≠ some n) → t.chan n = s.chan n)
      ∧ (∀ n ∈ slots, t.obj n = none)
      ∧ (∀ n, n ∉ slots → (t.obj n).map Obj.unbound = (s.obj n).map Obj.unbound)
      ∧ ∀ n, n ∉ slots → (∀ m, s.savedOrBound slots channels m → (s.chan m).slot ≠ some n) → t.obj n = s.obj n := by
  have undefined := s.unsaved_undefined slots channels
  refine ⟨(s.unsaved_silenced slots channels).congr chan obj, fun n apart unbound => (chan n).trans ?_,
    fun n hn => (obj n).trans (undefined.gone n hn), fun n hn => obj n ▸ undefined.others n hn,
    fun n hn free => (obj n).trans (State.unsaved_whole hn free)⟩
  exact State.unsaved_other fun ends => ends.elim apart fun ⟨k, hk, o, here, bound⟩ => unbound k hk o here bound

theorem filter_not_contains_ne_iff (l slots : List Nat) :
    l.filter (fun n => !slots.contains n) ≠ l ↔ (slots.any fun n => l.contains n) = true := by
  rw [Ne, List.filter_eq_self, List.any_eq_true]
  simp only [List.contains_iff_mem, Bool.not_eq_eq_eq_not, Bool.not_true, ← Bool.not_eq_true]
  push Not
  exact ⟨fun ⟨n, a, b⟩ => ⟨n, b, a⟩, fun ⟨n, a, b⟩ => ⟨n, b, a⟩⟩

theorem State.Undefined.mark_any {slots : List Nat} (h : State.Undefined slots s t) :
    t.scene.mark = (s.scene.mark || slots.any fun n => s.scene.order.contains n) := by
  rw [h.mark, h.order]
  congr 1
  rw [Bool.eq_iff_iff, decide_eq_true_iff, filter_not_contains_ne_iff]

/-! ## The end of COPY (R163, R171) -/

/-- COPY has ended, before its event: MENU-OVER and the mark. -/
def State.inMenuOver (s : State) : State :=
  { s with
    takeover := { s.takeover with state := .menuOver, phase := none, job := .none }
    scene := { s.scene with mark := true } }

theorem State.inMenuOver_frame (s : State) : State.sameBut [.scene, .takeover] s s.inMenuOver := by
  intro p hp
  cases p <;> simp_all [Part.same, State.inMenuOver]

/-- TAKEOVER ENTERED with the entry facts `f` (R171). -/
def State.entered (s : State) (f : EntryFacts) : Event :=
  let counts := if f.recovered then (0, 0) else s.takeover.savedCounts
  .takeoverEntered f.source f.recovered f.wasChanging f.paused s.takeover.saveBase counts.1 counts.2

theorem State.takeoverServed_iff (s : State) :
    s.takeoverServed = true ↔ ∃ slot, s.intake.inService = some ⟨slot, .takeover⟩ := by
  unfold State.takeoverServed
  rcases s.intake.inService with _ | ⟨slot, op⟩
  · simp
  · cases op <;> simp

theorem State.copyDone_served {f : EntryFacts} (facts : s.takeover.facts = some f) {slot : Nat}
    (served : s.intake.inService = some ⟨slot, .takeover⟩) :
    s.copyDone = (s.inMenuOver.raise (s.entered f) (some slot)).complete 0 := by
  have serves : s.takeoverServed = true := s.takeoverServed_iff.mpr ⟨slot, served⟩
  simp only [State.copyDone, facts, serves, if_true, Option.getD_some, State.serviceSlot, served, Option.map_some]
  rfl

theorem State.copyDone_unserved {f : EntryFacts} (facts : s.takeover.facts = some f)
    (unserved : ∀ slot, s.intake.inService ≠ some ⟨slot, .takeover⟩) :
    s.copyDone = { s.inMenuOver.raise (s.entered f) none with intake := { s.intake with inRun := false } } := by
  have serves : s.takeoverServed = false := by
    rw [← Bool.not_eq_true, s.takeoverServed_iff]
    exact fun ⟨slot, served⟩ => unserved slot served
  simp only [State.copyDone, facts, serves, Option.getD_some, Bool.false_eq_true, if_false]
  rfl

/-- COPY ends at its start while the Composer is DISABLED (R163). -/
theorem State.startCopy_ends (disabled : s.composer.canvas = none) : s.startCopy = s.copyDone := by
  simp only [State.startCopy, disabled]
  rfl

/-! ## Bursts (R161, R163) -/

/-- The Takeover Unit's next job. -/
def State.withJob (s : State) (job : TakeoverJob) : State := s.onTakeover fun t => { t with job := job }

/-- A burst of words written to memory, with the job that is left and, after the last one, the end that it awaits. -/
def State.burstWritten (s : State) (a : Nat) (ws : List Word) (job : TakeoverJob) (last : Bool) (e : BurstEnd) : State :=
  let t := (s.writeWords a ws).withJob job
  if last then t.lastBurst e else t

section
variable {a : Nat} {ws : List Word} {job : TakeoverJob} {last : Bool} {e : BurstEnd}

/-- A written burst is its write, but for the job and the end of the last burst. -/
theorem State.burstWritten_eq (s : State) : s.burstWritten a ws job last e =
    { s.writeWords a ws with
      takeover := { s.takeover with job := job }
      bridge := { s.bridge with busy := if last then some e else s.bridge.busy } } := by
  have frame := s.writeWords_frame a ws
  have takeover : (s.writeWords a ws).takeover = s.takeover := frame .takeover (by simp)
  have bridge : (s.writeWords a ws).bridge = s.bridge := frame .bridge (by simp)
  unfold State.burstWritten State.withJob State.lastBurst State.onTakeover State.onBridge
  cases last <;> simp [takeover, bridge]

theorem State.burstWritten_frame (s : State) :
    State.sameBut [.mem, .bridge, .takeover] s (s.burstWritten a ws job last e) := by
  have written : State.sameBut [.takeover, .bridge] (s.writeWords a ws) (s.burstWritten a ws job last e) := by
    rw [State.burstWritten_eq]
    intro p hp
    cases p <;> simp_all [Part.same]
  exact ((s.writeWords_frame a ws).trans written).mono (by simp)

theorem State.burstWritten_readByte (s : State) (x : Nat) :
    (s.burstWritten a ws job last e).readByte x = (s.writeWords a ws).readByte x := by
  have bridge : (s.writeWords a ws).bridge = s.bridge := s.writeWords_frame a ws .bridge (by simp)
  rw [State.burstWritten_eq, State.readByte, State.readByte, bridge]

theorem State.burstWritten_readWord (s : State) (x : Nat) :
    (s.burstWritten a ws job last e).readWord x = (s.writeWords a ws).readWord x := by
  simp only [State.readWord, State.burstWritten_readByte]

/-- A written burst stores its words and no other byte (R161, R163). -/
theorem State.burstWritten_words (law : s.memoryLaw = true) (fits : 4 * ws.length ≤ s.bridge.memSize) :
    (∀ k w, ws[k]? = some w → (s.burstWritten a ws job last e).readWord (a + 4 * k) = w)
      ∧ ∀ x, (∀ i, i < 4 * ws.length → x % s.bridge.memSize ≠ (a + i) % s.bridge.memSize) →
          (s.burstWritten a ws job last e).readByte x = s.readByte x := by
  refine ⟨fun k w hw => ?_, fun x apart => ?_⟩
  · rw [State.burstWritten_readWord, State.readWord_writeWords s a ws law fits k w hw]
  · rw [State.burstWritten_readByte, State.readByte_writeWords_other s a x ws law apart]

end

theorem State.grantTakeover_save {addr : Nat} {words : List Word} {more : List (Nat × List Word)}
    {slots channels : List Nat} (job : s.takeover.job = .save ((addr, words) :: more) slots channels) :
    s.grantTakeover = s.burstWritten addr words (.save more slots channels) more.isEmpty .save := by
  unfold State.grantTakeover
  rw [job]
  rfl

theorem State.grantTakeover_copyRead {src dst total next : Nat} (job : s.takeover.job = .copy src dst total next none) :
    s.grantTakeover = s.withJob (.copy src dst total next (some (s.readWords (src + 32 * next) 8))) := by
  unfold State.grantTakeover
  rw [job]
  rfl

theorem State.grantTakeover_copyWrite {src dst total next : Nat} {words : List Word}
    (job : s.takeover.job = .copy src dst total next (some words)) :
    s.grantTakeover = s.burstWritten (dst + 32 * next) words (.copy src dst total (next + 1) none)
      (decide (total ≤ next + 1)) .copy := by
  unfold State.grantTakeover State.burstWritten
  rw [job]
  simp only [decide_eq_true_eq]
  rfl

/-- The bursts of a run of bytes of the record. -/
def burstsOf (a : Nat) (bytes : List Byte) : List (Nat × List Word) :=
  wordBursts (bytesToWords bytes).length a (bytesToWords bytes)

theorem burstsOf_words (a : Nat) (bytes : List Byte) :
    ((burstsOf a bytes).flatMap fun e => e.2.zipIdx.map fun (w, i) => (e.1 + 4 * i, w))
      = (bytesToWords bytes).zipIdx.map fun (w, i) => (a + 4 * i, w) := wordBursts_words _ a _ le_rfl

/-- The object entries of the record, in the order of the slots. -/
def State.objectEntries (s : State) (slots : List Nat) : List Byte :=
  slots.flatMap fun n => ((s.obj n).map (objectEntry n (s.scene.slidePosition n))).getD []

/-- The record of SAVE in ascending address order (R161, R184). -/
theorem State.saveBursts_eq (s : State) (facts : EntryFacts) (slots channels : List Nat) :
    s.saveBursts facts slots channels =
      burstsOf s.takeover.saveBase (s.saveFixed facts slots.length channels.length)
        ++ burstsOf (s.takeover.saveBase + 96) (s.objectEntries slots)
        ++ burstsOf (s.takeover.saveBase + 2400) (channels.flatMap fun n => channelEntry n (s.chan n)) := by
  have entries : (slots.flatMap fun n => match s.obj n with
      | some o => objectEntry n (s.scene.slidePosition n) o
      | none => []) = s.objectEntries slots := List.flatMap_congr fun n _ => by cases s.obj n <;> rfl
  rw [← entries]
  rfl

/-- The end of SAVE: what it undefines, the Sequencer SUSPENDED, and the beginning of COPY (R162). -/
theorem execSaveEnd_ends {bursts : List (Nat × List Word)} {slots channels : List Nat} (settled : s.Settled)
    (busy : s.bridge.busy = some .save) (job : s.takeover.job = .save bursts slots channels) :
    exec .saveEnd s = .next
      ((((s.free.unsaved slots channels).onSeq fun q => { q with state := .suspended }).startCopy).endStep s) := by
  refine (State.event_settled settled _).trans ?_
  rw [State.atEnd_busy busy, show s.free.takeover.job = _ from job]
  rfl

/-- Settles O49: the steps of SAVE's end, the two outcomes of COPY's, and one written burst. -/
theorem saveAndCopyEndInMenuOver : Obligations.SaveAndCopyEndInMenuOver := by
  refine ⟨⟨?_, ?_, ?_⟩, ?_, ?_, ?_⟩
  · intro s k bursts slots channels settled busy job canvas
    have ends := execSaveEnd_ends settled busy job
    have undefined := s.free.unsaved_undefined slots channels
    have leaves (t : State) := State.unsaved_leaves (s := s.free) (t := t) (slots := slots) (channels := channels)
    generalize s.free.unsaved slots channels = v at ends undefined leaves
    have composer : v.composer = s.composer := undefined.frame .composer (by simp)
    obtain ⟨begun, frame, takeover⟩ := State.startCopy_begun (v.onSeq fun q => { q with state := .suspended }) k
      (by rw [State.onSeq_composer, composer, canvas])
    generalize (v.onSeq fun q => { q with state := .suspended }).startCopy = t at ends begun frame takeover
    have scene : t.scene = v.scene := frame .scene (by simp)
    have motion : t.motion = v.motion := frame .motion (by simp)
    obtain ⟨silent, other, gone, kept, whole⟩ := leaves t (fun n => congrArg (·.channel n) motion)
      fun n => congrArg (·.obj n) scene
    have all : State.sameBut [.scene, .motion, .seq, .takeover] s.free t :=
      ((undefined.frame.trans (State.onSeq_frame v _)).trans frame).mono (by simp)
    refine ⟨t, ends, ((State.onBridge_frame s _).trans all).mono (by simp), all .bridge (by simp), ?_, ?_, ?_, silent,
      other, (congrArg Motion.profiles motion).trans undefined.profiles,
      (congrArg Scene.palettes scene).trans undefined.palettes, (congrArg Scene.load scene).trans undefined.load,
      gone, kept, whole, (congrArg Scene.order scene).trans undefined.order,
      (congrArg Scene.mark scene).trans undefined.mark_any⟩
    · rw [show t.seq = _ from frame .seq (by simp), State.onSeq_seq, show v.seq = _ from undefined.frame .seq (by simp)]
      rfl
    · simpa only [State.copyBegun, State.onSeq_composer, composer] using begun
    · rw [takeover, State.onSeq_takeover, show v.takeover = _ from undefined.frame .takeover (by simp)]
      rfl
  · intro s f bursts slots channels settled busy job canvas facts
    have ends := execSaveEnd_ends settled busy job
    have undefined := s.free.unsaved_undefined slots channels
    have leaves (t : State) := State.unsaved_leaves (s := s.free) (t := t) (slots := slots) (channels := channels)
    generalize s.free.unsaved slots channels = v at ends undefined leaves
    obtain ⟨silent, other, gone, kept, whole⟩ := leaves (v.onSeq fun q => { q with state := .suspended }).inMenuOver
      (fun _ => rfl) fun _ => rfl
    have composer : v.composer = s.composer := undefined.frame .composer (by simp)
    have takeover : v.takeover = s.takeover := undefined.frame .takeover (by simp)
    have intake : v.intake = s.intake := undefined.frame .intake (by simp)
    have seq : v.seq = s.seq := undefined.frame .seq (by simp)
    have bridge : v.bridge = { s.bridge with busy := none } := undefined.frame .bridge (by simp)
    rw [State.startCopy_ends (by rw [State.onSeq_composer, composer, canvas])] at ends
    refine ⟨(v.onSeq fun q => { q with state := .suspended }).inMenuOver, ?_, bridge, ?_, ?_, silent, other,
      undefined.profiles, undefined.palettes, undefined.load, rfl, gone, kept, whole, undefined.order,
      fun slot served => ?_, fun unserved => ?_⟩
    · have marked : State.sameBut [.scene, .takeover] (v.onSeq fun q => { q with state := .suspended }) _ :=
        State.inMenuOver_frame _
      exact (((State.onBridge_frame s _).trans undefined.frame).trans ((State.onSeq_frame v _).trans marked)).mono (by simp)
    · rw [← seq]
      rfl
    · rw [← takeover]
      rfl
    · rw [ends, State.copyDone_served (f := f) (slot := slot) (takeover.symm ▸ facts) (intake.symm ▸ served)]
      rw [← takeover]
      rfl
    · rw [ends, State.copyDone_unserved (f := f) (takeover.symm ▸ facts) (intake.symm ▸ unserved)]
      rw [← takeover, ← intake]
      rfl
  · rintro s u f settled busy facts rfl
    have ended : exec .copyEnd s = .next (s.free.copyDone.endStep s) :=
      (State.event_settled settled _).trans (by rw [State.atEnd_busy busy])
    rw [ended]
    refine ⟨fun slot served => ?_, fun unserved => ?_⟩
    · rw [State.copyDone_served (s := s.free) facts served]
      rfl
    · rw [State.copyDone_unserved (s := s.free) facts unserved]
      rfl
  · intro s addr words more slots channels job short room law
    dsimp only
    rw [State.grantTakeover_save job]
    obtain ⟨inside, outside⟩ := State.burstWritten_words (a := addr) (ws := words) (job := .save more slots channels)
      (last := more.isEmpty) (e := .save) law (by omega)
    refine ⟨s.burstWritten_frame, ?_, ?_, inside, outside⟩
    · rw [State.burstWritten_eq]
    · rw [State.burstWritten_eq]
      simp only [List.isEmpty_iff]
  · intro s facts slots channels aligned
    dsimp only
    rw [State.saveBursts_eq]
    refine ⟨?_, fun b hb => ?_⟩
    · rw [List.flatMap_append, List.flatMap_append, burstsOf_words, burstsOf_words, burstsOf_words]
      rfl
    · rw [List.mem_append, List.mem_append] at hb
      obtain (fixed | objects) | entries := hb
      · exact wordBursts_blocks _ _ _ aligned b fixed
      · exact wordBursts_blocks _ _ _ (by omega) b objects
      · exact wordBursts_blocks _ _ _ (by omega) b entries
  · intro s src dst total next
    refine ⟨State.grantTakeover_copyRead, fun words job length room law => ?_⟩
    dsimp only
    rw [State.grantTakeover_copyWrite job]
    obtain ⟨inside, outside⟩ := State.burstWritten_words (a := dst + 32 * next) (ws := words)
      (job := .copy src dst total (next + 1) none) (last := decide (total ≤ next + 1)) (e := .copy) law (by omega)
    refine ⟨s.burstWritten_frame, ?_, ?_, inside, fun x apart => outside x (by rwa [length])⟩
    · rw [State.burstWritten_eq]
    · rw [State.burstWritten_eq]
      simp only [decide_eq_true_eq]

end

end Sys2Proof.Machine

/-!
PROOF. O50: the end of RESTORE, its install, its flags and jump, and what the machine takes up after it.
-/

namespace Sys2Proof.Machine

section
variable {s t u v : State}

/-- The load of an index keeps the list setup, the shown slot and the current index. -/
theorem State.loadBegin_list (s : State) (j : Nat) (slot : Option Nat) :
    (s.loadBegin j slot).seq.list = s.seq.list := by
  cases ready : s.seq.readyAt j with
  | false => rw [((State.loadBegin_begun s j slot).2.2.1 ready).1]
  | true => rw [((State.loadBegin_begun s j slot).2.2.2 ready).2.1]

/-! ## The mark stands through snaps and rewinds -/

/-- A mark that is set stays set. -/
def State.KeepsMark (s t : State) : Prop := s.scene.mark = true → t.scene.mark = true

theorem State.KeepsMark.of_scene (h : t.scene.mark = s.scene.mark) : State.KeepsMark s t := fun set => h.trans set

theorem Scene.modify_keeps (sc : Scene) (k : Nat) (f : Obj → Obj) (set : sc.mark = true) :
    (sc.modify k f).mark = true := by
  cases here : sc.obj k with
  | none => rw [Scene.modify_none here, set]
  | some o => simp [Scene.modify_eq here, set]

theorem State.Undefined.keepsMark {slots : List Nat} (h : State.Undefined slots s t) : State.KeepsMark s t :=
  fun set => by rw [h.mark, set, Bool.true_or]

theorem State.freeChannel_keeps (s : State) (n : Nat) : State.KeepsMark s (s.freeChannel n) := by
  refine .of_scene ?_
  cases slot : (s.chan n).slot with
  | none =>
    simp only [State.freeChannel, slot]
    rfl
  | some k =>
    rw [State.freeChannel_eq s slot]
    exact (congrArg Scene.mark (Scene.bind_rest s.scene k none) :)

theorem State.request_keeps {r : MotionRequest} {owner : Owner} (taken : s.request r owner = some t) :
    State.KeepsMark s t := by
  unfold State.request at taken
  split at taken
  · cases taken
  · cases taken
    unfold State.applyRequest
    split
    · exact id
    · dsimp only
      split
      · exact .of_scene (by rw [State.putChan, State.onMotion_scene, State.onScene_scene, Scene.bind_rest])
      · exact id

theorem State.panRequest_keeps (s : State) : State.KeepsMark s s.panRequest := by
  unfold State.panRequest
  split
  · cases taken : s.request _ _ with
    | none => exact id
    | some t => exact State.request_keeps taken
  · exact id

theorem State.changeComplete_keeps (s : State) (kind : Nat) (snapped : Bool) (slot : Option Nat) :
    State.KeepsMark s (s.changeComplete kind snapped slot) := by
  have undefined : State.KeepsMark s s.undefineShown := by
    unfold State.undefineShown
    split
    · exact (State.undefineSlot_undefined s _).keepsMark
    · exact id
  intro set
  have set := undefined set
  unfold State.changeComplete
  dsimp only
  split
  · split
    · exact set
    · exact State.panRequest_keeps _ set
  · exact set

theorem State.notice_keeps (s : State) (n : Nat) (snapped : Bool) (slot : Option Nat) :
    State.KeepsMark s (s.notice n snapped slot) := by
  unfold State.notice
  split
  · exact id
  · dsimp only
    split
    · exact .of_scene rfl
    · exact fun set => State.changeComplete_keeps (s.onSeq _) _ snapped slot set

theorem State.endMotion_keeps (s : State) (n : Nat) (reason : EndReason) (abrupt snapped : Bool)
    (done shown : Option Nat) : State.KeepsMark s (s.endMotion n reason abrupt snapped done shown) := by
  have reported : State.KeepsMark s (s.reportEnd n reason abrupt done) := by
    unfold State.reportEnd
    dsimp only
    split <;> exact id
  have freed := fun set => State.freeChannel_keeps (s.reportEnd n reason abrupt done) n (reported set)
  unfold State.endMotion
  dsimp only
  generalize (s.reportEnd n reason abrupt done).freeChannel n = u at freed
  split
  · exact fun set => State.notice_keeps u n snapped shown (freed set)
  · exact freed

theorem State.snap_keeps (s : State) (n : Nat) (slot : Option Nat) : State.KeepsMark s (s.snap n slot) := by
  unfold State.snap
  dsimp only
  split
  · exact id
  · have written : State.KeepsMark s (s.writeMoved (s.chan n) (s.chan n).e1) := by
      unfold State.writeMoved
      split
      · exact Scene.modify_keeps _ _ _
      · exact id
    exact fun set => State.endMotion_keeps (State.putChan _ n _) n _ _ _ _ _ (written set)

theorem State.snapAwaited_keeps (s : State) (slot : Option Nat) : State.KeepsMark s (s.snapAwaited slot) := by
  intro set
  unfold State.snapAwaited
  dsimp only
  have first : (if s.seq.await5 then s.snap 5 slot else s).scene.mark = true := by
    split
    · exact State.snap_keeps s 5 slot set
    · exact set
  split
  · exact State.snap_keeps _ 6 slot first
  · exact first

theorem State.rewind_keeps (s : State) (n : Nat) : State.KeepsMark s (s.rewind n) := by
  unfold State.rewind
  dsimp only
  split
  · exact id
  · split
    · exact fun set => Scene.modify_keeps _ _ _ set
    · exact id

theorem State.rewindAwaited_keeps (s : State) : State.KeepsMark s s.rewindAwaited := by
  intro set
  unfold State.rewindAwaited
  dsimp only
  have first : (if s.seq.await5 then s.rewind 5 else s).scene.mark = true := by
    split
    · exact State.rewind_keeps s 5 set
    · exact set
  split
  · exact State.rewind_keeps _ 6 first
  · exact first

/-! ## The flag and the jump (R167) -/

section
variable {r : SaveRecord} {slot : Option Nat}

/-- A record installed, with its transition flag applied (items 1 to 5 of R167). -/
def State.flagged (u : State) (r : SaveRecord) : State := (u.installRecord r).applyTransitionFlag r u.serviceSlot

/-- The flag applied is a rewind, a snap or nothing (item 5 of R167). -/
theorem State.flagged_eq (fault : u.recordFault r = none) : u.flagged r =
    if decide (r.state = some .changing) = false then u.installRecord r
    else if decide (byteAt r.bytes 13 = 1) then (u.installRecord r).rewindAwaited
    else (u.installRecord r).snapAwaited u.serviceSlot := by
  have changing := (State.installRecord_installed u fault).2
  unfold State.flagged State.applyTransitionFlag SaveRecord.transitionFlag
  by_cases h : r.state = some .changing
  · simp [h, changing.mpr h]
  · simp [h, mt changing.mp h]

theorem State.flagged_notified (u : State) (r : SaveRecord) : State.Notified (u.installRecord r) (u.flagged r) := by
  unfold State.flagged State.applyTransitionFlag
  split
  · exact .of_same (State.sameBut_refl _ _)
  · split
    · exact .of_same (State.rewindAwaited_frame _)
    · exact State.snapAwaited_notified _ _

theorem State.flagged_keeps (u : State) (r : SaveRecord) : State.KeepsMark (u.installRecord r) (u.flagged r) := by
  unfold State.flagged State.applyTransitionFlag
  split
  · exact id
  · split
    · exact State.rewindAwaited_keeps _
    · exact State.snapAwaited_keeps _ _

/-- The state that a record names is the one installed. -/
theorem State.recordInstalled.state {a : State} (h : State.recordInstalled u r a) : r.state = some a.seq.state := by
  obtain ⟨-, -, -, -, -, -, -, -, -, -, state, shown, hold, named, -, -, seq⟩ := h
  rw [named, seq]

theorem State.recordInstalled.list {a : State} (h : State.recordInstalled u r a) : a.seq.list = u.seq.list := by
  obtain ⟨-, -, -, -, -, -, -, -, -, -, state, shown, hold, -, -, -, seq⟩ := h
  rw [seq]

theorem State.recordInstalled.ready {a : State} (h : State.recordInstalled u r a) : a.seq.ready = u.seq.ready := by
  obtain ⟨-, -, -, -, -, -, -, -, -, -, state, shown, hold, -, -, -, seq⟩ := h
  rw [seq]

/-- A completed change does not end the show. -/
theorem State.Notified.stopped_iff (h : State.Notified s t) : t.seq.state = .stopped ↔ s.seq.state = .stopped := by
  obtain same | ⟨before, after⟩ := h.state
  · rw [same]
  · simp [before, after]

/-- The jump index that acts, by the record alone (item 6 of R167). -/
def SaveRecord.acts (r : SaveRecord) (u : State) : Option Nat :=
  r.jump.filter fun j => decide (j < u.seq.setup.count ∧ r.state ≠ some .stopped)

theorem State.jumpTarget_acts (fault : u.recordFault r = none) : (u.flagged r).jumpTarget r = r.acts u := by
  have installed := (State.installRecord_installed u fault).1
  have notified := u.flagged_notified r
  have setup : (u.flagged r).seq.setup = u.seq.setup := by
    rw [Sequencer.setup, Sequencer.setup, notified.list, installed.list]
  have stopped : (u.flagged r).seq.state = .stopped ↔ r.state = some .stopped := by
    rw [notified.stopped_iff, installed.state, Option.some_inj]
  unfold State.jumpTarget SaveRecord.acts
  refine congrArg (fun acts => r.jump.filter acts) (funext fun j => ?_)
  rw [setup, Bool.eq_iff_iff, decide_eq_true_iff, Ne, ← stopped]
  simp

/-- A record installed, with its transition flag applied and its jump begun (items 1 to 6 of R167). -/
def State.jumped (u : State) (r : SaveRecord) : State := (u.flagged r).applyJump (r.acts u) u.serviceSlot

/-- An awaited change is snapped for a jump (item 6 of R167). -/
def State.snapChanging (s : State) (slot : Option Nat) : State :=
  if s.seq.state = .changing then s.snapAwaited slot else s

/-- The Sequencer steps to no side for a jump (item 6 of R167). -/
def State.jumpReady (s : State) : State := s.onSeq fun q => { q with dwell := 0, backward := false, skip := 0 }

theorem State.jumped_stays (none : r.acts u = none) : u.jumped r = u.flagged r := by
  rw [State.jumped, none]
  rfl

theorem State.jumped_loads {j : Nat} (acts : r.acts u = some j) : u.jumped r =
    ((((u.flagged r).snapChanging u.serviceSlot).jumpReady).loadBegin j u.serviceSlot).onTakeover
      fun t => { t with jumpPending := true } := by
  rw [State.jumped, acts]
  rfl

theorem State.snapChanging_notified (s : State) (slot : Option Nat) : State.Notified s (s.snapChanging slot) := by
  unfold State.snapChanging
  split
  · exact State.snapAwaited_notified s slot
  · exact .of_same (State.sameBut_refl s _)

theorem State.snapChanging_keeps (s : State) (slot : Option Nat) : State.KeepsMark s (s.snapChanging slot) := by
  unfold State.snapChanging
  split
  · exact State.snapAwaited_keeps s slot
  · exact id

/-- What the install, the flag and the jump leave as it was (R167). -/
structure State.Installed (u c : State) : Prop where
  frame : State.sameBut [.bridge, .scene, .motion, .seq, .takeover, .events] u c
  bridge : c.bridge = { u.bridge with fetch := c.bridge.fetch }
  takeover : c.takeover = { u.takeover with jumpPending := c.takeover.jumpPending }
  list : c.seq.list = u.seq.list
  ready : c.seq.ready = u.seq.ready
  mark : c.scene.mark = true

theorem State.flagged_installed (fault : u.recordFault r = none) : State.Installed u (u.flagged r) := by
  have installed := (State.installRecord_installed u fault).1
  have notified := u.flagged_notified r
  have frame : State.sameBut [.scene, .motion, .seq, .events] u (u.flagged r) :=
    (installed.1.trans notified.frame).mono (by simp)
  obtain ⟨-, -, -, -, marked, -⟩ := id installed
  refine ⟨frame.mono (by simp), ?_, ?_, notified.list.trans installed.list, notified.ready.trans installed.ready,
    u.flagged_keeps r marked⟩
  · rw [show (u.flagged r).bridge = u.bridge from frame .bridge (by simp)]
  · rw [show (u.flagged r).takeover = u.takeover from frame .takeover (by simp)]

theorem State.jumped_installed (fault : u.recordFault r = none) : State.Installed u (u.jumped r) := by
  have flagged := State.flagged_installed fault
  cases acts : r.acts u with
  | none => rw [State.jumped_stays acts]; exact flagged
  | some j =>
    have notified := (u.flagged r).snapChanging_notified u.serviceSlot
    have keeps := (u.flagged r).snapChanging_keeps u.serviceSlot flagged.mark
    rw [State.jumped_loads acts]
    generalize (u.flagged r).snapChanging u.serviceSlot = d at notified keeps
    have begun := State.loadBegin_frame d.jumpReady j u.serviceSlot
    have fetch := State.loadBegin_bridge d.jumpReady j u.serviceSlot
    have ready := State.loadBegin_ready d.jumpReady j u.serviceSlot
    have list : (d.jumpReady.loadBegin j u.serviceSlot).seq.list = d.seq.list := State.loadBegin_list d.jumpReady j _
    generalize d.jumpReady.loadBegin j u.serviceSlot = v at begun fetch ready list
    have same : State.sameBut [.seq] d d.jumpReady := State.onSeq_frame d _
    have whole := ((notified.frame.trans same).trans begun)
    refine ⟨(flagged.frame.trans (whole.trans (State.onTakeover_frame v _))).mono (by simp), ?_, ?_,
      list.trans (notified.list.trans flagged.list), ready.trans (notified.ready.trans flagged.ready), ?_⟩
    · rw [State.onTakeover_bridge, fetch, show d.jumpReady.bridge = d.bridge from rfl,
        show d.bridge = (u.flagged r).bridge from notified.frame .bridge (by simp), flagged.bridge]
    · rw [State.onTakeover_takeover, show v.takeover = (u.flagged r).takeover from whole .takeover (by simp),
        flagged.takeover]
    · rw [State.onTakeover_scene, show v.scene = d.scene from (same.trans begun) .scene (by simp)]
      exact keeps

/-! ## The end of RESTORE (R168, R171) -/

/-- RESTORE has ended: the save base moves, TAKEOVER LEFT is raised, and RESUME completes (R168, R171). -/
def State.resumed (c : State) (r : SaveRecord) (left : Event) (slot : Option Nat) : State :=
  (State.raise
    { c with
      takeover := { c.takeover with saveBase := r.nextBase, phase := none, job := .none }
      bridge := { c.bridge with window := { c.bridge.window with saveBase := r.nextBase } } } left slot).complete 0

theorem State.resumed_frame (c : State) (r : SaveRecord) (left : Event) (slot : Option Nat) :
    State.sameBut [.takeover, .bridge, .events, .intake] c (c.resumed r left slot) := by
  intro p hp
  cases p <;> simp_all [Part.same, State.resumed, State.complete_eq, State.raise]

theorem State.resumed_takeover (c : State) (r : SaveRecord) (left : Event) (slot : Option Nat) :
    (c.resumed r left slot).takeover = { c.takeover with saveBase := r.nextBase, phase := none, job := .none } := rfl

theorem State.resumed_bridge (c : State) (r : SaveRecord) (left : Event) (slot : Option Nat) :
    (c.resumed r left slot).bridge = { c.bridge with window := { c.bridge.window with saveBase := r.nextBase } } := rfl

theorem State.resumed_intake (c : State) (r : SaveRecord) (left : Event) (slot : Option Nat) :
    (c.resumed r left slot).intake = { c.intake with inService := none, code := 0, inRun := false } := rfl

/-- TAKEOVER LEFT for the record `r` (R171). -/
def State.leaving (u c : State) (r : SaveRecord) : Event :=
  .takeoverLeft c.seq.state (decide (r.nextBase ≠ u.takeover.saveBase))
    (decide (r.state = some .changing) && decide (byteAt r.bytes 13 = 1))
    (decide (r.state = some .changing) && decide (byteAt r.bytes 13 = 0))
    (r.acts u).isSome u.takeover.held r.nextBase c.seq.current

/-- The state as RESTORE ends (R168, R171). -/
def State.restored (u : State) (r : SaveRecord) : State :=
  (u.jumped r).resumed r (u.leaving (u.jumped r) r) u.serviceSlot

/-- What follows the end of RESTORE: the held request, or NORMAL and the load that the Sequencer takes up (R168). -/
def State.afterRestore (e : State) (held : Bool) : State :=
  if held then (e.onTakeover fun t => { t with held := false }).acceptRequest .held
  else (e.onTakeover fun t => { t with state := .normal }).takeUpLoad

theorem State.restoreDone_eq (c : State) (r : SaveRecord) (redone finished jumped : Bool) (slot : Option Nat) :
    c.restoreDone r redone finished jumped slot =
      (c.resumed r (.takeoverLeft c.seq.state (r.nextBase != c.takeover.saveBase) redone finished jumped c.takeover.held
        r.nextBase c.seq.current) slot).afterRestore c.takeover.held := rfl

theorem State.restoreRead_eq {bytes : List Byte} (fault : u.recordFault (saveRecordOf bytes) = none) :
    u.restoreRead bytes =
      let r := saveRecordOf bytes
      let changing := (u.installRecord r).seq.state == .changing
      ((u.flagged r).applyJump ((u.flagged r).jumpTarget r) u.serviceSlot).restoreDone r
        (changing && r.transitionFlag == 1) (changing && r.transitionFlag == 0) ((u.flagged r).jumpTarget r).isSome
        u.serviceSlot := by
  simp only [State.restoreRead, fault]
  rfl

theorem State.restoreRead_installs {bytes : List Byte} (fault : u.recordFault (saveRecordOf bytes) = none) :
    u.restoreRead bytes = (u.restored (saveRecordOf bytes)).afterRestore u.takeover.held := by
  have held : (u.jumped (saveRecordOf bytes)).takeover.held = u.takeover.held := by
    rw [(State.jumped_installed fault).takeover]
  have base : (u.jumped (saveRecordOf bytes)).takeover.saveBase = u.takeover.saveBase := by
    rw [(State.jumped_installed fault).takeover]
  rw [State.restoreRead_eq fault]
  dsimp only
  rw [State.jumpTarget_acts fault]
  have changing := (State.installRecord_installed u fault).2
  generalize saveRecordOf bytes = r at *
  have same : ((u.installRecord r).seq.state == .changing) = decide (r.state = some .changing) := by
    rw [Bool.eq_iff_iff, beq_iff_eq, decide_eq_true_iff, changing]
  have moved : (r.nextBase != u.takeover.saveBase) = decide (r.nextBase ≠ u.takeover.saveBase) := by
    rw [Bool.eq_iff_iff]
    simp
  have flag (n : Nat) : (r.transitionFlag == n) = decide (byteAt r.bytes 13 = n) := by
    rw [Bool.eq_iff_iff]
    simp [SaveRecord.transitionFlag]
  rw [same, ← State.jumped, State.restoreDone_eq, held, base, moved, flag, flag, State.restored, State.leaving]

/-- The Sequencer takes up the load of its incoming index when the state becomes NORMAL (R168). -/
def State.takesUp (f : State) (i : Nat) : Prop :=
  f.seq.incoming = some i
    ∧ (f.seq.state = .loading ∧ f.seq.read = none ∨ f.seq.state = .waiting ∧ f.seq.readyAt i = true)

theorem State.takeUpLoad_loads {f : State} {i : Nat} (takes : f.takesUp i) : f.takeUpLoad = f.loadBegin i none := by
  obtain ⟨incoming, ⟨state, read⟩ | ⟨state, ready⟩⟩ := takes
  · simp [State.takeUpLoad, incoming, state, read]
  · simp [State.takeUpLoad, incoming, state, ready]

theorem State.takeUpLoad_rests {f : State} (rests : ∀ i, ¬ f.takesUp i) : f.takeUpLoad = f := by
  unfold State.takeUpLoad
  split
  · next i state incoming =>
    exact if_neg fun read => rests i ⟨incoming, .inl ⟨state, Option.isNone_iff_eq_none.mp read⟩⟩
  · next i state incoming => exact if_neg fun ready => rests i ⟨incoming, .inr ⟨state, ready⟩⟩
  · rfl

/-- What follows the end of RESTORE leaves all of the show but its state, and that too unless a load is waited for. -/
structure State.Resumes (e t : State) : Prop where
  frame : State.sameBut [.seq, .bridge, .events, .takeover] e t
  bridge : t.bridge = { e.bridge with fetch := t.bridge.fetch }
  saveBase : t.takeover.saveBase = e.takeover.saveBase
  held : t.takeover.held = false
  seq : ∃ state late read, t.seq = { e.seq with state := state, late := late, read := read }
    ∧ (e.seq.state ≠ .loading → e.seq.state ≠ .waiting → state = e.seq.state)

theorem State.takeUpLoad_resumes {f : State} (held : f.takeover.held = false) : State.Resumes f f.takeUpLoad := by
  by_cases takes : ∃ i, f.takesUp i
  · obtain ⟨i, takes⟩ := takes
    rw [State.takeUpLoad_loads takes]
    obtain ⟨incoming, waits⟩ := takes
    obtain ⟨frame, bridge, waiting, loading⟩ := f.loadBegin_begun i none
    have takeover : (f.loadBegin i none).takeover = f.takeover := frame .takeover (by simp)
    refine ⟨frame.mono (by simp), bridge, by rw [takeover], by rw [takeover, held], ?_⟩
    have rests : f.seq.state = .loading ∨ f.seq.state = .waiting := waits.imp And.left And.left
    cases ready : f.seq.readyAt i with
    | false => exact ⟨_, _, _, (waiting ready).1.trans (by rw [← incoming]), fun a b => (rests.elim a b).elim⟩
    | true => exact ⟨_, _, _, (loading ready).2.1.trans (by rw [← incoming]), fun a b => (rests.elim a b).elim⟩
  · rw [State.takeUpLoad_rests fun i h => takes ⟨i, h⟩]
    exact ⟨State.sameBut_refl f _, rfl, rfl, held, _, _, _, rfl, fun _ _ => rfl⟩

theorem State.takeUpLoad_takeover (f : State) : f.takeUpLoad.takeover = f.takeover := by
  by_cases takes : ∃ i, f.takesUp i
  · obtain ⟨i, takes⟩ := takes
    rw [State.takeUpLoad_loads takes]
    exact f.loadBegin_frame i none .takeover (by simp)
  · rw [State.takeUpLoad_rests fun i h => takes ⟨i, h⟩]

theorem State.enters_resumes (entered : State.enters (s.onTakeover fun t => { t with held := false }) .held t) :
    State.Resumes s t ∧ t.takeover.state = .entering := by
  obtain ⟨drains, saves⟩ := entered
  have frame (k : Takeover) : State.sameBut [.seq, .bridge, .events, .takeover] s { s with takeover := k } :=
    (State.onTakeover_frame s fun _ => k).mono (by simp)
  by_cases waits : (s.onTakeover fun t => { t with held := false }).drainWaits
  · rw [drains waits]
    exact ⟨⟨frame _, rfl, rfl, rfl, _, _, _, rfl, fun _ _ => rfl⟩, rfl⟩
  · obtain ⟨bursts, slots, channels, begun, -⟩ := saves waits
    rw [begun]
    exact ⟨⟨frame _, rfl, rfl, rfl, _, _, _, rfl, fun _ _ => rfl⟩, rfl⟩

end

/-- What follows the end of RESTORE, and the takeover state it leaves (R168). -/
theorem State.afterRestore_resumes (e : State) : State.Resumes e (e.afterRestore e.takeover.held)
    ∧ (e.takeover.held = true → (e.afterRestore e.takeover.held).takeover.state = .entering)
    ∧ (e.takeover.held = false →
        (e.afterRestore e.takeover.held).takeover = { e.takeover with state := .normal }) := by
  cases held : e.takeover.held with
  | true =>
    obtain ⟨resumes, state⟩ := State.enters_resumes (State.acceptRequest_enters _ _)
    exact ⟨resumes, fun _ => state, fun h => absurd h (by simp)⟩
  | false =>
    obtain ⟨frame, bridge, saveBase, free, seq⟩ :=
      State.takeUpLoad_resumes (f := e.onTakeover fun t => { t with state := .normal }) held
    exact ⟨⟨((State.onTakeover_frame e _).trans frame).mono (by simp), bridge, saveBase, free, seq⟩,
      fun h => absurd h (by simp), fun _ => State.takeUpLoad_takeover _⟩

/-- The end of a step touches the Event Unit alone. -/
theorem State.endStep_frame (t old : State) : State.sameBut [.events] t (t.endStep old) := by
  unfold State.endStep State.noteStatus
  split
  · exact State.onEvents_frame t _
  · exact ((State.onEvents_frame t _).trans (State.onEvents_frame _ _)).mono (by simp)

/-! ## A rewind, told whole (R91) -/

/-- A rewind of a motion over a defined object writes E0 into it (R91). -/
theorem State.rewind_written {n k : Nat} {o : Obj} (moves : (s.chan n).phase ≠ .idle ∧ (s.chan n).phase ≠ .held)
    (slot : (s.chan n).slot = some k) (here : s.obj k = some o) {r : Channel} (rewound : (s.chan n).rewound = r) :
    s.rewind n =
      let moved := o.moveTo (s.chan n).moved (s.chan n).view (s.chan n).e0
      { s with
        scene :=
          { s.scene with
            slots := s.scene.slots.setIfInBounds k (some moved)
            mark := s.scene.mark || (decide (moved ≠ o) && s.scene.placed k) }
        motion := s.motion.putChannel n r } := by
  rw [State.rewind_eq moves slot, Scene.modify_eq (show s.scene.obj k = some o from here), rewound]

theorem Channel.rewound_moving {c : Channel}
    (moving : c.phase ∈ [.lead, .accel, .cruise, .slow, .decel, .creep, .stopping]) :
    c.rewound =
      { c with
        s := 0, v := c.prof.vs, lead := c.prof.lead, vtop := peakSearch c.prof c.prof.vs c.prof.lead c.travel
        phase :=
          if 0 < c.prof.lead then .lead
          else if c.prof.vs < peakSearch c.prof c.prof.vs c.prof.lead c.travel then .accel else .cruise } := by
  unfold Channel.rewound
  split
  · next held => simp [held] at moving
  · next easing => simp [easing] at moving
  · rfl

theorem Channel.rewound_easing {c : Channel} (easing : c.phase = .easing) (holds : c.release = false) :
    c.rewound = { c with s := 0, v := c.prof.vs, lead := 0, phase := .held } := by
  simp [Channel.rewound, easing, holds]

/-- An EASING channel whose release is recorded starts over, with no lead (R87, R91). -/
theorem Channel.rewound_released {c : Channel} (easing : c.phase = .easing) (released : c.release = true) :
    c.rewound =
      { c with
        s := 0, v := c.prof.vs, lead := 0, vtop := peakSearch c.prof c.prof.vs 0 c.travel
        hold := none, release := false
        phase := if c.prof.vs < peakSearch c.prof c.prof.vs 0 c.travel then .accel else .cruise } := by
  simp only [Channel.rewound, easing, released, if_true]
  rfl

/-! ## The bursts of RESTORE (R166, R184) -/

theorem State.grantTakeover_restore {granted addr n : Nat} {bytes : List Byte}
    (job : s.takeover.job = .restore granted bytes)
    (burst : (restorePlan s.takeover.saveBase bytes)[granted]? = some (addr, n)) :
    s.grantTakeover =
      let got := bytes ++ (s.readWords addr n).flatMap wordBytes
      { s with
        takeover := { s.takeover with job := .restore (granted + 1) got }
        bridge :=
          { s.bridge with
            busy :=
              if (restorePlan s.takeover.saveBase got).length ≤ granted + 1 then some .restore
              else s.bridge.busy } } := by
  unfold State.grantTakeover
  rw [job]
  simp only [burst]
  split <;> rfl

theorem restorePlan_words (base : Nat) (bytes : List Byte) :
    ((restorePlan base bytes).flatMap fun (a, n) => (List.range n).map (a + 4 * ·))
      = (List.range 24).map (base + 4 * ·) ++
        (if bytes.length < 96 then []
          else (List.range (12 * min 48 (byteAt bytes 20))).map (base + 96 + 4 * ·)
            ++ (List.range (16 * min 8 (byteAt bytes 21))).map (base + 2400 + 4 * ·)) := by
  have words (fuel a n : Nat) (h : n ≤ fuel) : ((splitBursts fuel a n).flatMap fun (a, n) =>
      (List.range n).map (a + 4 * ·)) = (List.range n).map (a + 4 * ·) := splitBursts_words fuel a n h
  unfold restorePlan
  rw [List.flatMap_append, words 24 base 24 le_rfl]
  split
  · rfl
  · rw [List.flatMap_append, words, words]
    · rfl
    · unfold channelsRead
      omega
    · unfold objectsRead
      omega

theorem restorePlan_blocks {base : Nat} (aligned : base % 32 = 0) (bytes : List Byte) :
    ∀ b ∈ restorePlan base bytes, 1 ≤ b.2 ∧ b.2 ≤ 8 ∧ (b.1 + 4 * (b.2 - 1)) / 32 = b.1 / 32 := by
  intro b hb
  rw [restorePlan, List.mem_append] at hb
  obtain fixed | entries := hb
  · exact splitBursts_blocks _ _ _ (by omega) b fixed
  · split at entries
    · cases entries
    · obtain objects | channels := List.mem_append.mp entries
      · exact splitBursts_blocks _ _ _ (by omega) b objects
      · exact splitBursts_blocks _ _ _ (by omega) b channels

/-! ## The obligation -/

theorem execRestoreReadEnd_reads {granted : Nat} {bytes : List Byte} (settled : s.Settled)
    (busy : s.bridge.busy = some .restore) (job : s.takeover.job = .restore granted bytes) :
    exec .restoreReadEnd s = .next ((s.free.restoreRead bytes).endStep s) := by
  refine (State.event_settled settled _).trans ?_
  rw [State.atEnd_busy busy, show s.free.takeover.job = _ from job]

/-- A failed RESTORE locks the machine out (R169). -/
theorem State.restoreRead_locks {bytes : List Byte} {reason : LockReason} {detail : Nat}
    (fault : u.recordFault (saveRecordOf bytes) = some (reason, detail)) :
    u.restoreRead bytes = u.enterLockout reason detail u.serviceSlot := by
  simp only [State.restoreRead, fault]

section
variable {granted : Nat} {bytes : List Byte} {r : SaveRecord}

/-- What every installed record leaves at the end of its RESTORE (R167, R168). -/
theorem State.restore_leaves (fault : u.recordFault r = none) (old : State) :
    let t := ((u.restored r).afterRestore u.takeover.held).endStep old
    State.sameBut [.bridge, .intake, .scene, .motion, .seq, .takeover, .events] u t
      ∧ t.intake = { u.intake with inService := none, code := 0, inRun := false }
      ∧ t.takeover.saveBase = r.nextBase ∧ t.bridge.window.saveBase = r.nextBase
      ∧ t.takeover.held = false
      ∧ (u.takeover.held = false → t.takeover.state = .normal ∧ t.takeover.phase = none
          ∧ t.takeover.jumpPending = (u.jumped r).takeover.jumpPending)
      ∧ (u.takeover.held = true → t.takeover.state = .entering)
      ∧ t.scene = (u.jumped r).scene ∧ t.motion = (u.jumped r).motion
      ∧ ∃ state late read, t.seq = { (u.jumped r).seq with state := state, late := late, read := read }
        ∧ ((u.jumped r).seq.state ≠ .loading → (u.jumped r).seq.state ≠ .waiting → state = (u.jumped r).seq.state) := by
  obtain ⟨frame, -, takeover, -⟩ := State.jumped_installed fault
  unfold State.restored
  generalize u.jumped r = c at frame takeover
  have ends := c.resumed_frame r (u.leaving c r) u.serviceSlot
  have takeover' := c.resumed_takeover r (u.leaving c r) u.serviceSlot
  have bridge' := c.resumed_bridge r (u.leaving c r) u.serviceSlot
  have intake' := c.resumed_intake r (u.leaving c r) u.serviceSlot
  generalize c.resumed r (u.leaving c r) u.serviceSlot = e at ends takeover' bridge' intake'
  have held : u.takeover.held = e.takeover.held := by rw [takeover', takeover]
  obtain ⟨resumes, entering, normal⟩ := e.afterRestore_resumes
  rw [held]
  generalize e.afterRestore e.takeover.held = v at resumes entering normal
  have closes := v.endStep_frame old
  dsimp only
  generalize v.endStep old = t at closes
  obtain ⟨rest, window, saveBase, free, seq⟩ := resumes
  have same : t.takeover = v.takeover := closes .takeover (by simp)
  have whole := (ends.trans rest).trans closes
  refine ⟨(frame.trans whole).mono (by simp), ?_, ?_, ?_, same ▸ free, fun h => ?_, fun h => same ▸ entering h,
    whole .scene (by simp), whole .motion (by simp), ?_⟩
  · rw [show t.intake = e.intake from (rest.trans closes) .intake (by simp), intake',
      show c.intake = u.intake from frame .intake (by simp)]
  · rw [same, saveBase, takeover']
  · rw [show t.bridge = v.bridge from closes .bridge (by simp), window, bridge']
  · rw [same, normal h, takeover']
    exact ⟨rfl, rfl, rfl⟩
  · rw [show t.seq = v.seq from closes .seq (by simp), ← show e.seq = c.seq from ends .seq (by simp)]
    exact seq

theorem SaveRecord.acts_some {j : Nat} (named : r.jump = some j) (low : j < u.seq.setup.count)
    (runs : r.state ≠ some .stopped) : r.acts u = some j := by
  rw [SaveRecord.acts, named]
  simp [low, runs]

theorem SaveRecord.acts_none (idle : ∀ j, r.jump = some j → u.seq.setup.count ≤ j ∨ r.state = some .stopped) :
    r.acts u = none := by
  rw [SaveRecord.acts, Option.filter_eq_none_iff]
  intro j named acts
  obtain ⟨low, runs⟩ := of_decide_eq_true acts
  exact (idle j named).elim (Nat.not_le.mpr low) runs

/-- Neither flag nor jump acts: the record is installed, and nothing else (R167). -/
theorem State.jumped_quiet (fault : u.recordFault r = none) (still : r.state ≠ some .changing)
    (idle : ∀ j, r.jump = some j → u.seq.setup.count ≤ j ∨ r.state = some .stopped) : u.jumped r = u.installRecord r := by
  rw [State.jumped_stays (SaveRecord.acts_none idle), State.flagged_eq fault, if_pos (decide_eq_false still)]

/-- A jump that acts has its index incoming and is pending (R167). -/
theorem State.jumped_incoming {j : Nat} (acts : r.acts u = some j) :
    (u.jumped r).seq.incoming = some j ∧ (u.jumped r).takeover.jumpPending = true := by
  rw [State.jumped_loads acts]
  exact ⟨State.loadBegin_incoming _ j _, rfl⟩

/-- A RESTORE whose record passes (R167, R168). -/
theorem restoreReadEnd_installs (settled : s.Settled) (busy : s.bridge.busy = some .restore)
    (job : s.takeover.job = .restore granted bytes) (fault : s.free.recordFault (saveRecordOf bytes) = none) :
    exec .restoreReadEnd s = .next
      (((s.free.restored (saveRecordOf bytes)).afterRestore s.free.takeover.held).endStep s) := by
  rw [execRestoreReadEnd_reads settled busy job, State.restoreRead_installs fault]

end

/-- Settles O50: the end of RESTORE in its stages, the rewind by the phase, and the plan of the bursts. -/
theorem restoreInstallsOrLocksOut : Obligations.RestoreInstallsOrLocksOut := by
  refine ⟨?_, ?_, fun s => rfl, ?_, fun s granted addr n bytes => State.grantTakeover_restore,
    fun base bytes aligned => ⟨restorePlan_words base bytes, restorePlan_blocks aligned bytes⟩⟩
  · rintro s granted bytes r settled busy job leaving rfl
    refine ⟨fun reason detail fault => ?_, fun fault => ?_⟩
    · rw [execRestoreReadEnd_reads settled busy job,
        State.restoreRead_locks (show s.free.recordFault (saveRecordOf bytes) = _ from fault)]
      rfl
    · have ends := restoreReadEnd_installs settled busy job fault
      obtain ⟨frame, intake, saveBase, window, held, normal, entering, scene, motion, state, late, read, seq, stays⟩ :=
        State.restore_leaves (u := s.free) fault s
      have installs := State.jumped_installed (u := s.free) fault
      have quiet := State.jumped_quiet (u := s.free) fault
      have jumps {j : Nat} := State.jumped_incoming (u := s.free) (r := saveRecordOf bytes) (j := j)
      have record := (State.installRecord_installed s.free (s := s.free) fault).1
      generalize saveRecordOf bytes = r at *
      generalize ((s.free.restored r).afterRestore s.free.takeover.held).endStep s = t at *
      refine ⟨t, ends, ((State.onBridge_frame s _).trans frame).mono (by simp), intake, saveBase, window, held,
        fun free => ⟨(normal free).1, (normal free).2.1⟩, entering, by rw [scene, installs.mark], ?_, ?_, ?_, ?_⟩
      · rw [seq]
        exact installs.list
      · rw [seq]
        exact installs.ready
      · intro still idle
        rw [quiet still idle] at scene motion seq stays
        have obj (n : Nat) : t.obj n = (s.free.installRecord r).obj n := congrArg (·.obj n) scene
        have chan (n : Nat) : t.chan n = (s.free.installRecord r).chan n := congrArg (·.channel n) motion
        have named := record.state
        obtain ⟨-, put, kept, front, -, -, -, channels, others, -, known, shown, hold, -, shows, -, context⟩ := record
        rw [scene, seq]
        refine ⟨fun e he => (obj _).trans (put e he), fun e he => (chan _).trans (channels e he),
          fun n hn => (obj n).trans (kept n hn), fun n hn => (chan n).trans (others n hn), front, ?_, ?_,
          fun notLoading notWaiting => ?_⟩
        · rw [context]
        · rw [context, shows]
        · rw [named, ne_eq, Option.some_inj] at notLoading notWaiting
          rw [named, stays notLoading notWaiting]
      · intro j jump low runs
        obtain ⟨incoming, pending⟩ := jumps (SaveRecord.acts_some jump low runs)
        refine ⟨by rw [seq, incoming], fun free => ?_⟩
        rw [(normal free).2.2, pending]
  · rintro s granted bytes r settled busy job leaving rfl fault
    have ends := restoreReadEnd_installs settled busy job fault
    refine ⟨s.free.installRecord (saveRecordOf bytes), s.free.flagged (saveRecordOf bytes),
      s.free.jumped (saveRecordOf bytes), s.free.restored (saveRecordOf bytes),
      (State.installRecord_installed s.free (s := s.free) fault).1, State.flagged_eq (u := s.free) fault,
      fun stays => State.jumped_stays stays, fun j acts => ⟨_, State.loadBegin_begun _ j _, State.jumped_loads acts⟩, rfl,
      fun held => ?_, fun free => ?_⟩
    · rw [State.afterRestore, show s.free.takeover.held = true from held, if_pos rfl] at ends
      exact ⟨_, ends, State.acceptRequest_enters _ _⟩
    · rw [State.afterRestore, show s.free.takeover.held = false from free, if_neg Bool.false_ne_true] at ends
      exact ⟨fun i takes => ⟨_, ends.trans (congrArg (fun t : State => (.next (t.endStep s) : Result))
        (State.takeUpLoad_loads takes)), State.loadBegin_begun _ i none⟩, fun rests => ends.trans
        (congrArg (fun t : State => (.next (t.endStep s) : Result)) (State.takeUpLoad_rests rests))⟩
  · rintro s n c low rfl
    refine ⟨fun still => if_pos still, fun k o slot here => ?_⟩
    refine ⟨fun moving => State.rewind_written ?_ slot here (Channel.rewound_moving moving), fun easing holds =>
      State.rewind_written ?_ slot here (Channel.rewound_easing easing holds), fun easing released =>
      State.rewind_written ?_ slot here (Channel.rewound_released easing released)⟩
    · constructor <;> intro still <;> simp [still] at moving
    · simp [easing]
    · simp [easing]

end

end Sys2Proof.Machine

/-!
PROOF. O30: one frame tick, part by part, and what all its parts together keep.
-/

namespace Sys2Proof.Machine

section
variable {s t u v : State}

/-! ## The order of the parties (log entry 7) -/

theorem nodup_eraseDups {α : Type} [BEq α] [LawfulBEq α] (l : List α) : l.eraseDups.Nodup := by
  match l with
  | [] => simp
  | a :: as =>
    rw [List.eraseDups_cons, List.nodup_cons, List.mem_eraseDups, List.mem_filter]
    exact ⟨by simp, nodup_eraseDups _⟩
termination_by l.length
decreasing_by exact Nat.lt_succ_of_le (List.length_filter_le _ _)

theorem mem_tickParts (p : TickPart) : p ∈ tickParts := by
  cases p with
  | channel n => revert n; decide
  | composer => decide
  | sequencer => decide

theorem tickOrder_perm (order : List TickPart) : (tickOrder order).Perm tickParts := by
  refine (List.perm_ext_iff_of_nodup (nodup_eraseDups _) (by decide)).mpr fun p => ?_
  simp [List.mem_eraseDups, mem_tickParts]

theorem tickOrder_begins (order : List TickPart) : order.eraseDups <+: tickOrder order := by
  rw [tickOrder, List.eraseDups_append]
  exact ⟨_, rfl⟩

/-- The Composer takes the tick once: parties of the others come before it and after it. -/
theorem tickOrder_split (order : List TickPart) :
    ∃ a b, tickOrder order = a ++ .composer :: b ∧ .composer ∉ a ∧ .composer ∉ b := by
  have here : .composer ∈ tickOrder order := by simp [tickOrder, List.mem_eraseDups, mem_tickParts]
  obtain ⟨a, b, split⟩ := List.append_of_mem here
  have nodup : (a ++ .composer :: b).Nodup := split ▸ nodup_eraseDups _
  rw [List.nodup_middle, List.nodup_cons, List.mem_append, not_or] at nodup
  exact ⟨a, b, split, nodup.1.1, nodup.1.2⟩

/-! ## What every party but the Composer keeps -/

/-- The parts that a tick leaves outside the Composer, and what it keeps of the others. -/
structure State.Ticks (s t : State) : Prop where
  frame : State.sameBut [.scene, .motion, .seq, .events] s t
  list : t.seq.list = s.seq.list
  ready : t.seq.ready = s.seq.ready
  read : t.seq.read = s.seq.read
  palettes : t.scene.palettes = s.scene.palettes
  load : t.scene.load = s.scene.load
  profiles : t.motion.profiles = s.motion.profiles

theorem State.Ticks.refl (s : State) : State.Ticks s s := ⟨State.sameBut_refl s _, rfl, rfl, rfl, rfl, rfl, rfl⟩

theorem State.Ticks.trans (h : State.Ticks s t) (k : State.Ticks t u) : State.Ticks s u where
  frame := (h.frame.trans k.frame).mono (by simp)
  list := k.list.trans h.list
  ready := k.ready.trans h.ready
  read := k.read.trans h.read
  palettes := k.palettes.trans h.palettes
  load := k.load.trans h.load
  profiles := k.profiles.trans h.profiles

/-- A write of the scene and the channels that keeps the palettes, the load buffer and the profiles. -/
theorem State.Ticks.of_frame (frame : State.sameBut [.scene, .motion] s t)
    (palettes : t.scene.palettes = s.scene.palettes) (load : t.scene.load = s.scene.load)
    (profiles : t.motion.profiles = s.motion.profiles) : State.Ticks s t := by
  have seq : t.seq = s.seq := frame .seq (by simp)
  exact ⟨frame.mono (by simp), by rw [seq], by rw [seq], by rw [seq], palettes, load, profiles⟩

theorem State.putChan_ticks (s : State) (n : Nat) (c : Channel) : State.Ticks s (s.putChan n c) :=
  .of_frame ((State.putChan_frame s n c).mono (by simp)) rfl rfl rfl

theorem State.raise_ticks (s : State) (e : Event) (slot : Option Nat) : State.Ticks s (s.raise e slot) :=
  ⟨(State.raise_frame s e slot).mono (by simp), rfl, rfl, rfl, rfl, rfl, rfl⟩

theorem State.onSeq_ticks (s : State) {f : Sequencer → Sequencer} (list : (f s.seq).list = s.seq.list)
    (ready : (f s.seq).ready = s.seq.ready) (read : (f s.seq).read = s.seq.read) : State.Ticks s (s.onSeq f) :=
  ⟨(State.onSeq_frame s f).mono (by simp), list, ready, read, rfl, rfl, rfl⟩

theorem State.Undefined.ticks {slots : List Nat} (h : State.Undefined slots s t) : State.Ticks s t :=
  .of_frame h.frame h.palettes h.load h.profiles

theorem Scene.modify_stores (sc : Scene) (k : Nat) (f : Obj → Obj) :
    (sc.modify k f).palettes = sc.palettes ∧ (sc.modify k f).load = sc.load := by
  cases here : sc.obj k with
  | none => rw [Scene.modify_none here]; exact ⟨rfl, rfl⟩
  | some o => rw [Scene.modify_eq here]; exact ⟨rfl, rfl⟩

theorem State.writeMoved_ticks (s : State) (c : Channel) (e : Ends) : State.Ticks s (s.writeMoved c e) := by
  unfold State.writeMoved
  split
  · next k slot =>
    obtain ⟨palettes, load⟩ := Scene.modify_stores s.scene k fun o => o.moveTo c.moved c.view e
    exact .of_frame ((State.onScene_frame s _).mono (by simp)) palettes load rfl
  · exact .refl s

theorem State.request_ticks {r : MotionRequest} {owner : Owner} (taken : s.request r owner = some t) :
    State.Ticks s t := by
  have frame := State.request_frame taken
  unfold State.request at taken
  split at taken
  · cases taken
  · cases taken
    unfold State.applyRequest at frame ⊢
    split at frame
    · exact .refl s
    · dsimp only at frame ⊢
      split at frame
      · next idle =>
        have rest := Scene.bind_rest s.scene r.slot (some r.channel)
        rw [if_pos idle]
        exact .of_frame frame (congrArg Scene.palettes rest :) (congrArg Scene.load rest :) rfl
      · next moving =>
        rw [if_neg moving]
        exact State.putChan_ticks s _ _

theorem State.panRequest_ticks (s : State) : State.Ticks s s.panRequest := by
  unfold State.panRequest
  split
  · cases taken : s.request _ _ with
    | none => exact .refl s
    | some t => exact State.request_ticks taken
  · exact .refl s

theorem State.undefineShown_ticks (s : State) : State.Ticks s s.undefineShown := by
  unfold State.undefineShown
  split
  · exact (State.undefineSlot_undefined s _).ticks
  · exact .refl s

theorem State.changeComplete_ticks (s : State) (kind : Nat) (snapped : Bool) (slot : Option Nat) :
    State.Ticks s (s.changeComplete kind snapped slot) := by
  have undefined := s.undefineShown_ticks
  unfold State.changeComplete
  dsimp only
  generalize s.undefineShown = u at undefined ⊢
  have shown {f : Sequencer → Sequencer} (e : Event) (list : (f u.seq).list = u.seq.list)
      (ready : (f u.seq).ready = u.seq.ready) (read : (f u.seq).read = u.seq.read) :=
    (undefined.trans (u.onSeq_ticks list ready read)).trans (State.raise_ticks _ e slot)
  split
  · split
    · exact (shown _ rfl rfl rfl).trans (State.onSeq_ticks _ rfl rfl rfl)
    · exact (shown _ rfl rfl rfl).trans (State.panRequest_ticks _)
  · exact shown _ rfl rfl rfl

theorem State.notice_ticks (s : State) (n : Nat) (snapped : Bool) (slot : Option Nat) :
    State.Ticks s (s.notice n snapped slot) := by
  unfold State.notice
  split
  · exact .refl s
  · dsimp only
    split
    · exact s.onSeq_ticks rfl rfl rfl
    · exact (s.onSeq_ticks (f := fun q => { q with await5 := q.await5 && n != 5, await6 := q.await6 && n != 6 })
        rfl rfl rfl).trans (State.changeComplete_ticks _ _ snapped slot)

theorem State.freeChannel_ticks (s : State) (n : Nat) : State.Ticks s (s.freeChannel n) := by
  cases slot : (s.chan n).slot with
  | none =>
    simp only [State.freeChannel, slot]
    exact State.putChan_ticks s n _
  | some k =>
    have rest := Scene.bind_rest s.scene k none
    have frame := State.freeChannel_frame s n
    rw [State.freeChannel_eq s slot] at frame ⊢
    exact .of_frame frame (congrArg Scene.palettes rest :) (congrArg Scene.load rest :) rfl

theorem State.endMotion_ticks (s : State) (n : Nat) (reason : EndReason) (abrupt snapped : Bool)
    (done shown : Option Nat) : State.Ticks s (s.endMotion n reason abrupt snapped done shown) := by
  have reported : State.Ticks s (s.reportEnd n reason abrupt done) := by
    unfold State.reportEnd
    dsimp only
    split
    · exact s.raise_ticks _ _
    · exact .refl s
  have freed := reported.trans ((s.reportEnd n reason abrupt done).freeChannel_ticks n)
  unfold State.endMotion
  dsimp only
  generalize (s.reportEnd n reason abrupt done).freeChannel n = u at freed
  split
  · exact freed.trans (u.notice_ticks n snapped shown)
  · exact freed

theorem State.tickChannel_ticks (s : State) (n : Nat) : State.Ticks s (s.tickChannel n) := by
  unfold State.tickChannel
  dsimp only
  split
  · exact .refl s
  · split
    · exact s.putChan_ticks n _
    · exact s.endMotion_ticks n _ _ _ _ _
    · have written (c : Channel) (e : Ends) : State.Ticks s ((s.writeMoved c e).putChan n c) :=
        (s.writeMoved_ticks c e).trans (State.putChan_ticks _ n c)
      unfold State.stepMotion
      dsimp only
      split
      · exact (written _ _).trans (State.endMotion_ticks _ n _ _ _ _ _)
      · exact written _ _

theorem State.tickSequencer_ticks (s : State) : State.Ticks s s.tickSequencer := by
  unfold State.tickSequencer
  dsimp only
  split
  · exact s.onSeq_ticks rfl rfl rfl
  · exact .refl s

theorem State.tickPart_ticks (s : State) {p : TickPart} (other : p ≠ .composer) : State.Ticks s (s.tickPart p) := by
  cases p with
  | channel n => exact s.tickChannel_ticks n
  | composer => exact absurd rfl other
  | sequencer => exact s.tickSequencer_ticks

theorem State.tickParts_ticks {l : List TickPart} (others : .composer ∉ l) (s : State) :
    State.Ticks s (l.foldl State.tickPart s) := by
  induction l generalizing s with
  | nil => exact .refl s
  | cons p l ih =>
    rw [List.mem_cons, not_or] at others
    obtain ⟨other, others⟩ := others
    exact (s.tickPart_ticks (Ne.symm other)).trans (ih others _)

/-- The settle touches a composition that it starts, and the mark (R99, R100). -/
theorem State.settle_ticks (s : State) : ∃ comp mark, s.settle =
    { s with composer := { s.composer with comp := comp }, scene := { s.scene with mark := mark } }
      ∧ (s.composer.comp.isSome = true → comp = s.composer.comp) := by
  unfold State.settle
  split
  · exact ⟨_, _, rfl, fun _ => rfl⟩
  · next setup starts =>
    refine ⟨_, _, rfl, fun busy => ?_⟩
    unfold State.startable at starts
    split at starts
    · cases starts
    · split at starts
      · next conditions => exact absurd conditions.2.1 (by simp [Option.isSome_iff_ne_none.mp busy])
      · cases starts

/-! ## A channel's part (R71, R74, R75, R77) -/

/-- The step that takes a channel's progress on (R74). -/
def Channel.progress (c r : Channel) : Nat := c.s + min r.v (c.travel - c.s)

/-- A channel moves: its object takes the values of the new progress, and at the end of its travel the motion ends
with ARRIVED (R74, R75, R77). -/
theorem State.stepMotion_eq {n k : Nat} {c r : Channel} {o : Obj} (low : n < 8) (slot : c.slot = some k)
    (here : s.obj k = some o) (same : r = { c with phase := r.phase, v := r.v, lead := r.lead }) :
    let moved := o.moveTo c.moved c.view { c with s := c.progress r }.values
    let stepped : Channel := { r with s := c.progress r }
    (c.progress r ≠ c.travel → s.stepMotion n r = s.stepped n k stepped o moved)
      ∧ (c.progress r = c.travel → s.stepMotion n r =
          let u := s.motionEnded n stepped k moved .arrived (abruptEnd r.v (c.travel - c.s) c.prof.vs) c.cmdSlot
          if c.owner = some .sequencer then u.notice n false none else u) := by
  obtain ⟨phase, v, lead, rfl⟩ : ∃ phase v lead, r = { c with phase := phase, v := v, lead := lead } := ⟨_, _, _, same⟩
  obtain ⟨stepped, context⟩ : ∃ stepped : Channel,
    stepped = { c with phase := phase, v := v, lead := lead, s := c.s + min v (c.travel - c.s) } := ⟨_, rfl⟩
  have written := State.writeMoved_put (s := s) (n := n) (ch := stepped) (by rw [context, slot]) here stepped.values
    stepped
  have ends := State.endMotion_written (s := s) (n := n) (ch := stepped) (r := stepped) low (by rw [context, slot])
    (by rw [context, slot]) here stepped.values .arrived (abruptEnd v (c.travel - c.s) c.prof.vs) false c.cmdSlot none
  have there : (((s.writeMoved stepped stepped.values).putChan n stepped).chan n).cmdSlot = c.cmdSlot := by
    rw [State.chan_put, if_pos ⟨rfl, low⟩, context]
  have steps : s.stepMotion n { c with phase := phase, v := v, lead := lead } =
      if stepped.s = stepped.travel then ((s.writeMoved stepped stepped.values).putChan n stepped).arrive n
        (abruptEnd v (c.travel - c.s) c.prof.vs) false none
      else (s.writeMoved stepped stepped.values).putChan n stepped := by
    rw [context]
    rfl
  rw [steps, State.arrive, there, ends, written, context]
  exact ⟨fun on => if_neg on, fun done => if_pos done⟩

/-- A channel that rests or is held or frozen takes no part in the tick (R71, R160). -/
theorem State.tickChannel_still {n : Nat}
    (still : (s.chan n).phase = .idle ∨ (s.chan n).phase = .held ∨ s.frozen (s.chan n) = true) : s.tickChannel n = s :=
  if_pos still

/-- Every other channel takes the step of its phase (R71). -/
theorem State.tickChannel_acts {n : Nat}
    (acts : ¬ ((s.chan n).phase = .idle ∨ (s.chan n).phase = .held ∨ s.frozen (s.chan n) = true)) : s.tickChannel n =
      match (s.chan n).tick with
      | .rest c => s.putChan n c
      | .halt => s.endMotion n .halted false false (s.chan n).cmdSlot none
      | .move c => s.stepMotion n c := if_neg acts

theorem State.frozen_iff (s : State) (c : Channel) : s.frozen c = true ↔
    s.takeover.state = .entering ∧ ∃ k o, c.slot = some k ∧ s.obj k = some o ∧ o.group = .slide := by
  rw [State.frozen, Bool.and_eq_true, beq_iff_eq, State.onSlideObject_iff]

/-! ## The notice (R144) -/

theorem Sequencer.awaits_iff (q : Sequencer) (n : Nat) :
    q.awaits n = true ↔ (n = 5 ∧ q.await5 = true) ∨ (n = 6 ∧ q.await6 = true) := by simp [Sequencer.awaits]

/-- A notice has taken its channel off the awaited ones (R144). -/
def State.unawaited (s : State) (n : Nat) : State :=
  s.onSeq fun q => { q with await5 := q.await5 && decide (n ≠ 5), await6 := q.await6 && decide (n ≠ 6) }

theorem State.notice_awaited {n : Nat} (changing : s.seq.state = .changing) (awaited : s.seq.awaits n = true)
    (snapped : Bool) (slot : Option Nat) : s.notice n snapped slot =
      if (s.unawaited n).seq.await5 || (s.unawaited n).seq.await6 then s.unawaited n
      else (s.unawaited n).changeComplete (descriptorOf (s.seq.incomingDesc.getD [])).kind snapped slot := by
  have other (m : Nat) : decide (n ≠ m) = (n != m) := by
    rw [Bool.eq_iff_iff]
    simp
  rw [State.unawaited, other, other]
  exact if_neg (by simp [changing, awaited])

/-! ## The settle (R99, R100) -/

/-- The conditions of R99 for the canvas setup `k`. -/
def State.starts (s : State) (k : CanvasSetup) : Prop :=
  s.composer.canvas = some k ∧ (s.takeover.state = .normal ∨ s.takeover.state = .menuOver)
    ∧ s.composer.comp = none ∧ s.composer.swapPending = false
    ∧ (∀ slot k', s.intake.inService ≠ some ⟨slot, .setCanvas k'⟩) ∧ s.scene.mark = true

theorem State.settingCanvas_iff (s : State) :
    s.settingCanvas = true ↔ ∃ slot k, s.intake.inService = some ⟨slot, .setCanvas k⟩ := by
  unfold State.settingCanvas
  rcases s.intake.inService with _ | ⟨slot, op⟩
  · simp
  · cases op <;> simp

theorem State.startable_iff (s : State) (k : CanvasSetup) : s.startable = some k ↔ s.starts k := by
  have free : s.settingCanvas = false ↔ ∀ slot k', s.intake.inService ≠ some ⟨slot, .setCanvas k'⟩ := by
    rw [← Bool.not_eq_true, s.settingCanvas_iff]
    simp
  unfold State.startable State.starts
  rw [← free]
  cases s.composer.canvas with
  | none => simp
  | some setup =>
    simp only [Option.ite_none_right_eq_some, Option.isNone_iff_eq_none, Option.some_inj]
    tauto

theorem Bank.other_eq (bank : Bank) : bank.other = if bank = .a then .b else .a := by cases bank <;> rfl

/-- Settles O30: each party's part by its branches, the parties in an order that names each once, and what they keep
told over the whole tick. -/
theorem frameTickCountsFlipsAndCountsLate : Obligations.FrameTickCountsFlipsAndCountsLate := by
  refine ⟨?_, ?_, ?_, ?_, ?_, ?_⟩
  · intro s order settled
    refine ⟨_, State.event_settled settled _, ?_⟩
    obtain ⟨a, b, split, before, after⟩ := tickOrder_split order
    have first := State.tickParts_ticks before s
    rw [State.frameTick, split, List.foldl_append, List.foldl_cons]
    generalize a.foldl State.tickPart s = u at first
    have last := State.tickParts_ticks after (u.tickPart .composer)
    generalize b.foldl State.tickPart (u.tickPart .composer) = v at last
    obtain ⟨comp, mark, settles, busy⟩ := v.settle_ticks
    have composer : u.composer = s.composer := first.frame .composer (by simp)
    have bridge : u.bridge = s.bridge := first.frame .bridge (by simp)
    have ticked : v.composer = u.tickComposer.composer := last.frame .composer (by simp)
    have flipped : v.bridge = u.tickComposer.bridge := last.frame .bridge (by simp)
    rw [settles]
    have settled : State.sameBut [.composer, .scene] v
        { v with composer := { v.composer with comp := comp }, scene := { v.scene with mark := mark } } :=
      (State.onComposer_frame v fun k => { k with comp := comp }).trans
        (State.onScene_frame _ fun sc => { sc with mark := mark })
    have closes := State.endStep_frame
      { v with composer := { v.composer with comp := comp }, scene := { v.scene with mark := mark } } s
    generalize State.endStep _ s = t at closes
    have k : t.composer = { u.tickComposer.composer with comp := comp } := by
      rw [← ticked]
      exact closes .composer (by simp)
    have scene : t.scene = { v.scene with mark := mark } := closes .scene (by simp)
    have motion : t.motion = v.motion := closes .motion (by simp)
    have seq : t.seq = v.seq := closes .seq (by simp)
    rw [ticked, show u.tickComposer.composer.comp = u.composer.comp from rfl, composer] at busy
    have parts : State.sameBut [.composer, .bridge] u u.tickComposer :=
      (State.onComposer_frame u _).trans (State.onBridge_frame _ _)
    refine ⟨((((first.frame.trans parts).trans last.frame).trans settled).trans closes).mono (by simp),
      ?_, ?_, ?_, ?_, ?_, fun composing => ?_, ?_, ?_, ?_, ?_, ?_, ?_, ?_⟩
    · rw [k, ← composer]
      rfl
    · rw [k, ← composer, ← Bank.other_eq]
      rfl
    · rw [k]
      rfl
    · rw [k, ← composer]
      rfl
    · rw [k, ← composer]
      rfl
    · rw [k]
      exact busy composing
    · rw [show t.bridge = v.bridge from closes .bridge (by simp), flipped, k, ← bridge]
      rfl
    · rw [scene]
      exact last.palettes.trans first.palettes
    · rw [scene]
      exact last.load.trans first.load
    · rw [motion]
      exact last.profiles.trans first.profiles
    · rw [seq]
      exact last.list.trans first.list
    · rw [seq]
      exact last.ready.trans first.ready
    · rw [seq]
      exact last.read.trans first.read
  · intro s order settled
    exact ⟨tickOrder order, tickOrder_perm order, tickOrder_begins order, State.event_settled settled _⟩
  · intro s n
    dsimp only
    have same : s.tickPart (.channel n) = s.tickChannel n := rfl
    rw [same, ← State.frozen_iff]
    refine ⟨State.tickChannel_still, fun moving loose free => ?_⟩
    have acts := State.tickChannel_acts (s := s) (n := n) (by simp [moving, loose, free])
    rw [acts]
    refine ⟨fun r rests => by rw [rests]; rfl, fun k o slot here => ⟨fun halts => ?_, fun r moves => ?_⟩⟩
    · rw [halts]
      exact State.endMotion_eq rfl slot here _ _ _ _ _
    · rw [moves]
      exact State.stepMotion_eq n.isLt slot here (Channel.tick_same _ r moves)
  · intro s n snapped slot
    refine ⟨fun deaf => ?_, fun changing awaited => ⟨fun more => ?_, fun bytes last5 last6 desc => ?_⟩⟩
    · exact State.notice_unawaited s snapped slot fun h => deaf.elim (absurd h.1) (absurd h.2)
    · rw [State.notice_awaited changing ((s.seq.awaits_iff n).mpr awaited), if_pos (Bool.or_eq_true _ _ ▸ more)]
      rfl
    · have last : ¬ ((s.unawaited n).seq.await5 || (s.unawaited n).seq.await6) = true := by
        rw [Bool.or_eq_true, show (s.unawaited n).seq.await5 = false from last5,
          show (s.unawaited n).seq.await6 = false from last6]
        simp
      rw [State.notice_awaited changing ((s.seq.awaits_iff n).mpr awaited), if_neg last, desc]
      rfl
  · intro s
    refine ⟨fun counts => ?_, fun still => if_neg still⟩
    rw [← beq_eq_decide]
    exact if_pos counts
  · intro s
    refine ⟨fun k starts => ?_, fun none => ?_⟩
    · have starts := (s.startable_iff k).mpr starts
      simp only [State.settle, starts, ← Bank.other_eq]
      rfl
    · have none : s.startable = .none := by
        rw [Option.eq_none_iff_forall_ne_some]
        exact fun k starts => none k ((s.startable_iff k).mp starts)
      simp only [State.settle, none]

end

end Sys2Proof.Machine

/-!
PROOF. O46, the parts that stand by themselves: the descriptor's checks, the completion of a change, and the end of a
read that starts no slide.
-/

namespace Sys2Proof.Machine

section
variable {s t u v : State}

/-! ## The descriptor (R140, R183) -/

/-- The checks of R140 in their order. -/
theorem Descriptor.fault_eq (d : Descriptor) (cmdw : Nat) : d.fault cmdw =
    if ¬ (1 ≤ d.imageW ∧ d.imageW ≤ 4096 ∧ 1 ≤ d.imageH ∧ d.imageH ≤ 4096) then some .size
    else if ¬ (d.stride % 4 = 0 ∧ d.imageW * 4 ≤ d.stride ∧ d.stride ≤ 16384) then some .stride
    else if ¬ (d.image % 4 = 0 ∧ d.image + d.stride * (d.imageH - 1) + d.imageW * 4 ≤ cmdw) then some .source
    else if ¬ (1 ≤ d.kind ∧ d.kind ≤ 4) then some .kind
    else if ¬ (d.profile ≤ 7 ∧ (d.panPresent = true → d.panProfile ≤ 7)) then some .profile
    else none := by
  have pan : (!d.panPresent || decide (d.panProfile ≤ 7)) = true ↔ (d.panPresent = true → d.panProfile ≤ 7) := by
    cases d.panPresent <;> simp
  simp only [Descriptor.fault, Bool.not_eq_true', ← Bool.not_eq_true, Bool.and_eq_true, decide_eq_true_eq, beq_iff_eq,
    and_assoc, pan]

/-- A descriptor that passes has one of the four kinds. -/
theorem Descriptor.kind_of_pass {d : Descriptor} {cmdw : Nat} (pass : d.fault cmdw = none) : 1 ≤ d.kind ∧ d.kind ≤ 4 := by
  rw [Descriptor.fault_eq] at pass
  by_contra bad
  simp only [bad, not_false_eq_true, if_true] at pass
  split_ifs at pass

theorem byteAt_take {bytes : List Byte} {n i : Nat} (low : i < n) : byteAt (bytes.take n) i = byteAt bytes i := by
  simp [byteAt, List.getD_eq_getElem?_getD, List.getElem?_take_of_lt low]

/-- A descriptor lies in the first 32 of its bytes (R183). -/
theorem descriptorOf_take (bytes : List Byte) : descriptorOf (bytes.take 32) = descriptorOf bytes := by
  simp [descriptorOf, fieldAt, byteAt_take]

/-! ## A change completes (R142) -/

/-- The undefinition of a slot ends the motion that its object names (R48). -/
theorem State.undefineSlot_silenced {k n : Nat} {o : Obj} (here : s.obj k = some o) (bound : o.bound = some n) :
    State.silenced s (s.undefineSlot k) [n] := by
  refine (State.undefineSlot_undefined s k).loosed.silenced fun m hm => ?_
  obtain rfl := List.mem_singleton.mp hm
  have named : (s.obj k).bind (·.bound) = some m := by rw [here]; exact bound
  simp only [State.undefineSlot, named]
  exact State.silentHalt_idle s m

/-- The undefinition of a slot keeps every other record whole, unless the channel that it ends has that slot. -/
theorem State.undefineSlot_whole {k n : Nat} (other : n ≠ k)
    (apart : ∀ m o, s.obj k = some o → o.bound = some m → (s.chan m).slot ≠ some n) :
    (s.undefineSlot k).obj n = s.obj n :=
  (State.undefineSlot_undefined s k).whole (by simpa using other) fun m slot =>
    State.undefineSlot_other fun o here bound => apart m o here bound slot

theorem Sequencer.spare_eq (q : Sequencer) : q.spare = if q.shown = some .a then .b else .a := by
  rcases h : q.shown with _ | _ | _ <;> simp [Sequencer.spare, h]

/-- A change has completed, before its pan (R142): the new slide is on show. -/
def State.changed (s : State) (kind : Nat) (snapped : Bool) (slot : Option Nat) (i : Nat) (d : Descriptor) : State :=
  (s.undefineShown.onSeq fun _ =>
    { s.seq with
      shown := some s.seq.spare, current := some i, incoming := none, incomingDesc := none
      await5 := false, await6 := false, onShow := some d.onShow, dwell := d.dwell, state := .showing }).raise
    (.slideShown i kind s.seq.shown.isNone snapped (s.seq.setup.descriptor i) (s.seq.setup.slot s.seq.spare)) slot

theorem State.changeComplete_eq {i : Nat} {bytes : List Byte} (incoming : s.seq.incoming = some i)
    (desc : s.seq.incomingDesc = some bytes) (kind : Nat) (snapped : Bool) (slot : Option Nat) :
    s.changeComplete kind snapped slot =
      let v := s.changed kind snapped slot i (descriptorOf bytes)
      if (descriptorOf bytes).panPresent then
        (if s.seq.paused then v.onSeq fun q => { q with panOwed := true } else v.panRequest)
      else v := by
  have seq : s.undefineShown.seq = s.seq := s.undefineShown_frame .seq (by simp)
  simp only [State.changeComplete, State.changed, State.onSeq, incoming, desc, Option.getD_some, seq]

/-- The pan of the slide that has just come on show (R142). -/
theorem State.changed_panRequest (s : State) (kind : Nat) (snapped : Bool) (slot : Option Nat) (i : Nat) (d : Descriptor) :
    (s.changed kind snapped slot i d).panRequest =
      ((s.changed kind snapped slot i d).request
        ⟨7, d.panProfile, s.seq.setup.slot s.seq.spare, ⟨true, true, false, false, false⟩, true,
          ⟨16 * d.panEndX, 16 * d.panEndY, 0, 0, 0⟩⟩ .sequencer).getD (s.changed kind snapped slot i d) := rfl

theorem State.undefineShown_none (shown : s.seq.shown = none) : s.undefineShown = s := by
  rw [State.undefineShown, Sequencer.shownSlot, shown]
  rfl

theorem State.undefineShown_some {l : SlideList} {old : Bank} (list : s.seq.list = some l)
    (shown : s.seq.shown = some old) : s.undefineShown = s.undefineSlot (l.slot old) := by
  rw [State.undefineShown, Sequencer.shownSlot, shown, Sequencer.setup, list]
  rfl

/-! ## The end of a descriptor read (R139) -/

/-- The read has left the memory side and the Sequencer. -/
def State.readEnded (s : State) : State :=
  { s with
    seq := { s.seq with read := none },
    bridge := { s.bridge with fetch := s.bridge.fetch.filter (·.kind != .descriptor), busy := none } }

section
variable {r : DescriptorRead} {op : FetchOp}

theorem execDescriptorReadEnd_ends (settled : s.Settled) (busy : s.bridge.busy = some (.fetch .descriptor))
    (fetched : s.bridge.fetchOf .descriptor = some op) (read : s.seq.read = some r) :
    exec .descriptorReadEnd s =
      .next (((s.free.endFetch .descriptor).descriptorRead r op.data).drainStep.endStep s) := by
  refine (State.event_fetchEnd settled busy _).trans ?_
  rw [State.free_fetched fetched, show s.free.seq.read = some r from read]

/-- Outside LOADING the read ends, and nothing else happens (R139). -/
theorem State.descriptorRead_late (bytes : List Byte) (late : s.seq.state ≠ .loading) :
    (s.free.endFetch .descriptor).descriptorRead r bytes = s.readEnded := if_pos late

/-- A read that is overtaken, or for another index, begins the load of the incoming one (R139). -/
theorem State.descriptorRead_stale {j : Nat} (bytes : List Byte) (loading : s.seq.state = .loading)
    (incoming : s.seq.incoming = some j) (stale : r.overtaken = true ∨ j ≠ r.index) :
    (s.free.endFetch .descriptor).descriptorRead r bytes = s.readEnded.loadBegin j none := by
  have state : (s.free.endFetch .descriptor).seq = s.seq := rfl
  rw [State.descriptorRead, state, incoming, if_neg (not_not.mpr loading),
    if_pos (stale.imp_right fun other => by simpa using other)]
  rfl

/-- A read that is current is judged by the checks of R140 (R139). -/
theorem State.descriptorRead_current (bytes : List Byte) (loading : s.seq.state = .loading)
    (fresh : r.overtaken = false) (incoming : s.seq.incoming = some r.index) :
    (s.free.endFetch .descriptor).descriptorRead r bytes =
      match (descriptorOf bytes).fault s.cmdw with
      | some reason => s.readEnded.skipSlide r.index reason
      | none => s.readEnded.startSlide bytes := by
  have state : (s.free.endFetch .descriptor).seq = s.seq := rfl
  rw [State.descriptorRead, state, incoming, if_neg (not_not.mpr loading), if_neg (by simp [fresh])]
  rfl

/-! ## A slide skipped (R140) -/

/-- SLIDE SKIPPED has been raised, and the skip count has risen (R140). -/
def State.skipped (s : State) (l : SlideList) (i : Nat) (reason : SkipReason) : State :=
  (s.onSeq fun q => { q with skip := q.skip + 1 }).raise (.slideSkipped i reason (l.base + 64 * i) (s.seq.skip + 1)) none

variable {l : SlideList} {i : Nat} {reason : SkipReason}

/-- A sweep of the whole list ends the show (R140). -/
theorem State.skipSlide_sweeps (list : s.seq.list = some l) (swept : s.seq.skip + 1 = l.count) :
    s.skipSlide i reason =
      (s.skipped l i reason).stopShow.raise (.showEnd none false false l.base l.count) none := by
  simp only [State.skipSlide, Sequencer.setup, list, Option.getD_some, if_pos swept]
  rfl

theorem State.skipSlide_loads {j : Nat} (list : s.seq.list = some l) (more : s.seq.skip + 1 ≠ l.count)
    (next : l.next i s.seq.backward = some j) : s.skipSlide i reason = (s.skipped l i reason).loadBegin j none := by
  simp only [State.skipSlide, Sequencer.setup, list, Option.getD_some, if_neg more, next]
  rfl

/-- Beyond the list's end the show stops when nothing is on show (R140). -/
theorem State.skipSlide_stops (list : s.seq.list = some l) (more : s.seq.skip + 1 ≠ l.count)
    (last : l.next i s.seq.backward = none) (hidden : s.seq.shown = none) : s.skipSlide i reason =
      (s.skipped l i reason).stopShow.raise (.showEnd none false false l.base l.count) none := by
  simp only [State.skipSlide, Sequencer.setup, list, Option.getD_some, if_neg more, last, hidden, Option.isSome_none,
    Bool.false_eq_true, if_false]
  rfl

/-- Beyond the list's end the slide on show stays (R140). -/
theorem State.skipSlide_stays (list : s.seq.list = some l) (more : s.seq.skip + 1 ≠ l.count)
    (last : l.next i s.seq.backward = none) (shown : s.seq.shown ≠ none) : s.skipSlide i reason =
      (((s.skipped l i reason).onSeq fun q => { q with state := .showing, incoming := none, dwell := 0 }).onTakeover
        fun t => { t with jumpPending := false }).raise
        (.showEnd s.seq.current true s.seq.backward l.base l.count) none := by
  simp only [State.skipSlide, Sequencer.setup, list, Option.getD_some, if_neg more, last,
    Option.isSome_iff_ne_none.mpr shown, if_true]
  rfl

end

end

end Sys2Proof.Machine

/-!
PROOF. O46, the slide that a valid descriptor starts: its object in the display order, the end of the pan, and the
transition.
-/

namespace Sys2Proof.Machine

section
variable {s t u v : State}

/-! ## The object of a slide in the display order (R48, R141) -/

/-- A slide's object written into a slot and placed in the SLIDE group, with the mark (R141). -/
def Scene.withSlide (sc : Scene) (n : Nat) (o : Obj) (p : Position) : Scene :=
  { (sc.put n (some o)).place n p with mark := true }

section
variable {sc : Scene} {n : Nat} {o : Obj} {p : Position}

theorem Scene.withSlide_eq (low : n < 48) (slide : o.group = .slide) : sc.withSlide n o p =
    { sc with
      slots := sc.slots.setIfInBounds n (some o), order := (sc.put n (some o)).orderWith n .slide p, mark := true } := by
  have here : (sc.put n (some o)).obj n = some o := (Scene.obj_put sc n n _).trans (if_pos ⟨rfl, low⟩)
  simp only [Scene.withSlide, Scene.place, here, Scene.reorder_eq, slide]
  rfl

theorem Scene.withSlide_obj (low : n < 48) (slide : o.group = .slide) (m : Nat) :
    (sc.withSlide n o p).obj m = if m = n then some o else sc.obj m := by
  have put : (sc.withSlide n o p).obj m = (sc.put n (some o)).obj m := by
    rw [Scene.withSlide_eq low slide]
    rfl
  rw [put, Scene.obj_put]
  simp only [low, and_true]

theorem Scene.mem_withSlide (low : n < 48) (slide : o.group = .slide) : n ∈ (sc.withSlide n o p).order := by
  obtain ⟨pre, post, parted, -⟩ := (sc.put n (some o)).orderWith_parted n .slide p
  rw [Scene.withSlide_eq low slide]
  show n ∈ (sc.put n (some o)).orderWith n .slide p
  rw [parted.placed]
  simp

/-- The rest of a display order that keeps its law, whatever is written into the slot taken out. -/
theorem Scene.put_rest_parted (law : sc.orderLaw = true) (n : Nat) (o : Obj) : sc.order.filter (· ≠ n) =
    (sc.order.filter (· ≠ n)).filter ((sc.put n (some o)).inGroup .slide)
      ++ (sc.order.filter (· ≠ n)).filter fun k => !(sc.put n (some o)).inGroup .slide k := by
  refine Scene.rest_parted (sc := sc.put n (some o)) (Scene.orderLaw_of_sublist (Scene.without_ordered law n)
    (List.Sublist.refl _) fun m hm => ?_)
  have other : m ≠ n := by simpa using (List.mem_filter.mp hm).2
  exact (Scene.groupOf_put sc n m (some o)).trans (if_neg fun e => other e.1)

/-- The first slide stands at the bottom (R141). -/
theorem Scene.withSlide_bottom (law : sc.orderLaw = true) (low : n < 48) (slide : o.group = .slide) :
    (sc.withSlide n o .bottom).order = n :: sc.order.filter (· ≠ n) := by
  obtain ⟨pre, post, parted, bottom, -⟩ := (sc.put n (some o)).orderWith_parted n .slide .bottom
  rw [Scene.withSlide_eq low slide]
  show (sc.put n (some o)).orderWith n .slide .bottom = _
  have whole := parted.whole
  rw [bottom rfl rfl] at whole
  rw [parted.placed, bottom rfl rfl]
  exact congrArg (n :: ·) (whole.trans (Scene.put_rest_parted law n o).symm)

/-- Every later slide stands directly above the one on show (R141). -/
theorem Scene.withSlide_above {k : Nat} (law : sc.orderLaw = true) (low : n < 48) (slide : o.group = .slide)
    (placed : k ∈ sc.order) (other : k ≠ n) (shown : sc.inGroup .slide k = true) :
    ∃ front back, sc.order.filter (· ≠ n) = front ++ k :: back
      ∧ (sc.withSlide n o (.above k)).order = front ++ k :: n :: back := by
  obtain ⟨pre, post, parted, -, -, -, -, above⟩ := (sc.put n (some o)).orderWith_parted n .slide (.above k)
  have group : (sc.put n (some o)).inGroup .slide k = true :=
    (Scene.inGroup_congr ((Scene.groupOf_put sc n k (some o)).trans (if_neg fun e => other e.1)) .slide).trans shown
  obtain ⟨front, rfl⟩ := List.getLast?_eq_some_iff.mp (above k rfl placed other (group.trans rfl))
  refine ⟨front, post, (Scene.put_rest_parted law n o).trans (parted.whole.symm.trans (by simp)), ?_⟩
  rw [Scene.withSlide_eq low slide]
  exact parted.placed.trans (by simp)

end

/-! ## The start of a slide (R141, R143) -/

/-- The slot that a new slide takes (R141). -/
def State.newSlot (s : State) : Nat := s.seq.setup.slot s.seq.spare

/-- Where its object goes in the display order (R141). -/
def State.slidePosition (s : State) : Position :=
  match s.seq.shownSlot with
  | some old => .above old
  | none => .bottom

/-- The transition that the show makes of a descriptor: a CUT while it is paused or a jump is pending (R143, R167). -/
def State.transitionOf (s : State) (d : Descriptor) : Transition :=
  if s.seq.paused || s.takeover.jumpPending then .cut else Transition.ofCode d.kind

/-- The new object, with the binding that its slot still has (R67, R141; log entry 49). -/
def State.newObject (s : State) (d : Descriptor) (k : CanvasSetup) : Obj :=
  { d.slideObject k.width k.height (s.transitionOf d) with bound := (s.obj s.newSlot).bind (·.bound) }

/-- The new slide is defined and placed (R141). -/
def State.slideDefined (s : State) (bytes : List Byte) (k : CanvasSetup) : State :=
  ((s.onScene fun sc => sc.withSlide s.newSlot (s.newObject (descriptorOf bytes) k) s.slidePosition).onSeq
    fun q => { q with incomingDesc := some (bytes.take 32), skip := 0 }).onTakeover fun t => { t with jumpPending := false }

/-- The new slide is defined and placed, and channel 7 has ended (R141, R143). -/
def State.slideReady (s : State) (bytes : List Byte) (k : CanvasSetup) : State :=
  ((s.slideDefined bytes k).silentHalt 7).onSeq fun q => { q with panOwed := false }

/-- The x at which the slide is centred (R141). -/
def Descriptor.centred (d : Descriptor) (k : CanvasSetup) : Int := ((k.width - min k.width d.imageW) / 2 * 16 : Nat)

/-- A CUT takes the place of a transition whose requests fail (R143). -/
def State.cutInstead (s : State) (n : Nat) (x : Int) : State :=
  (s.onScene fun sc => sc.modify n fun o => { o with alpha := 255, x := x }).changeComplete 1 false none

/-- The transition goes on, awaiting its channels (R143). -/
def State.changing (s : State) (both : Bool) : State :=
  s.onSeq fun q => { q with state := .changing, await6 := true, await5 := both }

section
variable {bytes : List Byte} {k : CanvasSetup}

/-- The start of a slide while the canvas is set: a CUT, or the requests of its transition (R141, R143). -/
theorem State.startSlide_eq (canvas : s.composer.canvas = some k) : s.startSlide bytes =
    let d := descriptorOf bytes
    let w := s.slideReady bytes k
    if s.transitionOf d = .cut then w.changeComplete 1 false none
    else
      let made := w.transitionRequests d (s.transitionOf d) k.width (d.centred k)
      if made.2 then made.1.changing (s.transitionOf d != .fade && s.seq.shown.isSome)
      else made.1.cutInstead s.newSlot (d.centred k) := by
  have count : s.countFree = s := by simp [State.countFree, canvas]
  have size : s.composer.canvasSize s.freeCount = (k.width, k.height) := by simp [Composer.canvasSize, canvas]
  have starts : s.startSlide bytes =
      (s.slideDefined bytes k).transition (descriptorOf bytes) (s.transitionOf (descriptorOf bytes)) k.width
        ((descriptorOf bytes).centred k) := by
    unfold State.startSlide
    rw [size, count]
    rfl
  rw [starts]
  rfl

/-! ### What the start leaves, before the transition -/

theorem State.slideDefined_frame (s : State) (bytes : List Byte) (k : CanvasSetup) :
    State.sameBut [.scene, .seq, .takeover] s (s.slideDefined bytes k) :=
  ((State.onScene_frame s _).trans (State.onSeq_frame _ _)).trans (State.onTakeover_frame _ _)

theorem State.slideDefined_obj (low : s.newSlot < 48) (n : Nat) : (s.slideDefined bytes k).obj n =
    if n = s.newSlot then some (s.newObject (descriptorOf bytes) k) else s.obj n := Scene.withSlide_obj low rfl n

theorem State.slideReady_freed (s : State) (bytes : List Byte) (k : CanvasSetup) :
    State.Freed (s.slideDefined bytes k) ((s.slideDefined bytes k).silentHalt 7) := State.silentHalt_freed _ 7

theorem State.slideReady_frame (s : State) (bytes : List Byte) (k : CanvasSetup) :
    State.sameBut [.scene, .motion, .seq, .takeover] s (s.slideReady bytes k) :=
  (((s.slideDefined_frame bytes k).trans (s.slideReady_freed bytes k).frame).trans (State.onSeq_frame _ _)).mono (by simp)

theorem State.slideReady_seq (s : State) (bytes : List Byte) (k : CanvasSetup) : (s.slideReady bytes k).seq =
    { s.seq with incomingDesc := some (bytes.take 32), skip := 0, panOwed := false } := by
  rw [State.slideReady, State.onSeq_seq, show State.seq (State.silentHalt _ 7) = _ from
    (s.slideReady_freed bytes k).frame .seq (by simp)]
  rfl

theorem State.slideReady_takeover (s : State) (bytes : List Byte) (k : CanvasSetup) :
    (s.slideReady bytes k).takeover = { s.takeover with jumpPending := false } :=
  (s.slideReady_freed bytes k).frame .takeover (by simp)

/-- The display order, the palettes and the load buffer of the started slide. -/
theorem State.slideReady_scene (s : State) (bytes : List Byte) (k : CanvasSetup) : (s.slideReady bytes k).scene =
    { s.scene.withSlide s.newSlot (s.newObject (descriptorOf bytes) k) s.slidePosition with
      slots := (s.slideReady bytes k).scene.slots } := (s.slideReady_freed bytes k).rest

/-- The new object: channel 7, if it was bound to the slot, has left it unbound (R67, R90). -/
theorem State.slideReady_new (low : s.newSlot < 48) : (s.slideReady bytes k).obj s.newSlot = some
    { s.newObject (descriptorOf bytes) k with
      bound := if (s.chan 7).phase ≠ .idle ∧ (s.chan 7).slot = some s.newSlot then none
        else (s.obj s.newSlot).bind (·.bound) } := by
  have here : (s.slideDefined bytes k).obj s.newSlot = some (s.newObject (descriptorOf bytes) k) :=
    (State.slideDefined_obj low _).trans (if_pos rfl)
  have chan : (s.slideDefined bytes k).chan 7 = s.chan 7 := rfl
  show ((s.slideDefined bytes k).silentHalt 7).obj s.newSlot = _
  by_cases ends : (s.chan 7).phase ≠ .idle ∧ (s.chan 7).slot = some s.newSlot
  · rw [if_pos ends, State.silentHalt_busy (chan ▸ ends.1), chan, ends.2]
    refine (Scene.obj_bind (s.slideDefined bytes k).scene s.newSlot s.newSlot none).trans ?_
    rw [if_pos rfl, show (s.slideDefined bytes k).scene.obj s.newSlot = _ from here]
    rfl
  · rw [if_neg ends, (s.slideReady_freed bytes k).whole, here]
    · rfl
    · intro n slot
      by_cases seventh : n = 7
      · subst seventh
        rw [State.silentHalt_idle_eq (by by_contra busy; exact ends ⟨busy, slot⟩)]
      · exact State.silentHalt_other _ seventh

theorem State.slideReady_others (low : s.newSlot < 48) {n : Nat} (other : n ≠ s.newSlot) :
    ((s.slideReady bytes k).obj n).map Obj.unbound = (s.obj n).map Obj.unbound := by
  rw [show (s.slideReady bytes k).obj n = ((s.slideDefined bytes k).silentHalt 7).obj n from rfl,
    (s.slideReady_freed bytes k).objects n, State.slideDefined_obj low, if_neg other]

theorem State.slideReady_whole (low : s.newSlot < 48) {n : Nat} (other : n ≠ s.newSlot)
    (free : (s.chan 7).slot ≠ some n) : (s.slideReady bytes k).obj n = s.obj n := by
  refine ((s.slideReady_freed bytes k).whole fun m slot => State.silentHalt_other _ ?_).trans
    ((State.slideDefined_obj low n).trans (if_neg other))
  rintro rfl
  exact free slot

theorem State.slideReady_silenced (s : State) (bytes : List Byte) (k : CanvasSetup) :
    State.silenced s (s.slideReady bytes k) [7] := by
  have ended : State.silenced (s.slideDefined bytes k) ((s.slideDefined bytes k).silentHalt 7) [7] :=
    (s.slideReady_freed bytes k).loosed.silenced (by simpa using State.silentHalt_idle _ 7)
  exact ended

theorem State.slideReady_chan (s : State) (bytes : List Byte) (k : CanvasSetup) {n : Nat} (other : n ≠ 7) :
    (s.slideReady bytes k).chan n = s.chan n := State.silentHalt_other (s.slideDefined bytes k) other

end

end

end Sys2Proof.Machine

/-!
PROOF. O46, the transition by the kind that is made, and its requests.
-/

namespace Sys2Proof.Machine

section
variable {s t u v : State}

/-! ## The transition by the kind it is made with (R143, R183) -/

/-- The kind that the show makes of a descriptor: a CUT while it is paused or a jump is pending (R143, R167). -/
def State.kindOf (s : State) (d : Descriptor) : Nat :=
  if s.seq.paused = true ∨ s.takeover.jumpPending = true then 1 else d.kind

theorem State.transitionOf_eq (s : State) (d : Descriptor) : s.transitionOf d = Transition.ofCode (s.kindOf d) := by
  simp only [State.transitionOf, State.kindOf, Bool.or_eq_true]
  split <;> rfl

theorem State.kindOf_mem {d : Descriptor} (pass : 1 ≤ d.kind ∧ d.kind ≤ 4) : s.kindOf d ∈ [1, 2, 3, 4] := by
  unfold State.kindOf
  split
  · simp
  · simp only [List.mem_cons, List.not_mem_nil, or_false]
    omega

theorem Transition.ofCode_cut {kind : Nat} (known : kind ∈ [1, 2, 3, 4]) : Transition.ofCode kind = .cut ↔ kind = 1 := by
  revert kind
  decide

theorem Transition.ofCode_fade {kind : Nat} (known : kind ∈ [1, 2, 3, 4]) : Transition.ofCode kind = .fade ↔ kind = 2 := by
  revert kind
  decide

theorem Transition.ofCode_shift {kind : Nat} (known : kind ∈ [1, 2, 3, 4]) (width : Nat) :
    (Transition.ofCode kind).shift width =
      if kind = 3 then ((16 * width : Nat) : Int) else if kind = 4 then -((16 * width : Nat) : Int) else 0 := by
  simp only [List.mem_cons, List.not_mem_nil, or_false] at known
  rw [Nat.mul_comm 16]
  obtain rfl | rfl | rfl | rfl := known <;> rfl

/-! ## The requests (R143) -/

/-- The request on channel 6, which brings the new slide in. -/
def Descriptor.enters (d : Descriptor) (fades : Prop) [Decidable fades] (n : Nat) (x : Int) : MotionRequest :=
  if fades then ⟨6, d.profile, n, ⟨false, false, false, false, true⟩, false, ⟨0, 0, 0, 0, 255⟩⟩
  else ⟨6, d.profile, n, ⟨true, false, false, false, false⟩, false, ⟨x, 0, 0, 0, 0⟩⟩

/-- The request on channel 5, which takes the slide on show away. -/
def Descriptor.leaves (d : Descriptor) (n : Nat) (x : Int) : MotionRequest :=
  ⟨5, d.profile, n, ⟨true, false, false, false, false⟩, false, ⟨x, 0, 0, 0, 0⟩⟩

section
variable {d : Descriptor} {kind : Transition} {width : Nat} {x : Int}

theorem State.transitionRequests_refused (refused : s.request (d.enters (kind = .fade) s.newSlot x) .sequencer = none) :
    s.transitionRequests d kind width x = (s, false) := by
  unfold State.transitionRequests
  dsimp only
  split
  · rfl
  · next taken => exact absurd (refused.symm.trans taken) (by simp)

/-- A FADE, or the first slide of a show, makes one request. -/
theorem State.transitionRequests_alone (taken : s.request (d.enters (kind = .fade) s.newSlot x) .sequencer = some u)
    (alone : kind = .fade ∨ s.seq.shown = none) : s.transitionRequests d kind width x = (u, true) := by
  unfold State.transitionRequests
  dsimp only
  split
  · next refused => exact absurd (taken.symm.trans refused) (by simp)
  · next v same =>
    obtain rfl : u = v := Option.some_inj.mp (taken.symm.trans same)
    split
    · rfl
    · rfl
    · next old pushes shown =>
      obtain fades | first := alone
      · exact absurd fades pushes
      · simp [Sequencer.shownSlot, first] at shown

/-- A PUSH over a shown slide makes two requests (R143). -/
theorem State.transitionRequests_both {old : Bank}
    (taken : s.request (d.enters (kind = .fade) s.newSlot x) .sequencer = some u)
    (pushes : kind ≠ .fade) (shown : s.seq.shown = some old) :
    let second := u.request (d.leaves (s.seq.setup.slot old)
      (((s.obj (s.seq.setup.slot old)).map (·.x)).getD 0 - kind.shift width)) .sequencer
    (∀ v, second = some v → s.transitionRequests d kind width x = (v, true))
      ∧ (second = none → s.transitionRequests d kind width x = (u.silentHalt 6, false)) := by
  unfold State.transitionRequests
  dsimp only
  split
  · next refused => exact absurd (taken.symm.trans refused) (by simp)
  · next v same =>
    obtain rfl : u = v := Option.some_inj.mp (taken.symm.trans same)
    split
    · next fades => exact absurd rfl pushes
    · next hidden => simp [Sequencer.shownSlot, shown] at hidden
    · next slot _ there =>
      obtain rfl : s.seq.setup.slot old = slot := by simpa [Sequencer.shownSlot, shown] using there
      split
      · next w second =>
        exact ⟨fun v taken => by rw [Option.some_inj.mp (taken.symm.trans second)],
          fun refused => absurd (refused.symm.trans second) (by simp)⟩
      · next second =>
        exact ⟨fun v taken => absurd (taken.symm.trans second) (by simp), fun _ => rfl⟩

end

end

end Sys2Proof.Machine

/-!
PROOF. O46, what a completed change leaves, and the start of a slide by the answers to its requests.
-/

namespace Sys2Proof.Machine

section
variable {s t u v w : State}

/-! ## What the bindings of a transition leave of the scene (R89, R90) -/

/-- Bindings and channels alone have changed. -/
structure State.Rebound (s t : State) : Prop where
  frame : State.sameBut [.scene, .motion] s t
  rest : t.scene = { s.scene with slots := t.scene.slots }
  objects : ∀ m, (t.obj m).map Obj.unbound = (s.obj m).map Obj.unbound

theorem State.Rebound.refl (s : State) : State.Rebound s s := ⟨State.sameBut_refl s _, rfl, fun _ => rfl⟩

theorem State.Rebound.trans (h : State.Rebound s t) (k : State.Rebound t u) : State.Rebound s u where
  frame := (h.frame.trans k.frame).mono (by simp)
  rest := by rw [k.rest, h.rest]
  objects m := (k.objects m).trans (h.objects m)

theorem State.Freed.rebound (h : State.Freed s t) : State.Rebound s t := ⟨h.frame, h.rest, h.objects⟩

theorem State.request_rebound {r : MotionRequest} {owner : Owner} (taken : s.request r owner = some t) :
    State.Rebound s t := by
  have requested := s.request_requested r owner
  rw [taken, Option.getD_some] at requested
  exact ⟨requested.frame, requested.rest, requested.objects⟩

theorem State.panRequest_rebound (s : State) : State.Rebound s s.panRequest := by
  unfold State.panRequest
  split
  · cases taken : s.request _ _ with
    | none => exact .refl s
    | some t => exact State.request_rebound taken
  · exact .refl s

theorem State.Rebound.obj_isSome (h : State.Rebound s t) (n : Nat) : (t.obj n).isSome = (s.obj n).isSome := by
  simpa only [Option.isSome_map] using congrArg Option.isSome (h.objects n)

/-! ## A completed change (R142) -/

/-- What a completed change leaves, from the undefinition of the old slide on. -/
theorem State.changeComplete_leaves {i : Nat} {bytes : List Byte} (incoming : s.seq.incoming = some i)
    (desc : s.seq.incomingDesc = some bytes) (kind : Nat) (snapped : Bool) (slot : Option Nat) :
    let t := s.changeComplete kind snapped slot
    t.takeover = s.takeover ∧ t.scene.order = s.undefineShown.scene.order
      ∧ (∀ m, (t.obj m).map Obj.unbound = (s.undefineShown.obj m).map Obj.unbound)
      ∧ ∃ owed, t.seq =
          { s.seq with
            shown := some s.seq.spare, current := some i, incoming := none, incomingDesc := none
            await5 := false, await6 := false, onShow := some (descriptorOf bytes).onShow
            dwell := (descriptorOf bytes).dwell, state := .showing, panOwed := owed } := by
  have takeover : s.undefineShown.takeover = s.takeover := s.undefineShown_frame .takeover (by simp)
  rw [State.changeComplete_eq incoming desc]
  dsimp only
  split
  · split
    · exact ⟨takeover, rfl, fun _ => rfl, _, rfl⟩
    · have pan := (s.changed kind snapped slot i (descriptorOf bytes)).panRequest_rebound
      refine ⟨(pan.frame .takeover (by simp)).trans takeover, ?_, pan.objects, s.seq.panOwed,
        pan.frame .seq (by simp)⟩
      exact (congrArg Scene.order pan.rest :)
  · exact ⟨takeover, rfl, fun _ => rfl, _, rfl⟩

/-- The new slide stands in a state, with the Sequencer `q` and the Takeover Unit `k`. -/
structure State.Stands (n : Nat) (q : Sequencer) (k : Takeover) (t : State) : Prop where
  defined : (t.obj n).isSome = true
  placed : n ∈ t.scene.order
  mark : t.scene.mark = true
  seq : t.seq = q
  takeover : t.takeover = k

section
variable {n : Nat} {q : Sequencer} {k : Takeover}

theorem State.Stands.rebound (h : State.Stands n q k s) (g : State.Rebound s t) : State.Stands n q k t where
  defined := (g.obj_isSome n).trans h.defined
  placed := by rw [g.rest]; exact h.placed
  mark := by rw [g.rest]; exact h.mark
  seq := (g.frame .seq (by simp)).trans h.seq
  takeover := (g.frame .takeover (by simp)).trans h.takeover

/-- A write of the new object leaves it standing. -/
theorem State.Stands.modify (h : State.Stands n q k s) (f : Obj → Obj) :
    State.Stands n q k (s.onScene fun sc => sc.modify n f) := by
  obtain ⟨o, here⟩ := Option.isSome_iff_exists.mp h.defined
  have written : ((s.onScene fun sc => sc.modify n f).obj n) = some (f o) := Scene.modify_obj here f
  refine ⟨by rw [written]; rfl, ?_, Scene.modify_keeps _ _ _ h.mark, h.seq, h.takeover⟩
  show n ∈ (s.scene.modify n f).order
  rw [Scene.modify_eq (show s.scene.obj n = some o from here)]
  exact h.placed

end

theorem State.undefineShown_keeps {l : SlideList} {n : Nat} (list : s.seq.list = some l)
    (apart : ∀ old, s.seq.shown = some old → n ≠ l.slot old) :
    (s.undefineShown.obj n).map Obj.unbound = (s.obj n).map Obj.unbound
      ∧ (n ∈ s.scene.order → n ∈ s.undefineShown.scene.order)
      ∧ ∀ old, s.seq.shown = some old →
          s.undefineShown.obj (l.slot old) = none ∧ l.slot old ∉ s.undefineShown.scene.order := by
  cases shown : s.seq.shown with
  | none =>
    rw [State.undefineShown_none shown]
    exact ⟨rfl, id, fun old h => by cases h⟩
  | some old =>
    have undefined := State.undefineSlot_undefined s (l.slot old)
    rw [State.undefineShown_some list shown]
    have other := apart old shown
    refine ⟨undefined.others n (by simpa using other), fun placed => ?_, ?_⟩
    · rw [undefined.order]
      exact List.mem_filter.mpr ⟨placed, by simpa using other⟩
    · rintro _ ⟨⟩
      refine ⟨undefined.gone _ List.mem_cons_self, ?_⟩
      rw [undefined.order]
      simp

/-! ## The start of a slide by its outcome (R143) -/

section
variable {bytes : List Byte} {k : CanvasSetup} {d : Descriptor}

theorem State.slideReady_newSlot (s : State) (bytes : List Byte) (k : CanvasSetup) :
    (s.slideReady bytes k).newSlot = s.newSlot := by
  simp only [State.newSlot, Sequencer.setup, Sequencer.spare, State.slideReady_seq]

theorem State.startSlide_cut (canvas : s.composer.canvas = some k) (hd : d = descriptorOf bytes)
    (cut : s.transitionOf d = .cut) : s.startSlide bytes = (s.slideReady bytes k).changeComplete 1 false none := by
  subst hd
  rw [State.startSlide_eq canvas]
  exact if_pos cut

/-- The request that brings the new slide in, by the transition that is made. -/
def State.entering (s : State) (d : Descriptor) (k : CanvasSetup) : MotionRequest :=
  d.enters (s.transitionOf d = .fade) s.newSlot (d.centred k)

theorem State.startSlide_made {made : State × Bool} (canvas : s.composer.canvas = some k) (hd : d = descriptorOf bytes)
    (moves : s.transitionOf d ≠ .cut)
    (requests : (s.slideReady bytes k).transitionRequests d (s.transitionOf d) k.width (d.centred k) = made) :
    s.startSlide bytes =
      if made.2 then made.1.changing (s.transitionOf d != .fade && s.seq.shown.isSome)
      else made.1.cutInstead s.newSlot (d.centred k) := by
  subst hd
  rw [State.startSlide_eq canvas]
  dsimp only
  rw [if_neg moves, requests]

theorem State.startSlide_refused (canvas : s.composer.canvas = some k) (hd : d = descriptorOf bytes)
    (moves : s.transitionOf d ≠ .cut) (refused : (s.slideReady bytes k).request (s.entering d k) .sequencer = none) :
    s.startSlide bytes = (s.slideReady bytes k).cutInstead s.newSlot (d.centred k) := by
  refine State.startSlide_made canvas hd moves (State.transitionRequests_refused ?_)
  rw [State.slideReady_newSlot]
  exact refused

theorem State.startSlide_alone (canvas : s.composer.canvas = some k) (hd : d = descriptorOf bytes)
    (moves : s.transitionOf d ≠ .cut) (taken : (s.slideReady bytes k).request (s.entering d k) .sequencer = some u)
    (alone : s.transitionOf d = .fade ∨ s.seq.shown = none) : s.startSlide bytes = u.changing false := by
  have one : (s.transitionOf d != .fade && s.seq.shown.isSome) = false := by
    obtain fades | first := alone
    · rw [fades]; rfl
    · rw [first]; simp
  rw [State.startSlide_made canvas hd moves (made := (u, true)), one]
  · rfl
  · refine State.transitionRequests_alone (by rw [State.slideReady_newSlot]; exact taken) (alone.imp_right fun first => ?_)
    rw [State.slideReady_seq]
    exact first

/-- The request that takes the slide on show away, from where it stands. -/
def State.departing (s : State) (d : Descriptor) (k : CanvasSetup) (old : Nat) (x : Int) : MotionRequest :=
  d.leaves old (x - (s.transitionOf d).shift k.width)

theorem State.startSlide_both {old : Bank} {x : Int} (canvas : s.composer.canvas = some k) (hd : d = descriptorOf bytes)
    (moves : s.transitionOf d ≠ .cut) (taken : (s.slideReady bytes k).request (s.entering d k) .sequencer = some u)
    (pushes : s.transitionOf d ≠ .fade) (shown : s.seq.shown = some old)
    (stands : (((s.slideReady bytes k).obj (s.seq.setup.slot old)).map (·.x)).getD 0 = x) :
    let second := u.request (s.departing d k (s.seq.setup.slot old) x) .sequencer
    (∀ v, second = some v → s.startSlide bytes = v.changing true)
      ∧ (second = none → s.startSlide bytes = (u.silentHalt 6).cutInstead s.newSlot (d.centred k)) := by
  have two : (s.transitionOf d != .fade && s.seq.shown.isSome) = true := by simp [pushes, shown]
  have setup : (s.slideReady bytes k).seq.setup = s.seq.setup := by
    rw [Sequencer.setup, State.slideReady_seq]
    rfl
  have requests := State.transitionRequests_both (s := s.slideReady bytes k) (d := d) (kind := s.transitionOf d)
    (width := k.width) (x := d.centred k) (old := old) (by rw [State.slideReady_newSlot]; exact taken) pushes
    (by rw [State.slideReady_seq]; exact shown)
  rw [setup, stands] at requests
  refine ⟨fun v second => ?_, fun second => ?_⟩
  · rw [State.startSlide_made canvas hd moves (requests.1 v second), two]
    rfl
  · exact State.startSlide_made canvas hd moves (requests.2 second)

end

end

end Sys2Proof.Machine

/-!
PROOF. O46, the display order and the outcomes of a started slide, and the obligation.
-/

namespace Sys2Proof.Machine

section
variable {s t u v w : State}

section
variable {bytes : List Byte} {k : CanvasSetup} {d : Descriptor} {l : SlideList}

theorem State.newSlot_eq (list : s.seq.list = some l) :
    s.newSlot = if s.seq.shown = some .a then l.slotB else l.slotA := by
  rw [State.newSlot, Sequencer.setup, list, Sequencer.spare_eq]
  split <;> rfl

theorem State.newSlot_lt (list : s.seq.list = some l) (lowA : l.slotA < 48) (lowB : l.slotB < 48) : s.newSlot < 48 := by
  rw [State.newSlot_eq list]
  split <;> assumption

/-- The new slot is not the one on show. -/
theorem State.newSlot_ne (list : s.seq.list = some l) (apart : l.slotA ≠ l.slotB) {old : Bank}
    (shown : s.seq.shown = some old) : s.newSlot ≠ l.slot old := by
  rw [State.newSlot_eq list, shown]
  cases old with
  | a => exact apart.symm
  | b => exact apart

theorem State.slidePosition_none (first : s.seq.shown = none) : s.slidePosition = .bottom := by
  rw [State.slidePosition, Sequencer.shownSlot, first]
  rfl

theorem State.slidePosition_some {old : Bank} (list : s.seq.list = some l) (shown : s.seq.shown = some old) :
    s.slidePosition = .above (l.slot old) := by
  rw [State.slidePosition, Sequencer.shownSlot, shown, Sequencer.setup, list]
  rfl

theorem State.slideReady_order (s : State) (bytes : List Byte) (k : CanvasSetup) : (s.slideReady bytes k).scene.order =
    (s.scene.withSlide s.newSlot (s.newObject (descriptorOf bytes) k) s.slidePosition).order := by
  rw [State.slideReady_scene]

/-- The first slide stands at the bottom (R141). -/
theorem State.slideReady_bottom (law : s.scene.orderLaw = true) (low : s.newSlot < 48) (first : s.seq.shown = none) :
    (s.slideReady bytes k).scene.order = s.newSlot :: s.scene.order.filter (· ≠ s.newSlot) := by
  rw [State.slideReady_order, State.slidePosition_none first]
  exact Scene.withSlide_bottom law low rfl

/-- A later slide stands directly above the one on show (R141). -/
theorem State.slideReady_above {old : Bank} (law : s.scene.orderLaw = true) (low : s.newSlot < 48)
    (list : s.seq.list = some l) (apart : l.slotA ≠ l.slotB) (shown : s.seq.shown = some old)
    (stands : l.slot old ∈ s.scene.order ∧ s.scene.inGroup .slide (l.slot old) = true) :
    ∃ front back, s.scene.order.filter (· ≠ s.newSlot) = front ++ l.slot old :: back
      ∧ (s.slideReady bytes k).scene.order = front ++ l.slot old :: s.newSlot :: back := by
  obtain ⟨placed, group⟩ := stands
  rw [State.slideReady_order, State.slidePosition_some list shown]
  exact Scene.withSlide_above law low rfl placed (State.newSlot_ne list apart shown).symm group

theorem State.slideReady_stores (low : s.newSlot < 48) : (s.slideReady bytes k).scene.mark = true
    ∧ (s.slideReady bytes k).scene.palettes = s.scene.palettes ∧ (s.slideReady bytes k).scene.load = s.scene.load := by
  rw [State.slideReady_scene, Scene.withSlide_eq low rfl]
  exact ⟨rfl, rfl, rfl⟩

theorem State.slideReady_profiles (s : State) (bytes : List Byte) (k : CanvasSetup) :
    (s.slideReady bytes k).motion.profiles = s.motion.profiles := (s.slideReady_freed bytes k).profiles

/-- The x and the alpha at which the new object stands, by the kind that is made (R141, R143). -/
theorem State.newObject_stands (known : s.kindOf d ∈ [1, 2, 3, 4]) :
    (s.newObject d k).x = d.centred k + (if s.kindOf d = 3 then ((16 * k.width : Nat) : Int)
        else if s.kindOf d = 4 then -((16 * k.width : Nat) : Int) else 0)
      ∧ (s.newObject d k).alpha = if s.kindOf d = 2 then 0 else 255 := by
  rw [← Transition.ofCode_shift known, ← State.transitionOf_eq]
  refine ⟨rfl, ?_⟩
  show (if s.transitionOf d = .fade then 0 else 255) = _
  simp only [State.transitionOf_eq, Transition.ofCode_fade known]

/-- The object of a CUT stands whole at its centre (R141, R143). -/
theorem State.newObject_cut (cut : s.transitionOf d = .cut) : (s.newObject d k).unbound =
    { group := .slide, visible := true
      x := ((k.width - min k.width d.imageW) / 2 * 16 : Nat), y := ((k.height - min k.height d.imageH) / 2 * 16 : Nat)
      w := min k.width d.imageW, h := min k.height d.imageH, alpha := 255
      clip := false, clipX0 := 0, clipY0 := 0, clipX1 := 2048, clipY1 := 2048
      body :=
        .slide d.image d.stride d.imageW d.imageH
          (if d.panPresent then min ((d.imageW - min k.width d.imageW) * 16) (16 * d.panStartX)
            else (d.imageW - min k.width d.imageW) / 2 * 16)
          (if d.panPresent then min ((d.imageH - min k.height d.imageH) * 16) (16 * d.panStartY)
            else (d.imageH - min k.height d.imageH) / 2 * 16)
      bound := none } := by
  simp [State.newObject, Descriptor.slideObject, Descriptor.box, cut, Transition.shift, Obj.unbound]

theorem State.entering_eq (known : s.kindOf d ∈ [1, 2, 3, 4]) : s.entering d k =
    if s.kindOf d = 2 then
      ⟨6, d.profile, s.newSlot, ⟨false, false, false, false, true⟩, false, ⟨0, 0, 0, 0, 255⟩⟩
    else ⟨6, d.profile, s.newSlot, ⟨true, false, false, false, false⟩, false, ⟨d.centred k, 0, 0, 0, 0⟩⟩ := by
  simp only [State.entering, Descriptor.enters, State.transitionOf_eq, Transition.ofCode_fade known]

theorem Obj.x_of_unbound {o o' : Obj} (same : o'.unbound = o.unbound) : o'.x = o.x := by
  simpa [Obj.unbound] using congrArg Obj.x same

theorem State.readEnded_frame (s : State) : State.sameBut [.seq, .bridge] s s.readEnded :=
  (State.onSeq_frame s fun q => { q with read := none }).trans (State.onBridge_frame _ fun b =>
    { b with fetch := b.fetch.filter (·.kind != .descriptor), busy := none })

theorem State.slideReady_stands (low : s.newSlot < 48) : State.Stands s.newSlot (s.slideReady bytes k).seq
    (s.slideReady bytes k).takeover (s.slideReady bytes k) where
  defined := by rw [State.slideReady_new low]; rfl
  placed := by rw [State.slideReady_order]; exact Scene.mem_withSlide low rfl
  mark := (State.slideReady_stores low).1
  seq := rfl
  takeover := rfl

/-- A started slide is on its way in, or a change that is a CUT completes in a state where it stands (R143). -/
theorem State.startSlide_outcome (canvas : s.composer.canvas = some k) (hd : d = descriptorOf bytes)
    (low : s.newSlot < 48) :
    let w := s.slideReady bytes k
    (s.transitionOf d ≠ .cut
        ∧ ∃ y both, State.Stands s.newSlot w.seq w.takeover y ∧ s.startSlide bytes = y.changing both)
      ∨ ∃ y, State.Stands s.newSlot w.seq w.takeover y ∧ (s.transitionOf d = .cut → y = w)
        ∧ s.startSlide bytes = y.changeComplete 1 false none := by
  have stands := State.slideReady_stands (s := s) (bytes := bytes) (k := k) low
  by_cases cut : s.transitionOf d = .cut
  · exact .inr ⟨_, stands, fun _ => rfl, State.startSlide_cut canvas hd cut⟩
  cases taken : (s.slideReady bytes k).request (s.entering d k) .sequencer with
  | none =>
    exact .inr ⟨_, stands.modify _, fun h => absurd h cut, State.startSlide_refused canvas hd cut taken⟩
  | some u =>
    have came := stands.rebound (State.request_rebound taken)
    by_cases alone : s.transitionOf d = .fade ∨ s.seq.shown = none
    · exact .inl ⟨cut, u, false, came, State.startSlide_alone canvas hd cut taken alone⟩
    obtain ⟨pushes, shown⟩ := not_or.mp alone
    obtain ⟨old, shown⟩ := Option.ne_none_iff_exists'.mp shown
    obtain ⟨starts, cuts⟩ := State.startSlide_both canvas hd cut taken pushes shown rfl
    cases second : u.request (s.departing d k (s.seq.setup.slot old)
        ((((s.slideReady bytes k).obj (s.seq.setup.slot old)).map (·.x)).getD 0)) .sequencer with
    | some v => exact .inl ⟨cut, v, true, came.rebound (State.request_rebound second), starts v second⟩
    | none =>
      exact .inr ⟨_, (came.rebound (State.silentHalt_freed u 6).rebound).modify _, fun h => absurd h cut, cuts second⟩

end

/-- The undefinition of the slide on show: its slot and its motion, and nothing else (R48, R142). -/
theorem State.undefineShown_undefines {l : SlideList} {old : Bank} (list : s.seq.list = some l)
    (shown : s.seq.shown = some old) :
    s.undefineShown.obj (l.slot old) = none
      ∧ s.undefineShown.scene.order = s.scene.order.filter (· ≠ l.slot old)
      ∧ s.undefineShown.scene.mark = (s.scene.mark || decide (s.undefineShown.scene.order ≠ s.scene.order))
      ∧ s.undefineShown.scene.palettes = s.scene.palettes ∧ s.undefineShown.scene.load = s.scene.load
      ∧ s.undefineShown.motion.profiles = s.motion.profiles
      ∧ (∀ n, n ≠ l.slot old → (s.undefineShown.obj n).map Obj.unbound = (s.obj n).map Obj.unbound
          ∧ ((∀ m o, s.obj (l.slot old) = some o → o.bound = some m → (s.chan m).slot ≠ some n) →
              s.undefineShown.obj n = s.obj n))
      ∧ (∀ n, (∀ o, s.obj (l.slot old) = some o → o.bound ≠ some n) → s.undefineShown.chan n = s.chan n)
      ∧ ∀ n o, s.obj (l.slot old) = some o → o.bound = some n → State.silenced s s.undefineShown [n] := by
  have undefined := State.undefineSlot_undefined s (l.slot old)
  rw [State.undefineShown_some list shown]
  refine ⟨undefined.gone _ List.mem_cons_self, undefined.order.trans ?_, undefined.mark, undefined.palettes,
    undefined.load, undefined.profiles, fun n other => ⟨undefined.others n (by simpa using other),
      State.undefineSlot_whole other⟩, fun n => State.undefineSlot_other, fun n o => State.undefineSlot_silenced⟩
  refine List.filter_congr fun n _ => ?_
  simp

theorem State.kindOf_cut {d : Descriptor} (cuts : d.kind = 1 ∨ s.seq.paused = true ∨ s.takeover.jumpPending = true) :
    s.kindOf d = 1 := by
  unfold State.kindOf
  split
  · rfl
  · next runs => exact cuts.resolve_right runs

/-- A CUT's change completes: the slide stands on show, and the old one is gone (R142). -/
theorem State.Stands.completed {n i : Nat} {q : Sequencer} {j : Takeover} {bytes : List Byte} {l : SlideList}
    (h : State.Stands n q j s) (list : q.list = some l) (incoming : q.incoming = some i)
    (desc : q.incomingDesc = some bytes) (apart : ∀ old, q.shown = some old → n ≠ l.slot old) :
    let t := s.changeComplete 1 false none
    (t.obj n).map Obj.unbound = (s.obj n).map Obj.unbound ∧ n ∈ t.scene.order ∧ t.scene.mark = true ∧ t.takeover = j
      ∧ (∀ old, q.shown = some old → t.obj (l.slot old) = none ∧ l.slot old ∉ t.scene.order)
      ∧ ∃ owed, t.seq =
          { q with
            shown := some q.spare, current := some i, incoming := none, incomingDesc := none
            await5 := false, await6 := false, onShow := some (descriptorOf bytes).onShow
            dwell := (descriptorOf bytes).dwell, state := .showing, panOwed := owed } := by
  have mark := State.changeComplete_keeps s 1 false none h.mark
  obtain ⟨-, placed, -, seq, takeover⟩ := h
  subst seq
  obtain ⟨unchanged, order, objects, context⟩ := State.changeComplete_leaves incoming desc 1 false none
  obtain ⟨same, stays, gone⟩ := State.undefineShown_keeps list apart
  refine ⟨(objects n).trans same, order ▸ stays placed, mark, unchanged.trans takeover, fun old shown => ?_, context⟩
  obtain ⟨absent, out⟩ := gone old shown
  refine ⟨?_, order ▸ out⟩
  have none := objects (l.slot old)
  rw [absent] at none
  simpa using none

/-- Settles O46: the outcomes of the read's end by the checks and the kind, and the completed change by its steps. -/
theorem descriptorReadEndStartsTheSlide : Obligations.DescriptorReadEndStartsTheSlide := by
  refine ⟨?_, ?_, ?_, fun d cmdw => d.fault_eq cmdw, ?_⟩
  · rintro s u r op settled busy fetched read rfl
    have ends := execDescriptorReadEnd_ends settled busy fetched read
    refine ⟨fun late => ?_, fun j loading incoming stale => ?_, ?_⟩
    · rw [ends, State.descriptorRead_late _ late]
      rfl
    · rw [State.descriptorRead_stale _ loading incoming stale] at ends
      exact ⟨_, ends, State.loadBegin_begun _ j none⟩
    · rintro l k d new loading fresh incoming normal list lowA lowB apart canvas rfl pass rfl
      rw [State.descriptorRead_current _ loading fresh incoming, pass] at ends
      dsimp only at ends
      have newSlot : s.readEnded.newSlot = if s.seq.shown = some .a then l.slotB else l.slotA := State.newSlot_eq list
      have low : s.readEnded.newSlot < 48 := State.newSlot_lt list lowA lowB
      have cut := Transition.ofCode_cut (State.kindOf_mem (s := s.readEnded) (Descriptor.kind_of_pass pass))
      rw [← State.transitionOf_eq] at cut
      have seq := s.readEnded.slideReady_seq op.data k
      have takeover := s.readEnded.slideReady_takeover op.data k
      have outcome := State.startSlide_outcome (s := s.readEnded) (bytes := op.data) canvas rfl low
      dsimp only at outcome
      rw [seq, takeover] at outcome
      obtain ⟨moves, y, both, stands, starts⟩ | ⟨y, stands, same, starts⟩ := outcome
      · have calm : (y.changing both).takeover.state ≠ .entering := by
          rw [show (y.changing both).takeover = _ from stands.takeover]
          exact fun h => absurd (h.symm.trans normal) (by simp)
        rw [starts, State.drainStep_idle (.inl calm)] at ends
        have closes := State.endStep_frame (y.changing both) s
        generalize (y.changing both).endStep s = t at ends closes
        have scene : t.scene = y.scene := closes .scene (by simp)
        have obj (n : Nat) : t.obj n = y.obj n := congrArg (Scene.obj · n) scene
        have context : t.seq = { y.seq with state := .changing, await6 := true, await5 := both } := closes .seq (by simp)
        rw [stands.seq] at context
        obtain ⟨o, here⟩ := Option.isSome_iff_exists.mp stands.defined
        have there : t.obj s.readEnded.newSlot = some o := (obj _).trans here
        have placed := stands.placed
        rw [newSlot] at there placed
        refine ⟨t, o, ends, there, scene ▸ placed, scene ▸ stands.mark, by rw [context], ?_,
          .inl ⟨by rw [context], ?_, by rw [context]; rfl, by rw [context]⟩,
          fun cuts => absurd (cut.mpr ?_) moves⟩
        · rw [show t.takeover = y.takeover from closes .takeover (by simp), stands.takeover]
        · rw [context]
          exact incoming
        · exact State.kindOf_cut cuts
      · have spare : s.readEnded.seq.spare = if s.seq.shown = some .a then .b else .a := Sequencer.spare_eq _
        obtain ⟨same', placed, mark, takes, gone, owed, context⟩ := stands.completed (l := l) (i := r.index) list incoming
          rfl fun old on => State.newSlot_ne (s := s.readEnded) list apart on
        rw [descriptorOf_take] at context
        rw [starts] at ends
        generalize y.changeComplete 1 false none = v at ends same' placed mark takes gone context
        have calm : v.takeover.state ≠ .entering := by
          rw [takes]
          exact fun h => absurd (h.symm.trans normal) (by simp)
        rw [State.drainStep_idle (.inl calm)] at ends
        have closes := State.endStep_frame v s
        generalize v.endStep s = t at ends closes
        have scene : t.scene = v.scene := closes .scene (by simp)
        have obj (n : Nat) : t.obj n = v.obj n := congrArg (Scene.obj · n) scene
        have show' : t.seq = v.seq := closes .seq (by simp)
        obtain ⟨o₁, here⟩ := Option.isSome_iff_exists.mp stands.defined
        rw [here, Option.map_some, Option.map_eq_some_iff] at same'
        obtain ⟨o, after, fields⟩ := same'
        have there : t.obj s.readEnded.newSlot = some o := (obj _).trans after
        rw [newSlot] at there placed
        refine ⟨t, o, ends, there, scene ▸ placed, scene ▸ mark, by rw [show', context], ?_,
          .inr ⟨by rw [show', context], by rw [show', context], by rw [show', context], ?_⟩, fun cuts =>
          ⟨by rw [show', context], by rw [show', context], fun old on => ?_, ?_⟩⟩
        · rw [show t.takeover = v.takeover from closes .takeover (by simp), takes]
        · rw [show', context, ← spare]
          rfl
        · obtain ⟨absent, out⟩ := gone old on
          exact ⟨(obj _).trans absent, scene ▸ out⟩
        · have isCut := cut.mpr (State.kindOf_cut cuts)
          rw [same isCut, State.slideReady_new low, Option.some_inj] at here
          rw [fields, ← here]
          exact State.newObject_cut isCut
  · rintro s r op l k d new settled busy fetched read loading fresh incoming list lowA lowB apart canvas rfl pass rfl law
      shown
    have ends := execDescriptorReadEnd_ends settled busy fetched read
    rw [State.descriptorRead_current _ loading fresh incoming, pass] at ends
    have newSlot : s.readEnded.newSlot = if s.seq.shown = some .a then l.slotB else l.slotA := State.newSlot_eq list
    have low : s.readEnded.newSlot < 48 := State.newSlot_lt list lowA lowB
    have known : s.readEnded.kindOf (descriptorOf op.data) ∈ [1, 2, 3, 4] := State.kindOf_mem (Descriptor.kind_of_pass pass)
    have kind := s.readEnded.transitionOf_eq (descriptorOf op.data)
    have cut := Transition.ofCode_cut known
    have fade := Transition.ofCode_fade known
    have shift := Transition.ofCode_shift known k.width
    rw [← kind] at cut fade shift
    have stands := State.newObject_stands (k := k) known
    have here := State.slideReady_new (bytes := op.data) (k := k) low
    have others {n : Nat} := State.slideReady_others (bytes := op.data) (k := k) (n := n) low
    have whole {n : Nat} := State.slideReady_whole (bytes := op.data) (k := k) (n := n) low
    have bottom := State.slideReady_bottom (s := s.readEnded) (bytes := op.data) (k := k) law low
    have above {bank : Bank} := State.slideReady_above (s := s.readEnded) (bytes := op.data) (k := k) (old := bank) law low
      list apart
    have entering := State.entering_eq (k := k) known
    have canvas : s.readEnded.composer.canvas = some k := canvas
    have setup : s.readEnded.seq.setup = l := congrArg (fun list : Option SlideList => list.getD _) list
    have both {u : State} {bank : Bank} {x : Int} := State.startSlide_both (u := u) (old := bank) (x := x)
      (bytes := op.data) canvas rfl
    obtain ⟨mark, palettes, load⟩ := State.slideReady_stores (s := s.readEnded) (bytes := op.data) (k := k) low
    rw [newSlot] at here others whole bottom above entering
    rw [setup] at both
    unfold State.departing at both
    rw [shift, newSlot] at both
    dsimp only at ends ⊢
    refine ⟨s.readEnded.slideReady op.data k, _,
      (s.readEnded_frame.trans (s.readEnded.slideReady_frame op.data k)).mono (by simp),
      s.readEnded.slideReady_frame op.data k .bridge (by simp), s.readEnded.slideReady_seq op.data k,
      s.readEnded.slideReady_takeover op.data k, here, stands.1, stands.2, rfl, rfl, rfl, rfl, fun n => others,
      fun n => whole, bottom, fun bank on => above on (shown bank on), mark, palettes, load,
      s.readEnded.slideReady_silenced op.data k, fun n => s.readEnded.slideReady_chan op.data k,
      s.readEnded.slideReady_profiles op.data k, fun one => ?_, fun more => ⟨fun refused => ?_, fun u taken =>
        ⟨fun alone => ?_, fun bank old pushes on there => ?_⟩⟩⟩
    · rw [State.startSlide_cut canvas rfl (cut.mpr one)] at ends
      exact ends
    · rw [State.startSlide_refused canvas rfl (mt cut.mp more) (by rw [entering]; exact refused),
        newSlot] at ends
      exact ends
    · rw [State.startSlide_alone canvas rfl (mt cut.mp more) (by rw [entering]; exact taken)
        (alone.imp_left fade.mpr)] at ends
      exact ends
    · have away : ((s.readEnded.slideReady op.data k).obj (l.slot bank)).map Obj.unbound = some old.unbound := by
        rw [others (newSlot ▸ (State.newSlot_ne (s := s.readEnded) list apart on).symm),
          show s.readEnded.obj (l.slot bank) = some old from there]
        rfl
      obtain ⟨o, here, same⟩ := Option.map_eq_some_iff.mp away
      obtain ⟨starts, cuts⟩ := both (x := old.x) (mt cut.mp more) (by rw [entering]; exact taken) (mt fade.mp pushes) on
        (by rw [here]; exact Obj.x_of_unbound same)
      refine ⟨fun v second => ?_, fun refused => ?_⟩
      · rw [starts v second] at ends
        exact ends
      · rw [cuts refused] at ends
        exact ends
  · rintro s r op l d reason settled busy fetched read loading fresh incoming list rfl fault
    have ends := execDescriptorReadEnd_ends settled busy fetched read
    rw [State.descriptorRead_current _ loading fresh incoming, fault] at ends
    dsimp only at ends ⊢
    have list : s.readEnded.seq.list = some l := list
    refine ⟨fun swept => ?_, fun more => ⟨fun j next => ?_, fun last => ⟨fun hidden => ?_, fun on => ?_⟩⟩⟩
    · rw [State.skipSlide_sweeps list swept] at ends
      exact ends
    · rw [State.skipSlide_loads list more next] at ends
      exact ⟨_, ends, State.loadBegin_begun _ j none⟩
    · rw [State.skipSlide_stops list more last hidden] at ends
      exact ends
    · rw [State.skipSlide_stays list more last on] at ends
      exact ends
  · rintro s kind snapped slot l bytes d i list incoming desc rfl
    have setup : s.seq.setup = l := by rw [Sequencer.setup, list]; rfl
    have completes := State.changeComplete_eq incoming desc kind snapped slot
    refine ⟨s.undefineShown, s.changed kind snapped slot i (descriptorOf bytes), s.undefineShown_frame,
      State.undefineShown_none, fun old shown => ?_, ?_, fun still => ?_, fun pans paused => ?_, fun pans runs => ?_⟩
    · exact State.undefineShown_undefines list shown
    · have first : decide (s.seq.shown = none) = s.seq.shown.isNone := by
        rw [Bool.eq_iff_iff, decide_eq_true_iff, Option.isNone_iff_eq_none]
      rw [State.changed, Sequencer.spare_eq, setup, first]
      rfl
    · rw [completes, still]
      rfl
    · rw [completes, pans, paused]
      rfl
    · rw [completes, pans, runs]
      dsimp only
      rw [if_pos rfl, if_neg Bool.false_ne_true, State.changed_panRequest, setup, Sequencer.spare_eq]

end

end Sys2Proof.Machine

/-!
PROOF. O60, one pixel: the blend and the dim (R105, R106), the drawn area (R102), the source pixels (R103, R104) and
the pixel of the canvas (R101).
-/

namespace Sys2Proof.Machine

/-! ## Blend and dim (R105, R106) -/

theorem effectiveAlpha_le {p o : Nat} (hp : p ≤ 255) (ho : o ≤ 255) : effectiveAlpha p o ≤ 255 := by
  have product : p * o ≤ 255 * 255 := Nat.mul_le_mul hp ho
  unfold effectiveAlpha
  omega

/-- A blend is a rounded mean of weights that add up to 255, so it lies between what it mixes. -/
theorem blendChannel_between (s d : Nat) {a : Nat} (ha : a ≤ 255) :
    min s d ≤ blendChannel s d a ∧ blendChannel s d a ≤ max s d := by
  obtain ⟨b, weights⟩ := Nat.exists_eq_add_of_le ha
  have low : min s d * 255 ≤ s * a + d * b := by
    rw [weights, Nat.mul_add]
    exact Nat.add_le_add (Nat.mul_le_mul_right a (Nat.min_le_left s d)) (Nat.mul_le_mul_right b (Nat.min_le_right s d))
  have high : s * a + d * b ≤ max s d * 255 := by
    rw [weights, Nat.mul_add]
    exact Nat.add_le_add (Nat.mul_le_mul_right a (Nat.le_max_left s d)) (Nat.mul_le_mul_right b (Nat.le_max_right s d))
  unfold blendChannel
  rw [show 255 - a = b by omega]
  omega

@[simp] theorem blendChannel_zero (s d : Nat) : blendChannel s d 0 = d := by unfold blendChannel; omega
@[simp] theorem blendChannel_full (s d : Nat) : blendChannel s d 255 = s := by unfold blendChannel; omega
theorem blendAlpha_zero {d : Nat} (hd : d ≤ 255) : blendAlpha d 0 = d := by unfold blendAlpha; omega
@[simp] theorem blendAlpha_full (d : Nat) : blendAlpha d 255 = 255 := by unfold blendAlpha; omega
@[simp] theorem dimChannel_full (c : Nat) : dimChannel c 255 = c := by unfold dimChannel; omega
@[simp] theorem dimChannel_zero (c : Nat) : dimChannel c 0 = 0 := by unfold dimChannel; omega

theorem blend_transparent {src dst : Pixel} {o : Nat} (hd : dst.a ≤ 255) (clear : effectiveAlpha src.a o = 0) :
    blend src o dst = dst := by
  simp only [blend, clear, blendChannel_zero, blendAlpha_zero hd]

theorem blend_opaque {src dst : Pixel} {o : Nat} (full : effectiveAlpha src.a o = 255) :
    blend src o dst = ⟨255, src.r, src.g, src.b⟩ := by
  simp only [blend, full, blendChannel_full, blendAlpha_full]

theorem dimPixel_full (p : Pixel) : dimPixel 255 p = p := by simp only [dimPixel, dimChannel_full]
theorem dimPixel_zero (p : Pixel) : dimPixel 0 p = ⟨p.a, 0, 0, 0⟩ := by simp only [dimPixel, dimChannel_zero]

/-! ## The drawn area (R102) -/

section
variable {o : Obj} {k : CanvasSetup} {c r : Nat}

/-- One axis of the drawn area, for `Obj.columns` and `Obj.rows` alike. -/
theorem mem_span_iff {clip : Bool} {start : Int} {size lo hi limit n : Nat} :
    (max 0 (if clip then max start lo else start)).toNat ≤ n
        ∧ n < (min (limit : Int) (if clip then min (start + size) hi else start + size)).toNat ↔
      start ≤ n ∧ (n : Int) < start + size ∧ (clip = true → lo ≤ n ∧ n < hi) ∧ n < limit := by
  cases clip
  · simp only [Bool.false_eq_true, if_false, false_implies, true_and]
    omega
  · simp only [if_true, true_implies]
    omega

theorem Obj.mem_columns_iff {width : Nat} : (o.columns width).1 ≤ c ∧ c < (o.columns width).2 ↔
    o.left ≤ c ∧ (c : Int) < o.left + o.w ∧ (o.clip = true → o.clipX0 ≤ c ∧ c < o.clipX1) ∧ c < width :=
  mem_span_iff

theorem Obj.mem_rows_iff {height : Nat} : (o.rows height).1 ≤ r ∧ r < (o.rows height).2 ↔
    o.top ≤ r ∧ (r : Int) < o.top + o.h ∧ (o.clip = true → o.clipY0 ≤ r ∧ r < o.clipY1) ∧ r < height :=
  mem_span_iff

theorem Obj.lt_width (h : (o.columns k.width).1 ≤ c ∧ c < (o.columns k.width).2) : c < k.width :=
  (Obj.mem_columns_iff.mp h).2.2.2

theorem Obj.covers_eq_true : o.covers k c r = true ↔
    ((o.columns k.width).1 ≤ c ∧ c < (o.columns k.width).2) ∧ (o.rows k.height).1 ≤ r ∧ r < (o.rows k.height).2 := by
  simp only [Obj.covers, Bool.and_eq_true, decide_eq_true_eq, and_assoc]

/-- The drawn area is what lies in the rectangle, the clip and the canvas. -/
theorem Obj.covers_iff : o.covers k c r = true ↔
    o.left ≤ c ∧ (c : Int) < o.left + o.w ∧ o.top ≤ r ∧ (r : Int) < o.top + o.h
      ∧ (o.clip = true → o.clipX0 ≤ c ∧ c < o.clipX1 ∧ o.clipY0 ≤ r ∧ r < o.clipY1)
      ∧ c < k.width ∧ r < k.height := by
  rw [Obj.covers_eq_true, Obj.mem_columns_iff, Obj.mem_rows_iff]
  tauto

end

/-! ## Source pixels (R103, R104) -/

section
variable {palettes : Vector (Vector Word 256) 4} {reads : List SourceRead} {place : Nat} {o : Obj} {j i : Nat}

theorem sourcePixel_fill {colour : Word} (h : o.body = .fill colour) :
    sourcePixel palettes reads place o j i = pixelOf colour := by
  unfold sourcePixel
  rw [h]

theorem bits_eq_extract (w : Word) (lo n : Nat) : bits w lo n = (w.extractLsb' lo n).toNat := by
  simp [bits, Nat.shiftRight_eq_div_pow]

theorem sourcePixel_bitmap8 {q : Fin 4} {src st : Nat} (h : o.body = .bitmap8 q src st) :
    let a := src + i * st + j
    sourcePixel palettes reads place o j i =
      pixelOf (palettes[q])[(((lookupWord reads (some place) (a - a % 4)).extractLsb' (8 * (a % 4)) 8).toFin
        : Fin 256)] := by
  intro a
  have aligned : a / 4 * 4 = a - a % 4 := by omega
  have byte := bits_eq_extract (lookupWord reads (some place) (a - a % 4)) (8 * (a % 4)) 8
  have low := ((lookupWord reads (some place) (a - a % 4)).extractLsb' (8 * (a % 4)) 8).isLt
  have address : o.sourceAddr j i = some a := by unfold Obj.sourceAddr; rw [h]
  unfold sourcePixel
  rw [h, address]
  dsimp only
  rw [aligned, byte, Vector.getElem?_eq_getElem q.isLt, Option.getD_some, Vector.getElem?_eq_getElem low]
  rfl

theorem sourcePixel_bitmap32 {src st : Nat} (h : o.body = .bitmap32 src st) :
    sourcePixel palettes reads place o j i = pixelOf (lookupWord reads (some place) (src + i * st + j * 4)) := by
  simp only [sourcePixel, Obj.sourceAddr, h]

theorem sourcePixel_slide {src st iw ih vx vy : Nat} (h : o.body = .slide src st iw ih vx vy) :
    sourcePixel palettes reads place o j i =
      pixelOf (lookupWord reads (some place) (src + ((vy + 8) / 16 + i) * st + ((vx + 8) / 16 + j) * 4)) := by
  simp only [sourcePixel, Obj.sourceAddr, h]

end

/-- A word is looked up as the first read of its source that holds its address gave it. -/
theorem lookupWord_of_read {before after : List SourceRead} {read : SourceRead} {n : Nat} {w : Word}
    (word : read.words[n]? = some w)
    (first : ∀ b ∈ before, b.source = read.source →
      read.addr + 4 * n < b.addr ∨ b.addr + 4 * b.words.length ≤ read.addr + 4 * n) :
    lookupWord (before ++ read :: after) read.source (read.addr + 4 * n) = w := by
  obtain ⟨within, rfl⟩ := List.getElem?_eq_some_iff.mp word
  unfold lookupWord
  rw [List.find?_append, List.find?_eq_none.mpr ?_, Option.none_or, List.find?_cons_of_pos ?_]
  · simp [within]
  · simp only [beq_self_eq_true, Bool.true_and, Bool.and_eq_true, decide_eq_true_eq]
    omega
  · intro b earlier holds
    simp only [Bool.and_eq_true, beq_iff_eq, decide_eq_true_eq] at holds
    have := first b earlier holds.1.1
    omega

/-! ## The pixel of the canvas (R101, R106) -/

section
variable {k : Composition} {c r : Nat}

theorem Composition.basePixel_transparent (h : k.dim = none) : k.basePixel c r = ⟨0, 0, 0, 0⟩ := by
  unfold Composition.basePixel
  rw [h]

theorem Composition.basePixel_backdrop {dim : Nat} (h : k.dim = some dim) : k.basePixel c r =
    dimPixel dim (pixelOf (lookupWord k.reads none (k.setup.backdrop + (r * k.setup.width + c) * 4))) := by
  unfold Composition.basePixel
  rw [h]
  rfl

/-- The objects are laid over the base layer back to front; one that is hidden or elsewhere leaves the pixel. -/
theorem Composition.pixel_eq (k : Composition) (palettes : Vector (Vector Word 256) 4) (c r : Nat) :
    k.pixel palettes c r =
      k.copy.zipIdx.foldl
        (fun p e =>
          if e.1.2.visible = true ∧ e.1.2.covers k.setup c r = true then
            blend (sourcePixel palettes k.reads e.2 e.1.2 ((c : Int) - e.1.2.left).toNat ((r : Int) - e.1.2.top).toNat)
              e.1.2.alpha p
          else p)
        (k.basePixel c r) := by
  simp only [Composition.pixel, Bool.and_eq_true]

end

end Sys2Proof.Machine

/-!
PROOF. O60, the bursts of a band (R107, R108), and the obligation.
-/

namespace Sys2Proof.Machine

/-! ## The source reads of an object in a band (R107) -/

section
variable {k : Composition} {o : Obj} {c r : Nat}

/-- The columns of the canvas that the object covers in the current band, in order. -/
def Composition.areaColumns (k : Composition) (o : Obj) : List Nat :=
  (List.range k.setup.width).filter fun c => (List.range 8).any fun r => o.covers k.setup c (8 * k.band + r)

/-- The rows of the current band that the object covers, in order and counted from the first of the band. -/
def Composition.areaRows (k : Composition) (o : Obj) : List Nat :=
  (List.range 8).filter fun r => (List.range k.setup.width).any fun c => o.covers k.setup c (8 * k.band + r)

/-- A row of the current band meets the object's rows. -/
def Composition.MeetsRow (k : Composition) (o : Obj) (r : Nat) : Prop :=
  (o.rows k.setup.height).1 ≤ 8 * k.band + r ∧ 8 * k.band + r < (o.rows k.setup.height).2

theorem Composition.mem_areaColumns : c ∈ k.areaColumns o ↔
    ((o.columns k.setup.width).1 ≤ c ∧ c < (o.columns k.setup.width).2) ∧ ∃ r < 8, k.MeetsRow o r := by
  simp only [Composition.areaColumns, Composition.MeetsRow, List.mem_filter, List.mem_range, List.any_eq_true,
    Obj.covers_eq_true]
  constructor
  · rintro ⟨-, r, low, cols, rows⟩
    exact ⟨cols, r, low, rows⟩
  · rintro ⟨cols, r, low, rows⟩
    exact ⟨Obj.lt_width cols, r, low, cols, rows⟩

/-- Where the object has a column on the canvas, its area has just the rows of the band that it meets. -/
theorem Composition.areaRows_eq (wide : (o.columns k.setup.width).1 < (o.columns k.setup.width).2) :
    k.areaRows o = (List.range 8).filter fun r =>
      (o.rows k.setup.height).1 ≤ 8 * k.band + r && 8 * k.band + r < (o.rows k.setup.height).2 := by
  refine List.filter_congr fun r _ => Bool.eq_iff_iff.mpr ?_
  simp only [List.any_eq_true, List.mem_range, Obj.covers_eq_true, Bool.and_eq_true, decide_eq_true_eq]
  constructor
  · rintro ⟨c, -, -, rows⟩
    exact rows
  · exact fun rows => ⟨_, Obj.lt_width ⟨le_rfl, wide⟩, ⟨le_rfl, wide⟩, rows⟩

theorem Composition.bandRows_eq (wide : (o.columns k.setup.width).1 < (o.columns k.setup.width).2) :
    o.bandRows k.setup k.band = (k.areaRows o).map (8 * k.band + ·) := by
  rw [Composition.areaRows_eq wide, Obj.bandRows, if_pos wide, List.filter_map]
  rfl

/-- An object with no area in the band meets none of its rows, or no column of the canvas. -/
theorem Composition.bandRows_of_no_area (empty : k.areaColumns o = []) : o.bandRows k.setup k.band = [] := by
  by_cases wide : (o.columns k.setup.width).1 < (o.columns k.setup.width).2
  · rw [Composition.bandRows_eq wide, Composition.areaRows_eq wide, List.map_eq_nil_iff, List.filter_eq_nil_iff]
    intro r low rows
    simp only [Bool.and_eq_true, decide_eq_true_eq] at rows
    have first : (o.columns k.setup.width).1 ∈ k.areaColumns o :=
      Composition.mem_areaColumns.mpr ⟨⟨le_rfl, wide⟩, r, List.mem_range.mp low, rows⟩
    exact List.not_mem_nil (empty ▸ first)
  · rw [Obj.bandRows, if_neg wide]

/-- The columns of an area that is not empty are the object's columns on the canvas. -/
theorem Composition.columns_of_area {first count : Nat} (area : k.areaColumns o = (List.range count).map (first + ·))
    (pos : 0 < count) : o.columns k.setup.width = (first, first + count) := by
  have run (c : Nat) : c ∈ k.areaColumns o ↔ first ≤ c ∧ c < first + count := by
    rw [area, List.mem_map]
    exact ⟨by rintro ⟨n, low, rfl⟩; have := List.mem_range.mp low; omega,
      fun h => ⟨c - first, List.mem_range.mpr (by omega), by omega⟩⟩
  have row : ∃ r < 8, k.MeetsRow o r := (Composition.mem_areaColumns.mp ((run first).mpr (by omega))).2
  have same (c : Nat) : (o.columns k.setup.width).1 ≤ c ∧ c < (o.columns k.setup.width).2 ↔
      first ≤ c ∧ c < first + count := by
    rw [← run c, Composition.mem_areaColumns, and_iff_left row]
  have atFirst := same first
  have atLast := same (first + count - 1)
  have atStart := same (o.columns k.setup.width).1
  have atEnd := same ((o.columns k.setup.width).2 - 1)
  exact Prod.ext (by omega) (by dsimp only; omega)

/-- The words that hold `count` pixels of an object's source from an address on. -/
def Obj.spanWords (o : Obj) (addr count : Nat) : Nat := ((addr + count * o.pixelBytes + 3) / 4 * 4 - addr / 4 * 4) / 4

/-- The bursts that read `count` pixels of an object's source, from column `j` and row `i` of the object on. -/
def Obj.rowBursts (o : Obj) (j i count : Nat) : List (Nat × Nat) :=
  match o.sourceAddr j i with
  | none => []
  | some addr => splitBursts (o.spanWords addr count) (addr / 4 * 4) (o.spanWords addr count)

theorem Obj.rowBursts_some {o : Obj} {j i count a : Nat} (h : o.sourceAddr j i = some a) :
    o.rowBursts j i count = splitBursts (o.spanWords a count) (a / 4 * 4) (o.spanWords a count) := by
  rw [Obj.rowBursts, h]

theorem Composition.objectReads_hidden (h : o.visible = false) (place : Nat) : k.objectReads place o = [] := by
  rw [Composition.objectReads, h]
  rfl

theorem Composition.objectReads_visible (h : o.visible = true) (place : Nat) : k.objectReads place o =
    (o.bandRows k.setup k.band).flatMap fun (r : Nat) =>
      (o.rowBursts (((o.columns k.setup.width).1 : Int) - o.left).toNat ((r : Int) - o.top).toNat
          ((o.columns k.setup.width).2 - (o.columns k.setup.width).1)).map
        fun b => ComposeBurst.read (some place) b.1 b.2 := by
  rw [Composition.objectReads, h]
  refine List.flatMap_congr fun r _ => ?_
  unfold Obj.rowBursts
  cases o.sourceAddr (((o.columns k.setup.width).1 : Int) - o.left).toNat ((r : Int) - o.top).toNat <;> rfl

theorem Composition.objectReads_fill {colour : Word} (h : o.body = .fill colour) (place : Nat) :
    k.objectReads place o = [] := by
  cases visible : o.visible with
  | false => exact Composition.objectReads_hidden visible place
  | true =>
    rw [Composition.objectReads_visible visible, List.flatMap_eq_nil_iff]
    intro r _
    simp only [Obj.rowBursts, Obj.sourceAddr, h, List.map_nil]

theorem Composition.objectReads_of_no_area (empty : k.areaColumns o = []) (place : Nat) : k.objectReads place o = [] := by
  cases visible : o.visible with
  | false => exact Composition.objectReads_hidden visible place
  | true => rw [Composition.objectReads_visible visible, Composition.bandRows_of_no_area empty, List.flatMap_nil]

/-- The bursts of a visible object in the current band, row by row of its area. -/
def Composition.areaBursts (k : Composition) (o : Obj) (first count : Nat) : List (List (Nat × Nat)) :=
  (k.areaRows o).map fun r =>
    o.rowBursts ((first : Int) - o.left).toNat (((8 * k.band + r : Nat) : Int) - o.top).toNat count

theorem Composition.objectReads_area {first count : Nat} (visible : o.visible = true)
    (area : k.areaColumns o = (List.range count).map (first + ·)) (pos : 0 < count) (place : Nat) :
    k.objectReads place o =
      (k.areaBursts o first count).flatten.map fun b => ComposeBurst.read (some place) b.1 b.2 := by
  have columns := Composition.columns_of_area area pos
  have wide : (o.columns k.setup.width).1 < (o.columns k.setup.width).2 := by rw [columns]; dsimp only; omega
  rw [Composition.objectReads_visible visible, Composition.bandRows_eq wide, columns, List.flatMap_map,
    Composition.areaBursts, ← List.flatMap_def, List.map_flatMap]
  dsimp only
  rw [Nat.add_sub_cancel_left]

/-- Each row's bursts stay in their blocks and hold the words of the row's bytes, each once and in order. -/
theorem Composition.areaBursts_words {first count n r a : Nat} {b : List (Nat × Nat)}
    (burst : (k.areaBursts o first count)[n]? = some b) (row : (k.areaRows o)[n]? = some r)
    (source : o.sourceAddr ((first : Int) - o.left).toNat (((8 * k.band + r : Nat) : Int) - o.top).toNat = some a) :
    (∀ e ∈ b, 1 ≤ e.2 ∧ e.2 ≤ 8 ∧ (e.1 + 4 * (e.2 - 1)) / 32 = e.1 / 32)
      ∧ (b.flatMap fun e => (List.range e.2).map (e.1 + 4 * ·))
          = (List.range (o.spanWords a count)).map (a / 4 * 4 + 4 * ·) := by
  rw [Composition.areaBursts, List.getElem?_map, row, Option.map_some, Option.some_inj] at burst
  subst burst
  rw [Obj.rowBursts_some source]
  exact ⟨splitBursts_blocks _ _ _ (Nat.mul_mod_left _ _), splitBursts_words _ _ _ le_rfl⟩

end

/-! ## All bursts of a band (R107) -/

theorem Composition.backdropReads_eq (k : Composition) : k.backdropReads =
    if k.dim = none then []
    else (bandRowNumbers k.band).flatMap fun r =>
      k.setup.burstColumns.map fun c => .read none (k.setup.pixelAddr k.setup.backdrop c r) 8 := by
  simp only [Composition.backdropReads, Option.isNone_iff_eq_none]

/-! ## A COMPOSE grant (R98, R101, R108) -/

section
variable {s : State} {k : Composition}

/-- The state `u` after a burst has had its effect, with the composer and the bridge as the grant found them in `s`. -/
theorem State.nextBurst_of_frame {u : State} {bursts : Nat} (composer : u.composer = s.composer)
    (bridge : u.bridge = s.bridge) : u.nextBurst k bursts =
      if k.granted + 1 < bursts then
        { u with composer := { s.composer with comp := some { k with granted := k.granted + 1 } } }
      else if k.band + 1 < k.setup.height / 8 then
        { u with composer :=
          { s.composer with comp := some { k with band := k.band + 1, granted := 0, reads := [] } } }
      else
        { u with
          composer := { s.composer with comp := some { k with granted := k.granted + 1 } }
          bridge := { s.bridge with busy := some .composition } } := by
  rw [← composer, ← bridge]
  rfl

theorem State.grantCompose_read {source : Option Nat} {a n : Nat} (comp : s.composer.comp = some k)
    (burst : k.bandBursts[k.granted]? = some (.read source a n)) : s.grantCompose =
      s.nextBurst { k with reads := k.reads ++ [⟨source, a, s.readWords a n⟩] } k.bandBursts.length := by
  simp only [State.grantCompose, comp, burst]

/-- The words of a band write: the 8 pixels from column `c` on (R101, R107). -/
def Composition.writtenWords (k : Composition) (palettes : Vector (Vector Word 256) 4) (c r : Nat) : List Word :=
  (List.range 8).map fun i => (k.pixel palettes (c + i) r).word

@[simp] theorem Composition.length_writtenWords (palettes : Vector (Vector Word 256) 4) (c r : Nat) :
    (k.writtenWords palettes c r).length = 8 := List.length_map _

theorem State.grantCompose_write {c r : Nat} (comp : s.composer.comp = some k)
    (burst : k.bandBursts[k.granted]? = some (.write c r)) : s.grantCompose =
      (s.writeWords (k.setup.pixelAddr (k.setup.bank k.back) c r)
        (k.writtenWords s.scene.palettes c r)).nextBurst k k.bandBursts.length := by
  simp only [State.grantCompose, comp, burst]
  rfl

theorem CanvasSetup.bank_eq (setup : CanvasSetup) (bank : Bank) :
    setup.bank bank = if bank = .a then setup.bankA else setup.bankB := by
  cases bank <;> rfl

/-- The pixels of a band write, read back from where they were stored. -/
theorem State.readWord_writtenWords {a c r i : Nat} (law : s.memoryLaw = true) (size : 32 ≤ s.bridge.memSize) (low : i < 8) :
    let p := k.pixel s.scene.palettes (c + i) r
    pixelOf ((s.writeWords a (k.writtenWords s.scene.palettes c r)).readWord (a + 4 * i))
      = ⟨p.a % 256, p.r % 256, p.g % 256, p.b % 256⟩ := by
  have word : (k.writtenWords s.scene.palettes c r)[i]? = some (k.pixel s.scene.palettes (c + i) r).word := by
    simp [Composition.writtenWords, low]
  rw [State.readWord_writeWords s a _ law (by simpa using size) i _ word, pixelOf_word]

/-- A band write leaves every byte but its 32 as it was. -/
theorem State.readByte_writtenWords_other {a c r x : Nat} (law : s.memoryLaw = true)
    (apart : ∀ i, i < 32 → x % s.bridge.memSize ≠ (a + i) % s.bridge.memSize) :
    (s.writeWords a (k.writtenWords s.scene.palettes c r)).readByte x = s.readByte x :=
  State.readByte_writeWords_other s a x _ law fun i hi => apart i (by simpa using hi)

end

/-- Settles O60: each rule of a pixel by its own lemma, the bursts of a band row by row, and a grant by its burst. -/
theorem blendAndDimFollowTheirRules : Obligations.BlendAndDimFollowTheirRules := by
  refine ⟨⟨?_, ?_⟩, fun o k c r => Obj.covers_iff, ?_, fun before after read n w => lookupWord_of_read, ?_, ?_, ?_, ?_⟩
  · intro src dst o ha ho _ _ _ hd _ _ _
    have alpha := effectiveAlpha_le ha ho
    exact ⟨rfl, alpha, fun x y _ _ => blendChannel_between x y alpha, blend_transparent hd, blend_opaque⟩
  · exact fun dim p _ _ _ _ => ⟨rfl, dimPixel_full p, dimPixel_zero p⟩
  · exact fun palettes reads place o j i => ⟨fun _ => sourcePixel_fill, fun _ _ _ => sourcePixel_bitmap8,
      fun _ _ => sourcePixel_bitmap32, fun _ _ _ _ _ _ => sourcePixel_slide⟩
  · exact fun k palettes c r => ⟨Composition.basePixel_transparent, fun _ => Composition.basePixel_backdrop,
      k.pixel_eq palettes c r⟩
  · intro k
    rw [Composition.bandBursts, k.backdropReads_eq]
    rfl
  · refine fun k place o => ⟨?_, fun first count visible area pos => ?_⟩
    · rintro (hidden | ⟨colour, fill⟩ | empty)
      · exact Composition.objectReads_hidden hidden place
      · exact Composition.objectReads_fill fill place
      · exact Composition.objectReads_of_no_area empty place
    · refine ⟨k.areaBursts o first count, List.length_map _, Composition.objectReads_area visible area pos place, ?_⟩
      intro n b r a burst row source
      exact Composition.areaBursts_words burst row source
  · refine fun s k comp => ⟨fun source a n burst =>
      (State.grantCompose_read comp burst).trans (State.nextBurst_of_frame rfl rfl),
      fun c r burst size law => ?_⟩
    rw [State.grantCompose_write comp burst, k.setup.bank_eq]
    have frame := s.writeWords_frame (k.setup.pixelAddr (if k.back = .a then k.setup.bankA else k.setup.bankB) c r)
      (k.writtenWords s.scene.palettes c r)
    refine ⟨_, ?_, frame, fun i => State.readWord_writtenWords law size, fun x =>
      State.readByte_writtenWords_other law⟩
    exact State.nextBurst_of_frame (frame .composer (by simp)) (frame .bridge (by simp))

end Sys2Proof.Machine

/-!
PROOF. PREFETCH PAGE (O34), ENTER and BACK (O38, O39).
-/

namespace Sys2Proof.Machine

/-! ## PREFETCH PAGE (O34) -/

/-- The page is buffered, freshly in flight or pending (R128). -/
def Navigator.knows (n : Navigator) (addr : Nat) : Prop :=
  (∃ b, n.buffer = some b ∧ b.addr = addr) ∨ n.inflight = some ⟨addr, false⟩ ∨ n.waiting = some addr

/-- The test of R128 for a page that needs no new read. -/
theorem Navigator.knows_iff (n : Navigator) (addr : Nat) :
    (n.buffer.any (·.addr == addr) || n.inflight.any (fun f => f.addr == addr && !f.stale)
      || n.waiting == some addr) = true ↔ n.knows addr := by
  have fresh (f : Prefetch) : (f.addr = addr ∧ f.stale = false) ↔ f = ⟨addr, false⟩ := by
    cases f
    simp
  simp [Navigator.knows, Option.any_eq_true, fresh, or_assoc]

section
variable {s v : State} {c : Command} {rest : List Command} {addr : Nat}

theorem State.prefetchPage_known (known : v.nav.knows addr) : v.prefetchPage addr = v :=
  if_pos ((v.nav.knows_iff addr).mpr known)

/-- A page that is not known empties the buffer; the read in flight decides whether its own starts (R128). -/
theorem State.prefetchPage_unknown (unknown : ¬ v.nav.knows addr) : v.prefetchPage addr =
    match v.nav.inflight with
    | none => (v.onNav fun n => { n with buffer := none }).startPrefetch addr
    | some f =>
      v.onNav fun n => { n with buffer := none, inflight := some { f with stale := true }, waiting := some addr } :=
  if_neg (mt (v.nav.knows_iff addr).mp unknown)

theorem State.prefetchPage_starts (unknown : ¬ v.nav.knows addr) (idle : v.nav.inflight = none) : v.prefetchPage addr =
    { v with
      nav := { v.nav with buffer := none, inflight := some ⟨addr, false⟩ }
      bridge := { v.bridge with fetch := v.bridge.fetch ++ [⟨.prefetch, addr, 196, 0, []⟩] } } := by
  rw [State.prefetchPage_unknown unknown, idle]
  rfl

theorem State.prefetchPage_waits {f : Prefetch} (unknown : ¬ v.nav.knows addr) (reading : v.nav.inflight = some f) :
    v.prefetchPage addr =
      { v with nav := { v.nav with
          buffer := none, inflight := some { f with stale := true }, waiting := some addr } } := by
  rw [State.prefetchPage_unknown unknown, reading]
  rfl

/-- PREFETCH PAGE whose address passes does what the prefetch state says, with code 0. -/
theorem execPrefetchPage_completes (h : s.Starts c rest .prefetchPage) (ok : pageAddrOk s.cmdw (c.word 1).toNat = true)
    {u : State} (does : (s.departed rest).prefetchPage (c.word 1).toNat = u) (pending : u.events.statusPending = true) :
    exec .prefetchPage s = .next (u.setCode 0).closed := by
  have verdict : runPrefetchPage c (s.departed rest) = .completed 0 u := by
    rw [← does]
    exact judged_pass (by simp [ok])
  exact State.startHead_completed h _ _ (ofKind_of h) verdict pending

end

/-- Settles O34: the prefetch state decides between nothing, the read and the wait; the one check is R128's. -/
theorem prefetchPageStartsOrWaits : Obligations.PrefetchPageStartsOrWaits := by
  refine ⟨?_, fun s c rest h => ?_⟩
  · intro s c rest addr h hAddr aligned below known
    subst hAddr
    have runs {u : State} := execPrefetchPage_completes h ((pageAddrOk_iff _ _).mpr ⟨aligned, below⟩) (u := u)
    have pending := State.departed_statusPending s rest
    have knows : (s.departed rest).nav.knows (c.word 1).toNat ↔ known := by
      rw [State.departed_nav]
      exact Iff.rfl
    refine ⟨fun here => runs (State.prefetchPage_known (knows.mpr here)) pending, fun away idle => ?_,
      fun f away reading => ?_⟩
    · rw [runs (State.prefetchPage_starts (mt knows.mp away) (by simpa using idle)) pending, State.departed_nav,
        State.departed_fetch]
      rfl
    · rw [runs (State.prefetchPage_waits (mt knows.mp away) (by simpa using reading)) pending, State.departed_nav]
      rfl
  · have verdict : runPrefetchPage c (s.departed rest) = judged [(pageAddrOk s.cmdw (c.word 1).toNat, .range)]
        (.completed 0 ((s.departed rest).prefetchPage (c.word 1).toNat)) := by
      simp only [runPrefetchPage, State.departed_cmdw]
    exact State.refusesIn_judged h rfl (ofKind_of h) verdict ⟨rfl, pageAddrOk_iff _ _, fun _ => trivial⟩

/-! ## A key that opens a page (R125, R126) -/

section
variable {s v : State} {c : Command} {rest : List Command} {k : Kind}

/-- A command whose owner opens a page completes at once or goes into service (R114). -/
theorem State.startHead_opens (h : s.Starts c rest k) (row : Command → Bool) (run : Command → State → Verdict)
    (hr : row c = true) {u : State} {cause : Cause} {addr saved slot : Nat}
    (opens : run c (s.departed rest) = u.openPage cause addr saved slot) (pending : u.events.statusPending = true) :
    s.live (fun t => t.startHead row run) = .next (u.opening cause addr saved slot).closed := by
  unfold State.opening
  rcases State.openPage_cases u cause addr saved slot with ⟨code, t, ended, kept⟩ | ⟨t, began, kept⟩
  · rw [ended]
    exact State.startHead_completed h row run hr (opens.trans ended) (kept.trans pending)
  · rw [began]
    exact State.startHead_began h row run hr (opens.trans began) (by rw [kept, pending])

/-- The Menu Stack of a state whose Navigator is another's. -/
theorem State.onNav_stack (same : v.nav = s.nav) (g : List Link → List Link) :
    (v.onNav fun n => { n with stack := g n.stack }) = { v with nav := { s.nav with stack := g s.nav.stack } } := by
  rw [← same]
  rfl

end

/-! ## ENTER (O38) -/

section
variable {v : State} {c : Command} {p : Page} {f slot : Nat} {b : Button}

theorem State.enterKey_leaf (button : p.button f = some b) (leaf : b.submenu = false) : v.enterKey p f slot =
    .completed 1 (v.raise (.activated f false false p.addr b.action) (some slot)) := by
  simp [State.enterKey, button, leaf]

theorem State.enterKey_full (button : p.button f = some b) (submenu : b.submenu = true)
    (full : 8 ≤ v.nav.stack.length) : v.enterKey p f slot =
      .completed 2 (v.raise (.activated f false true p.addr b.action) (some slot)) := by
  simp [State.enterKey, button, submenu, Config.stackCapacity, full]

/-- With room in the Menu Stack the submenu's address decides (R125). -/
theorem State.enterKey_room (button : p.button f = some b) (submenu : b.submenu = true)
    (room : v.nav.stack.length < 8) :
    let raised := v.raise (.activated f true false p.addr b.action) (some slot)
    v.enterKey p f slot =
      if pageAddrOk v.cmdw b.submenuAddr = true then
        (raised.onNav fun n => { n with stack := n.stack ++ [⟨p.addr, f⟩] }).openPage .enter b.submenuAddr 0 slot
      else .completed 3 (raised.raise (.pageRejected .enter .address b.submenuAddr 0) (some slot)) := by
  have notFull : ¬ 8 ≤ v.nav.stack.length := Nat.not_le.mpr room
  cases ok : pageAddrOk v.cmdw b.submenuAddr <;>
    simp [State.enterKey, button, submenu, Config.stackCapacity, notFull, ok]

/-- The checks of R119 passed, ENTER's own rule stands. -/
theorem runKeyEnter_focused (key : c.key = some .enter) (page : v.nav.page = some p) (focus : v.nav.focus = some f) :
    runKeyEnter c v = v.enterKey p f c.slot := by
  unfold runKeyEnter runKey
  rw [judged_pass (by simp [key, page, focus]), page, focus]
  rfl

end

/-- Settles O38: the button's submenu, the room in the Menu Stack and the submenu's address decide in turn. -/
theorem enterActivatesAndOpens : Obligations.EnterActivatesAndOpens := by
  refine ⟨?_, fun s c rest h key => ?_⟩
  · intro s c rest p f b h key page focus button
    have row := ofKey_of h (.inl key)
    have verdict : runKeyEnter c (s.departed rest) = (s.departed rest).enterKey p f c.slot :=
      runKeyEnter_focused key (by simpa using page) (by simpa using focus)
    have stack : (s.departed rest).nav.stack = s.nav.stack := by rw [State.departed_nav]
    have ends {code : Fin 4} {u : State} (rule : (s.departed rest).enterKey p f c.slot = .completed code u)
        (pending : u.events.statusPending = true) : exec .keyEnter s = .next (u.setCode code).closed :=
      State.startHead_completed h _ _ row (verdict.trans rule) pending
    refine ⟨fun leaf => ends (State.enterKey_leaf button leaf) (by simp),
      fun submenu full => ends (State.enterKey_full button submenu (by rwa [stack])) (by simp),
      fun submenu room => ?_⟩
    intro raised
    have rule := State.enterKey_room (v := s.departed rest) (slot := c.slot) button submenu (by rwa [stack])
    rw [State.departed_cmdw] at rule
    have address := pageAddrOk_iff s.cmdw b.submenuAddr
    have pending : raised.events.statusPending = true := by simp [raised]
    refine ⟨fun fails => ends (rule.trans (if_neg (mt address.mp fails))) (by simp [pending]),
      fun aligned below => ?_⟩
    have nav : raised.nav = s.nav := State.departed_nav s rest
    have pushed := State.onNav_stack nav fun links => links ++ [Link.mk p.addr f]
    rw [← pushed]
    have opens := rule.trans (if_pos (address.mpr ⟨aligned, below⟩))
    exact State.startHead_opens h _ _ row (verdict.trans opens) pending
  · have checks : ChecksSay
        [(c.key.isSome, .range), ((s.departed rest).nav.page.isSome, .noPage),
          (!true || (s.departed rest).nav.focus.isSome, .wrongState)]
        [(c.key ≠ none, .range), (s.nav.page ≠ none, .noPage), (s.nav.focus ≠ none, .wrongState)] := by
      rw [State.departed_nav]
      exact ⟨rfl, Option.isSome_iff_ne_none, fun _ => ⟨rfl, Option.isSome_iff_ne_none, fun _ =>
        ⟨rfl, Option.isSome_iff_ne_none, fun _ => trivial⟩⟩⟩
    exact State.refusesIn_judged h rfl (ofKey_of h key) rfl checks

/-! ## BACK (O39) -/

section
variable {v : State} {p : Page} {slot : Nat}

theorem State.backKey_top (empty : v.nav.stack = []) : v.backKey p slot =
    .completed 1 (v.raise (.backAtTop v.nav.focus p.addr) (some slot)) := by
  simp [State.backKey, empty]

/-- The newest link record names the page that BACK opens (R126). -/
theorem State.backKey_link {addr button : Nat} {links : List Link}
    (stack : v.nav.stack = links ++ [⟨addr, button⟩]) : v.backKey p slot =
      (v.onNav fun n => { n with stack := n.stack.dropLast }).openPage .back addr button slot := by
  simp [State.backKey, stack]

end

theorem backRow : keyRow .keyBack .back fun c p t => t.backKey p c.slot := fun _ => rfl

/-- Settles O39: the newest link record decides; it is popped for the opening. -/
theorem backReturnsToTheLink : Obligations.BackReturnsToTheLink := by
  refine ⟨?_, fun s c rest h key => State.key_refused h backRow key⟩
  intro s c rest p h key page
  have nav := State.departed_nav s rest
  refine ⟨fun empty => ?_, fun links addr button stack => ?_⟩
  · rw [← nav]
    exact State.key_completes h backRow key page (State.backKey_top (by rwa [nav])) (by simp)
  · have verdict : runKeyBack c (s.departed rest) = _ :=
      (runKey_open key (by rwa [nav])).trans (State.backKey_link (by rwa [nav]))
    have popped := State.onNav_stack nav List.dropLast
    rw [stack, List.dropLast_concat] at popped
    rw [← popped]
    exact State.startHead_opens h _ _ (ofKey_of h (.inl key)) verdict (State.departed_statusPending s rest)

end Sys2Proof.Machine

/-!
PROOF. The stepping rule (O44), and the advance that is owed before anything else (O4).
-/

namespace Sys2Proof.Machine

/-! ## The stepping rule (O44) -/

section
variable {l : SlideList} {i j : Nat} {back : Bool}

theorem SlideList.next_forward (l : SlideList) (i : Nat) :
    l.next i false = if i + 1 < l.count then some (i + 1) else if l.loop then some 0 else none := rfl

theorem SlideList.next_backward (l : SlideList) (i : Nat) :
    l.next i true = if i = 0 then (if l.loop then some (l.count - 1) else none) else some (i - 1) := by
  cases i <;> rfl

/-- The two ways a step goes: along the list, or from an end to the other in a loop (R134). -/
theorem SlideList.next_cases (next : l.next i back = some j) :
    (back = false ∧ i + 1 < l.count ∧ j = i + 1) ∨ (back = false ∧ l.count ≤ i + 1 ∧ l.loop = true ∧ j = 0)
      ∨ (back = true ∧ i = j + 1) ∨ (back = true ∧ i = 0 ∧ l.loop = true ∧ j = l.count - 1) := by
  cases back with
  | false =>
    rw [SlideList.next_forward] at next
    split at next
    · simp_all
    · split at next <;> simp_all
  | true =>
    rw [SlideList.next_backward] at next
    split at next
    · split at next <;> simp_all
    · rename_i inner
      obtain rfl := Option.some.inj next
      exact .inr (.inr (.inl ⟨rfl, (Nat.sub_one_add_one inner).symm⟩))

/-- A step from an index of the list ends at one. -/
theorem SlideList.next_lt (inside : i < l.count) (next : l.next i back = some j) : j < l.count := by
  rcases SlideList.next_cases next with ⟨-, room, rfl⟩ | ⟨-, -, -, rfl⟩ | ⟨-, rfl⟩ | ⟨-, -, -, rfl⟩ <;> omega

/-- In a loop a step is undone by one in the other direction. -/
theorem SlideList.next_undone (inside : i < l.count) (loop : l.loop = true) (next : l.next i back = some j) :
    l.next j (!back) = some i := by
  rcases SlideList.next_cases next with ⟨rfl, room, rfl⟩ | ⟨rfl, last, -, rfl⟩ | ⟨rfl, rfl⟩ | ⟨rfl, rfl, -, rfl⟩
  · exact SlideList.next_backward l (i + 1)
  · simp only [Bool.not_false, SlideList.next_backward, loop, if_true]
    congr 1
    omega
  · exact if_pos inside
  · simp only [Bool.not_true, SlideList.next_forward, loop, if_true]
    rw [if_neg (by omega)]

end

/-- Settles O44: the two directions by the definition of a step, and the rest by the ways a step goes. -/
theorem steppingFollowsTheList : Obligations.SteppingFollowsTheList := fun l i inside =>
  ⟨l.next_forward i, l.next_backward i, fun _ _ next =>
    ⟨SlideList.next_lt inside next, fun loop => SlideList.next_undone inside loop next⟩⟩

/-! ## The advance that is owed (O4) -/

section
variable {s : State}

/-- The advance touches what the load of an index does, or raises an event (R145). -/
theorem State.advance_frame (s : State) : State.sameBut [.seq, .bridge, .events] s s.advance := by
  unfold State.advance
  dsimp only
  split
  · exact s.sameBut_refl _
  · split
    · exact ((s.onSeq_frame _).trans (State.loadBegin_frame _ _ _)).mono (by simp)
    · exact (s.raise_frame _ _).mono (by simp)

theorem State.takeOwedAdvance_frame (s : State) : State.sameBut [.seq, .bridge, .events] s s.takeOwedAdvance := by
  unfold State.takeOwedAdvance
  split
  · exact ((s.onSeq_frame _).trans (State.advance_frame _)).mono (by simp)
  · exact s.sameBut_refl _

theorem State.noteStatus_frame (s old : State) : State.sameBut [.events] s (s.noteStatus old) := by
  unfold State.noteStatus
  split
  · exact s.sameBut_refl _
  · exact s.onEvents_frame _

/-- An advance that is owed is owed no longer once it is taken. -/
theorem State.takeOwedAdvance_advanceOwed (s : State) : s.takeOwedAdvance.seq.advanceOwed = false := by
  unfold State.takeOwedAdvance
  split
  · exact congrArg Outline.owed (State.advance_outline _)
  · rename_i clear
    exact Bool.eq_false_iff.mpr clear

theorem State.takeOwedAdvance_firstWrite (s : State) : s.takeOwedAdvance.events.firstWrite = s.events.firstWrite := by
  unfold State.takeOwedAdvance
  split
  · exact congrArg Outline.first (State.advance_outline _)
  · rfl

/-- Once the status write after RSTN has been presented, only the owed advance is due. -/
theorem State.begin_shown (shown : s.events.firstWrite = false) : s.begin = s.takeOwedAdvance.noteStatus s := by
  simp [State.begin, State.takeFirstWrite, shown]

theorem State.begin_frame (shown : s.events.firstWrite = false) :
    State.sameBut [.seq, .bridge, .events] s s.begin := by
  rw [State.begin_shown shown]
  exact s.takeOwedAdvance_frame.and_then (State.noteStatus_frame _ _) (by simp)

/-- Nothing is due any more once what is due has been taken. -/
theorem State.quiet_begin (high : s.rstnLow = false) (shown : s.events.firstWrite = false) : s.begin.Quiet := by
  have outline : s.begin.outline = s.takeOwedAdvance.outline := by
    rw [State.begin_shown shown, State.noteStatus_outline]
  exact ⟨(State.begin_frame shown .line (by simp)).trans high,
    (congrArg Outline.owed outline).trans s.takeOwedAdvance_advanceOwed,
    (congrArg Outline.first outline).trans (s.takeOwedAdvance_firstWrite.trans shown)⟩

/-- Whether the head is due does not depend on the advance that is owed (R25). -/
theorem State.headDue_begin (shown : s.events.firstWrite = false) : s.begin.headDue = s.headDue := by
  have frame := State.begin_frame shown
  have intake : s.begin.intake = s.intake := frame .intake (by simp)
  have takeover : s.begin.takeover = s.takeover := frame .takeover (by simp)
  simp only [State.headDue, State.headReady, State.canStart, intake, takeover]

theorem State.live_begin (high : s.rstnLow = false) (shown : s.events.firstWrite = false) (f : State → State) :
    s.begin.live f = s.live f := by
  rw [State.live_quiet (State.quiet_begin high shown)]
  simp [State.live, high]

theorem State.event_begin (high : s.rstnLow = false) (shown : s.events.firstWrite = false) (f : State → State) :
    s.begin.event f = s.event f := by
  simp only [State.event, State.afterStart, State.headDue_begin shown, State.live_begin high shown]

/-- Every row but RSTN's has the effect that it has once what is due has been taken. -/
theorem exec_begin (c : Instr) (high : s.rstnLow = false) (shown : s.events.firstWrite = false)
    (noAssert : c ≠ .rstnAssert) (noRelease : ∀ msz level, c ≠ .rstnRelease msz level) :
    exec c s.begin = exec c s := by
  have row (test : Command → Bool) (run : Command → State → Verdict) :
      s.begin.live (fun t => t.startHead test run) = s.live fun t => t.startHead test run :=
    State.live_begin high shown _
  have event (f : State → State) : s.begin.event f = s.event f := State.event_begin high shown f
  cases c with
  | rstnAssert => exact absurd rfl noAssert
  | rstnRelease msz level => exact absurd rfl (noRelease msz level)
  | controllerRequest r => exact congrArg (ite _ · _) (event _)
  | frameTick _ | dwellExpiry | tkrqEdge _ | holdLimit | forwardedGrant | internalGrant | compositionComplete
  | paletteReadEnd | pageReadEnd | prefetchReadEnd _ | descriptorReadEnd | saveEnd | copyEnd | restoreReadEnd
  | eventRecordWriteEnd | statusWrite => exact event _
  | mark | restart | setCanvas | setTakeover | setSlides | define | drop | place | unplace | patch | step
  | loadPalette | setProfile | move | retune | haltImmediate | haltEase | openPage | prefetchPage | keyUp | keyDown
  | keyLeft | keyRight | keySelect | keyEnter | keyBack | closeMenu | slideStart | slideStop | slideStep
  | slidePause | slideResume | takeover | resume | unknownKindCommand => exact row _ _

/-- DWELL EXPIRY takes the owed advance and does nothing else, when no head is due. -/
theorem exec_dwellExpiry (high : s.rstnLow = false) (shown : s.events.firstWrite = false) (idle : s.headDue = false) :
    exec .dwellExpiry s = .next (s.takeOwedAdvance.endStep s) := by
  have settled : s.begin.Settled := ⟨State.quiet_begin high shown, (State.headDue_begin shown).trans idle⟩
  calc exec .dwellExpiry s
      = s.begin.event fun t => t := (State.event_begin high shown _).symm
    _ = .next (s.begin.endStep s.begin) := State.event_settled settled _
    _ = .next (s.takeOwedAdvance.endStep s) := by
      rw [State.endStep, State.noteStatus_self, State.begin_shown shown, State.endStep]

end

/-- Settles O4: DWELL EXPIRY is the owed advance alone, which the stepping rule sends to a load or to the end of the
list; and every other row finds it taken. -/
theorem owedAdvanceComesFirst : Obligations.OwedAdvanceComesFirst := by
  refine ⟨fun s i high owed shown idle current => ⟨fun j next => ?_, fun last => ?_⟩,
    fun c s high _ shown noAssert noRelease => ?_⟩
  · refine ⟨_, exec_dwellExpiry high shown idle, ?_⟩
    rw [State.takeOwedAdvance_load owed current next]
    exact State.loadBegin_begun _ j none
  · rw [exec_dwellExpiry high shown idle, State.takeOwedAdvance_end owed current last]
    rfl
  · rw [← State.begin_shown shown]
    exact ⟨(exec_begin c high shown noAssert noRelease).symm, (State.quiet_begin high shown).clear⟩

end Sys2Proof.Machine

/-!
PROOF. O47: the requests of TKRQ and of TAKEOVER (R157 to R160, R170).
-/

namespace Sys2Proof.Machine

section
variable {s t u : State} {c : Command} {rest : List Command} {source : Source}

/-! ## What an accepted request and a recovery leave of the Event Unit and of the Intake -/

theorem State.enters_events (h : State.enters u source t) : t.events = u.events := by
  obtain ⟨stands, saves⟩ := h
  by_cases waits : u.drainWaits
  · rw [stands waits]
  · obtain ⟨_, _, _, begun, -⟩ := saves waits
    rw [begun]

theorem State.recovers_statusPending (h : State.recovers u source t) :
    t.events.statusPending = u.events.statusPending := by
  obtain ⟨stands, copies⟩ := h
  by_cases comp : u.composer.comp = none
  · obtain ⟨-, -, copying, ended⟩ := copies comp
    cases canvas : u.composer.canvas with
    | some k =>
      obtain ⟨-, -, -, frame⟩ := copying k canvas
      rw [show t.events = u.events from frame .events (by simp)]
    | none =>
      obtain ⟨-, -, -, -, events⟩ := ended canvas
      rw [events]
      exact State.raise_statusPending ..
  · rw [stands comp]

/-- A recovery that goes on, in DRAIN or in COPY, leaves the Intake (R170). -/
theorem State.recovers_serving (h : State.recovers u source t)
    (goesOn : u.composer.comp ≠ none ∨ u.composer.canvas ≠ none) : t.intake = u.intake := by
  obtain ⟨stands, copies⟩ := h
  by_cases comp : u.composer.comp = none
  · obtain ⟨k, canvas⟩ := Option.ne_none_iff_exists'.mp (goesOn.resolve_left fun h => h comp)
    obtain ⟨-, -, copying, -⟩ := copies comp
    obtain ⟨-, -, -, frame⟩ := copying k canvas
    exact frame .intake (by simp)
  · rw [stands comp]

/-- A recovery of a TAKEOVER in service that finds the Composer DISABLED has ended at its start (R163, R170). -/
theorem State.recovers_ended (h : State.recovers u source t) (comp : u.composer.comp = none)
    (canvas : u.composer.canvas = none) (served : u.takeoverServed = true) : t.intake.inService = none := by
  obtain ⟨-, -, -, ended⟩ := h.2 comp
  obtain ⟨-, -, -, intake, -⟩ := ended canvas
  rw [intake]
  exact congrArg Intake.inService (if_pos served)

/-! ## The line (R157, R158) -/

theorem LineEdge.names_iff (e : LineEdge) (level : Bool) :
    e.names level = true ↔ e = .both ∨ (e = .rising ∧ level = true) ∨ (e = .falling ∧ level = false) := by
  cases e <;> simp [LineEdge.names]

/-- TKRQ shows a level. -/
def State.showsLevel (s : State) (level : Bool) : State :=
  { s with takeover := { s.takeover with level := level } }

/-- A level that is no edge, or an edge that is not named, is only shown (R157). -/
theorem State.lineLevel_unnamed {level : Bool}
    (h : ¬ (level ≠ s.takeover.level ∧ s.takeover.edge.names level = true)) :
    s.lineLevel level = s.showsLevel level := by
  unfold State.lineLevel
  split
  next same => rw [← same]; rfl
  next edge => exact if_neg fun named => h ⟨Ne.symm edge, named⟩

/-- A named edge makes a request (R157). -/
theorem State.lineLevel_named {level : Bool} (edge : level ≠ s.takeover.level)
    (named : s.takeover.edge.names level = true) : s.lineLevel level = (s.showsLevel level).lineRequest := by
  unfold State.lineLevel
  rw [if_neg edge.symm]
  exact if_pos named

theorem exec_tkrqEdge (settled : s.Settled) (level : Bool) :
    exec (.tkrqEdge level) s = .next ((s.lineLevel level).endStep s) := State.event_settled settled _

/-! ## TAKEOVER (R158) -/

/-- TAKEOVER has gone into service. -/
theorem State.serve_takeoverServed (s : State) (slot : Nat) : (s.serve slot .takeover).takeoverServed = true := rfl

/-- A TAKEOVER that goes into service, or ends there at once, ends its step by presenting a record. -/
theorem exec_takeover_began (h : s.Starts c rest .takeover)
    (began : runTakeover c (s.departed rest) = .began t) (pending : t.events.statusPending = true) :
    exec .takeover s = .next t.closed :=
  State.startHead_began h _ _ (ofKind_of h) began pending

/-- TAKEOVER in MENU-OVER sets the held-request flag and completes with code 1 (R158). -/
theorem exec_takeover_holds (h : s.Starts c rest .takeover) (menuOver : s.takeover.state = .menuOver) :
    exec .takeover s = .next { s.doneWith rest 1 with takeover := { s.takeover with held := true } } := by
  have holds : runTakeover c (s.departed rest) = .completed 1 (s.departed rest).holdRequest := by
    rw [runTakeover, State.departed_takeover, menuOver]
  refine (State.startHead_completed h _ _ (ofKind_of h) holds (State.departed_statusPending s rest)).trans ?_
  rw [← State.departed_takeover s rest]
  rfl

/-- TAKEOVER in LOCKOUT recovers; one that ends at its start is followed in a run (R170; log entry 1). -/
theorem exec_takeover_recovers (h : s.Starts c rest .takeover) (locked : s.takeover.state = .lockout) :
    exec .takeover s = .next (State.closed (((s.departed rest).serve c.slot .takeover).recover .command).keepRun) := by
  refine exec_takeover_began h (by rw [runTakeover, State.departed_takeover, locked]) ?_
  have kept (v : State) : v.keepRun.events = v.events := by
    unfold State.keepRun
    split <;> rfl
  rw [kept, State.recovers_statusPending (State.recover_recovers _ _)]
  exact State.departed_statusPending s rest

/-- Settles O47: a request is handed on by the takeover state, from the line after its level is shown and from the
command after it has gone into service. -/
theorem requestsEnterHoldOrRecover : Obligations.RequestsEnterHoldOrRecover := by
  refine ⟨?_, ?_⟩
  · rintro level s u settled rfl
    have request {t : State} (named : level ≠ s.takeover.level ∧ (s.takeover.edge = .both
          ∨ (s.takeover.edge = .rising ∧ level = true) ∨ (s.takeover.edge = .falling ∧ level = false)))
        (made : (s.showsLevel level).lineRequest = t) : exec (.tkrqEdge level) s = .next (t.endStep s) := by
      rw [exec_tkrqEdge settled, State.lineLevel_named named.1 ((LineEdge.names_iff _ _).mpr named.2), made]
    refine ⟨fun unnamed => ?_, fun named normal => ?_, fun named busy => ?_, fun named locked => ?_⟩
    · rw [exec_tkrqEdge settled, State.lineLevel_unnamed (by rwa [LineEdge.names_iff]),
        State.endStep_of_status (by rfl)]
      rfl
    · refine ⟨(s.showsLevel level).acceptRequest .line, request named ?_, State.acceptRequest_enters _ _⟩
      simp only [State.lineRequest, State.showsLevel, normal]
    · refine request named ?_
      simp only [List.mem_cons, List.not_mem_nil, or_false] at busy
      rcases busy with state | state | state <;>
        simp only [State.lineRequest, State.showsLevel, state, State.holdRequest, State.onTakeover]
    · refine ⟨(s.showsLevel level).recover .line, request named ?_, State.recover_recovers _ _⟩
      simp only [State.lineRequest, State.showsLevel, locked]
  · rintro s u c rest h rfl
    have composer : ((s.departed rest).serve c.slot .takeover).composer = s.composer := State.departed_composer s rest
    have recovers := State.recover_recovers ((s.departed rest).serve c.slot .takeover) .command
    refine ⟨fun normal => ?_, exec_takeover_holds h, fun locked =>
      ⟨_, recovers, fun goesOn => ?_, fun comp canvas => ?_⟩⟩
    · have enters := State.acceptRequest_enters ((s.departed rest).serve c.slot .takeover) .command
      refine ⟨_, exec_takeover_began h (by rw [runTakeover, State.departed_takeover, normal]) ?_, enters⟩
      rw [State.enters_events enters]
      exact State.departed_statusPending s rest
    · have serving := State.recovers_serving recovers (by rwa [composer])
      rw [exec_takeover_recovers h locked, State.keepRun_serving (by rw [serving]; nofun)]
    · have ended := State.recovers_ended recovers (by rwa [composer]) (by rwa [composer])
        (State.serve_takeoverServed _ _)
      rw [exec_takeover_recovers h locked, State.keepRun_ended ended]

end

end Sys2Proof.Machine

/-!
PROOF. O59, the bytes of a record (R180): what the fields, the words and the flags of a record that has been written
are when it is read.
-/

namespace Sys2Proof.Machine

/-! ## Fields at an offset -/

theorem byteAt_drop (bs : List Byte) (off i : Nat) : byteAt (bs.drop off) i = byteAt bs (off + i) := by
  simp [byteAt, List.getD_eq_getElem?_getD, List.getElem?_drop]

theorem fieldAt_drop (bs : List Byte) (off i n : Nat) : fieldAt (bs.drop off) i n = fieldAt bs (off + i) n := by
  induction n generalizing i with
  | zero => rfl
  | succ n ih => rw [fieldAt, fieldAt, byteAt_drop, ih, Nat.add_assoc]

theorem fieldAt_one (bs : List Byte) (off : Nat) : fieldAt bs off 1 = byteAt bs off := rfl

/-- A field stands where its bytes do. -/
theorem fieldAt_leBytes (n z : Nat) (rest : List Byte) : fieldAt (leBytes n z ++ rest) 0 n = z % 256 ^ n := by
  induction n generalizing z with
  | zero => simp [fieldAt, Nat.mod_one]
  | succ n ih =>
    have later : fieldAt (leBytes (n + 1) z ++ rest) 1 n = z / 256 % 256 ^ n := by
      rw [← ih (z / 256), ← fieldAt_drop _ 1 0]
      rfl
    rw [fieldAt, later, show byteAt (leBytes (n + 1) z ++ rest) 0 = z % 256 from BitVec.toNat_ofNat z 8,
      Nat.pow_succ', Nat.mod_mul]

theorem fieldAt_of_drop {bs : List Byte} {off n z : Nat} {rest : List Byte} (at' : bs.drop off = leBytes n z ++ rest) :
    fieldAt bs off n = z % 256 ^ n := by
  rw [← fieldAt_leBytes n z rest, ← at', fieldAt_drop]
  rfl

theorem fieldAt_small {bs : List Byte} {off n z : Nat} {rest : List Byte} (at' : bs.drop off = leBytes n z ++ rest)
    (small : z < 256 ^ n) : fieldAt bs off n = z := (fieldAt_of_drop at').trans (Nat.mod_eq_of_lt small)

theorem byteAt_of_drop {bs : List Byte} {off z : Nat} {rest : List Byte} (at' : bs.drop off = leBytes 1 z ++ rest) :
    byteAt bs off = z % 256 := fieldAt_of_drop at'

theorem byteAt_small {bs : List Byte} {off z : Nat} {rest : List Byte} (at' : bs.drop off = leBytes 1 z ++ rest)
    (small : z < 256) : byteAt bs off = z := (byteAt_of_drop at').trans (Nat.mod_eq_of_lt small)

theorem length_leBytes (n z : Nat) : (leBytes n z).length = n := by
  induction n generalizing z with
  | zero => rfl
  | succ n ih => rw [leBytes, List.length_cons, ih]

/-- The bytes of fields one after the other, each of its size. -/
def fieldBytes (fields : List (Nat × Nat)) : List Byte := fields.flatMap fun f => leBytes f.1 f.2

theorem drop_fieldBytes (fields : List (Nat × Nat)) (rest : List Byte) (i : Nat) :
    (fieldBytes fields ++ rest).drop ((fields.map Prod.fst).take i).sum = fieldBytes (fields.drop i) ++ rest := by
  induction i generalizing fields with
  | zero => rfl
  | succ i ih =>
    cases fields with
    | nil => rfl
    | cons f fields =>
      have offset : (((f :: fields).map Prod.fst).take (i + 1)).sum
          = (leBytes f.1 f.2).length + ((fields.map Prod.fst).take i).sum := by
        rw [length_leBytes]
        rfl
      rw [offset, ← List.drop_drop, fieldBytes, List.flatMap_cons, List.append_assoc, List.drop_left,
        List.drop_succ_cons]
      exact ih fields

/-- What stands at the offset of the `i`th field. -/
theorem drop_at_field {bs rest : List Byte} {fields more : List (Nat × Nat)} {sizes : List Nat} {off n z : Nat}
    (whole : bs = fieldBytes fields ++ rest) (sized : fields.map Prod.fst = sizes) (i : Nat)
    (offset : (sizes.take i).sum = off) (field : fields.drop i = (n, z) :: more) :
    bs.drop off = leBytes n z ++ (fieldBytes more ++ rest) := by
  rw [whole, ← offset, ← sized, drop_fieldBytes, field, fieldBytes, List.flatMap_cons, List.append_assoc]
  rfl

/-- Unused bytes are 0. -/
theorem fieldAt_of_zeros {bs : List Byte} {off n i : Nat} {rest : List Byte}
    (zeros : bs.drop off = List.replicate n 0 ++ rest) (low : off ≤ i) (high : i < off + n) : fieldAt bs i 1 = 0 := by
  obtain ⟨j, rfl⟩ := Nat.exists_eq_add_of_le low
  rw [fieldAt_one, ← byteAt_drop, zeros, byteAt, List.getD_append _ _ _ _ (by simp; omega)]
  simp

/-! ## Words and signed fields -/

theorem wordBytes_eq (w : Word) : wordBytes w = leBytes 4 w.toNat := by
  have byte (k : Nat) : w.extractLsb' k 8 = BitVec.ofNat 8 (w.toNat / 2 ^ k) :=
    BitVec.eq_of_toNat_eq (by simp [Nat.shiftRight_eq_div_pow])
  simp [wordBytes, leBytes, byte, Nat.div_div_eq_div_mul]

theorem bytesToWords_wordBytes (ws : List Word) : bytesToWords (ws.flatMap wordBytes) = ws := by
  induction ws with
  | nil => rfl
  | cons w ws ih => exact congrArg₂ List.cons (wordOf_bytes w) ih

theorem signedOf_toNat {n : Nat} (w : BitVec (n + 1)) : signedOf (n + 1) w.toNat = w.toInt := by
  have bound := w.isLt
  rw [signedOf, Nat.mod_eq_of_lt bound, BitVec.toInt_eq_toNat_cond, Nat.add_sub_cancel]
  refine if_congr ?_ rfl (by push_cast; rfl)
  rw [Nat.pow_succ]
  omega

/-- A number within the range of a signed field is read back from its two's complement. -/
theorem signedOf_ofInt {n : Nat} {z : Int} (low : -2 ^ n ≤ z) (high : z < 2 ^ n) :
    signedOf (n + 1) (BitVec.ofInt (n + 1) z).toNat = z := by
  rw [signedOf_toNat, BitVec.toInt_ofInt]
  exact Int.bmod_eq_of_le (by push_cast; rw [pow_succ]; omega) (by push_cast; rw [pow_succ]; omega)

/-- The number that a signed field of four bytes holds. -/
def signedField (z : Int) : Nat := (BitVec.ofInt 32 z).toNat

theorem signedBytes_eq (z : Int) : signedBytes z = leBytes 4 (signedField z) := wordBytes_eq _

theorem signedFieldAt_of_drop {bs : List Byte} {off : Nat} {z : Int} {rest : List Byte}
    (at' : bs.drop off = leBytes 4 (signedField z) ++ rest) (low : -2 ^ 31 ≤ z) (high : z < 2 ^ 31) :
    signedFieldAt bs off = z := by
  rw [signedFieldAt, fieldAt_small at' (BitVec.isLt _)]
  exact signedOf_ofInt low high

theorem bits_ofNat {k : Nat} (small : k < 2 ^ 32) (lo n : Nat) :
    bits (BitVec.ofNat 32 k) lo n = k / 2 ^ lo % 2 ^ n := by
  rw [bits, BitVec.toNat_ofNat, Nat.mod_eq_of_lt small]

theorem flag_ofNat {k : Nat} (small : k < 2 ^ 32) (i : Nat) : flag (BitVec.ofNat 32 k) i = k.testBit i := by
  rw [flag, BitVec.getLsbD, BitVec.toNat_ofNat, Nat.mod_eq_of_lt small]

/-! ## Flags -/

theorem flagsOf_lt (l : List Bool) : flagsOf l < 2 ^ l.length := by
  induction l with
  | nil => exact Nat.one_pos
  | cons b l ih =>
    rw [flagsOf, List.length_cons, Nat.pow_succ]
    cases b <;> simp only [boolCode, if_true, if_false, Bool.false_eq_true] <;> omega

/-- Up to 8 flags are a byte. -/
theorem flagsOf_lt_byte {l : List Bool} (short : l.length ≤ 8) : flagsOf l < 256 :=
  (flagsOf_lt l).trans_le (Nat.pow_le_pow_right (by decide) short)

theorem testBit_flagsOf (l : List Bool) (i : Nat) : (flagsOf l).testBit i = l.getD i false := by
  induction l generalizing i with
  | nil => simp [flagsOf]
  | cons b l ih =>
    cases i with
    | zero => cases b <;> simp [flagsOf, boolCode, Nat.testBit_zero]
    | succ i =>
      rw [Nat.testBit_succ, List.getD_cons_succ, ← ih]
      congr 1
      cases b <;> simp only [flagsOf, boolCode, if_true, if_false, Bool.false_eq_true] <;> omega

end Sys2Proof.Machine

/-!
PROOF. O59, the object entries (R184): an entry of a valid record reads back as the record.
-/

namespace Sys2Proof.Machine

/-! ## The words of a record (R181) -/

theorem bits_position (size : Nat) (z : Int) :
    bits (BitVec.ofNat 12 size ++ BitVec.ofInt 20 z) 0 20 = (BitVec.ofInt 20 z).toNat
      ∧ bits (BitVec.ofNat 12 size ++ BitVec.ofInt 20 z) 20 12 = size % 2 ^ 12 := by
  have low := (BitVec.ofInt 20 z).isLt
  rw [bits, bits, BitVec.toNat_append, ← Nat.shiftLeft_add_eq_or_of_lt low, Nat.shiftLeft_eq, BitVec.toNat_ofNat]
  omega

/-- The number of word 3 of the DEFINE layout (R181). -/
def packedFlags (code : Nat) (menu visible clip : Bool) (palette alpha imageH : Nat) : Nat :=
  code + (if menu then 2 ^ 2 else 0) + (if visible then 2 ^ 3 else 0) + (if clip then 2 ^ 4 else 0) + palette * 2 ^ 5
    + alpha * 2 ^ 8 + imageH * 2 ^ 16

theorem packedFlags_fields {code palette alpha imageH : Nat} (menu visible clip : Bool) (kind : code < 4)
    (pal : palette < 4) (al : alpha < 256) (ih : imageH < 65536) :
    let k := packedFlags code menu visible clip palette alpha imageH
    k < 2 ^ 32 ∧ k / 2 ^ 0 % 2 ^ 2 = code ∧ k.testBit 2 = menu ∧ k.testBit 3 = visible ∧ k.testBit 4 = clip
      ∧ k / 2 ^ 5 % 2 ^ 2 = palette ∧ k / 2 ^ 8 % 2 ^ 8 = alpha ∧ k / 2 ^ 16 % 2 ^ 16 = imageH := by
  have bit (b : Bool) (n m : Nat) (h : n % 2 = if b then 1 else 0) : decide (n % 2 = 1) = b := by
    rw [h]; cases b <;> rfl
  simp only [Nat.testBit_eq_decide_div_mod_eq, packedFlags]
  refine ⟨?_, ?_, bit _ _ 0 ?_, bit _ _ 0 ?_, bit _ _ 0 ?_, ?_, ?_, ?_⟩ <;> split_ifs <;> omega

/-- The words of the DEFINE layout by what they hold. -/
def layoutWords (code : Nat) (o : Obj) (palette : Nat) (word4 : Word) (stride imageW imageH : Nat) : List Word :=
  [ BitVec.ofNat 12 o.w ++ BitVec.ofInt 20 o.x, BitVec.ofNat 12 o.h ++ BitVec.ofInt 20 o.y,
    BitVec.ofNat 32 (packedFlags code (o.group == .menu) o.visible o.clip palette o.alpha imageH), word4,
    BitVec.ofNat 32 (stride + imageW * 2 ^ 16), BitVec.ofNat 32 (o.clipX0 + o.clipY0 * 2 ^ 16),
    BitVec.ofNat 32 (o.clipX1 + o.clipY1 * 2 ^ 16) ]

theorem Obj.defineWords_eq (o : Obj) : o.defineWords =
    match o.body with
    | .fill colour => layoutWords 0 o 0 colour 0 0 0
    | .bitmap8 palette src stride => layoutWords 1 o palette (BitVec.ofNat 32 src) stride 0 0
    | .bitmap32 src stride => layoutWords 2 o 0 (BitVec.ofNat 32 src) stride 0 0
    | .slide src stride iw ih _ _ => layoutWords 3 o 0 (BitVec.ofNat 32 src) stride iw ih := by
  unfold Obj.defineWords layoutWords packedFlags
  cases o.body <;> rfl

/-- The body that a kind code names, from the fields of the layout (R181). -/
def bodyOf (code palette : Nat) (word4 : Word) (stride imageW imageH vx vy : Nat) : Body :=
  match code with
  | 0 => .fill word4
  | 1 => .bitmap8 palette word4.toNat stride
  | 2 => .bitmap32 word4.toNat stride
  | _ => .slide word4.toNat stride imageW imageH vx vy

theorem bodyOf_slide (palette : Nat) (word4 : Word) (stride imageW imageH vx vy : Nat) :
    bodyOf 3 palette word4 stride imageW imageH vx vy = .slide word4.toNat stride imageW imageH vx vy := rfl

theorem bits_halves {a b : Nat} (low : a < 2 ^ 16) (high : b < 2 ^ 16) :
    bits (BitVec.ofNat 32 (a + b * 2 ^ 16)) 0 16 = a ∧ bits (BitVec.ofNat 32 (a + b * 2 ^ 16)) 16 16 = b := by
  rw [bits_ofNat (by omega), bits_ofNat (by omega)]
  omega

/-- Words of fields within their ranges read back. -/
theorem defineLayout_layoutWords {o : Obj} {code palette stride imageW imageH : Nat} (ranges : o.rangesOk = true)
    (kind : code < 4) (pal : palette ≤ 3) (st : stride ≤ 16384) (iw : imageW ≤ 4096) (ih : imageH ≤ 4096) (word4 : Word)
    (vx vy : Nat) (bound : Option Nat) :
    defineLayout (layoutWords code o palette word4 stride imageW imageH) vx vy bound =
      { o with body := bodyOf code palette word4 stride imageW imageH vx vy, bound := bound } := by
  simp only [Obj.rangesOk, Bool.and_eq_true, decide_eq_true_eq] at ranges
  obtain ⟨⟨⟨⟨⟨⟨⟨⟨⟨⟨⟨⟨xl, xh⟩, yl⟩, yh⟩, -⟩, wh⟩, -⟩, hh⟩, al⟩, c0⟩, c1⟩, c2⟩, c3⟩ := ranges
  obtain ⟨small, codeIs, menu, visible, clip, palIs, alphaIs, ihIs⟩ := packedFlags_fields (o.group == .menu) o.visible
    o.clip kind (show palette < 4 by omega) (show o.alpha < 256 by omega) (show imageH < 65536 by omega)
  obtain ⟨strideIs, iwIs⟩ := bits_halves (show stride < 2 ^ 16 by omega) (show imageW < 2 ^ 16 by omega)
  obtain ⟨x0, y0⟩ := bits_halves (show o.clipX0 < 2 ^ 16 by omega) (show o.clipY0 < 2 ^ 16 by omega)
  obtain ⟨x1, y1⟩ := bits_halves (show o.clipX1 < 2 ^ 16 by omega) (show o.clipY1 < 2 ^ 16 by omega)
  have group : (if (o.group == .menu) = true then Group.menu else .slide) = o.group := by cases o.group <;> rfl
  have xIs := signedOf_ofInt (n := 19) (show -2 ^ 19 ≤ o.x by omega) (by omega)
  have yIs := signedOf_ofInt (n := 19) (show -2 ^ 19 ≤ o.y by omega) (by omega)
  simp only [defineLayout, layoutWords, List.getD_cons_zero, List.getD_cons_succ, bits_position, xIs, yIs,
    bits_ofNat small, flag_ofNat small, codeIs, menu, visible, clip, palIs, alphaIs, ihIs, strideIs, iwIs, x0, y0, x1,
    y1, group, Nat.mod_eq_of_lt (show o.w < 2 ^ 12 by omega), Nat.mod_eq_of_lt (show o.h < 2 ^ 12 by omega)]
  rfl

/-- The words of a valid record read back as the record, its viewport given beside them. -/
theorem defineLayout_defineWords {o : Obj} {cmdw vx vy : Nat} (valid : o.valid cmdw = true) (top : cmdw ≤ 0x10000000)
    (view : ∀ src st iw ih x y, o.body = .slide src st iw ih x y → vx = x ∧ vy = y) :
    defineLayout o.defineWords vx vy o.bound = o := by
  obtain ⟨ranges, kind, -, fits⟩ := Obj.valid_iff.mp valid
  have source {src : Nat} (h : src ≤ cmdw) : (BitVec.ofNat 32 src).toNat = src := by
    rw [BitVec.toNat_ofNat]
    omega
  obtain ⟨group, visible, x, y, w, h, alpha, clip, x0, y0, x1, y1, body, bound⟩ := o
  rw [Obj.defineWords_eq]
  cases body with
  | fill colour =>
    rw [defineLayout_layoutWords ranges (by omega) (by omega) (by omega) (by omega) (by omega)]
    rfl
  | bitmap8 palette src stride =>
    simp only [Obj.kindOk, strideOk, Obj.sourceEnd, Bool.and_eq_true, decide_eq_true_eq] at kind fits
    rw [defineLayout_layoutWords ranges (by omega) (by omega) (by omega) (by omega) (by omega), bodyOf,
      source (by omega)]
  | bitmap32 src stride =>
    simp only [Obj.kindOk, strideOk, Obj.sourceEnd, Bool.and_eq_true, decide_eq_true_eq] at kind fits
    rw [defineLayout_layoutWords ranges (by omega) (by omega) (by omega) (by omega) (by omega), bodyOf,
      source (by omega)]
  | slide src stride iw ih vx' vy' =>
    simp only [Obj.kindOk, strideOk, Obj.sourceEnd, Bool.and_eq_true, decide_eq_true_eq] at kind fits
    obtain ⟨rfl, rfl⟩ := view _ _ _ _ _ _ rfl
    rw [defineLayout_layoutWords ranges (by omega) (by omega) (by omega) (by omega) (by omega), bodyOf_slide,
      source (by omega)]

/-! ## The entry (R184) -/

theorem byteOption_getD {n : Option Nat} {k : Nat} (small : ∀ i, n = some i → i < k) (below : k ≤ 0xFF) :
    byteOption (n.getD 0xFF % 256) = n := by
  cases n with
  | none => rfl
  | some i =>
    have low := small i rfl
    rw [byteOption, Option.getD_some, Nat.mod_eq_of_lt (by omega), if_neg (by omega)]

/-- The viewport of a valid SLIDE fits the two fields of its entry. -/
theorem objectEntry_view {cmdw : Nat} {o : Obj} (valid : o.valid cmdw = true) (n : Nat) (pos : Option Nat)
    {src st iw ih x y : Nat} (body : o.body = .slide src st iw ih x y) :
    fieldAt (objectEntry n pos o) 32 2 = x ∧ fieldAt (objectEntry n pos o) 34 2 = y := by
  obtain ⟨ranges, kind, view, -⟩ := Obj.valid_iff.mp valid
  obtain ⟨group, visible, x', y', w, h, alpha, clip, x0, y0, x1, y1, body', bound⟩ := o
  subst body
  simp only [Obj.rangesOk, Obj.kindOk, Obj.viewportOk, Bool.and_eq_true, decide_eq_true_eq] at ranges kind view
  constructor
  · rw [fieldAt_of_drop (z := x) rfl]
    omega
  · rw [fieldAt_of_drop (z := y) rfl]
    omega

/-- The object entry of a valid record reads back as the record, with its slot and its position. -/
theorem savedObject_objectEntry {n cmdw : Nat} {pos : Option Nat} {o : Obj} (slot : n < 48)
    (place : ∀ p, pos = some p → p < 48) (bound : ∀ b, o.bound = some b → b < 8) (valid : o.valid cmdw = true)
    (top : cmdw ≤ 0x10000000) : savedObject (objectEntry n pos o) = ⟨n, pos, o⟩ := by
  have words : ((objectEntry n pos o).drop 4).take 28 = o.defineWords.flatMap wordBytes := rfl
  have slotIs : byteAt (objectEntry n pos o) 0 = n % 256 := byteAt_of_drop rfl
  have boundIs : byteAt (objectEntry n pos o) 1 = o.bound.getD 0xFF % 256 := byteAt_of_drop rfl
  have placeIs : byteAt (objectEntry n pos o) 2 = pos.getD 0xFF % 256 := byteAt_of_drop rfl
  rw [savedObject, words, bytesToWords_wordBytes, slotIs, boundIs, placeIs, byteOption_getD bound (by omega),
    byteOption_getD place (by omega), Nat.mod_eq_of_lt (by omega),
    defineLayout_defineWords valid top fun _ _ _ _ _ _ body => objectEntry_view valid n pos body]

end Sys2Proof.Machine

/-!
PROOF. O59, the channel entries (R184): an entry of a channel within its ranges reads back as the channel.
-/

namespace Sys2Proof.Machine

theorem Owner.ofCode_code (o : Owner) : ownerOfCode (Owner.code (some o) % 256) = some o := by cases o <;> rfl

theorem Phase.ofCode_code (p : Phase) : phaseOfCode (p.code % 256) = some p := by cases p <;> rfl

theorem HoldMode.ofCode_code (h : Option HoldMode) : holdOfCode (HoldMode.code h % 256) = some h := by
  rcases h with - | h
  · rfl
  · cases h <;> rfl

/-- The values of an endpoint that its fields can hold (R184). -/
def Ends.stored (e : Ends) : Prop :=
  -(2 ^ 31) ≤ e.p1 ∧ e.p1 < 2 ^ 31 ∧ -(2 ^ 31) ≤ e.p2 ∧ e.p2 < 2 ^ 31 ∧ e.w ≤ 2048 ∧ e.h ≤ 2048 ∧ e.alpha ≤ 255

/-! ## The entry (R184) -/

/-- Endpoint values that their fields can hold read back. -/
theorem Ends.stored_reads {bs : List Byte} {off alphaOff : Nat} {e : Ends} {rest alphaRest : List Byte}
    (stored : e.stored)
    (at' : bs.drop off = leBytes 4 (signedField e.p1) ++ (leBytes 4 (signedField e.p2)
      ++ (leBytes 2 e.w ++ (leBytes 2 e.h ++ rest))))
    (alpha : bs.drop alphaOff = leBytes 1 e.alpha ++ alphaRest) :
    ⟨signedFieldAt bs off, signedFieldAt bs (off + 4), fieldAt bs (off + 8) 2, fieldAt bs (off + 10) 2,
      byteAt bs alphaOff⟩ = e := by
  obtain ⟨p1Low, p1High, p2Low, p2High, wSmall, hSmall, alphaSmall⟩ := stored
  have later (k : Nat) : bs.drop (off + k) = (bs.drop off).drop k := (List.drop_drop ..).symm
  have p1 : signedFieldAt bs off = e.p1 := signedFieldAt_of_drop at' p1Low p1High
  have p2 : signedFieldAt bs (off + 4) = e.p2 :=
    signedFieldAt_of_drop ((later 4).trans (by rw [at']; rfl)) p2Low p2High
  have w : fieldAt bs (off + 8) 2 = e.w := fieldAt_small ((later 8).trans (by rw [at']; rfl)) (by omega)
  have h : fieldAt bs (off + 10) 2 = e.h := fieldAt_small ((later 10).trans (by rw [at']; rfl)) (by omega)
  have a : byteAt bs alphaOff = e.alpha := byteAt_small alpha (by omega)
  rw [p1, p2, w, h, a]

/-- The fields of a channel entry, each with its size in bytes (R184). -/
def channelFields (n : Nat) (c : Channel) : List (Nat × Nat) :=
  [ (1, n), (1, Owner.code c.owner), (1, c.phase.code), (1, c.slot.getD 0xFF),
    (1, flagsOf [c.moved.p1, c.moved.p2, c.moved.w, c.moved.h, c.moved.alpha]), (1, flagsOf [c.view, c.release]),
    (1, HoldMode.code c.hold), (1, c.lead), (1, c.cmdSlot.getD 0xFF), (1, c.prof.lead), (1, boolCode (!c.prof.auto)),
    (1, 0), (2, c.prof.vs), (2, c.prof.vp), (2, c.prof.a), (2, c.prof.d), (2, c.vtop), (2, c.v), (4, c.s),
    (4, c.travel), (4, signedField c.e0.p1), (4, signedField c.e0.p2), (2, c.e0.w), (2, c.e0.h),
    (1, c.e0.alpha), (1, c.e1.alpha), (2, 0), (4, signedField c.e1.p1),
    (4, signedField c.e1.p2), (2, c.e1.w), (2, c.e1.h), (4, 0) ]

/-- The sizes of the fields of a channel entry. -/
def channelSizes : List Nat :=
  [1, 1, 1, 1, 1, 1, 1, 1, 1, 1, 1, 1, 2, 2, 2, 2, 2, 2, 4, 4, 4, 4, 2, 2, 1, 1, 2, 4, 4, 2, 2, 4]

section
variable (n : Nat) (c : Channel)

theorem channelEntry_eq : channelEntry n c = fieldBytes (channelFields n c) ++ [] := by
  have one : leBytes 1 0 = [0] := rfl
  have two : leBytes 2 0 = [0, 0] := rfl
  have four : leBytes 4 0 = [0, 0, 0, 0] := rfl
  unfold channelEntry
  simp only [signedBytes_eq, fieldBytes, channelFields, List.flatMap_cons, List.flatMap_nil,
    List.append_assoc, List.append_nil, one, two, four]

variable {n c} in
theorem channelEntry_drop (i : Nat) {off size z : Nat} {more : List (Nat × Nat)}
    (offset : (channelSizes.take i).sum = off) (field : (channelFields n c).drop i = (size, z) :: more) :
    (channelEntry n c).drop off = leBytes size z ++ (fieldBytes more ++ []) :=
  drop_at_field (channelEntry_eq n c) (sizes := channelSizes) rfl i offset field

/-- The moved-field byte of a channel entry (R184). -/
theorem channelEntry_moved {b : Nat} (read : b = byteAt (channelEntry n c) 4) :
    (⟨b.testBit 0, b.testBit 1, b.testBit 2, b.testBit 3, b.testBit 4⟩ : Moved) = c.moved := by
  have byte : b = flagsOf [c.moved.p1, c.moved.p2, c.moved.w, c.moved.h, c.moved.alpha] :=
    read.trans (byteAt_small (channelEntry_drop 4 (by decide) rfl) (flagsOf_lt_byte (by simp)))
  rw [byte]
  simp only [testBit_flagsOf]
  rfl

/-- The flag byte of a channel entry: the view flag and release-recorded (R184). -/
theorem channelEntry_flags : (byteAt (channelEntry n c) 5).testBit 0 = c.view
    ∧ (byteAt (channelEntry n c) 5).testBit 1 = c.release := by
  have byte : byteAt (channelEntry n c) 5 = flagsOf [c.view, c.release] :=
    byteAt_small (channelEntry_drop 5 (by decide) rfl) (flagsOf_lt_byte (by simp))
  rw [byte, testBit_flagsOf, testBit_flagsOf]
  exact ⟨rfl, rfl⟩

/-- The coded bytes of a channel entry: the owner, the phase, the hold mode and the command slot (R184). -/
theorem channelEntry_codes {owner : Owner} (owned : c.owner = some owner) (cmd : ∀ m, c.cmdSlot = some m → m < 64) :
    ownerOfCode (byteAt (channelEntry n c) 1) = some owner ∧ phaseOfCode (byteAt (channelEntry n c) 2) = some c.phase
      ∧ holdOfCode (byteAt (channelEntry n c) 6) = some c.hold
      ∧ byteOption (byteAt (channelEntry n c) 8) = c.cmdSlot := by
  have ownerIs : byteAt (channelEntry n c) 1 = Owner.code c.owner % 256 :=
    byteAt_of_drop (channelEntry_drop 1 (by decide) rfl)
  have phaseIs : byteAt (channelEntry n c) 2 = c.phase.code % 256 :=
    byteAt_of_drop (channelEntry_drop 2 (by decide) rfl)
  have holdIs : byteAt (channelEntry n c) 6 = HoldMode.code c.hold % 256 :=
    byteAt_of_drop (channelEntry_drop 6 (by decide) rfl)
  have cmdIs : byteAt (channelEntry n c) 8 = c.cmdSlot.getD 0xFF % 256 :=
    byteAt_of_drop (channelEntry_drop 8 (by decide) rfl)
  rw [ownerIs, owned, phaseIs, holdIs, cmdIs]
  exact ⟨Owner.ofCode_code owner, Phase.ofCode_code c.phase, HoldMode.ofCode_code c.hold,
    byteOption_getD cmd (by omega)⟩

/-- The profile copy of a channel entry (R184). -/
theorem channelEntry_prof (ranges : c.prof.inRange = true) :
    let bs := channelEntry n c
    (⟨fieldAt bs 12 2, fieldAt bs 14 2, fieldAt bs 16 2, fieldAt bs 18 2, byteAt bs 9, byteAt bs 10 == 0⟩ : Profile)
        = c.prof
      ∧ byteAt (channelEntry n c) 10 = if c.prof.auto then 0 else 1 := by
  simp only [Profile.inRange, Bool.and_eq_true, decide_eq_true_eq] at ranges
  obtain ⟨⟨⟨⟨⟨⟨⟨⟨-, vsHigh⟩, -⟩, vpHigh⟩, -⟩, aHigh⟩, -⟩, dHigh⟩, leadHigh⟩ := ranges
  have vs : fieldAt (channelEntry n c) 12 2 = c.prof.vs :=
    fieldAt_small (channelEntry_drop 12 (by decide) rfl) (by omega)
  have vp : fieldAt (channelEntry n c) 14 2 = c.prof.vp :=
    fieldAt_small (channelEntry_drop 13 (by decide) rfl) (by omega)
  have a : fieldAt (channelEntry n c) 16 2 = c.prof.a := fieldAt_small (channelEntry_drop 14 (by decide) rfl) (by omega)
  have d : fieldAt (channelEntry n c) 18 2 = c.prof.d := fieldAt_small (channelEntry_drop 15 (by decide) rfl) (by omega)
  have lead : byteAt (channelEntry n c) 9 = c.prof.lead := byteAt_small (channelEntry_drop 9 (by decide) rfl) (by omega)
  have peak : byteAt (channelEntry n c) 10 = boolCode (!c.prof.auto) % 256 :=
    byteAt_of_drop (channelEntry_drop 10 (by decide) rfl)
  have auto : (boolCode (!c.prof.auto) % 256 == 0) = c.prof.auto := by cases c.prof.auto <;> rfl
  dsimp only
  rw [vs, vp, a, d, lead, peak, auto]
  exact ⟨rfl, by cases c.prof.auto <;> rfl⟩

/-- The channel entry of a channel within its ranges reads back as the channel, with its number and its slot. -/
theorem savedChannel_channelEntry {k : Nat} {owner : Owner} (number : n < 8) (below : k < 48) (slot : c.slot = some k)
    (owned : c.owner = some owner) (cmd : ∀ m, c.cmdSlot = some m → m < 64) (prof : c.prof.inRange = true)
    (lead : c.lead ≤ 7) (vtop : c.vtop ≤ 4095) (v : c.v ≤ 4095) (done : c.s ≤ c.travel) (travel : c.travel < 2 ^ 32)
    (e0 : c.e0.stored) (e1 : c.e1.stored) :
    savedChannel (channelEntry n c) =
      { channel := n, owner := some owner, phase := some c.phase, slot := k, hold := some c.hold
        peakCode := if c.prof.auto then 0 else 1, chan := c } := by
  obtain ⟨view, release⟩ := channelEntry_flags n c
  obtain ⟨ownerIs, phaseIs, holdIs, cmdIs⟩ := channelEntry_codes n c owned cmd
  obtain ⟨profIs, peakIs⟩ := channelEntry_prof n c prof
  have numberIs : byteAt (channelEntry n c) 0 = n := byteAt_small (channelEntry_drop 0 (by decide) rfl) (by omega)
  have slotIs : byteAt (channelEntry n c) 3 = k :=
    (byteAt_of_drop (channelEntry_drop 3 (by decide) rfl)).trans (by rw [slot, Option.getD_some]; omega)
  have leadIs : byteAt (channelEntry n c) 7 = c.lead := byteAt_small (channelEntry_drop 7 (by decide) rfl) (by omega)
  have vtopIs : fieldAt (channelEntry n c) 20 2 = c.vtop :=
    fieldAt_small (channelEntry_drop 16 (by decide) rfl) (by omega)
  have vIs : fieldAt (channelEntry n c) 22 2 = c.v := fieldAt_small (channelEntry_drop 17 (by decide) rfl) (by omega)
  have sIs : fieldAt (channelEntry n c) 24 4 = c.s := fieldAt_small (channelEntry_drop 18 (by decide) rfl) (by omega)
  have travelIs : fieldAt (channelEntry n c) 28 4 = c.travel :=
    fieldAt_small (channelEntry_drop 19 (by decide) rfl) travel
  have e0Is := Ends.stored_reads (bs := channelEntry n c) (off := 32) (alphaOff := 44) e0
    (channelEntry_drop 20 (by decide) rfl) (channelEntry_drop 24 (by decide) rfl)
  have e1Is := Ends.stored_reads (bs := channelEntry n c) (off := 48) (alphaOff := 45) e1
    (channelEntry_drop 27 (by decide) rfl) (channelEntry_drop 25 (by decide) rfl)
  simp only [savedChannel, channelEntry_moved n c rfl, view, release, ownerIs, phaseIs, holdIs, cmdIs, profIs,
    numberIs, slotIs, leadIs, vtopIs, vIs, sIs, travelIs, e0Is, e1Is, Option.getD_some]
  rw [peakIs]
  rw [← slot, ← owned]

end

end Sys2Proof.Machine

/-!
PROOF. O59, the fixed part of a save record (R161, R184): its fields, its descriptor and its unused bytes.
-/

namespace Sys2Proof.Machine

theorem length_fieldBytes (fields : List (Nat × Nat)) : (fieldBytes fields).length = (fields.map Prod.fst).sum := by
  induction fields with
  | nil => rfl
  | cons f fields ih =>
    rw [fieldBytes, List.flatMap_cons, List.length_append, length_leBytes, List.map_cons, List.sum_cons, ← ih]
    rfl

theorem boolCode_lt (b : Bool) : boolCode b < 256 := by cases b <;> decide

theorem HoldMode.code_lt (h : Option HoldMode) : HoldMode.code h < 256 := by
  rcases h with - | h
  · decide
  · cases h <;> decide

theorem Source.code_lt (s : Source) : s.code < 256 := by cases s <;> decide

theorem SeqState.code_lt (q : SeqState) : q.code < 256 := by cases q <;> decide

/-- The on-show record that the fixed part carries: bytes of 0 where there is none (log entry 24). -/
def Sequencer.savedShow (q : Sequencer) : OnShow := q.onShow.getD ⟨0, false, 0, 0, 0⟩

/-- The bytes of the incoming descriptor that the fixed part carries: 0 where there is none (log entry 24). -/
def Sequencer.savedDescriptor (q : Sequencer) : List Byte :=
  (((q.incomingDesc.getD []).take 32) ++ List.replicate 32 0).take 32

/-- The fields of the fixed part up to the incoming descriptor, each with its size in bytes (R184). -/
def State.fixedFields (s : State) (facts : EntryFacts) (objects channels : Nat) : List (Nat × Nat) :=
  [ (4, 0x303), (4, s.takeover.saveBase), (4, s.takeover.saveBase), (1, 0), (1, 0), (2, 0xFFFF),
    (1, facts.source.code), (1, flagsOf [facts.wasChanging, facts.paused]), (1, HoldMode.code facts.pauseMode), (1, 0),
    (1, objects), (1, channels), (1, 0), (1, 0),
    (1, s.seq.state.code), (1, (s.seq.shown.map Bank.code).getD 0xFF), (1, boolCode s.seq.backward),
    (1, flagsOf [s.seq.late, s.seq.paused, s.seq.panOwed]), (1, HoldMode.code s.seq.pauseMode),
    (1, flagsOf [s.seq.await5, s.seq.await6]), (2, s.seq.skip), (2, s.seq.current.getD 0xFFFF),
    (2, s.seq.incoming.getD 0xFFFF), (2, s.seq.dwell), (2, s.seq.savedShow.dwell),
    (1, boolCode s.seq.savedShow.panPresent), (1, s.seq.savedShow.panProfile), (2, s.seq.savedShow.panX),
    (2, s.seq.savedShow.panY), (1, 0), (1, 0) ]

/-- The sizes of the fields of the fixed part. -/
def fixedSizes : List Nat :=
  [4, 4, 4, 1, 1, 2, 1, 1, 1, 1, 1, 1, 1, 1, 1, 1, 1, 1, 1, 1, 2, 2, 2, 2, 2, 1, 1, 2, 2, 1, 1]

section
variable (s : State) (facts : EntryFacts) (objects channels : Nat)

theorem State.saveFixed_eq : s.saveFixed facts objects channels =
    fieldBytes (s.fixedFields facts objects channels) ++ (s.seq.savedDescriptor ++ List.replicate 16 0) := by
  have zero : leBytes 1 0 = [0] := rfl
  unfold State.saveFixed
  simp only [fieldBytes, State.fixedFields, List.flatMap_cons, List.flatMap_nil, List.append_assoc, List.nil_append,
    List.cons_append, zero, Sequencer.savedShow, Sequencer.savedDescriptor]

theorem Sequencer.savedDescriptor_length (q : Sequencer) : q.savedDescriptor.length = 32 := by
  simp [Sequencer.savedDescriptor]

theorem State.fixedFields_sizes : (s.fixedFields facts objects channels).map Prod.fst = fixedSizes := rfl

theorem State.saveFixed_length : (s.saveFixed facts objects channels).length = 96 := by
  rw [State.saveFixed_eq, List.length_append, List.length_append, length_fieldBytes, Sequencer.savedDescriptor_length,
    List.length_replicate, State.fixedFields_sizes]
  decide

/-- From byte 48 on stand the descriptor and the last unused bytes. -/
theorem State.saveFixed_tail : (s.saveFixed facts objects channels).drop 48 =
    s.seq.savedDescriptor ++ List.replicate 16 0 := by
  have fields := drop_fieldBytes (s.fixedFields facts objects channels)
    (s.seq.savedDescriptor ++ List.replicate 16 0) 31
  rw [State.fixedFields_sizes, show (fixedSizes.take 31).sum = 48 by decide] at fields
  rw [State.saveFixed_eq]
  exact fields

section
variable {s facts objects channels} (i : Nat) {off size z : Nat} {more : List (Nat × Nat)}
  (offset : (fixedSizes.take i).sum = off)
include offset

theorem State.saveFixed_drop (field : (s.fixedFields facts objects channels).drop i = (size, z) :: more) :
    (s.saveFixed facts objects channels).drop off =
      leBytes size z ++ (fieldBytes more ++ (s.seq.savedDescriptor ++ List.replicate 16 0)) :=
  drop_at_field (s.saveFixed_eq facts objects channels) (s.fixedFields_sizes ..) i offset field

/-- The `i`th field of the fixed part. -/
theorem State.saveFixed_field (field : (s.fixedFields facts objects channels).drop i = (size, z) :: more) :
    fieldAt (s.saveFixed facts objects channels) off size = z % 256 ^ size :=
  fieldAt_of_drop (State.saveFixed_drop i offset field)

theorem State.saveFixed_byte (field : (s.fixedFields facts objects channels).drop i = (1, z) :: more)
    (small : z < 256) : fieldAt (s.saveFixed facts objects channels) off 1 = z :=
  fieldAt_small (State.saveFixed_drop i offset field) small

end

/-- An absent on-show record is bytes of 0 (log entry 24). -/
theorem State.saveFixed_noShow (absent : s.seq.onShow = none) {i : Nat} (low : 38 ≤ i) (high : i < 46) :
    fieldAt (s.saveFixed facts objects channels) i 1 = 0 := by
  have none : s.seq.savedShow = ⟨0, false, 0, 0, 0⟩ := by rw [Sequencer.savedShow, absent]; rfl
  have zeros := State.saveFixed_drop (s := s) (facts := facts) (objects := objects) (channels := channels)
    (off := 38) 24 (by decide) rfl
  rw [none] at zeros
  exact fieldAt_of_zeros (n := 8) (zeros.trans rfl) low high

/-- The bytes of the descriptor of a load (R184). -/
theorem State.saveFixed_descriptor {d : List Byte} (present : s.seq.incomingDesc = some d) (whole : d.length = 32) :
    ((s.saveFixed facts objects channels).drop 48).take 32 = d := by
  rw [State.saveFixed_tail, List.take_left' s.seq.savedDescriptor_length, Sequencer.savedDescriptor, present]
  simp [whole]

/-- An absent descriptor is bytes of 0 (log entry 24). -/
theorem State.saveFixed_noDescriptor (absent : s.seq.incomingDesc = none) {i : Nat} (low : 48 ≤ i) (high : i < 80) :
    fieldAt (s.saveFixed facts objects channels) i 1 = 0 := by
  refine fieldAt_of_zeros (n := 32) (rest := List.replicate 16 0)
    ((s.saveFixed_tail facts objects channels).trans ?_) low high
  rw [Sequencer.savedDescriptor, absent]
  rfl

/-- The last 16 bytes are unused (R184). -/
theorem State.saveFixed_unused {i : Nat} (low : 80 ≤ i) (high : i < 96) :
    fieldAt (s.saveFixed facts objects channels) i 1 = 0 := by
  refine fieldAt_of_zeros (n := 16) (rest := []) ?_ low high
  rw [List.append_nil, show 80 = 48 + 32 from rfl, ← List.drop_drop, State.saveFixed_tail]
  exact List.drop_left' s.seq.savedDescriptor_length

end

end Sys2Proof.Machine

/-!
PROOF. O59, the checks of R166: what each asks of the record, and the first that fails.
-/

namespace Sys2Proof.Machine

/-! ## The first bad entry -/

/-- The entries before the first bad one pass; it does not. -/
theorem firstBad_first {α : Type} {ok : List α → α → Bool} {l before : List α} {start k : Nat} {e : α}
    (passed : ∀ j < k, ∀ x, l[j]? = some x → ok (before ++ l.take j) x = true) (at' : l[k]? = some e)
    (bad : ok (before ++ l.take k) e = false) : firstBad ok before l start = some (start + k) := by
  induction l generalizing before start k with
  | nil => simp at at'
  | cons x l ih =>
    cases k with
    | zero =>
      obtain rfl : x = e := by simpa using at'
      rw [firstBad, if_neg (by simpa using bad)]
      rfl
    | succ k =>
      have first : ok before x = true := by simpa using passed 0 (by omega) x rfl
      rw [firstBad, if_pos first, Nat.add_comm k, ← Nat.add_assoc]
      refine ih (fun j low y hy => ?_) at' (by simpa using bad)
      simpa using passed (j + 1) (by omega) y hy

/-- Where every entry passes none is bad. -/
theorem firstBad_all {α : Type} {ok : List α → α → Bool} {l before : List α} {start : Nat}
    (passed : ∀ j, ∀ x, l[j]? = some x → ok (before ++ l.take j) x = true) : firstBad ok before l start = none := by
  induction l generalizing before start with
  | nil => rfl
  | cons x l ih =>
    have first : ok before x = true := by simpa using passed 0 x rfl
    rw [firstBad, if_pos first]
    exact ih fun j y hy => by simpa using passed (j + 1) y hy

/-- The first bad entry of a list, its number counted from 0. -/
theorem firstBad_some {α : Type} {ok : List α → α → Bool} {l : List α} {k : Nat}
    (passed : ∀ j < k, ∀ x, l[j]? = some x → ok (l.take j) x = true)
    (bad : ¬ ∀ x, l[k]? = some x → ok (l.take k) x = true) : firstBad ok [] l 0 = some k := by
  push Not at bad
  obtain ⟨e, at', fails⟩ := bad
  rw [firstBad_first (k := k) (by simpa using passed) at' (by simpa using fails), Nat.zero_add]

theorem firstBad_passed {α : Type} {ok : List α → α → Bool} {l : List α}
    (passed : ∀ k, ∀ x, l[k]? = some x → ok (l.take k) x = true) : firstBad ok [] l 0 = none :=
  firstBad_all (by simpa using passed)

/-! ## What each check asks -/

theorem State.baseFits_iff (s : State) (base : Nat) : s.baseFits base = true ↔
    base % 0x1000 = 0 ∧ base + 0x1000 ≤ s.cmdw
      ∧ (∀ k, s.composer.canvas = some k → ∀ u ∈ k.regions, u.overlaps ⟨base, 0x1000⟩ = false)
      ∧ ∀ l, s.seq.list = some l → l.range.overlaps ⟨base, 0x1000⟩ = false := by
  simp only [State.baseFits, State.saveBaseOk, Bool.and_eq_true, beq_iff_eq, decide_eq_true_eq, s.clearOfCanvas_iff,
    s.clearOfList_iff, and_assoc]

theorem objectEntryOk_iff (cmdw placed : Nat) (before : List SavedObject) (e : SavedObject) :
    objectEntryOk cmdw placed before e = true ↔
      e.slot < 48 ∧ (∀ b ∈ before, b.slot ≠ e.slot) ∧ e.obj.group = .slide ∧ e.obj.valid cmdw = true
        ∧ ∀ p, e.position = some p → p < placed ∧ ∀ b ∈ before, b.position ≠ some p := by
  simp only [objectEntryOk, Bool.and_eq_true, Bool.not_eq_true', List.any_eq_false, beq_iff_eq, decide_eq_true_eq,
    Option.all_eq_true, ne_eq, and_assoc]

theorem Profile.inRange_iff (q : Profile) : q.inRange = true ↔
    1 ≤ q.vs ∧ q.vs ≤ 4095 ∧ q.vs ≤ q.vp ∧ q.vp ≤ 4095 ∧ 1 ≤ q.a ∧ q.a ≤ 1023 ∧ 1 ≤ q.d ∧ q.d ≤ 1023 ∧ q.lead ≤ 7 := by
  simp only [Profile.inRange, Bool.and_eq_true, decide_eq_true_eq, and_assoc]

/-- The ranges of an endpoint's values, of the viewport under the view flag (check 5; log entry 19). -/
def Ends.inRange (r : SaveRecord) (slot : Nat) (view : Bool) (z : Ends) : Prop :=
  1 ≤ z.w ∧ z.w ≤ 2048 ∧ 1 ≤ z.h ∧ z.h ≤ 2048
    ∧ (view = false → -32768 ≤ z.p1 ∧ z.p1 ≤ 65535 ∧ -32768 ≤ z.p2 ∧ z.p2 ≤ 65535)
    ∧ (view = true → ∃ o, r.object slot = some o
        ∧ 0 ≤ z.p1 ∧ z.p1 ≤ ((o.obj.greatest.1 - z.w) * 16 : Nat)
        ∧ 0 ≤ z.p2 ∧ z.p2 ≤ ((o.obj.greatest.2 - z.h) * 16 : Nat))

theorem endsOk_iff (r : SaveRecord) (slot : Nat) (view : Bool) (z : Ends) :
    endsOk ((r.object slot).map (·.obj)) view z = true ↔ z.inRange r slot view := by
  simp only [endsOk, Ends.inRange, Bool.and_eq_true, decide_eq_true_eq, Obj.greatest_eq]
  cases view with
  | false =>
    simp only [Bool.false_eq_true, if_false, false_implies, true_implies, Bool.and_eq_true, decide_eq_true_eq]
    tauto
  | true =>
    simp only [if_true, Option.any_map, Option.any_eq_true, Bool.and_eq_true, decide_eq_true_eq,
      Bool.true_eq_false, false_implies, true_implies, and_assoc]
    tauto

theorem equalOutside_iff (m : Moved) (e0 e1 : Ends) : equalOutside m e0 e1 = true ↔
    (m.p1 = false → e0.p1 = e1.p1) ∧ (m.p2 = false → e0.p2 = e1.p2) ∧ (m.w = false → e0.w = e1.w)
      ∧ (m.h = false → e0.h = e1.h) ∧ (m.alpha = false → e0.alpha = e1.alpha) := by
  have field {α : Type} [DecidableEq α] (b : Bool) (x y : α) : (b || x == y) = true ↔ (b = false → x = y) := by
    cases b <;> simp
  simp only [equalOutside, Bool.and_eq_true, field, and_assoc]

theorem between_iff (z a b : Int) : between z a b = true ↔ min a b ≤ z ∧ z ≤ max a b := by
  simp only [between, Bool.and_eq_true, decide_eq_true_eq]

theorem boundMatched_iff (r : SaveRecord) (o : SavedObject) : boundMatched r o = true ↔
    ∀ n, o.obj.bound = some n → ∃ c, r.channel n = some c ∧ c.slot = o.slot := by
  simp only [boundMatched, Option.all_eq_true, Option.any_eq_true, beq_iff_eq]

theorem Phase.known_iff (p : Option Phase) : (∃ y, p = some y ∧ y ≠ .idle) ↔ p ≠ none ∧ p ≠ some .idle := by
  cases p <;> simp

theorem eq_false_or_iff {b : Bool} {p : Prop} : (b = false ∨ p) ↔ (b = true → p) := by cases b <;> simp

theorem channelEntryOk_iff (r : SaveRecord) (before : List SavedChannel) (e : SavedChannel) :
    let c := e.chan
    let q := c.prof
    channelEntryOk r before e = true ↔
      e.channel < 8 ∧ (∀ b ∈ before, b.channel ≠ e.channel)
        ∧ (e.owner = some .command ∨ e.owner = some .sequencer)
        ∧ e.phase ≠ none ∧ e.phase ≠ some .idle
        ∧ 1 ≤ q.vs ∧ q.vs ≤ 4095 ∧ q.vs ≤ q.vp ∧ q.vp ≤ 4095 ∧ 1 ≤ q.a ∧ q.a ≤ 1023 ∧ 1 ≤ q.d
        ∧ q.d ≤ 1023 ∧ q.lead ≤ 7 ∧ e.peakCode ≤ 1
        ∧ c.moved ≠ ⟨false, false, false, false, false⟩
        ∧ (c.view = true → ∃ o, r.object e.slot = some o ∧ o.obj.body.code = 3)
        ∧ c.travel = travelOf c.e0 c.e1 ∧ c.s ≤ c.travel
        ∧ q.vs ≤ c.v ∧ c.v ≤ 4095 ∧ q.vs ≤ c.vtop ∧ c.vtop ≤ 4095 ∧ (c.phase = .lead → c.v = q.vs)
        ∧ c.lead ≤ 7 ∧ e.hold ≠ none
        ∧ (c.release = true → c.hold = some .firm ∧ c.phase = .easing)
        ∧ (∀ z, z = c.e0 ∨ z = c.e1 → z.inRange r e.slot c.view)
        ∧ (c.moved.p1 = false → c.e0.p1 = c.e1.p1) ∧ (c.moved.p2 = false → c.e0.p2 = c.e1.p2)
        ∧ (c.moved.w = false → c.e0.w = c.e1.w) ∧ (c.moved.h = false → c.e0.h = c.e1.h)
        ∧ (c.moved.alpha = false → c.e0.alpha = c.e1.alpha) := by
  intro c q
  have ends : (∀ z, z = c.e0 ∨ z = c.e1 → z.inRange r e.slot c.view)
      ↔ c.e0.inRange r e.slot c.view ∧ c.e1.inRange r e.slot c.view := by
    simp only [or_imp, forall_and, forall_eq]
  rw [ends]
  simp only [channelEntryOk, Bool.and_eq_true, Bool.or_eq_true, Bool.not_eq_true', List.any_eq_false, beq_iff_eq,
    decide_eq_true_eq, Profile.inRange_iff, Moved.empty_iff, Option.isSome_iff_ne_none, endsOk_iff,
    equalOutside_iff, and_assoc, Option.any_map, Option.any_eq_true, bne_iff_ne, Phase.known_iff, eq_false_or_iff,
    ← imp_iff_not_or, ne_eq, c, q]

theorem movedBetween_iff (o : Obj) (c : Channel) :
    let z := o.ends c.view
    let between (z a b : Int) : Prop := min a b ≤ z ∧ z ≤ max a b
    movedBetween o c = true ↔
      (c.moved.p1 = true → between z.p1 c.e0.p1 c.e1.p1) ∧ (c.moved.p2 = true → between z.p2 c.e0.p2 c.e1.p2)
        ∧ (c.moved.w = true → between z.w c.e0.w c.e1.w) ∧ (c.moved.h = true → between z.h c.e0.h c.e1.h)
        ∧ (c.moved.alpha = true → between z.alpha c.e0.alpha c.e1.alpha) := by
  simp only [movedBetween, Bool.and_eq_true, Bool.or_eq_true, Bool.not_eq_true', between_iff, eq_false_or_iff,
    and_assoc]

theorem bindingOk_iff (cmdw : Nat) (r : SaveRecord) (e : SavedChannel) : bindingOk cmdw r e = true ↔
    (∃ o, r.object e.slot = some o ∧ o.obj.bound = some e.channel ∧ movedBetween o.obj e.chan = true
      ∧ (o.obj.setMoved e.chan.moved e.chan.view e.chan.e0).valid cmdw = true
      ∧ (o.obj.setMoved e.chan.moved e.chan.view e.chan.e1).valid cmdw = true)
    ∧ (e.owner = some .command → 5 ≤ e.channel → r.state = some .stopped) := by
  have owned : (!(e.owner == some .command && decide (5 ≤ e.channel) && r.state != some .stopped)) = true
      ↔ (e.owner = some .command → 5 ≤ e.channel → r.state = some .stopped) := by
    rw [Bool.not_eq_true', ← Bool.not_eq_true]
    simp only [Bool.and_eq_true, beq_iff_eq, decide_eq_true_eq, bne_iff_ne, not_and, and_imp, ne_eq, not_not]
  simp only [bindingOk, Bool.and_eq_true, owned, Option.any_eq_true, beq_iff_eq, and_assoc]

theorem sequencerOk_iff (s : State) (r : SaveRecord) :
    let l := s.seq.setup
    let bs := r.bytes
    sequencerOk s r = true ↔
      ∃ state shown, r.state = some state ∧ r.shown = some shown
        ∧ (let spare := l.slot (if shown = some .a then .b else .a)
          let slide (n : Nat) : Prop := ∃ o, r.object n = some o ∧ o.obj.body.code = 3
          let ofShow (n : Nat) : Prop := ∃ c, r.channel n = some c ∧ c.owner = some .sequencer
          (state ≠ .stopped → s.seq.list ≠ none)
            ∧ (∀ i, r.current = some i → i < l.count) ∧ (∀ i, r.incoming = some i → i < l.count)
            ∧ (∀ bank, shown = some bank →
                s.seq.list ≠ none ∧ slide (l.slot bank)
                  ∧ ∃ o, r.object (l.slot bank) = some o ∧ o.position ≠ none)
            ∧ (state = .showing → shown ≠ none ∧ r.current ≠ none)
            ∧ (state = .loading ∨ state = .waiting ∨ state = .changing → r.incoming ≠ none)
            ∧ (state = .changing →
                slide spare ∧ (r.awaited.testBit 0 = true ∨ r.awaited.testBit 1 = true)
                  ∧ (r.awaited.testBit 0 = true → ofShow 5) ∧ (r.awaited.testBit 1 = true → ofShow 6))
            ∧ (state = .loading ∨ state = .waiting ∨ state = .showing → r.object spare = none)
            ∧ r.skip ≤ l.count ∧ byteAt bs 26 ≤ 1 ∧ holdOfCode (byteAt bs 28) ≠ none
            ∧ (∀ e ∈ r.channels, e.chan.hold ≠ none →
                r.seqFlags.testBit 1 = true ∨ e.chan.release = true)
            ∧ ((byteAt bs 17).testBit 0 = true ↔ state = .changing)) := by
  intro l bs
  cases hs : r.state with
  | none => simp [sequencerOk, hs]
  | some state =>
    cases hb : r.shown with
    | none => simp [sequencerOk, hs, hb]
    | some shown =>
      have same (bit : Bool) : (bit == (state == SeqState.changing)) = true ↔ (bit = true ↔ state = .changing) := by
        rw [beq_iff_eq, Bool.eq_iff_iff, beq_iff_eq]
      simp only [sequencerOk, hs, hb, same, Option.some.injEq, exists_eq_left', exists_and_left, Bool.and_eq_true,
        Bool.or_eq_true, Bool.not_eq_true', beq_iff_eq, bne_iff_ne, decide_eq_true_eq, Option.all_eq_true,
        Option.any_eq_true, Option.isSome_iff_ne_none, Option.isNone_iff_eq_none, List.all_eq_true, eq_false_or_iff,
        ← imp_iff_not_or, and_assoc, or_assoc]
      -- a disjunction and an implication from the negation are brought to one spelling
      simp only [or_iff_not_imp_left, ne_eq]
      rcases shown with - | (_ | _) <;> rfl

/-! ## The first check that fails -/

/-- Checks 4 to 7 of R166: the first that fails, with value B. -/
def State.entriesFault (s : State) (r : SaveRecord) : Option (LockReason × Nat) :=
  let placed := (r.objects.filter (·.position.isSome)).length
  let object (k : Nat) : LockReason × Nat := (.record, 96 + 48 * k)
  let channel (k : Nat) : LockReason × Nat := (.record, 2400 + 64 * k)
  ((firstBad (objectEntryOk s.cmdw placed) [] r.objects 0).map object).or
    (((firstBad (channelEntryOk r) [] r.channels 0).map channel).or
      (((firstBad (fun _ e => bindingOk s.cmdw r e) [] r.channels 0).map channel).or
        (((firstBad (fun _ o => boundMatched r o) [] r.objects 0).map object).or
          (if sequencerOk s r then none else some (.record, 24)))))

section
variable {s : State} {r : SaveRecord}

theorem State.recordFault_entries (revision : byteAt r.bytes 0 = 3) (fits : s.baseFits r.nextBase = true)
    (flags : ¬ (1 < r.dwellFlag ∨ 1 < r.transitionFlag))
    (counts : ¬ (48 < objectCount r.bytes ∨ 8 < channelCount r.bytes)) : s.recordFault r = s.entriesFault r := by
  unfold State.recordFault State.entriesFault
  dsimp only
  rw [if_neg (not_not.mpr revision), if_neg (by rw [fits]; nofun), if_neg flags, if_neg counts]
  split <;> rename_i objects
  · rw [objects]; rfl
  split <;> rename_i channels
  · rw [objects, channels]; rfl
  split <;> rename_i bindings
  · rw [objects, channels, bindings]; rfl
  split <;> rename_i bounds <;> rw [objects, channels, bindings, bounds] <;> rfl

theorem State.recordFault_revision (revision : byteAt r.bytes 0 ≠ 3) :
    s.recordFault r = some (.revision, fieldAt r.bytes 0 4) := if_pos revision

theorem State.recordFault_base (revision : byteAt r.bytes 0 = 3) (unfit : s.baseFits r.nextBase = false) :
    s.recordFault r = some (.base, r.nextBase) :=
  (if_neg (not_not.mpr revision)).trans (if_pos (by rw [unfit]; rfl))

theorem State.recordFault_flags (revision : byteAt r.bytes 0 = 3) (fits : s.baseFits r.nextBase = true)
    (flags : 1 < r.dwellFlag ∨ 1 < r.transitionFlag) : s.recordFault r = some (.record, 12) :=
  (if_neg (not_not.mpr revision)).trans ((if_neg (by rw [fits]; nofun)).trans (if_pos flags))

theorem State.recordFault_counts (revision : byteAt r.bytes 0 = 3) (fits : s.baseFits r.nextBase = true)
    (flags : ¬ (1 < r.dwellFlag ∨ 1 < r.transitionFlag))
    (counts : 48 < objectCount r.bytes ∨ 8 < channelCount r.bytes) : s.recordFault r = some (.record, 20) :=
  (if_neg (not_not.mpr revision)).trans
    ((if_neg (by rw [fits]; nofun)).trans ((if_neg flags).trans (if_pos counts)))

end

/-- Settles O59: the entries and the fixed part field by field, and the checks of R166 in their order. -/
theorem savedEntriesReadBack : Obligations.SavedEntriesReadBack := by
  refine ⟨⟨fun n cmdw pos o slot place bound valid top => savedObject_objectEntry slot place bound valid top, ?_⟩, ?_,
    ?_, objectEntryOk_iff, channelEntryOk_iff, ?_, boundMatched_iff, sequencerOk_iff⟩
  · intro n k owner c number below slot owned cmd prof lead vtop v done travel stored
    exact savedChannel_channelEntry n c number below slot owned cmd prof lead vtop v done travel
      (stored _ (.inl rfl)) (stored _ (.inr rfl))
  · intro s facts objects channels q bs at' bit mode
    have hold (h : Option HoldMode) : HoldMode.code h = mode h := by
      rcases h with - | (_ | _ | _) <;> rfl
    have two (a b : Bool) : flagsOf [a, b] = bit a + 2 * bit b := rfl
    have three (a b c : Bool) : flagsOf [a, b, c] = bit a + 2 * bit b + 4 * bit c := by
      simp only [flagsOf, boolCode, bit]
      omega
    have source : facts.source.code = (match facts.source with | .line => 1 | .command => 2 | .held => 3) := by
      cases facts.source <;> rfl
    have state : q.state.code = (match q.state with
        | .stopped => 0 | .loading => 1 | .waiting => 2 | .showing => 3 | .changing => 4 | .suspended => 5) := by
      cases q.state <;> rfl
    have shown : (q.shown.map Bank.code).getD 0xFF = (match q.shown with | some .a => 0 | some .b => 1 | none => 0xFF)
        ∧ (q.shown.map Bank.code).getD 0xFF < 256 := by
      rcases q.shown with - | (_ | _) <;> decide
    refine ⟨s.saveFixed_length .., State.saveFixed_field 0 (by decide) rfl, State.saveFixed_field 1 (by decide) rfl,
      State.saveFixed_field 2 (by decide) rfl, State.saveFixed_field 3 (by decide) rfl,
      State.saveFixed_field 4 (by decide) rfl, State.saveFixed_field 5 (by decide) rfl,
      (State.saveFixed_byte 6 (by decide) rfl facts.source.code_lt).trans source,
      (State.saveFixed_byte 7 (by decide) rfl (flagsOf_lt_byte (by simp))).trans (two _ _),
      (State.saveFixed_byte 8 (by decide) rfl (HoldMode.code_lt _)).trans (hold _),
      State.saveFixed_field 10 (by decide) rfl, State.saveFixed_field 11 (by decide) rfl,
      (State.saveFixed_byte 14 (by decide) rfl q.state.code_lt).trans state,
      (State.saveFixed_byte 15 (by decide) rfl shown.2).trans shown.1,
      State.saveFixed_byte 16 (by decide) rfl (boolCode_lt _),
      (State.saveFixed_byte 17 (by decide) rfl (flagsOf_lt_byte (by simp))).trans (three _ _ _),
      (State.saveFixed_byte 18 (by decide) rfl (HoldMode.code_lt _)).trans (hold _),
      (State.saveFixed_byte 19 (by decide) rfl (flagsOf_lt_byte (by simp))).trans (two _ _),
      State.saveFixed_field 20 (by decide) rfl, State.saveFixed_field 21 (by decide) rfl,
      State.saveFixed_field 22 (by decide) rfl, State.saveFixed_field 23 (by decide) rfl, fun o present => ?_,
      fun absent i low high => s.saveFixed_noShow _ _ _ absent low high,
      fun d present whole => s.saveFixed_descriptor _ _ _ present whole,
      fun absent i low high => s.saveFixed_noDescriptor _ _ _ absent low high, ?_⟩
    · have carried : s.seq.savedShow = o := by rw [Sequencer.savedShow, show s.seq.onShow = some o from present]; rfl
      rw [← carried]
      exact ⟨State.saveFixed_field 24 (by decide) rfl, State.saveFixed_byte 25 (by decide) rfl (boolCode_lt _),
        State.saveFixed_field 26 (by decide) rfl, State.saveFixed_field 27 (by decide) rfl,
        State.saveFixed_field 28 (by decide) rfl⟩
    · rintro i (rfl | rfl | rfl | rfl | rfl | low) high
      · exact State.saveFixed_byte 9 (by decide) rfl (by decide)
      · exact State.saveFixed_byte 12 (by decide) rfl (by decide)
      · exact State.saveFixed_byte 13 (by decide) rfl (by decide)
      · exact State.saveFixed_byte 29 (by decide) rfl (by decide)
      · exact State.saveFixed_byte 30 (by decide) rfl (by decide)
      · exact s.saveFixed_unused _ _ _ low high
  · intro s r bs next fits placed objectOk channelOk bindingsOk matched gives
    refine ⟨State.recordFault_revision, fun revision => ⟨fun unfit => ?_, fun fit => ?_⟩⟩
    · exact State.recordFault_base revision (Bool.eq_false_iff.mpr fun h => unfit ((s.baseFits_iff _).mp h))
    have fit' := (s.baseFits_iff next).mpr fit
    refine ⟨State.recordFault_flags revision fit', fun dwell transition => ?_⟩
    have flags : ¬ (1 < r.dwellFlag ∨ 1 < r.transitionFlag) := not_or.mpr ⟨not_lt.mpr dwell, not_lt.mpr transition⟩
    refine ⟨State.recordFault_counts revision fit' flags, fun objectsFew channelsFew => ?_⟩
    have entries := State.recordFault_entries revision fit' flags
      (not_or.mpr ⟨not_lt.mpr objectsFew, not_lt.mpr channelsFew⟩)
    simp only [gives, entries, State.entriesFault]
    refine ⟨fun k before bad => ?_, fun objects => ⟨fun k before bad => ?_, fun channels => ⟨fun k before bad => ?_,
      fun bindings => ⟨fun k before bad => ?_, fun bounds => ⟨fun bad => ?_, fun good => ?_⟩⟩⟩⟩⟩
    · rw [firstBad_some before bad]; rfl
    · rw [firstBad_passed objects, firstBad_some before bad]; rfl
    · rw [firstBad_passed objects, firstBad_passed channels, firstBad_some before bad]; rfl
    · rw [firstBad_passed objects, firstBad_passed channels, firstBad_passed bindings, firstBad_some before bad]; rfl
    · rw [firstBad_passed objects, firstBad_passed channels, firstBad_passed bindings, firstBad_passed bounds, bad]
      rfl
    · rw [firstBad_passed objects, firstBad_passed channels, firstBad_passed bindings, firstBad_passed bounds, good]
      rfl
  · intro cmdw r e
    simp only [bindingOk_iff, movedBetween_iff]

end Sys2Proof.Machine

/-!
PROOF. O54, the bytes of a word by its parts (R180).
-/

namespace Sys2Proof.Machine

/-- The low bytes of a number stand before the bytes of the rest. -/
theorem leBytes_add (m n z : Nat) : leBytes (m + n) z = leBytes m z ++ leBytes n (z / 256 ^ m) := by
  induction m generalizing z with
  | zero => simp [leBytes]
  | succ m ih => rw [Nat.add_right_comm, leBytes, ih, leBytes, List.cons_append, Nat.div_div_eq_div_mul, Nat.pow_succ']

/-- The bytes of a number depend on its low bytes alone. -/
theorem leBytes_mod (n z : Nat) : leBytes n (z % 256 ^ n) = leBytes n z := by
  induction n generalizing z with
  | zero => rfl
  | succ n ih =>
    have low : BitVec.ofNat 8 (z % 256 ^ (n + 1)) = BitVec.ofNat 8 z :=
      BitVec.eq_of_toNat_eq (by simp [Nat.mod_mod_of_dvd, Nat.pow_succ'])
    rw [leBytes, leBytes, low, Nat.pow_succ', Nat.mod_mul_right_div_self, ih]

theorem leBytes_ofNat (n z : Nat) : leBytes n (BitVec.ofNat (8 * n) z).toNat = leBytes n z := by
  rw [BitVec.toNat_ofNat, Nat.pow_mul]
  exact leBytes_mod n z

/-- The low part of a word stands before its high part. -/
theorem leBytes_append (m n : Nat) (hi : BitVec (8 * n)) (lo : BitVec (8 * m)) :
    leBytes (m + n) (hi ++ lo).toNat = leBytes m lo.toNat ++ leBytes n hi.toNat := by
  have bound : lo.toNat < 256 ^ m := by simpa [Nat.pow_mul] using lo.isLt
  have whole : (hi ++ lo).toNat = 256 ^ m * hi.toNat + lo.toNat := by
    rw [BitVec.toNat_append, ← Nat.shiftLeft_add_eq_or_of_lt lo.isLt, Nat.shiftLeft_eq, Nat.pow_mul, Nat.mul_comm]
  rw [leBytes_add, whole, Nat.mul_add_div (Nat.pow_pos (by decide)), Nat.div_eq_of_lt bound, Nat.add_zero,
    ← leBytes_mod m (_ + _), Nat.mul_add_mod, Nat.mod_eq_of_lt bound]

theorem wordBytes_halves (hi lo : BitVec 16) : wordBytes (hi ++ lo) = leBytes 2 lo.toNat ++ leBytes 2 hi.toNat :=
  (wordBytes_eq _).trans (leBytes_append 2 2 hi lo)

theorem leBytes_byte (b : Byte) : leBytes 1 b.toNat = [b] := by simp [leBytes]

theorem wordBytes_bytes_half (half : BitVec 16) (b1 b0 : Byte) :
    wordBytes (half ++ b1 ++ b0) = [b0, b1] ++ leBytes 2 half.toNat := by
  rw [wordBytes_eq, leBytes_append 1 3 (half ++ b1) b0, leBytes_append 1 2 half b1, leBytes_byte, leBytes_byte]
  rfl

theorem wordBytes_wordOf (b0 b1 b2 b3 : Byte) : wordBytes (wordOf b0 b1 b2 b3) = [b0, b1, b2, b3] := by
  rw [wordOf, wordBytes_eq, leBytes_append 1 3 (b3 ++ b2 ++ b1) b0, leBytes_append 1 2 (b3 ++ b2) b1,
    leBytes_append 1 1 b3 b2]
  simp only [leBytes_byte, List.cons_append, List.nil_append]

end Sys2Proof.Machine

/-!
PROOF. O54, the layouts of the status block and of an event record (R173, R180, R185, R186).
-/

namespace Sys2Proof.Machine

/-! ## The status block (R186) -/

theorem TakeoverState.code_lt (t : TakeoverState) : t.code < 256 := by cases t <;> decide

/-- The code of the reason for LOCKOUT that the status block shows, 0 where there is none. -/
def lockCode (r : Option LockReason) : Nat := (r.map LockReason.code).getD 0

theorem lockCode_lt (r : Option LockReason) : lockCode r < 256 := by
  rcases r with - | r
  · decide
  · cases r <;> decide

theorem Bank.code_lt (bank : Bank) : bank.code < 256 := by cases bank <;> decide

/-- The fields of the status block, each with its size in bytes (R186). -/
def StatusFields.fields (f : StatusFields) (count : BitVec 16) : List (Nat × Nat) :=
  [ (2, count.toNat), (2, 0), (4, 0),
    (1, f.p.toNat), (1, f.c.toNat), (1, flagsOf [f.overflow, f.intakeDrop, f.guard]), (1, 0),
    (1, f.takeover.code), (1, boolCode f.held), (1, lockCode f.lockReason), (1, boolCode f.canvasSet),
    (1, f.seq.code), (1, boolCode f.paused), (2, f.current.getD 0xFFFF), (4, f.frame.toNat),
    (1, f.front.code), (1, f.freeEntries), (1, f.code.val), (1, 0), (2, f.late), (2, 0),
    (4, f.page.getD 0xFFFFFFFF), (1, f.focus.getD 0xFF), (1, f.depth), (1, 0), (1, 0),
    (4, 0), (4, 0), (4, 0), (4, 0), (4, 0), (2, count.toNat), (2, 0) ]

/-- The sizes of the fields of the status block. -/
def statusSizes : List Nat :=
  [2, 2, 4, 1, 1, 1, 1, 1, 1, 1, 1, 1, 1, 2, 4, 1, 1, 1, 1, 2, 2, 4, 1, 1, 1, 1, 4, 4, 4, 4, 4, 2, 2]

/-- The 64 bytes of the status block. -/
def StatusFields.bytes (f : StatusFields) (count : BitVec 16) : List Byte := (f.words count).flatMap wordBytes

section
variable (f : StatusFields) (count : BitVec 16)

theorem StatusFields.bytes_eq : f.bytes count = fieldBytes (f.fields count) ++ [] := by
  have half (z : Nat) : leBytes 2 (BitVec.ofNat 16 z).toNat = leBytes 2 z := leBytes_ofNat 2 z
  have word (z : Nat) : wordBytes (BitVec.ofNat 32 z) = leBytes 4 z := (wordBytes_eq _).trans (leBytes_ofNat 4 z)
  have byte (z : Nat) : leBytes 1 z = [BitVec.ofNat 8 z] := rfl
  have six (z : BitVec 6) : z.setWidth 8 = BitVec.ofNat 8 z.toNat := (BitVec.ofNat_toNat ..).symm
  simp only [StatusFields.bytes, StatusFields.words, StatusFields.fields, fieldBytes, List.flatMap_cons,
    List.flatMap_nil, wordBytes_wordOf, wordBytes_halves, wordBytes_bytes_half, wordBytes_eq f.frame, word, half, six,
    byte, lockCode, List.append_assoc, List.cons_append, List.nil_append, List.append_nil]
  rfl

theorem StatusFields.fields_sizes : (f.fields count).map Prod.fst = statusSizes := rfl

theorem StatusFields.bytes_length : (f.bytes count).length = 64 := by
  rw [StatusFields.bytes_eq, List.append_nil, length_fieldBytes, StatusFields.fields_sizes]
  decide

section
variable {f count} (i : Nat) {off size z : Nat} {more : List (Nat × Nat)} (offset : (statusSizes.take i).sum = off)
include offset

theorem StatusFields.bytes_drop (field : (f.fields count).drop i = (size, z) :: more) :
    (f.bytes count).drop off = leBytes size z ++ (fieldBytes more ++ []) :=
  drop_at_field (f.bytes_eq count) (f.fields_sizes count) i offset field

/-- The `i`th field of the status block. -/
theorem StatusFields.bytes_field (field : (f.fields count).drop i = (size, z) :: more) :
    fieldAt (f.bytes count) off size = z % 256 ^ size :=
  fieldAt_of_drop (StatusFields.bytes_drop i offset field)

theorem StatusFields.bytes_small (field : (f.fields count).drop i = (size, z) :: more) (small : z < 256 ^ size) :
    fieldAt (f.bytes count) off size = z :=
  fieldAt_small (StatusFields.bytes_drop i offset field) small

end

/-- Bytes 26h to 3Bh are unused (R180, R186). -/
theorem StatusFields.bytes_unused {i : Nat} (low : 0x26 ≤ i) (high : i < 0x3C) : fieldAt (f.bytes count) i 1 = 0 :=
  fieldAt_of_zeros (n := 22) ((StatusFields.bytes_drop 24 (off := 0x26) (by decide) rfl).trans rfl) low high

end

/-! ## The event record (R185) -/

/-- The fields of an event record, each with its size in bytes (R185). -/
def EventRecord.sizedFields (r : EventRecord) : List (Nat × Nat) :=
  [ (1, r.event.fields.kind), (1, r.event.fields.reason), (1, r.event.fields.flags), (1, r.slot.getD 0xFF),
    (2, r.event.fields.subject), (2, r.stamp.toNat), (4, r.event.fields.a.toNat), (4, r.event.fields.b.toNat) ]

/-- The sizes of the fields of an event record. -/
def recordSizes : List Nat := [1, 1, 1, 1, 2, 2, 4, 4]

/-- The 16 bytes of an event record. -/
def EventRecord.bytes (r : EventRecord) : List Byte := r.words.flatMap wordBytes

theorem EventRecord.bytes_eq (r : EventRecord) : r.bytes = fieldBytes r.sizedFields ++ [] := by
  have half (z : Nat) : leBytes 2 (BitVec.ofNat 16 z).toNat = leBytes 2 z := leBytes_ofNat 2 z
  have byte (z : Nat) : leBytes 1 z = [BitVec.ofNat 8 z] := rfl
  simp only [EventRecord.bytes, EventRecord.words, EventRecord.sizedFields, fieldBytes, List.flatMap_cons,
    List.flatMap_nil, wordBytes_wordOf, wordBytes_halves, wordBytes_eq r.event.fields.a,
    wordBytes_eq r.event.fields.b, half, byte, List.append_assoc, List.cons_append, List.nil_append, List.append_nil]

theorem EventRecord.bytes_length (r : EventRecord) : r.bytes.length = 16 := by
  rw [EventRecord.bytes_eq, List.append_nil, length_fieldBytes]
  rfl

/-- The `i`th field of an event record. -/
theorem EventRecord.bytes_field {r : EventRecord} (i : Nat) {off size z : Nat} {more : List (Nat × Nat)}
    (offset : (recordSizes.take i).sum = off) (field : r.sizedFields.drop i = (size, z) :: more) :
    fieldAt r.bytes off size = z % 256 ^ size :=
  fieldAt_of_drop (drop_at_field r.bytes_eq rfl i offset field)

/-- What the 16 bytes of an event's record hold (R185). -/
def EventRecord.holds (r : EventRecord) (kind reason flags subject a b : Nat) : Prop :=
  r.bytes.length = 16
    ∧ fieldAt r.bytes 0 1 = kind ∧ fieldAt r.bytes 1 1 = reason % 2 ^ 8 ∧ fieldAt r.bytes 2 1 = flags
    ∧ fieldAt r.bytes 3 1 = r.slot.getD 0xFF % 2 ^ 8 ∧ fieldAt r.bytes 4 2 = subject % 2 ^ 16
    ∧ fieldAt r.bytes 6 2 = r.stamp.toNat ∧ fieldAt r.bytes 8 4 = a % 2 ^ 32 ∧ fieldAt r.bytes 12 4 = b % 2 ^ 32

/-- The bytes of a record hold what its event puts into it: a kind, a reason, up to 8 flags, a subject and two words. -/
theorem EventRecord.holds_of_fields {r : EventRecord} {kind reason flags subject a b : Nat} {wordA wordB : Word}
    (l : List Bool) (fields : r.event.fields = ⟨kind, reason, flagsOf l, subject, wordA, wordB⟩)
    (isA : wordA.toNat = a % 2 ^ 32) (isB : wordB.toNat = b % 2 ^ 32) (sum : flagsOf l = flags)
    (kindSmall : kind < 256 := by decide) (short : l.length ≤ 8 := by simp) :
    r.holds kind reason flags subject a b := by
  have laid : r.sizedFields =
      [ (1, kind), (1, reason), (1, flagsOf l), (1, r.slot.getD 0xFF), (2, subject), (2, r.stamp.toNat),
        (4, wordA.toNat), (4, wordB.toNat) ] := by
    simp only [EventRecord.sizedFields, fields]
  have field := @EventRecord.bytes_field r
  rw [laid] at field
  have byte {z : Nat} (small : z < 256) : z % 256 ^ 1 = z := Nat.mod_eq_of_lt small
  have word (w : Word) : w.toNat % 256 ^ 4 = w.toNat := Nat.mod_eq_of_lt w.isLt
  exact ⟨r.bytes_length, (field 0 rfl rfl).trans (byte kindSmall), field 1 rfl rfl,
    (field 2 rfl rfl).trans ((byte (flagsOf_lt_byte short)).trans sum), field 3 rfl rfl, field 4 rfl rfl,
    (field 5 rfl rfl).trans (Nat.mod_eq_of_lt r.stamp.isLt), (field 6 rfl rfl).trans ((word wordA).trans isA),
    (field 7 rfl rfl).trans ((word wordB).trans isB)⟩

theorem flagsOf_three (a b c : Bool) : flagsOf [a, b, c] = boolCode a + 2 * boolCode b + 4 * boolCode c := by
  simp only [flagsOf]
  omega

theorem flagsOf_five (a b c d e : Bool) :
    flagsOf [a, b, c, d, e] =
      boolCode a + 2 * boolCode b + 4 * boolCode c + 8 * boolCode d + 16 * boolCode e := by
  simp only [flagsOf]
  omega

end Sys2Proof.Machine

/-!
PROOF. O54, the Event Unit's own steps: what it presents, the ends of its rows, the status write after RSTN, and its
grants (R172, R174, R177 to R179).
-/

namespace Sys2Proof.Machine

variable {s t : State}

/-! ## What the Event Unit presents (R178) -/

theorem EventUnit.present_record {u : EventUnit} (free : u.presented = none) (waits : u.records ≠ [])
    (turn : u.statusPending = false ∨ u.lastWasRecord = false) : u.present = { u with presented := some .record } := by
  have turn : ¬ (u.statusPending = true ∧ u.lastWasRecord = true) := by
    rintro ⟨pending, last⟩
    simp [pending, last] at turn
  exact if_pos ⟨free, waits, turn⟩

/-- Nothing new is presented while something is, without a record, and at the turn of a status write. -/
theorem EventUnit.present_same {u : EventUnit}
    (h : u.presented ≠ none ∨ u.records = [] ∨ (u.statusPending = true ∧ u.lastWasRecord = true)) : u.present = u := by
  refine if_neg ?_
  rintro ⟨free, waits, turn⟩
  rcases h with h | h | h
  · exact h free
  · exact waits h
  · exact turn h

theorem EventUnit.statusTurn_iff (u : EventUnit) :
    u.statusTurn = true ↔ u.presented = none ∧ u.statusPending = true ∧ (u.records = [] ∨ u.lastWasRecord = true) := by
  simp [EventUnit.statusTurn, and_assoc]

theorem State.irqnLow_iff (s : State) : s.irqnLow = true ↔ s.events.p ≠ s.events.c := bne_iff_ne

theorem State.closed_same (same : s.events.present = s.events) : s.closed = s := by
  simp [State.closed, State.onEvents, same]

/-! ## The ends of the Event Unit's own rows (R174, R177, R179) -/

/-- A quiet status write leaves the flag of the write after RSTN, which is clear already. -/
theorem State.presentStatus_shown (shown : s.events.firstWrite = false) : s.presentStatus =
    { s with events :=
      { s.events with
        count := s.events.count + 1, statusPending := false
        presented := some (.statusFirst (s.status.words (s.events.count + 1))) } } := by
  simp [State.presentStatus, State.onEvents, shown]

theorem exec_statusWrite_turn (settled : s.Settled) (turn : s.events.statusTurn = true) :
    exec .statusWrite s = .next s.presentStatus := by
  refine (State.event_settled settled _).trans ?_
  have taken : s.presentStatus.events.present = s.presentStatus.events :=
    EventUnit.present_same (.inl (Option.some_ne_none _))
  rw [if_pos turn, State.endStep_of_status (s := s) (t := s.presentStatus) rfl, State.closed_same taken]

theorem exec_statusWrite_idle (settled : s.Settled) (idle : s.events.statusPending = false) :
    exec .statusWrite s = .next s.closed := by
  refine (State.event_settled settled _).trans ?_
  rw [if_neg (by simp [EventUnit.statusTurn_iff, idle]), State.endStep_of_status rfl]

theorem exec_eventRecordWriteEnd (settled : s.Settled) (busy : s.bridge.busy = some .eventRecord) :
    exec .eventRecordWriteEnd s = .next (s.free.onEvents EventUnit.recordWritten).closed := by
  refine (State.event_settled settled _).trans ?_
  rw [State.atEnd_busy busy, State.endStep_of_pending rfl]

/-! ## The status write after RSTN (R172) -/

theorem State.begin_presentStatus (first : s.events.firstWrite = true) : s.presentStatus.begin = s.begin := by
  rw [State.begin_shown rfl]
  simp [State.begin, State.takeFirstWrite, first]

theorem State.live_presentStatus (high : s.rstnLow = false) (first : s.events.firstWrite = true) (f : State → State) :
    s.presentStatus.live f = s.live f := by
  have high' : s.presentStatus.rstnLow = false := high
  simp [State.live, high, high', State.begin_presentStatus first]

/-- The rows that start a command are steps of their own (R25, R29). -/
theorem commandRows_live : ∀ p ∈ commandRows, ∃ (test : Command → Bool) (run : Command → State → Verdict),
    ∀ s, exec p.1 s = s.live fun t => t.startHead test run := by
  simp only [commandRows, List.forall_mem_cons, List.not_mem_nil, false_implies, implies_true, and_true]
  and_intros
  all_goals exact ⟨_, _, fun _ => rfl⟩

/-- A request that is no burst of the bus stops (log entry 9). -/
theorem exec_not_wf {c : Instr} (bad : c.wf = false) (s : State) : exec c s = .fault .notABurst := by
  cases c with
  | controllerRequest r => exact if_neg (Bool.eq_false_iff.mp bad)
  | _ => nomatch bad

/-- Two states that take each effect alike, and in which a head is due or not alike, answer the same to every row but
RSTN's. -/
theorem exec_congr (c : Instr) (live : ∀ f, t.live f = s.live f) (due : t.headDue = s.headDue)
    (noAssert : c ≠ .rstnAssert) (noRelease : ∀ msz level, c ≠ .rstnRelease msz level) : exec c t = exec c s := by
  by_cases command : ∃ p ∈ commandRows, p.1 = c
  · obtain ⟨p, mem, rfl⟩ := command
    obtain ⟨test, run, row⟩ := commandRows_live p mem
    rw [row, row, live]
  · cases wf : c.wf with
    | false => rw [exec_not_wf wf, exec_not_wf wf]
    | true =>
      obtain ⟨own, event⟩ := exec_event c wf noAssert noRelease fun p mem same => command ⟨p, mem, same⟩
      simp only [event, State.event, State.afterStart, due, live]

/-- Every row but RSTN's finds the status write after RSTN presented (R172). -/
theorem exec_presentStatus (c : Instr) (high : s.rstnLow = false) (first : s.events.firstWrite = true)
    (noAssert : c ≠ .rstnAssert) (noRelease : ∀ msz level, c ≠ .rstnRelease msz level) :
    exec c s.presentStatus = exec c s :=
  exec_congr c (State.live_presentStatus high first) rfl noAssert noRelease

/-! ## The grants (R177, R178, R186) -/

theorem State.choosePresented_record (free : s.events.presented = none) (waits : s.events.records ≠ [])
    (turn : s.events.statusPending = false ∨ s.events.lastWasRecord = false) :
    s.choosePresented = { s with events := { s.events with presented := some .record } } := by
  simp [State.choosePresented, State.onEvents, EventUnit.present_record free waits turn]

theorem State.choosePresented_status (turn : s.events.statusTurn = true) : s.choosePresented = s.presentStatus := by
  obtain ⟨free, pending, waits⟩ := (EventUnit.statusTurn_iff _).mp turn
  have same : s.events.present = s.events := EventUnit.present_same (.inr (waits.imp_right fun last => ⟨pending, last⟩))
  simp [State.choosePresented, State.onEvents, same, free, pending]

theorem State.choosePresented_none (records : s.events.records = []) (idle : s.events.statusPending = false) :
    s.choosePresented = s := by
  simp [State.choosePresented, State.onEvents, EventUnit.present_same (.inr (.inl records)), idle]

/-- A grant is that of the state in which its burst has been presented (R178). -/
theorem State.grantEvent_of_chosen (chosen : s.choosePresented = t) (presented : t.events.presented ≠ none) :
    s.grantEvent = t.grantEvent := by
  obtain ⟨b, hb⟩ := Option.ne_none_iff_exists'.mp presented
  unfold State.grantEvent
  rw [State.choosePresented_of_presented hb, chosen]

theorem State.grantEvent_none (free : s.events.presented = none) (records : s.events.records = [])
    (idle : s.events.statusPending = false) : s.grantEvent = s := by
  simp [State.grantEvent, State.choosePresented_none records idle, free]

section
variable {words : List Word}

/-- The state in which the words of the first burst of a status write are stored, but for the consumer word, whose
place is left alone (R177, R186). -/
def State.firstBurstWritten (s : State) (words : List Word) : State :=
  (s.writeWords (s.cmdw + 0xC00) (words.take 1)).writeWords (s.cmdw + 0xC00 + 8) ((words.drop 2).take 6)

theorem State.grantEvent_statusFirst (presented : s.events.presented = some (.statusFirst words)) :
    s.grantEvent = (s.firstBurstWritten words).onEvents fun u =>
      { u with presented := some (.statusSecond (words.drop 8)) } := by
  simp only [State.grantEvent, State.choosePresented_of_presented presented, presented]
  rfl

theorem State.grantEvent_statusSecond (presented : s.events.presented = some (.statusSecond words)) :
    s.grantEvent = (s.writeWords (s.cmdw + 0xC20) words).onEvents fun u =>
      { u with presented := none, lastWasRecord := false } := by
  simp only [State.grantEvent, State.choosePresented_of_presented presented, presented]

theorem State.onEvents_readByte (s : State) (f : EventUnit → EventUnit) (x : Nat) :
    (s.onEvents f).readByte x = s.readByte x := rfl

theorem State.onEvents_readWord (s : State) (f : EventUnit → EventUnit) (x : Nat) :
    (s.onEvents f).readWord x = s.readWord x := rfl

/-- A word apart from the words stored is left as it was. -/
theorem State.readWord_writeWords_other (s : State) (a x : Nat) (ws : List Word) (law : s.mem.wf = true)
    (apart : ∀ j < 4, ∀ i < 4 * ws.length, (x + j) % s.bridge.memSize ≠ (a + i) % s.bridge.memSize) :
    (s.writeWords a ws).readWord x = s.readWord x := by
  have byte (j : Nat) (hj : j < 4) : (s.writeWords a ws).readByte (x + j) = s.readByte (x + j) :=
    State.readByte_writeWords_other s a (x + j) ws law (apart j hj)
  rw [State.readWord, State.readWord, byte 1 (by decide), byte 2 (by decide), byte 3 (by decide), ← Nat.add_zero x,
    byte 0 (by decide)]

theorem State.firstBurstWritten_frame (s : State) (words : List Word) :
    State.sameBut [.mem] s (s.firstBurstWritten words) :=
  (State.writeWords_frame _ _ _).and_then (State.writeWords_frame _ _ _) (by simp)

section
variable (law : s.mem.wf = true) (size : 64 ≤ s.bridge.memSize) (length : words.length = 16)
include law length

theorem State.firstBurstWritten_readByte {x : Nat} (apart : ∀ i, i < 32 → (i < 4 ∨ 8 ≤ i) →
      x % s.bridge.memSize ≠ (s.cmdw + 0xC00 + i) % s.bridge.memSize) :
    (s.firstBurstWritten words).readByte x = s.readByte x := by
  have bridge : (s.writeWords (s.cmdw + 0xC00) (words.take 1)).bridge = s.bridge :=
    State.writeWords_frame _ _ _ .bridge (by simp)
  rw [State.firstBurstWritten, State.readByte_writeWords_other _ _ _ _ (State.writeWords_wf _ _ _ law),
    State.readByte_writeWords_other _ _ _ _ law]
  · intro i hi
    simp only [List.length_take, length] at hi
    exact apart i (by omega) (.inl (by omega))
  · intro i hi
    simp only [List.length_take, List.length_drop, length] at hi
    rw [bridge, Nat.add_assoc _ 8 i]
    exact apart (8 + i) (by omega) (.inr (by omega))

include size

theorem State.firstBurstWritten_readWord {k : Nat} {w : Word} (low : k < 8) (notConsumer : k ≠ 1)
    (at' : words[k]? = some w) : (s.firstBurstWritten words).readWord (s.cmdw + 0xC00 + 4 * k) = w := by
  have bridge : (s.writeWords (s.cmdw + 0xC00) (words.take 1)).bridge = s.bridge :=
    State.writeWords_frame _ _ _ .bridge (by simp)
  rw [State.firstBurstWritten]
  cases k with
  | zero =>
    rw [State.readWord_writeWords_other _ _ _ _ (State.writeWords_wf _ _ _ law)]
    · exact State.readWord_writeWords s _ _ law (by simp [length]; omega) 0 w (by simpa using at')
    · intro j hj i hi
      simp only [List.length_take, List.length_drop, length] at hi
      rw [bridge]
      exact mod_ne_of_near (by omega) (by omega)
  | succ k =>
    obtain ⟨k, rfl⟩ := Nat.exists_eq_succ_of_ne_zero (show k ≠ 0 by omega)
    have place : s.cmdw + 0xC00 + 4 * (k + 1 + 1) = s.cmdw + 0xC00 + 8 + 4 * k := by omega
    rw [place]
    refine State.readWord_writeWords _ _ _ (State.writeWords_wf _ _ _ law) ?_ k w ?_
    · rw [bridge]
      simp only [List.length_take, List.length_drop, length]
      omega
    · rw [List.getElem?_take_of_lt (by omega), List.getElem?_drop, Nat.add_comm 2 k]
      exact at'

end
end

end Sys2Proof.Machine

/-!
PROOF. O54, the obligation.
-/

namespace Sys2Proof.Machine

/-- Settles O54: the rows of the Event Unit and its grants by what is presented, each burst by the words it stores, and
the two layouts field by field. -/
theorem recordEndStepsPAndStatusIsPresented : Obligations.RecordEndStepsPAndStatusIsPresented := by
  refine ⟨⟨fun s settled busy => ?_, fun s settled => ⟨fun free pending waits => ?_, exec_statusWrite_idle settled⟩⟩,
    fun c s high first noAssert noRelease => (exec_presentStatus c high first noAssert noRelease).symm,
    fun s words law size => ⟨fun presented length => ?_, fun presented length => ?_⟩,
    fun s free => ⟨fun waits turn => ?_, fun pending waits => ?_, State.grantEvent_none free⟩,
    fun s count => ?_, fun stamp slot => ?_⟩
  -- The end of a record write (R174, R179).
  · refine ⟨_, exec_eventRecordWriteEnd settled busy, ?_, rfl, rfl, ?_⟩
    · exact (((s.onBridge_frame _).trans (State.onEvents_frame _ _)).trans (State.onEvents_frame _ _)).mono (by simp)
    · rw [State.irqnLow_iff, State.closed, State.onEvents_events, EventUnit.present_p, EventUnit.present_c]
      rfl
  -- A status write is presented (R177).
  · rw [exec_statusWrite_turn settled ((EventUnit.statusTurn_iff _).mpr ⟨free, pending, waits⟩),
      State.presentStatus_shown settled.shown]
  -- The two bursts of a status write (R177, R186).
  · have frame := s.firstBurstWritten_frame words
    rw [State.grantEvent_statusFirst presented]
    refine ⟨(frame.trans (State.onEvents_frame _ _)).mono (by simp), ?_, fun k w low notConsumer at' => ?_,
      fun x apart => ?_⟩
    · rw [State.onEvents_events, show (s.firstBurstWritten words).events = s.events from frame .events (by simp)]
    · rw [State.onEvents_readWord]
      exact State.firstBurstWritten_readWord law size length low notConsumer at'
    · rw [State.onEvents_readByte]
      exact State.firstBurstWritten_readByte law length apart
  · have frame := s.writeWords_frame (s.cmdw + 0xC20) words
    rw [State.grantEvent_statusSecond presented]
    refine ⟨(frame.trans (State.onEvents_frame _ _)).mono (by simp), ?_, fun k w at' => ?_, fun x apart => ?_⟩
    · rw [State.onEvents_events, show (s.writeWords (s.cmdw + 0xC20) words).events = s.events from
        frame .events (by simp)]
    · rw [State.onEvents_readWord]
      exact State.readWord_writeWords s _ words law (by omega) k w at'
    · rw [State.onEvents_readByte]
      exact State.readByte_writeWords_other s _ x words law fun i hi => apart i (by omega)
  -- A grant with nothing presented (R178).
  · exact State.grantEvent_of_chosen (State.choosePresented_record free waits turn) (Option.some_ne_none _)
  · exact State.grantEvent_of_chosen
      (State.choosePresented_status ((EventUnit.statusTurn_iff _).mpr ⟨free, pending, waits⟩)) (Option.some_ne_none _)
  -- The layout of the status block (R180, R186).
  · have field := @StatusFields.bytes_field s.status count
    have small := @StatusFields.bytes_small s.status count
    refine ⟨s.status.bytes_length count, small 0 rfl rfl count.isLt,
      small 3 rfl rfl (s.events.p.isLt.trans (by decide)), small 4 rfl rfl (s.events.c.isLt.trans (by decide)),
      (small 5 rfl rfl (flagsOf_lt_byte (by simp))).trans (flagsOf_three ..),
      small 7 rfl rfl (TakeoverState.code_lt _), small 8 rfl rfl (boolCode_lt _),
      (small 9 rfl rfl (lockCode_lt _)).trans ?_, small 10 rfl rfl (boolCode_lt _),
      small 11 rfl rfl (SeqState.code_lt _), small 12 rfl rfl (boolCode_lt _), field 13 rfl rfl,
      small 14 rfl rfl s.composer.frame.isLt, (small 15 rfl rfl (Bank.code_lt _)).trans ?_,
      small 16 rfl rfl ?_, small 17 rfl rfl (s.intake.code.isLt.trans (by decide)), field 19 rfl rfl,
      field 21 rfl rfl, field 22 rfl rfl, field 23 rfl rfl, small 31 rfl rfl count.isLt, field 1 rfl rfl,
      field 6 rfl rfl, field 18 rfl rfl, field 20 rfl rfl, field 32 rfl rfl,
      fun i low high => s.status.bytes_unused count low high⟩
    · show lockCode s.takeover.lockReason = _
      rcases s.takeover.lockReason with - | r
      · rfl
      · cases r <;> rfl
    · show s.composer.front.code = _
      cases s.composer.front <;> rfl
    · exact (Nat.sub_le 16 _).trans_lt (by decide)
  -- The layout of an event record, kind by kind (R173, R185).
  · have ofWord (w : Word) : w.toNat = w.toNat % 2 ^ 32 := (Nat.mod_eq_of_lt w.isLt).symm
    refine ⟨fun _ _ h w => EventRecord.holds_of_fields [] rfl (ofWord h) (ofWord w) rfl,
      fun _ h _ => EventRecord.holds_of_fields [] rfl (ofWord h) rfl rfl,
      fun _ _ _ => EventRecord.holds_of_fields [] rfl rfl rfl rfl,
      fun _ _ _ => EventRecord.holds_of_fields [] rfl rfl rfl rfl,
      fun _ tag _ => EventRecord.holds_of_fields [] rfl (ofWord tag) rfl rfl,
      fun _ _ abrupt _ _ => EventRecord.holds_of_fields [abrupt] rfl rfl rfl rfl,
      fun _ entered full _ _ => EventRecord.holds_of_fields [entered, full] rfl rfl rfl rfl,
      fun _ _ => EventRecord.holds_of_fields [] rfl rfl rfl rfl,
      fun _ _ buffer _ _ => EventRecord.holds_of_fields [buffer] rfl rfl rfl rfl,
      fun _ _ _ _ => EventRecord.holds_of_fields [] rfl rfl rfl rfl,
      fun _ _ first snapped _ _ => EventRecord.holds_of_fields [first, snapped] rfl rfl rfl rfl,
      fun _ _ _ => EventRecord.holds_of_fields [] rfl rfl rfl rfl,
      fun _ _ _ _ => EventRecord.holds_of_fields [] rfl rfl rfl rfl,
      fun _ _ back _ _ => EventRecord.holds_of_fields [back] rfl rfl rfl rfl,
      fun _ recovered changing paused _ _ _ =>
        EventRecord.holds_of_fields [recovered, changing, paused] rfl rfl rfl (flagsOf_three ..),
      fun _ relocated redone finished jumped again _ _ =>
        EventRecord.holds_of_fields [relocated, redone, finished, jumped, again] rfl rfl rfl (flagsOf_five ..),
      fun _ _ _ => EventRecord.holds_of_fields [] rfl rfl rfl rfl⟩

end Sys2Proof.Machine
